-- ==== Sys2Proof/Word.lean ====
section
/-! DEFINITION. The word types of the QRC block: bytes (GF(256) elements, buffer bytes), 32-bit bus and command words, and 18-bit bus addresses (00_scope.md rules R6, R7). -/

namespace Sys2Proof

/-- An 8-bit codeword, a GF(256) element or a buffer byte (R6). -/
abbrev Byte := BitVec 8

/-- A 32-bit bus data word, register value or command word (R6, R90). -/
abbrev Word := BitVec 32

/-- An 18-bit byte address of the host bus (R6, R70). -/
abbrev BusAddr := BitVec 18

end Sys2Proof
end

