-- ==== Sys2Proof/Config.lean ====
section
/-! DEFINITION. The open parameters of the QRC block (00_scope.md rule R6) that are not RAM contents. -/

namespace Sys2Proof

/-- The open parameter of R6 and D34. It is fixed for one block; the model carries it in the state,
where no step writes it (log 3), so that a claim about every state covers both readings. -/
structure Config where
  /-- `N3_OUTSIDE_LIGHT`: a position outside the symbol counts as light in the N3 penalty (R183). -/
  n3OutsideLight : Bool
  deriving DecidableEq, Repr

/-- The default the spec names: `N3_OUTSIDE_LIGHT = true` (R6). -/
def Config.default : Config := { n3OutsideLight := true }

end Sys2Proof
end

