-- ==== Sys2Proof/Machine/State.lean ====
section
/-! DEFINITION. The state of the QRC block and of its host (10_state.md), its value after power-on reset (rule R60), and the reasons a step can stop. -/

namespace Sys2Proof.Machine

/-- `STATUS.ERR` (60_exceptions.md R211). Codes 10-15 are never produced and have no constructor. -/
inductive ErrCode where
  | ok
  | eIllegal
  | eLen
  | eEcc
  | eDivZero
  | eUncorr
  | eVersion
  | eSeq
  | eCap
  | eXform
  deriving DecidableEq, Repr

/-- `STATUS.UNC`, the reason of an `EUNCORR` (R34); `none` is the value 0. -/
inductive UncReason where
  | none
  /-- 1: the degree test, `L > e/2`. -/
  | degree
  /-- 2: the Chien root count differs from L. -/
  | rootCount
  /-- 3: σ′ is zero at an error position. -/
  | derivative
  deriving DecidableEq, Repr

/-- The stored fields of the register file, each at its used width (R21, R23). `ID` is a constant
(R25), `CTRL.SRST` an action (R27) and `STATUS.BUSY` the presence of a pending command (R29): none of the
three is stored. -/
structure Regs where
  /-- `CTRL.IE` (R26). -/
  ie : Bool
  /-- `STATUS.DONE` (R30). -/
  done : Bool
  /-- `STATUS.ACCERR` (R31). -/
  accErr : Bool
  /-- `STATUS.CLEAN` (R32). -/
  clean : Bool
  /-- `STATUS.ERR` (R33). -/
  err : ErrCode
  /-- `STATUS.UNC` (R34). -/
  unc : UncReason
  /-- `CMD`: the last accepted command word (R35). -/
  cmd : Word
  /-- `OPA` (R36). -/
  opa : BitVec 8
  /-- `OPB` (R36). -/
  opb : BitVec 8
  /-- `RES` (R36). -/
  res : BitVec 8
  /-- `LEN_A` (R37). -/
  lenA : BitVec 9
  /-- `LEN_B` (R37). -/
  lenB : BitVec 9
  /-- `LEN_R` (R37). -/
  lenR : BitVec 10
  /-- `ECC_LEN` (R38). -/
  eccLen : BitVec 7
  /-- `RS_L` (R39). -/
  rsL : BitVec 7
  /-- `NROOTS` (R39). -/
  nroots : BitVec 9
  /-- `NERR` (R39). -/
  nerr : BitVec 9
  /-- `VERSION` (R40). -/
  version : BitVec 6
  /-- `ECLEVEL`, the ordinal L = 0, M = 1, Q = 2, H = 3 (R40). -/
  ecLevel : BitVec 2
  /-- `MASK` (R40). -/
  mask : BitVec 3
  /-- `MX_VER`: the version of the matrix held, 0 for none (R41). -/
  mxVer : BitVec 6
  /-- `NDATA` (R41). -/
  ndata : BitVec 15
  /-- `CW_LEN` (R41). -/
  cwLen : BitVec 12
  /-- `PEN_N1` (R42). -/
  penN1 : BitVec 32
  /-- `PEN_N2` (R42). -/
  penN2 : BitVec 32
  /-- `PEN_N3` (R42). -/
  penN3 : BitVec 32
  /-- `PEN_N4` (R42). -/
  penN4 : BitVec 32
  /-- `PEN_TOTAL` (R42). -/
  penTotal : BitVec 32
  /-- `FMT_WORD` (R42). -/
  fmtWord : BitVec 15
  /-- `PEN0`..`PEN7` (R42). -/
  pen : Vector (BitVec 32) 8
  /-- `XF_ROW` (R43). -/
  xfRow : BitVec 8
  /-- `XF_COL` (R43). -/
  xfCol : BitVec 8
  /-- `XF_PX`, two's complement (R43). -/
  xfPx : BitVec 32
  /-- `XF_PY`, two's complement (R43). -/
  xfPy : BitVec 32
  /-- `XF_A`..`XF_H`, index A = 0, …, H = 7: each the pair `{XF_k_HI, XF_k_LO}` (R43). -/
  xfCoef : Vector (BitVec 64) 8
  deriving DecidableEq, Repr

/-- Every register at the value in the reset column of R21 (R60). -/
def Regs.reset : Regs where
  ie := false
  done := false
  accErr := false
  clean := false
  err := .ok
  unc := .none
  cmd := 0#32
  opa := 0#8
  opb := 0#8
  res := 0#8
  lenA := 0#9
  lenB := 0#9
  lenR := 0#10
  eccLen := 0#7
  rsL := 0#7
  nroots := 0#9
  nerr := 0#9
  version := 0#6
  ecLevel := 0#2
  mask := 0#3
  mxVer := 0#6
  ndata := 0#15
  cwLen := 0#12
  penN1 := 0#32
  penN2 := 0#32
  penN3 := 0#32
  penN4 := 0#32
  penTotal := 0#32
  fmtWord := 0#15
  pen := Vector.replicate 8 0#32
  xfRow := 0#8
  xfCol := 0#8
  xfPx := 0#32
  xfPy := 0#32
  xfCoef := Vector.replicate 8 0#64

/-- RAM: the buffers and the matrix memory, a list of (bus address, byte) pairs in the canonical
form `Memory.wf` (10_state.md R46-R49; the matrix at its raw-view addresses, 20_memory.md R73). -/
abbrev Memory := List Host.Cell

/-- The width of a bus transaction: 1, 2 or 4 bytes (R70). -/
inductive BusWidth where
  | w8
  | w16
  | w32
  deriving DecidableEq, Repr

/-- A label of a host script (R101); `wait k` is the fresh label of the k-th `WAIT` (R102). -/
inductive Label where
  | named (name : String)
  | wait (k : Nat)
  deriving DecidableEq, Repr

/-- A statement of the host script (R101). A label is a statement of its own. -/
inductive Stmt where
  /-- `W32/W16/W8 addr, v`: `MemWrite(addr, n, v)`. -/
  | write (width : BusWidth) (addr : BusAddr) (v : Word)
  /-- `R32/R16/R8 addr`: `MemRead(addr, n)`, value discarded by the script. -/
  | read (width : BusWidth) (addr : BusAddr)
  /-- `EXPECT32/16/8 addr, v`: `MemRead(addr, n)`; the script asserts the value is v. -/
  | expect (width : BusWidth) (addr : BusAddr) (v : Word)
  /-- `IF32 addr, mask, v, label`: `MemRead(addr, 4)`; if `value & mask = v` go on at the label. -/
  | if32 (addr : BusAddr) (mask v : Word) (target : Label)
  /-- `JMP label`. -/
  | jmp (target : Label)
  /-- `label:`. -/
  | label (name : Label)
  deriving DecidableEq, Repr

/-- Who moves in one step of the interleaving (20_memory.md R82), as data (log 1). -/
inductive Turn where
  /-- The host performs the next statement of its script. -/
  | host
  /-- The engine performs the pending command, if there is one (R105). -/
  | engine
  /-- The reset input is asserted: power-on reset, after which RAM holds what the list gives
  (R20, R50, R240, log 6). -/
  | powerOn (ram : List Host.Cell)
  deriving DecidableEq, Repr

/-- The block (registers, pending command, RAM) and, as plain data, the host that drives it and the
interleaving of the two (10_state.md R20; INVENTORY.md lists every field). -/
structure State where
  /-- The open parameter `N3_OUTSIDE_LIGHT`; no step writes it (log 3). -/
  cfg : Config
  /-- The register file (R21). -/
  regs : Regs
  /-- The hidden `pending`: empty, or one accepted command word (R51). -/
  pending : Option Word
  /-- RAM (R46-R49). -/
  mem : Memory
  /-- The host's script (R101), pseudo-instructions expanded. -/
  script : List Stmt
  /-- The index of the host's next statement. -/
  pos : Nat
  /-- What the host's last bus read returned, zero-extended (log 4). -/
  readData : Word
  /-- Every `EXPECT` performed so far held (log 14). -/
  passed : Bool
  /-- Who moves next, in order; when it is empty the model's own order applies (log 1). -/
  turns : List Turn
  deriving DecidableEq, Repr

/-- The reasons a step could stop the machine. There is none: a command that fails completes with
an error code (60_exceptions.md R210, R223), and a bad bus access is performed as a defined no-op that sets
`ACCERR` (20_memory.md R81, U9). The type is empty, so "no step faults" holds by its form (log 8). -/
inductive Fault where
  deriving DecidableEq, Repr

/-- The reasons `exec` could give an instruction no meaning. -/
inductive Refusal where
  /-- Raised by an arm of `exec` whose instruction has no meaning yet; safe, since nothing can be
  proved of it. No arm of this model answers with it. -/
  | notModelled (mnemonic : String)
  deriving DecidableEq, Repr

/-- What one step of this machine answers. -/
abbrev Result := Host.Outcome State Fault Refusal

/-- The machine right after power-on reset, for any configuration and any RAM contents: registers
at their reset values, `pending` empty, RAM as given (R50, R60, R240), and a host with no script. -/
def State.powerOn (cfg : Config) (ram : Memory) : State where
  cfg := cfg
  regs := Regs.reset
  pending := none
  mem := ram
  script := []
  pos := 0
  readData := 0#32
  passed := true
  turns := []

/-- The machine right after power-on reset with the default parameter and RAM with nothing listed.
A claim about power-on should be stated of `State.powerOn cfg ram` for every `cfg` and `ram` (R50, log 2). -/
def State.reset : State := State.powerOn Config.default []

end Sys2Proof.Machine
end

