-- ==== Sys2Proof/Machine/Ops.lean ====
section
/-! DEFINITION. The named operations over memory, buffers, modules and the completion of commands: every meaning is written over these. -/

namespace Sys2Proof.Machine

/-! ### RAM -/

/-- What an address that is not listed reads as (DESIGN CHOICE, log 2: R50 leaves RAM after
power-on unspecified; other contents are listed, see `State.powerOn`). -/
def Memory.unlisted : Byte := 0#8

/-- The byte of RAM at an address. -/
def Memory.read : Memory → Nat → Byte
  | [], _ => Memory.unlisted
  | (b, v) :: rest, a => if b = a then v else Memory.read rest a

/-- List the byte `v` at `a` in front of `rest`, unless an unlisted address reads as `v`. -/
def Memory.emit (a : Nat) (v : Byte) (rest : Memory) : Memory :=
  if v = Memory.unlisted then rest else (a, v) :: rest

/-- Replace the byte at each of the `n` addresses from `a` on by `f` of the address and the byte;
the memory lists no address below `a`. -/
def Memory.rewrite (f : Nat → Byte → Byte) : (n a : Nat) → Memory → Memory
  | 0, _, m => m
  | n + 1, a, [] => Memory.emit a (f a Memory.unlisted) (Memory.rewrite f n (a + 1) [])
  | n + 1, a, (b, v) :: rest =>
    if b = a then Memory.emit a (f a v) (Memory.rewrite f n (a + 1) rest)
    else Memory.emit a (f a Memory.unlisted) (Memory.rewrite f n (a + 1) ((b, v) :: rest))

/-- Replace the byte at each address of `lo .. lo+n-1` by `f` of the address and the byte. The one
write operation of the model; it keeps the canonical form. -/
def Memory.update (lo n : Nat) (f : Nat → Byte → Byte) : Memory → Memory
  | [] => Memory.rewrite f n lo []
  | (b, v) :: rest =>
    if b < lo then (b, v) :: Memory.update lo n f rest
    else Memory.rewrite f n lo ((b, v) :: rest)

/-- Write one byte. -/
def Memory.write (m : Memory) (a : Nat) (v : Byte) : Memory :=
  Memory.update a 1 (fun _ _ => v) m

/-- Write the bytes of a list at `lo`, `lo+1`, …. -/
def Memory.store (m : Memory) (lo : Nat) (bytes : List Byte) : Memory :=
  Memory.update lo bytes.length (fun a old => bytes.getD (a - lo) old) m

/-- Every address that `p` picks reads as unlisted. -/
def Memory.clear (p : Nat → Bool) (m : Memory) : Memory := m.filter (fun cell => !p cell.1)

/-- The `n` bytes from `a` on; the memory lists no address below `a`. -/
def Memory.window : (n a : Nat) → Memory → List Byte
  | 0, _, _ => []
  | n + 1, a, [] => Memory.unlisted :: Memory.window n (a + 1) []
  | n + 1, a, (b, v) :: rest =>
    if b = a then v :: Memory.window n (a + 1) rest
    else Memory.unlisted :: Memory.window n (a + 1) ((b, v) :: rest)

/-- The `n` bytes of RAM at `lo .. lo+n-1`. -/
def Memory.bytes (m : Memory) (lo n : Nat) : List Byte :=
  Memory.window n lo (m.dropWhile (fun cell => cell.1 < lo))

/-- The canonical form from an address on: addresses strictly rising, none below `lo`, and no byte
listed that an unlisted address reads as. -/
def Memory.wfFrom : Nat → Memory → Bool
  | _, [] => true
  | lo, (a, v) :: rest => decide (lo ≤ a) && v != Memory.unlisted && Memory.wfFrom (a + 1) rest

/-- The canonical form of RAM: equal contents are equal lists. -/
def Memory.wf (m : Memory) : Bool := Memory.wfFrom 0 m

/-! ### Buffers -/

/-- The RAM buffers (10_state.md R46-R48). -/
inductive Buffer where
  | bufA
  | bufB
  | bufR
  | syn
  | sigma
  | omega
  | errpos
  | cw
  deriving DecidableEq, Repr

/-- The bus address of a buffer's byte 0 (20_memory.md R71). -/
def Buffer.base : Buffer → Nat
  | .bufA => 0x01000
  | .bufB => 0x01100
  | .bufR => 0x01200
  | .syn => 0x01400
  | .sigma => 0x01480
  | .omega => 0x01500
  | .errpos => 0x01600
  | .cw => 0x08000

/-- The size of a buffer in bytes (R46-R48). -/
def Buffer.size : Buffer → Nat
  | .bufA => 256
  | .bufB => 256
  | .bufR => 512
  | .syn => 128
  | .sigma => 128
  | .omega => 128
  | .errpos => 256
  | .cw => 4096

/-- The address lies in the buffer. -/
def Buffer.holds (b : Buffer) (addr : Nat) : Bool :=
  decide (b.base ≤ addr) && decide (addr < b.base + b.size)

/-- Every buffer. -/
def Buffer.all : List Buffer := [.bufA, .bufB, .bufR, .syn, .sigma, .omega, .errpos, .cw]

/-- Byte `i` of a buffer (00_scope.md R8, `A[i]`). -/
def State.buf (s : State) (b : Buffer) (i : Nat) : Byte := s.mem.read (b.base + i)

/-- Bytes `0 .. n-1` of a buffer. -/
def State.bufBytes (s : State) (b : Buffer) (n : Nat) : List Byte := s.mem.bytes b.base n

/-- Write bytes `0, 1, …` of a buffer; its other bytes are unchanged. -/
def State.setBuf (s : State) (b : Buffer) (bytes : List Byte) : State :=
  { s with mem := s.mem.store b.base bytes }

/-! ### Matrix memory -/

/-- The bus address of module (0, 0) in the raw view, where RAM holds the matrix (R73). -/
def matrixBase : Nat := 0x10000

/-- Rows and columns of the matrix memory, `DMAX` (R6, R49). -/
def dMax : Nat := 177

/-- Where RAM holds module (r, c): raw-view address `0x10000 + 256 r + c` (R73). -/
def moduleAddr (r c : Nat) : Nat := matrixBase + 256 * r + c

/-- The address is that of a backed module byte in the raw view (R73, R79). -/
def isModuleAddr (a : Nat) : Bool :=
  decide (matrixBase ≤ a) && decide ((a - matrixBase) / 256 < dMax) && decide ((a - matrixBase) % 256 < dMax)

/-- The address is one of a RAM byte: in a buffer, or a module byte (R46-R49). -/
def isRamAddr (a : Nat) : Bool := Buffer.all.any (fun b => b.holds a) || isModuleAddr a

/-- The module byte (r, c): bit 0 `COLOR`, bit 1 `NONDATA`, bit 2 `FIXED` (R52). -/
def State.moduleAt (s : State) (r c : Nat) : BitVec 3 := (s.mem.read (moduleAddr r c)).setWidth 3

/-- `COLOR`: the module is dark (R52). -/
def colorOf (m : BitVec 3) : Bool := m.getLsbD 0

/-- `NONDATA`: the module is not a data module (R52). -/
def nonData (m : BitVec 3) : Bool := m.getLsbD 1

/-- `FIXED`: a function-pattern module of known value (R52). -/
def isFixed (m : BitVec 3) : Bool := m.getLsbD 2

/-- The module with `COLOR` replaced and both flags kept. -/
def withColor (m : BitVec 3) (dark : Bool) : BitVec 3 :=
  m.extractLsb' 1 2 ++ BitVec.ofBool dark

/-- The byte RAM holds for a module: bits 7:3 are not stored (R52). -/
def moduleByte (m : BitVec 3) : Byte := m.setWidth 8

/-- `COLOR(r, c) <- dark`; the flags and every other byte are unchanged. -/
def State.setColor (s : State) (r c : Nat) (dark : Bool) : State :=
  { s with mem := s.mem.update (moduleAddr r c) 1 (fun _ old => moduleByte (withColor (old.setWidth 3) dark)) }

/-- Replace every module of the `d × d` square by `f` of its row, its column and its old value. -/
def State.mapModules (s : State) (d : Nat) (f : Nat → Nat → BitVec 3 → BitVec 3) : State :=
  { s with mem := s.mem.update matrixBase (256 * d) (fun a old =>
      if (a - matrixBase) % 256 < d then
        moduleByte (f ((a - matrixBase) / 256) ((a - matrixBase) % 256) (old.setWidth 3))
      else old) }

/-- Set every byte of the 177 × 177 matrix memory to 0 (43_matrix_layout.md R162). -/
def State.clearMatrix (s : State) : State := { s with mem := s.mem.clear isModuleAddr }

/-- Row `r` of the `d × d` square. -/
def State.moduleRow (s : State) (d r : Nat) : List (BitVec 3) :=
  (s.mem.bytes (moduleAddr r 0) d).map (fun v => v.setWidth 3)

/-- The `d × d` square, row by row. -/
def State.grid (s : State) (d : Nat) : List (List (BitVec 3)) :=
  (List.range d).map (fun r => s.moduleRow d r)

/-! ### Completion

The block takes no exception: a command ends by completing, and a failing one completes with an
error code (60_exceptions.md R210, R223). This is the one shared operation that ends every command. -/

/-- Completion with outcome code `c` and reason `u` (40_control.md R107). -/
def State.complete (s : State) (c : ErrCode) (u : UncReason) : State :=
  { s with pending := none, regs := { s.regs with done := true, err := c, unc := u } }

/-- The command ends with success (R107). -/
def succeed (s : State) : Result := .next (s.complete .ok .none)

/-- `raise E`: the command ends with error code `c`; the writes made before stay (00_scope.md R8,
60_exceptions.md R214). -/
def raise (s : State) (c : ErrCode) : Result := .next (s.complete c .none)

/-- `raise EUNCORR` with its reason (R34, R214). -/
def raiseUncorr (s : State) (u : UncReason) : Result := .next (s.complete .eUncorr u)

/-! ### Acceptance and resets -/

/-- Acceptance of a command word (40_control.md R106). -/
def State.accept (s : State) (w : Word) : State :=
  { s with pending := some w, regs := { s.regs with cmd := w, done := false } }

/-- Soft reset: `pending` empty and every register at its reset value, nothing else (R243). -/
def State.softReset (s : State) : State := { s with pending := none, regs := Regs.reset }

/-- Write a byte to RAM if the address is a RAM byte; a module byte stores its bits 2:0 only (R52). -/
def Memory.ramWrite (m : Memory) (a : Nat) (v : Byte) : Memory :=
  if isModuleAddr a then m.write a (moduleByte (v.setWidth 3))
  else if isRamAddr a then m.write a v
  else m

/-- RAM holding the bytes a list of cells gives, 0 elsewhere: arbitrary RAM contents as data. -/
def Memory.ofCells (cells : List Host.Cell) : Memory :=
  cells.foldl (fun m cell => m.ramWrite cell.1 cell.2) []

/-- Power-on reset by the reset input: registers at reset, `pending` empty, and RAM, which R50
leaves unspecified, holding whatever `cells` gives (R240, log 6). -/
def State.powerOnReset (s : State) (cells : List Host.Cell) : State :=
  { s with pending := none, regs := Regs.reset, mem := Memory.ofCells cells }

/-- An access error sets the sticky `ACCERR` and does nothing else (20_memory.md R81). -/
def State.accessError (s : State) : State := { s with regs := { s.regs with accErr := true } }

end Sys2Proof.Machine
end

