-- ==== Sys2Proof/Machine/Flags.lean ====
section
/-! DEFINITION. The status fields: codes, the `STATUS` word, its write-one-to-clear bits, and the interrupt output (10_state.md R28-R34, 60_exceptions.md R211, R220). -/

namespace Sys2Proof.Machine

/-- The 4-bit code of `STATUS.ERR` (R211). -/
def ErrCode.code : ErrCode → BitVec 4
  | .ok => 0#4
  | .eIllegal => 1#4
  | .eLen => 2#4
  | .eEcc => 3#4
  | .eDivZero => 4#4
  | .eUncorr => 5#4
  | .eVersion => 6#4
  | .eSeq => 7#4
  | .eCap => 8#4
  | .eXform => 9#4

/-- The 2-bit code of `STATUS.UNC` (R34). -/
def UncReason.code : UncReason → BitVec 2
  | .none => 0#2
  | .degree => 1#2
  | .rootCount => 2#2
  | .derivative => 3#2

/-- `STATUS.BUSY`: a command is pending (R29, R51). -/
def State.busy (s : State) : Bool := s.pending.isSome

/-- The `STATUS` register as a word: `UNC` 9:8, `ERR` 7:4, `CLEAN` 3, `ACCERR` 2, `DONE` 1, `BUSY` 0 (R28). -/
def State.statusWord (s : State) : Word :=
  0#22 ++ s.regs.unc.code ++ s.regs.err.code ++ BitVec.ofBool s.regs.clean ++
    BitVec.ofBool s.regs.accErr ++ BitVec.ofBool s.regs.done ++ BitVec.ofBool s.busy

/-- A host write of `v` to `STATUS`: bit 1 clears `DONE`, bit 2 clears `ACCERR`, nothing else (R28). -/
def Regs.clearStatus (g : Regs) (v : Word) : Regs :=
  { g with done := g.done && !v.getLsbD 1, accErr := g.accErr && !v.getLsbD 2 }

/-- The interrupt output `IRQ = DONE ∧ IE`, a level signal (R220). -/
def State.irq (s : State) : Bool := s.regs.done && s.regs.ie

/-- `STATUS.CLEAN` of a list of syndromes: every syndrome is zero (R32). -/
def allZero (bytes : List Byte) : Bool := bytes.all (fun b => b == 0#8)

end Sys2Proof.Machine
end

