-- ==== Sys2Proof/Machine/Field.lean ====
section
/-! DEFINITION. GF(256): the `EXP` and `LOG` tables, multiplication and division, and polynomials over the field (41_gf_arith.md rules R115-R124). -/

namespace Sys2Proof.Machine

/-! ### Tables -/

/-- `EXP[0..255]`, 16 entries a row (95_test_vectors.md §2.1, checked against the recurrence of R116 in Laws/Field.lean). -/
def expRows : List (List Nat) :=
  [ [1, 2, 4, 8, 16, 32, 64, 128, 29, 58, 116, 232, 205, 135, 19, 38],
    [76, 152, 45, 90, 180, 117, 234, 201, 143, 3, 6, 12, 24, 48, 96, 192],
    [157, 39, 78, 156, 37, 74, 148, 53, 106, 212, 181, 119, 238, 193, 159, 35],
    [70, 140, 5, 10, 20, 40, 80, 160, 93, 186, 105, 210, 185, 111, 222, 161],
    [95, 190, 97, 194, 153, 47, 94, 188, 101, 202, 137, 15, 30, 60, 120, 240],
    [253, 231, 211, 187, 107, 214, 177, 127, 254, 225, 223, 163, 91, 182, 113, 226],
    [217, 175, 67, 134, 17, 34, 68, 136, 13, 26, 52, 104, 208, 189, 103, 206],
    [129, 31, 62, 124, 248, 237, 199, 147, 59, 118, 236, 197, 151, 51, 102, 204],
    [133, 23, 46, 92, 184, 109, 218, 169, 79, 158, 33, 66, 132, 21, 42, 84],
    [168, 77, 154, 41, 82, 164, 85, 170, 73, 146, 57, 114, 228, 213, 183, 115],
    [230, 209, 191, 99, 198, 145, 63, 126, 252, 229, 215, 179, 123, 246, 241, 255],
    [227, 219, 171, 75, 150, 49, 98, 196, 149, 55, 110, 220, 165, 87, 174, 65],
    [130, 25, 50, 100, 200, 141, 7, 14, 28, 56, 112, 224, 221, 167, 83, 166],
    [81, 162, 89, 178, 121, 242, 249, 239, 195, 155, 43, 86, 172, 69, 138, 9],
    [18, 36, 72, 144, 61, 122, 244, 245, 247, 243, 251, 235, 203, 139, 11, 22],
    [44, 88, 176, 125, 250, 233, 207, 131, 27, 54, 108, 216, 173, 71, 142, 1] ]

/-- `LOG[0..255]`, 16 entries a row; `LOG[0] = 0` (R117). -/
def logRows : List (List Nat) :=
  [ [0, 0, 1, 25, 2, 50, 26, 198, 3, 223, 51, 238, 27, 104, 199, 75],
    [4, 100, 224, 14, 52, 141, 239, 129, 28, 193, 105, 248, 200, 8, 76, 113],
    [5, 138, 101, 47, 225, 36, 15, 33, 53, 147, 142, 218, 240, 18, 130, 69],
    [29, 181, 194, 125, 106, 39, 249, 185, 201, 154, 9, 120, 77, 228, 114, 166],
    [6, 191, 139, 98, 102, 221, 48, 253, 226, 152, 37, 179, 16, 145, 34, 136],
    [54, 208, 148, 206, 143, 150, 219, 189, 241, 210, 19, 92, 131, 56, 70, 64],
    [30, 66, 182, 163, 195, 72, 126, 110, 107, 58, 40, 84, 250, 133, 186, 61],
    [202, 94, 155, 159, 10, 21, 121, 43, 78, 212, 229, 172, 115, 243, 167, 87],
    [7, 112, 192, 247, 140, 128, 99, 13, 103, 74, 222, 237, 49, 197, 254, 24],
    [227, 165, 153, 119, 38, 184, 180, 124, 17, 68, 146, 217, 35, 32, 137, 46],
    [55, 63, 209, 91, 149, 188, 207, 205, 144, 135, 151, 178, 220, 252, 190, 97],
    [242, 86, 211, 171, 20, 42, 93, 158, 132, 60, 57, 83, 71, 109, 65, 162],
    [31, 45, 67, 216, 183, 123, 164, 118, 196, 23, 73, 236, 127, 12, 111, 246],
    [108, 161, 59, 82, 41, 157, 85, 170, 251, 96, 134, 177, 187, 204, 62, 90],
    [203, 89, 95, 176, 156, 169, 160, 81, 11, 245, 22, 235, 122, 117, 44, 215],
    [79, 174, 213, 233, 230, 231, 173, 232, 116, 214, 244, 234, 168, 80, 88, 175] ]

/-- Entry `i` of a table kept 16 entries a row. -/
def rowEntry (rows : List (List Nat)) (i : Nat) : Nat := (rows.getD (i / 16) []).getD (i % 16) 0

/-- `EXP[i] = α^(i mod 255)` (R116). -/
def gfExp (i : Nat) : Byte := BitVec.ofNat 8 (rowEntry expRows (i % 255))

/-- `LOG[a]` (R117). -/
def gfLog (a : Byte) : Nat := rowEntry logRows a.toNat

/-- One step of the recurrence of R116: multiplication by α, reduced by 0x11D. -/
def alphaStep (v : Byte) : Byte := if v.getLsbD 7 then (v <<< 1) ^^^ 0x1D#8 else v <<< 1

/-! ### Field operations -/

/-- `a ⊗ b` with the zero short-circuit (R118). -/
def gfMul (a b : Byte) : Byte :=
  if a = 0#8 ∨ b = 0#8 then 0#8 else gfExp (gfLog a + gfLog b)

/-- `a ⊘ b` for `b ≠ 0`; every command that divides checks its divisor first (R119). -/
def gfDiv (a b : Byte) : Byte :=
  if a = 0#8 then 0#8 else gfExp (gfLog a + 255 - gfLog b)

/-- `⊕` of a list (R115). -/
def gfSum : List Byte → Byte
  | [] => 0#8
  | x :: xs => x ^^^ gfSum xs

/-- `⊕` of `f i` for `i = 0 .. n-1`. -/
def gfSumRange (n : Nat) (f : Nat → Byte) : Byte := gfSum ((List.range n).map f)

/-- `z^k` with `z^0 = 1` and `z^(k+1) = z^k ⊗ z` (42_rs_codec.md). -/
def gfPow (z : Byte) : Nat → Byte
  | 0 => 1#8
  | k + 1 => gfMul (gfPow z k) z

/-! ### Polynomials -/

/-- Add `xs` coefficient by coefficient onto the start of `ys`; what is left of `ys` stays. -/
def addOnto : List Byte → List Byte → List Byte
  | [], ys => ys
  | _ :: _, [] => []
  | x :: xs, y :: ys => (x ^^^ y) :: addOnto xs ys

/-- The product of two coefficient arrays, `la + lb - 1` coefficients: `result[i+j]` accumulates
`A[i] ⊗ B[j]` (R123). -/
def polyMul : List Byte → List Byte → List Byte
  | [], b => List.replicate (b.length - 1) 0#8
  | x :: xs, b => addOnto (b.map (gfMul x)) (0#8 :: polyMul xs b)

/-- The long-division loop of R124: `lq` quotient digits, and what is left of the working copy. -/
def polyDivLoop (divisor : List Byte) : (lq : Nat) → (work : List Byte) → List Byte × List Byte
  | 0, work => ([], work)
  | _ + 1, [] => ([], [])
  | lq + 1, w :: work =>
    let q := gfDiv w (divisor.headD 0#8)
    let next := addOnto (divisor.tail.map (gfMul q)) work
    let rest := polyDivLoop divisor lq next
    (q :: rest.1, rest.2)

/-- What `POLY_DIV` writes to `R`: the quotient, then `lb - 1` remainder coefficients (R124). -/
def polyDivResult (dividend divisor : List Byte) : List Byte :=
  let la := dividend.length
  let lb := divisor.length
  if lb ≤ la then
    let qr := polyDivLoop divisor (la - lb + 1) dividend
    qr.1 ++ qr.2
  else List.replicate (lb - 1 - la) 0#8 ++ dividend

/-- The value at `z` of a polynomial given ascending: `⊕ c[k] ⊗ z^k`, `zk` being the power reached. -/
def evalFrom (z : Byte) : (zk : Byte) → List Byte → Byte
  | _, [] => 0#8
  | zk, c :: cs => gfMul c zk ^^^ evalFrom z (gfMul zk z) cs

/-- The value at `z` of a polynomial given ascending (R141, R144). -/
def evalAsc (cs : List Byte) (z : Byte) : Byte := evalFrom z 1#8 cs

end Sys2Proof.Machine
end

