-- ==== Sys2Proof/Machine/Tables.lean ====
section
/-! DEFINITION. The read-only tables `GEN`, `FMT`, `VER` and `ALIGN`, and the byte each table address reads as (10_state.md rules R54-R59). -/

namespace Sys2Proof.Machine

/-! ### Generator polynomials -/

/-- The 31 valid ECC lengths (R6, 42_rs_codec.md R130). -/
def genset : List Nat :=
  [7, 10, 13, 15, 16, 17, 18, 20, 22, 24, 26, 28, 30, 32, 34, 36, 40, 42, 44, 46, 48,
    50, 52, 54, 56, 58, 60, 62, 64, 66, 68]

/-- `g_e(x) = Π_(j<e) (x ⊕ α^j)`, descending (R131). -/
def genPoly : Nat → List Byte
  | 0 => [1#8]
  | e + 1 => polyMul (genPoly e) [1#8, gfExp e]

/-- The byte at offset `128 e + j` of `GEN`: the coefficient of `x^(e-j)` for `e ∈ GENSET`, `j ≤ e`, else 0 (R56). -/
def genByte (off : Nat) : Byte :=
  if genset.contains (off / 128) && decide (off % 128 ≤ off / 128) then
    (genPoly (off / 128)).getD (off % 128) 0#8
  else 0#8

/-! ### Format and version codewords -/

/-- Reduce `v` by the generator `g` of degree `deg` over GF(2), from bit `deg + k - 1` down to bit `deg`. -/
def bchReduce (g deg : Nat) : (k v : Nat) → Nat
  | 0, v => v
  | k + 1, v => bchReduce g deg k (if v.testBit (deg + k) then v ^^^ (g <<< k) else v)

/-- `FMT[d]`: 5 data bits and the remainder of `d(x) x^10` by 0x537 (R190). -/
def fmtCode (d : Nat) : BitVec 15 := BitVec.ofNat 15 (d * 2 ^ 10 + bchReduce 0x537 10 5 (d * 2 ^ 10))

/-- `VER[v]` for v = 7..40: 6 data bits and the remainder of `v(x) x^12` by 0x1F25; 0 for v = 0..6 (R58, R192). -/
def verCode (v : Nat) : BitVec 18 :=
  if v < 7 then 0#18 else BitVec.ofNat 18 (v * 2 ^ 12 + bchReduce 0x1F25 12 6 (v * 2 ^ 12))

/-! ### Alignment coordinates -/

/-- The lists of R166 for versions 1..20. -/
def alignLow : List (List Nat) :=
  [ [],
    [6, 18],
    [6, 22],
    [6, 26],
    [6, 30],
    [6, 34],
    [6, 22, 38],
    [6, 24, 42],
    [6, 26, 46],
    [6, 28, 50],
    [6, 30, 54],
    [6, 32, 58],
    [6, 34, 62],
    [6, 26, 46, 66],
    [6, 26, 48, 70],
    [6, 26, 50, 74],
    [6, 30, 54, 78],
    [6, 30, 56, 82],
    [6, 30, 58, 86],
    [6, 34, 62, 90] ]

/-- The lists of R166 for versions 21..40. -/
def alignHigh : List (List Nat) :=
  [ [6, 28, 50, 72, 94],
    [6, 26, 50, 74, 98],
    [6, 30, 54, 78, 102],
    [6, 28, 54, 80, 106],
    [6, 32, 58, 84, 110],
    [6, 30, 58, 86, 114],
    [6, 34, 62, 90, 118],
    [6, 26, 50, 74, 98, 122],
    [6, 30, 54, 78, 102, 126],
    [6, 26, 52, 78, 104, 130],
    [6, 30, 56, 82, 108, 134],
    [6, 34, 60, 86, 112, 138],
    [6, 30, 58, 86, 114, 142],
    [6, 34, 62, 90, 118, 146],
    [6, 30, 54, 78, 102, 126, 150],
    [6, 24, 50, 76, 102, 128, 154],
    [6, 28, 54, 80, 106, 132, 158],
    [6, 32, 58, 84, 110, 136, 162],
    [6, 26, 54, 82, 110, 138, 166],
    [6, 30, 58, 86, 114, 142, 170] ]

/-- `ALIGN[v]`, ascending; empty for v = 0 and v = 1 (R59, R166). -/
def alignCoords (v : Nat) : List Nat :=
  if v = 0 then [] else (alignLow ++ alignHigh).getD (v - 1) []

/-! ### The tables as the bus sees them -/

/-- Byte `k` of a little-endian word (20_memory.md R74). -/
def byteOfWord (w : Word) (k : Nat) : Byte := w.extractLsb' (8 * k) 8

/-- The constant byte of a read-only table at a bus address, `none` where no table lies (R71, R77).
DESIGN CHOICE (log 20): R59's formula `0x05600 + 8 v + j` puts entry 40 of `ALIGN` at 0x05740..0x05747, past the
range 0x05600..0x0573F that R59 and R71 give the table; the range is followed, so the host reads entries 0..39
and the addresses of entry 40 are unmapped (R78). `MX_BASE` reads entry 40 directly (R89). -/
def romByte (a : Nat) : Option Byte :=
  if 0x02000 ≤ a ∧ a < 0x02200 then some (gfExp (a - 0x02000))
  else if 0x02200 ≤ a ∧ a < 0x02300 then some (BitVec.ofNat 8 (gfLog (BitVec.ofNat 8 (a - 0x02200))))
  else if 0x03000 ≤ a ∧ a < 0x05280 then some (genByte (a - 0x03000))
  else if 0x05400 ≤ a ∧ a < 0x05480 then
    some (byteOfWord ((fmtCode ((a - 0x05400) / 4)).setWidth 32) ((a - 0x05400) % 4))
  else if 0x05500 ≤ a ∧ a < 0x055A4 then
    some (byteOfWord ((verCode ((a - 0x05500) / 4)).setWidth 32) ((a - 0x05500) % 4))
  else if 0x05600 ≤ a ∧ a < 0x05740 then
    some (BitVec.ofNat 8 ((alignCoords ((a - 0x05600) / 8)).getD ((a - 0x05600) % 8) 0))
  else none

end Sys2Proof.Machine
end

