-- ==== Sys2Proof/Machine/Operands.lean ====
section
/-! DEFINITION. The implicit operands of the commands and their range checks (30_encoding.md R92, R93, R99). -/

namespace Sys2Proof.Machine

/-- A polynomial length is in 1..256 (41_gf_arith.md R122). -/
def polyLenOk (n : Nat) : Bool := decide (1 ≤ n) && decide (n ≤ 256)

/-- `LEN_A` as a number. -/
def State.la (s : State) : Nat := s.regs.lenA.toNat

/-- `LEN_B` as a number. -/
def State.lb (s : State) : Nat := s.regs.lenB.toNat

/-- `ECC_LEN` as a number. -/
def State.ecc (s : State) : Nat := s.regs.eccLen.toNat

/-- `A[0..LEN_A-1]` (R37). -/
def State.opA (s : State) : List Byte := s.bufBytes .bufA s.la

/-- `B[0..LEN_B-1]` (R37). -/
def State.opB (s : State) : List Byte := s.bufBytes .bufB s.lb

/-- `e ∈ GENSET` (42_rs_codec.md R130). -/
def eccValid (e : Nat) : Bool := genset.contains e

/-- A data length k of `RS_ENCODE`: `k ≥ 1` and `k + e ≤ 255` (R134). -/
def dataLenOk (k e : Nat) : Bool := decide (1 ≤ k) && decide (k + e ≤ 255)

/-- A block length n of the decoder: `e + 1 ≤ n ≤ 255` (R137, R146, R148). -/
def blockLenOk (n e : Nat) : Bool := decide (e + 1 ≤ n) && decide (n ≤ 255)

/-- The dimension `D = 17 + 4 · version` (43_matrix_layout.md R160). -/
def dimension (v : Nat) : Nat := 17 + 4 * v

/-- `MX_VER` as a number: the version of the matrix held, 0 for none (R41). -/
def State.matrixVersion (s : State) : Nat := s.regs.mxVer.toNat

/-- `D` of the current matrix (R49). -/
def State.dim (s : State) : Nat := dimension s.matrixVersion

/-- The mask index `m = ARG[2:0]` of `MX_MASK` (R92). -/
def maskIndex (arg : BitVec 8) : Nat := (arg.extractLsb' 0 3).toNat

/-- A coefficient of the transform as the signed integer K (44_transform.md R201); index A = 0, …, H = 7. -/
def State.coef (s : State) (k : Fin 8) : Int := (s.regs.xfCoef[k]).toInt

end Sys2Proof.Machine
end

