-- ==== Sys2Proof/Machine/Control.lean ====
section
/-! DEFINITION. The control command NOP and the performing of an illegal word (40_control.md rules R109, R110). -/

namespace Sys2Proof.Machine

/-- `NOP`: completion only (R110). -/
def execNop (s : State) : Result := succeed s

/-- Performing an illegal word: `raise EILLEGAL` and nothing else (R109). -/
def execIllegal (s : State) : Result := raise s .eIllegal

end Sys2Proof.Machine
end

