-- ==== Sys2Proof/Machine/Gf.lean ====
section
/-! DEFINITION. The GF commands: GF_MUL, GF_DIV, POLY_MUL, POLY_DIV (41_gf_arith.md rules R120-R124). -/

namespace Sys2Proof.Machine

/-- Write `RES`. -/
def State.setRes (s : State) (v : Byte) : State := { s with regs := { s.regs with res := v } }

/-- Write a polynomial result: its coefficients to `R` and their number to `LEN_R` (R123, R124). -/
def State.setResult (s : State) (bytes : List Byte) : State :=
  { s.setBuf .bufR bytes with regs := { s.regs with lenR := BitVec.ofNat 10 bytes.length } }

/-- `GF_MUL`: `RES <- OPA ⊗ OPB` (R120). -/
def execGfMul (s : State) : Result := succeed (s.setRes (gfMul s.regs.opa s.regs.opb))

/-- `GF_DIV`: `EDIVZERO` on a zero divisor, else `RES <- OPA ⊘ OPB` (R121). -/
def execGfDiv (s : State) : Result :=
  if s.regs.opb = 0#8 then raise s .eDivZero
  else succeed (s.setRes (gfDiv s.regs.opa s.regs.opb))

/-- `POLY_MUL` (R123). -/
def execPolyMul (s : State) : Result :=
  if !polyLenOk s.la || !polyLenOk s.lb then raise s .eLen
  else succeed (s.setResult (polyMul s.opA s.opB))

/-- `POLY_DIV` (R124). -/
def execPolyDiv (s : State) : Result :=
  if !polyLenOk s.la || !polyLenOk s.lb then raise s .eLen
  else if s.buf .bufB 0 = 0#8 then raise s .eDivZero
  else succeed (s.setResult (polyDivResult s.opA s.opB))

end Sys2Proof.Machine
end

