-- ==== Sys2Proof/Syntax.lean ====
section
/-! DEFINITION. The command set QRC-CMD version 1: one constructor per row of spec/opcode_table.json (30_encoding.md rule R94). -/

namespace Sys2Proof

/-- A command. Every operand is implicit (R93) but for the `ARG` field of `MX_MASK` (R91, R92),
which is held as its 8 bits; `WellFormed` asks that its bits 7:3 are 0. -/
inductive Instr where
  /-- `NOP`, 0x00, R110. -/
  | nop
  /-- `GF_MUL`, 0x10, R120. -/
  | gfMul
  /-- `GF_DIV`, 0x11, R121. -/
  | gfDiv
  /-- `POLY_MUL`, 0x12, R123. -/
  | polyMul
  /-- `POLY_DIV`, 0x13, R124. -/
  | polyDiv
  /-- `RS_ENCODE`, 0x20, R134. -/
  | rsEncode
  /-- `RS_SYNDROME`, 0x21, R137. -/
  | rsSyndrome
  /-- `RS_BM`, 0x22, R140. -/
  | rsBm
  /-- `RS_CHIEN`, 0x23, R143. -/
  | rsChien
  /-- `RS_FORNEY`, 0x24, R146. -/
  | rsForney
  /-- `RS_DECODE`, 0x25, R148. -/
  | rsDecode
  /-- `MX_BASE`, 0x30, R170. -/
  | mxBase
  /-- `MX_PLACE`, 0x31, R175. -/
  | mxPlace
  /-- `MX_MASK #m`, 0x32, R178; `arg` is the command word's `ARG` field. -/
  | mxMask (arg : BitVec 8)
  /-- `MX_PENALTY`, 0x33, R186. -/
  | mxPenalty
  /-- `MX_SELECT`, 0x34, R188. -/
  | mxSelect
  /-- `MX_STAMP`, 0x35, R194. -/
  | mxStamp
  /-- `MX_EXTRACT`, 0x36, R196. -/
  | mxExtract
  /-- `XF_MAP`, 0x40, R203. -/
  | xfMap
  deriving DecidableEq, Repr

end Sys2Proof
end

