-- ==== Sys2Proof/WellFormed.lean ====
section
/-! DEFINITION. Which terms of `Instr` are commands of the set: the immediate of `MX_MASK` needs `ARG[7:3] = 0` (30_encoding.md rule R92). -/

namespace Sys2Proof

/-- `ARG[7:3] = 0`: the argument is a mask index 0..7 (R92). -/
def maskArgOk (arg : BitVec 8) : Bool := arg.extractLsb' 3 5 == 0#5

/-- The command is one of QRC-CMD: only `MX_MASK` carries an operand, and it is a mask index. -/
def Instr.wellFormed : Instr → Bool
  | .nop => true
  | .gfMul => true
  | .gfDiv => true
  | .polyMul => true
  | .polyDiv => true
  | .rsEncode => true
  | .rsSyndrome => true
  | .rsBm => true
  | .rsChien => true
  | .rsForney => true
  | .rsDecode => true
  | .mxBase => true
  | .mxPlace => true
  | .mxMask arg => maskArgOk arg
  | .mxPenalty => true
  | .mxSelect => true
  | .mxStamp => true
  | .mxExtract => true
  | .xfMap => true

/-- `Instr.wellFormed` as a proposition. -/
abbrev WellFormed (i : Instr) : Prop := i.wellFormed = true

end Sys2Proof
end

