-- ==== Sys2Proof/Machine/Matrix.lean ====
section
/-! DEFINITION. The matrix commands: MX_BASE, MX_PLACE, MX_MASK, MX_PENALTY, MX_SELECT, MX_STAMP, MX_EXTRACT (43_matrix_layout.md rules R160-R198). -/

namespace Sys2Proof.Machine

/-! ### Base matrix

Each step of the construction says which module byte it writes at a position, `none` where it writes
nothing; a later step's write replaces an earlier one (R161). -/

/-- A dark function-pattern module: `COLOR | NONDATA | FIXED` (R53). -/
def darkFixed : BitVec 3 := 0b111#3

/-- A light function-pattern module: `NONDATA | FIXED` (R53). -/
def lightFixed : BitVec 3 := 0b110#3

/-- A reserved format or version module: `NONDATA` (R53, R169). -/
def reservedModule : BitVec 3 := 0b010#3

/-- The distance of two indices. -/
def dist (a b : Nat) : Nat := a - b + (b - a)

/-- `ch = max(|r - rc|, |c - cc|)`, the ring a module lies on around a centre. -/
def ring (rc cc r c : Nat) : Nat := max (dist r rc) (dist c cc)

/-- The index lies in `lo .. hi`. -/
def inRange (lo hi i : Nat) : Bool := decide (lo ≤ i) && decide (i ≤ hi)

/-- One finder whose top-left corner is (r0, c0) (R163). -/
def finderAt (r0 c0 r c : Nat) : Option (BitVec 3) :=
  if inRange r0 (r0 + 6) r && inRange c0 (c0 + 6) c then
    let ch := ring (r0 + 3) (c0 + 3) r c
    some (if ch = 0 ∨ ch = 1 ∨ ch = 3 then darkFixed else lightFixed)
  else none

/-- Step 1, the three finders (R163). -/
def finderStep (d r c : Nat) : Option (BitVec 3) :=
  (finderAt 0 0 r c).or ((finderAt 0 (d - 7) r c).or (finderAt (d - 7) 0 r c))

/-- Step 2, the separators (R164). -/
def separatorStep (d r c : Nat) : Option (BitVec 3) :=
  if (r == 7 && inRange 0 7 c) || (c == 7 && inRange 0 7 r) ||
      (r == 7 && inRange (d - 8) (d - 1) c) || (c == d - 8 && inRange 0 7 r) ||
      (r == d - 8 && inRange 0 7 c) || (c == 7 && inRange (d - 8) (d - 1) r) then
    some lightFixed
  else none

/-- Step 3, the timing patterns: dark at even indices (R165). -/
def timingStep (d r c : Nat) : Option (BitVec 3) :=
  if r == 6 && inRange 8 (d - 9) c then some (if c % 2 = 0 then darkFixed else lightFixed)
  else if c == 6 && inRange 8 (d - 9) r then some (if r % 2 = 0 then darkFixed else lightFixed)
  else none

/-- The 5 × 5 square around (rc, cc) meets a finder-plus-separator zone, so the pair is skipped (R167). -/
def alignSkipped (d rc cc : Nat) : Bool :=
  (decide (rc ≤ 9) && decide (cc ≤ 9)) ||
    (decide (rc ≤ 9) && decide (d - 8 ≤ cc + 2)) ||
    (decide (d - 8 ≤ rc + 2) && decide (cc ≤ 9))

/-- One alignment pattern (R167). -/
def alignAt (rc cc r c : Nat) : Option (BitVec 3) :=
  if ring rc cc r c ≤ 2 then
    some (if ring rc cc r c = 1 then lightFixed else darkFixed)
  else none

/-- The centres of the alignment patterns that are placed (R167). -/
def alignCentres (v : Nat) : List (Nat × Nat) :=
  (alignCoords v).flatMap (fun rc =>
    ((alignCoords v).filter (fun cc => !alignSkipped (dimension v) rc cc)).map (fun cc => (rc, cc)))

/-- Step 4, the alignment patterns (R167). -/
def alignStep (centres : List (Nat × Nat)) (r c : Nat) : Option (BitVec 3) :=
  centres.findSome? (fun p => alignAt p.1 p.2 r c)

/-- Step 5, the dark module at (4 v + 9, 8) (R168). -/
def darkStep (v r c : Nat) : Option (BitVec 3) :=
  if r == 4 * v + 9 && c == 8 then some darkFixed else none

/-- `FC1[i]`, i = 0..14 (R169). -/
def fc1 (i : Nat) : Nat × Nat :=
  if i ≤ 5 then (i, 8)
  else if i = 6 then (7, 8)
  else if i = 7 then (8, 8)
  else if i = 8 then (8, 7)
  else (8, 14 - i)

/-- `FC2[i]`, i = 0..14 (R169). -/
def fc2 (d i : Nat) : Nat × Nat := if i ≤ 7 then (8, d - 1 - i) else (d - 15 + i, 8)

/-- `VTR[i]`, i = 0..17 (R169). -/
def vtr (d i : Nat) : Nat × Nat := (i / 3, d - 11 + i % 3)

/-- `VBL[i]`, i = 0..17 (R169). -/
def vbl (d i : Nat) : Nat × Nat := (d - 11 + i % 3, i / 3)

/-- The format modules, both copies (R169). -/
def formatModules (d : Nat) : List (Nat × Nat) :=
  (List.range 15).map fc1 ++ (List.range 15).map (fc2 d)

/-- The version modules: none for v < 7 (R169, R193). -/
def versionModules (v : Nat) : List (Nat × Nat) :=
  if v < 7 then []
  else (List.range 18).map (vtr (dimension v)) ++ (List.range 18).map (vbl (dimension v))

/-- Step 6, the reserved regions (R169). -/
def reservedStep (v r c : Nat) : Option (BitVec 3) :=
  if (formatModules (dimension v)).contains (r, c) || (versionModules v).contains (r, c) then
    some reservedModule
  else none

/-- The byte of module (r, c) of the base matrix of version v: the last step that writes it, 0 if
none does (R161-R169). `centres` is `alignCentres v`. -/
def baseModule (v : Nat) (centres : List (Nat × Nat)) (r c : Nat) : BitVec 3 :=
  let d := dimension v
  ((reservedStep v r c).or ((darkStep v r c).or ((alignStep centres r c).or
    ((timingStep d r c).or ((separatorStep d r c).or (finderStep d r c)))))).getD 0#3

/-- The number of data modules of a square (R170, R171). -/
def countData (grid : List (List (BitVec 3))) : Nat :=
  (grid.map (fun row => row.countP (fun m => !nonData m))).sum

/-- The matrix after the steps of R162-R169. -/
def State.buildBase (s : State) (v : Nat) : State :=
  let centres := alignCentres v
  s.clearMatrix.mapModules (dimension v) (fun r c _ => baseModule v centres r c)

/-- `MX_BASE` (R170). -/
def execMxBase (s : State) : Result :=
  let v := s.regs.version.toNat
  if v < 1 ∨ 40 < v then raise s .eVersion
  else
    let t := s.buildBase v
    succeed { t with regs := { t.regs with
      mxVer := s.regs.version, ndata := BitVec.ofNat 15 (countData (t.grid (dimension v))) } }

/-! ### Placement and extraction -/

/-- The modules of one 2-column strip, right column first, in the direction given (R172). -/
def strip (d right : Nat) (upward : Bool) : List (Nat × Nat) :=
  (if upward then (List.range d).reverse else List.range d).flatMap
    (fun r => [(r, right), (r, right - 1)])

/-- The strips from column `right` leftwards, skipping column 6 (R172); `fuel` bounds their number. -/
def strips (d : Nat) : (fuel right : Nat) → (upward : Bool) → List (Nat × Nat)
  | 0, _, _ => []
  | fuel + 1, right, upward =>
    if right < 1 then []
    else
      let col := if right = 6 then 5 else right
      strip d col upward ++ strips d fuel (col - 2) (!upward)

/-- Every module of the square but column 6, in serpentine order (R172). -/
def serpentine (d : Nat) : List (Nat × Nat) := strips d d (d - 1) true

/-- The module at (r, c) of a square held row by row. -/
def gridAt (grid : List (List (BitVec 3))) (r c : Nat) : BitVec 3 := (grid.getD r []).getD c 0#3

/-- `ORDER(M)`: the data modules in placement order (R172). -/
def placementOrder (d : Nat) (grid : List (List (BitVec 3))) : List (Nat × Nat) :=
  (serpentine d).filter (fun p => !nonData (gridAt grid p.1 p.2))

/-- `ORDER(M)` of the current matrix. -/
def State.order (s : State) : List (Nat × Nat) := placementOrder s.dim (s.grid s.dim)

/-- The color of the b-th module of `ORDER` when `q` codewords are placed: MSB first, 0 past them (R173, R174). -/
def placedBit (cw : List Byte) (q b : Nat) : Bool :=
  decide (b < 8 * q) && (cw.getD (b / 8) 0#8).getLsbD (7 - b % 8)

/-- Set the color of each position of a list in turn. -/
def State.paint (s : State) : List ((Nat × Nat) × Bool) → State
  | [] => s
  | (p, dark) :: rest => (s.setColor p.1 p.2 dark).paint rest

/-- No matrix is held (R41). -/
def State.noMatrix (s : State) : Bool := s.regs.mxVer == 0#6

/-- `MX_PLACE` (R175). -/
def execMxPlace (s : State) : Result :=
  if s.noMatrix then raise s .eSeq
  else
    let order := s.order
    let q := s.regs.cwLen.toNat
    if order.length < 8 * q then raise s .eCap
    else
      let cw := s.bufBytes .cw q
      succeed (s.paint (order.mapIdx (fun b p => (p, placedBit cw q b))))

/-- A byte from bits, the first the most significant (R173). -/
def byteOfBits (bits : List Bool) : Byte :=
  BitVec.ofNat 8 (bits.foldl (fun acc bit => 2 * acc + bit.toNat) 0)

/-- The first `q` groups of eight bits as bytes. -/
def packBytes : (q : Nat) → List Bool → List Byte
  | 0, _ => []
  | q + 1, bits => byteOfBits (bits.take 8) :: packBytes q (bits.drop 8)

/-- `MX_EXTRACT` (R196). -/
def execMxExtract (s : State) : Result :=
  if s.noMatrix then raise s .eSeq
  else
    let grid := s.grid s.dim
    let order := placementOrder s.dim grid
    let q := order.length / 8
    let t := s.setBuf .cw (packBytes q (order.map (fun p => colorOf (gridAt grid p.1 p.2))))
    succeed { t with regs := { t.regs with cwLen := BitVec.ofNat 12 q } }

/-! ### Masks -/

/-- The mask predicate `m(row, col)` (R176). -/
def maskHits (m r c : Nat) : Bool :=
  match m with
  | 0 => (r + c) % 2 == 0
  | 1 => r % 2 == 0
  | 2 => c % 3 == 0
  | 3 => (r + c) % 3 == 0
  | 4 => (r / 2 + c / 3) % 2 == 0
  | 5 => (r * c) % 2 + (r * c) % 3 == 0
  | 6 => ((r * c) % 2 + (r * c) % 3) % 2 == 0
  | _ => ((r + c) % 2 + (r * c) % 3) % 2 == 0

/-- A module after mask m: a data module the predicate hits has its color inverted (R177). -/
def maskModule (m r c : Nat) (old : BitVec 3) : BitVec 3 :=
  if !nonData old && maskHits m r c then withColor old (!colorOf old) else old

/-- Apply mask m to the matrix (R177). -/
def State.applyMask (s : State) (m : Nat) : State := s.mapModules s.dim (maskModule m)

/-- `MX_MASK #m`; a word with `ARG[7:3] ≠ 0` is illegal and never decodes to this (R178, log 12). -/
def execMxMask (arg : BitVec 8) (s : State) : Result :=
  if !maskArgOk arg then raise s .eIllegal
  else if s.noMatrix then raise s .eSeq
  else succeed (s.applyMask (maskIndex arg))

/-! ### Penalty -/

/-- What a maximal run of `len` modules of one color adds to N1 (R181). -/
def runScore (len : Nat) : Nat := if 5 ≤ len then 3 + (len - 5) else 0

/-- N1 of the rest of a line, `len` modules of color `color` standing before it. -/
def n1From (color : Bool) : (len : Nat) → List Bool → Nat
  | len, [] => runScore len
  | len, x :: xs =>
    if x = color then n1From color (len + 1) xs else runScore len + n1From x 1 xs

/-- N1 of a line (R181). -/
def n1Line : List Bool → Nat
  | [] => 0
  | x :: xs => n1From x 1 xs

/-- N2 of two neighbouring rows: 3 for each 2 × 2 block of one color (R182). -/
def n2Pair : List Bool → List Bool → Nat
  | a :: b :: top, c :: e :: bottom =>
    (if a = b ∧ a = c ∧ a = e then 3 else 0) + n2Pair (b :: top) (e :: bottom)
  | _, _ => 0

/-- N2 of a matrix (R182). -/
def n2Rows : List (List Bool) → Nat
  | top :: bottom :: rest => n2Pair top bottom + n2Rows (bottom :: rest)
  | _ => 0

/-- The pattern of R183, 1 = dark. -/
def n3Pattern : List Bool := [true, false, true, true, true, false, true]

/-- The module of the line at index i is light; outside the line it is as the parameter says (R183). -/
def lightAt (outsideLight : Bool) (line : List Bool) (i : Int) : Bool :=
  if 0 ≤ i ∧ i < line.length then !(line.getD i.toNat false) else outsideLight

/-- An occurrence of the pattern at p with four light modules before or after it (R183). -/
def n3Hit (outsideLight : Bool) (line : List Bool) (p : Nat) : Bool :=
  ((line.drop p).take 7 == n3Pattern) &&
    ((List.range 4).all (fun k => lightAt outsideLight line ((p : Int) - 4 + k)) ||
      (List.range 4).all (fun k => lightAt outsideLight line ((p : Int) + 7 + k)))

/-- N3 of a line (R183). -/
def n3Line (outsideLight : Bool) (line : List Bool) : Nat :=
  40 * (List.range (line.length - 6)).countP (n3Hit outsideLight line)

/-- N4 from the number of dark modules and of all modules, exactly (R184). -/
def n4Of (dark total : Nat) : Nat := 10 * ((100 * (dark : Int) - 50 * total).natAbs / (5 * total))

/-- The columns of a `d`-column matrix. -/
def columnsOf (d : Nat) (rows : List (List Bool)) : List (List Bool) :=
  (List.range d).map (fun c => rows.map (fun row => row.getD c false))

/-- The four penalty terms (R42). -/
structure Penalty where
  n1 : Nat
  n2 : Nat
  n3 : Nat
  n4 : Nat
  deriving DecidableEq, Repr

/-- `N1 + N2 + N3 + N4` (R185). -/
def Penalty.total (p : Penalty) : Nat := p.n1 + p.n2 + p.n3 + p.n4

/-- The penalty of the colors of a `d × d` matrix, all modules included (R180-R184). -/
def penaltyOf (outsideLight : Bool) (d : Nat) (rows : List (List Bool)) : Penalty :=
  let lines := rows ++ columnsOf d rows
  { n1 := (lines.map n1Line).sum
    n2 := n2Rows rows
    n3 := (lines.map (n3Line outsideLight)).sum
    n4 := n4Of ((rows.map (fun row => row.countP id)).sum) (d * d) }

/-- The colors of a square. -/
def colorsOf (grid : List (List (BitVec 3))) : List (List Bool) := grid.map (fun row => row.map colorOf)

/-- A copy of a square with mask m applied (R177, R187). -/
def maskGrid (m : Nat) (grid : List (List (BitVec 3))) : List (List (BitVec 3)) :=
  grid.mapIdx (fun r row => row.mapIdx (fun c old => maskModule m r c old))

/-- Write the five penalty registers (R186, R188). -/
def State.setPenalty (s : State) (p : Penalty) : State :=
  { s with regs := { s.regs with
      penN1 := BitVec.ofNat 32 p.n1
      penN2 := BitVec.ofNat 32 p.n2
      penN3 := BitVec.ofNat 32 p.n3
      penN4 := BitVec.ofNat 32 p.n4
      penTotal := BitVec.ofNat 32 p.total } }

/-- `MX_PENALTY` (R186). -/
def execMxPenalty (s : State) : Result :=
  if s.noMatrix then raise s .eSeq
  else succeed (s.setPenalty (penaltyOf s.cfg.n3OutsideLight s.dim (colorsOf (s.grid s.dim))))

/-- The penalty of a square with mask m applied to a copy (R187). -/
def maskedPenalty (outsideLight : Bool) (d : Nat) (grid : List (List (BitVec 3))) (m : Nat) : Penalty :=
  penaltyOf outsideLight d (colorsOf (maskGrid m grid))

/-- The smallest index whose value is least, of `best` and the indices after it (R187). -/
def argMin (f : Nat → Nat) : (best : Nat) → List Nat → Nat
  | best, [] => best
  | best, m :: ms => argMin f (if f m < f best then m else best) ms

/-- The best mask from the list of the eight masks' penalties: the smallest index of least total (R187). -/
def bestMask (pens : List Penalty) : Nat :=
  argMin (fun m => (pens.map Penalty.total).getD m 0) 0 [1, 2, 3, 4, 5, 6, 7]

/-- Write `PEN0`..`PEN7` (R188). -/
def State.setPens (s : State) (pens : List Penalty) : State :=
  { s with regs := { s.regs with
      pen := Vector.ofFn (fun m : Fin 8 => BitVec.ofNat 32 ((pens.map Penalty.total).getD m.val 0)) } }

/-- `MX_SELECT` (R188). -/
def execMxSelect (s : State) : Result :=
  if s.noMatrix then raise s .eSeq
  else
    let grid := s.grid s.dim
    let pens := (List.range 8).map (maskedPenalty s.cfg.n3OutsideLight s.dim grid)
    let best := bestMask pens
    let t := ((s.applyMask best).setPens pens).setPenalty (pens.getD best ⟨0, 0, 0, 0⟩)
    succeed { t with regs := { t.regs with mask := BitVec.ofNat 3 best } }

/-! ### Format and version stamping -/

/-- The format data `d = (ECLEVEL XOR 1) · 8 + MASK` (R189, R190, R194). -/
def formatData (ecLevel : BitVec 2) (mask : BitVec 3) : Nat := (ecLevel ^^^ 1#2).toNat * 8 + mask.toNat

/-- The stamped format word `FMT[d] XOR 0x5412` (R191). -/
def formatWord (ecLevel : BitVec 2) (mask : BitVec 3) : BitVec 15 :=
  fmtCode (formatData ecLevel mask) ^^^ 0x5412#15

/-- The format stamps: bit i of F at `FC1[i]` and `FC2[i]` (R191, R194). -/
def formatStamps (d : Nat) (f : BitVec 15) : List ((Nat × Nat) × Bool) :=
  (List.range 15).flatMap (fun i => [(fc1 i, f.getLsbD i), (fc2 d i, f.getLsbD i)])

/-- The version stamps, for v ≥ 7: bit i of `VER[v]` at `VTR[i]` and `VBL[i]` (R193, R194). -/
def versionStamps (v : Nat) : List ((Nat × Nat) × Bool) :=
  if v < 7 then []
  else (List.range 18).flatMap (fun i =>
    [(vtr (dimension v) i, (verCode v).getLsbD i), (vbl (dimension v) i, (verCode v).getLsbD i)])

/-- `MX_STAMP` (R194). -/
def execMxStamp (s : State) : Result :=
  if s.noMatrix then raise s .eSeq
  else
    let f := formatWord s.regs.ecLevel s.regs.mask
    let t := s.paint (formatStamps s.dim f ++ versionStamps s.matrixVersion)
    succeed { t with regs := { t.regs with fmtWord := f } }

end Sys2Proof.Machine
end

