-- ==== Sys2Proof/Machine/Rs.lean ====
section
/-! DEFINITION. The Reed-Solomon codec: RS_ENCODE, RS_SYNDROME, RS_BM, RS_CHIEN, RS_FORNEY, RS_DECODE (42_rs_codec.md rules R130-R148). -/

namespace Sys2Proof.Machine

/-! ### Encoder -/

/-- The loop of R134 over `k` data codewords; `gtail` is `GEN[e][1..e]`. What is left of the working
copy after it is the ECC. -/
def encodeLoop (gtail : List Byte) : (k : Nat) → (work : List Byte) → List Byte
  | 0, work => work
  | _ + 1, [] => []
  | k + 1, q :: work =>
    encodeLoop gtail k (if q = 0#8 then work else addOnto (gtail.map (gfMul q)) work)

/-- The `e` ECC codewords of a data block, descending (R133, R134). -/
def rsEcc (e : Nat) (data : List Byte) : List Byte :=
  encodeLoop (genPoly e).tail data.length (data ++ List.replicate e 0#8)

/-- `RS_ENCODE` (R134). -/
def execRsEncode (s : State) : Result :=
  if !eccValid s.ecc then raise s .eEcc
  else if !dataLenOk s.la s.ecc then raise s .eLen
  else succeed (s.setResult (rsEcc s.ecc s.opA))

/-! ### Syndromes -/

/-- `S_j = ⊕_(i<n) A[n-1-i] ⊗ EXP[(i j) mod 255]` (R135). -/
def syndrome (block : List Byte) (j : Nat) : Byte :=
  gfSum (block.reverse.mapIdx (fun i x => gfMul x (gfExp (i * j % 255))))

/-- `S_0 .. S_(e-1)`. -/
def syndromes (block : List Byte) (e : Nat) : List Byte := (List.range e).map (syndrome block)

/-- The body of `RS_SYNDROME`: `SYN` and `CLEAN` (R137). -/
def State.syndromeBody (s : State) : State :=
  let syn := syndromes s.opA s.ecc
  { s.setBuf .syn syn with regs := { s.regs with clean := allZero syn } }

/-- `RS_SYNDROME` (R137). -/
def execRsSyndrome (s : State) : Result :=
  if !eccValid s.ecc then raise s .eEcc
  else if !blockLenOk s.la s.ecc then raise s .eLen
  else succeed s.syndromeBody

/-! ### Berlekamp-Massey -/

/-- The variables of R138: `C` and `P` ascending and truncated at index e, `L`, `m` and `b`. -/
structure BmState where
  c : List Byte
  p : List Byte
  l : Nat
  m : Nat
  b : Byte
  deriving DecidableEq, Repr

/-- The start values of R138. -/
def bmInit (e : Nat) : BmState :=
  { c := 1#8 :: List.replicate e 0#8, p := 1#8 :: List.replicate e 0#8, l := 0, m := 1, b := 1#8 }

/-- The discrepancy `d = SYN[r] ⊕ (⊕_(k=1..L) C[k] ⊗ SYN[r-k])` (R138). -/
def discrepancy (syn : List Byte) (v : BmState) (r : Nat) : Byte :=
  syn.getD r 0#8 ^^^
    gfSumRange v.l (fun k => gfMul (v.c.getD (k + 1) 0#8) (syn.getD (r - (k + 1)) 0#8))

/-- `C[k+m] ⊕ ((d ⊘ b) ⊗ P[k])` for k = 0..e-m (R138); the arrays keep their e+1 entries. -/
def bmUpdate (v : BmState) (d : Byte) : List Byte :=
  List.zipWith (· ^^^ ·) v.c (List.replicate v.m 0#8 ++ v.p.map (gfMul (gfDiv d v.b)))

/-- One round of the loop of R138. -/
def bmRound (syn : List Byte) (v : BmState) (r : Nat) : BmState :=
  let d := discrepancy syn v r
  if d = 0#8 then { v with m := v.m + 1 }
  else if 2 * v.l ≤ r then { c := bmUpdate v d, p := v.c, l := r + 1 - v.l, m := 1, b := d }
  else { v with c := bmUpdate v d, m := v.m + 1 }

/-- Massey's algorithm on `S_0 .. S_(e-1)` (R138). -/
def berlekampMassey (syn : List Byte) (e : Nat) : BmState :=
  (List.range e).foldl (bmRound syn) (bmInit e)

/-- `ω_k = ⊕_(i≤k) σ_i ⊗ S_(k-i)` for k = 0..e-1 (R139). -/
def evaluator (sigma syn : List Byte) (e : Nat) : List Byte :=
  (List.range e).map (fun k =>
    gfSumRange (k + 1) (fun i => gfMul (sigma.getD i 0#8) (syn.getD (k - i) 0#8)))

/-- The body of `RS_BM`: `SIGMA`, `OMEGA` and `RS_L` (R140). -/
def State.bmBody (s : State) : State :=
  let syn := s.bufBytes .syn s.ecc
  let v := berlekampMassey syn s.ecc
  { (s.setBuf .sigma v.c).setBuf .omega (evaluator v.c syn s.ecc) with
    regs := { s.regs with rsL := BitVec.ofNat 7 v.l } }

/-- The degree test fails: `2 L > e` (R139). -/
def degreeTestFails (s : State) : Bool := decide (s.ecc < 2 * s.regs.rsL.toNat)

/-- `RS_BM`: the writes of the body stay when the degree test fails (R140). -/
def execRsBm (s : State) : Result :=
  if !eccValid s.ecc then raise s .eEcc
  else
    let t := s.bmBody
    if degreeTestFails t then raiseUncorr t .degree else succeed t

/-! ### Chien search -/

/-- `α^(-i) = EXP[(255 - i) mod 255]` (R141). -/
def alphaInv (i : Nat) : Byte := gfExp ((255 - i) % 255)

/-- The positions `i < n` at which σ vanishes at `α^(-i)`, ascending; `sigma` is `SIGMA[0..L]` (R141). -/
def chienRoots (sigma : List Byte) (n : Nat) : List Nat :=
  (List.range n).filter (fun i => evalAsc sigma (alphaInv i) == 0#8)

/-- `SIGMA[0..L]`, L = `RS_L`. -/
def State.sigmaOp (s : State) : List Byte := s.bufBytes .sigma (s.regs.rsL.toNat + 1)

/-- The body of `RS_CHIEN`: `ERRPOS` and `NROOTS` (R143). -/
def State.chienBody (s : State) : State :=
  let roots := chienRoots s.sigmaOp s.la
  { s.setBuf .errpos (roots.map (BitVec.ofNat 8)) with
    regs := { s.regs with nroots := BitVec.ofNat 9 roots.length } }

/-- The count test fails: the number of roots is not L (R143). -/
def countTestFails (s : State) : Bool := s.regs.nroots.toNat != s.regs.rsL.toNat

/-- `RS_CHIEN`: the writes of the body stay when the count test fails (R143). -/
def execRsChien (s : State) : Result :=
  if !(decide (1 ≤ s.la) && decide (s.la ≤ 255) && decide (s.regs.rsL.toNat ≤ 68)) then raise s .eLen
  else
    let t := s.chienBody
    if countTestFails t then raiseUncorr t .rootCount else succeed t

/-! ### Forney correction -/

/-- The formal derivative, ascending: `SIGMA[m]` at `x^(m-1)` for odd m, 0 for even m (R144). -/
def derivative (sigma : List Byte) : List Byte :=
  sigma.tail.mapIdx (fun i x => if i % 2 = 0 then x else 0#8)

/-- The value `Y_i = α^i ⊗ (ω(α^(-i)) ⊘ σ′(α^(-i)))`, `none` where σ′ vanishes (R144, R146). -/
def forneyValue (sigma omega : List Byte) (i : Nat) : Option Byte :=
  let z := alphaInv i
  let den := evalAsc (derivative sigma) z
  if den = 0#8 then none else some (gfMul (gfExp i) (gfDiv (evalAsc omega z) den))

/-- The value of every position, `none` if σ′ vanishes at one (R146). -/
def forneyValues (sigma omega : List Byte) : List Nat → Option (List Byte)
  | [] => some []
  | i :: rest =>
    match forneyValue sigma omega i, forneyValues sigma omega rest with
    | some y, some ys => some (y :: ys)
    | _, _ => none

/-- The error positions `ERRPOS[0..NROOTS-1]`. -/
def State.errorPositions (s : State) : List Nat :=
  (s.bufBytes .errpos s.regs.nroots.toNat).map (fun b => b.toNat)

/-- `A[n-1-i] <- A[n-1-i] ⊕ Y` for each position and value in turn (R145, R146). -/
def State.correct (s : State) (n : Nat) : List Nat → List Byte → State
  | i :: is, y :: ys =>
    State.correct { s with mem := s.mem.update (Buffer.bufA.base + (n - 1 - i)) 1 (fun _ old => old ^^^ y) } n is ys
  | _, _ => s

/-- The body of `RS_FORNEY`: the corrections and `NERR`, or `none` where σ′ vanishes at a position,
in which case nothing is written (R146). -/
def State.forneyBody (s : State) : Option State :=
  match forneyValues s.sigmaOp (s.bufBytes .omega s.ecc) s.errorPositions with
  | none => none
  | some ys =>
    let t := s.correct s.la s.errorPositions ys
    some { t with regs := { t.regs with nerr := s.regs.nroots } }

/-- `RS_FORNEY` (R146). -/
def execRsForney (s : State) : Result :=
  if !eccValid s.ecc then raise s .eEcc
  else if !(blockLenOk s.la s.ecc && decide (s.regs.rsL.toNat ≤ 68) &&
      decide (s.regs.nroots.toNat ≤ 255)) then raise s .eLen
  else if s.errorPositions.any (fun i => decide (s.la ≤ i)) then raise s .eLen
  else match s.forneyBody with
    | none => raiseUncorr s .derivative
    | some t => succeed t

/-! ### Whole-block decode -/

/-- The clean path: no errors, nothing corrected (R148). -/
def State.cleanResult (s : State) : State :=
  { s with regs := { s.regs with rsL := 0#7, nroots := 0#9, nerr := 0#9 } }

/-- `RS_DECODE`: the four bodies in order, each failure keeping the earlier stages' writes (R147, R148, R214). -/
def execRsDecode (s : State) : Result :=
  if !eccValid s.ecc then raise s .eEcc
  else if !blockLenOk s.la s.ecc then raise s .eLen
  else
    let s1 := s.syndromeBody
    if s1.regs.clean then succeed s1.cleanResult
    else
      let s2 := s1.bmBody
      if degreeTestFails s2 then raiseUncorr s2 .degree
      else
        let s3 := s2.chienBody
        if countTestFails s3 then raiseUncorr s3 .rootCount
        else match s3.forneyBody with
          | none => raiseUncorr s3 .derivative
          | some s4 => succeed s4

end Sys2Proof.Machine
end

