-- ==== Sys2Proof/Machine/Transform.lean ====
section
/-! DEFINITION. The coordinate transform XF_MAP (44_transform.md rules R200-R203). -/

namespace Sys2Proof.Machine

/-- `col = zext(XF_COL)` (R201). -/
def State.xfColumn (s : State) : Int := s.regs.xfCol.toNat

/-- `row = zext(XF_ROW)` (R201). -/
def State.xfRowIndex (s : State) : Int := s.regs.xfRow.toNat

/-- `X = A·col + C·row + E` (R201). -/
def State.xfX (s : State) : Int := s.coef 0 * s.xfColumn + s.coef 2 * s.xfRowIndex + s.coef 4

/-- `Y = B·col + D·row + F` (R201). -/
def State.xfY (s : State) : Int := s.coef 1 * s.xfColumn + s.coef 3 * s.xfRowIndex + s.coef 5

/-- `W = G·col + H·row + 2^32` (R201). -/
def State.xfW (s : State) : Int := s.coef 6 * s.xfColumn + s.coef 7 * s.xfRowIndex + 2 ^ 32

/-- `rha(X, W)` for W > 0: X/W rounded to the nearest integer, a tie away from zero (R202). -/
def rha (x w : Int) : Int := x.sign * ((2 * (x.natAbs : Int) + w) / (2 * w))

/-- The value fits a signed 32-bit register (R203). -/
def fitsPixel (p : Int) : Bool := decide (-(2 ^ 31) ≤ p) && decide (p ≤ 2 ^ 31 - 1)

/-- `XF_MAP` (R203). -/
def execXfMap (s : State) : Result :=
  if s.xfW ≤ 0 then raise s .eXform
  else
    let px := rha s.xfX s.xfW
    let py := rha s.xfY s.xfW
    if !fitsPixel px || !fitsPixel py then raise s .eXform
    else succeed { s with regs := { s.regs with xfPx := BitVec.ofInt 32 px, xfPy := BitVec.ofInt 32 py } }

end Sys2Proof.Machine
end

