-- ==== Sys2Proof/Machine/Dispatch.lean ====
section
/-! DEFINITION. One arm per command: which meaning performs it. -/

namespace Sys2Proof.Machine

/-- Performing a command, completion included (40_control.md rules R105, R107). -/
def exec (i : Instr) (s : State) : Host.Outcome State Fault Refusal :=
  match i with
  | .nop => Sys2Proof.Machine.execNop s
  | .gfMul => Sys2Proof.Machine.execGfMul s
  | .gfDiv => Sys2Proof.Machine.execGfDiv s
  | .polyMul => Sys2Proof.Machine.execPolyMul s
  | .polyDiv => Sys2Proof.Machine.execPolyDiv s
  | .rsEncode => Sys2Proof.Machine.execRsEncode s
  | .rsSyndrome => Sys2Proof.Machine.execRsSyndrome s
  | .rsBm => Sys2Proof.Machine.execRsBm s
  | .rsChien => Sys2Proof.Machine.execRsChien s
  | .rsForney => Sys2Proof.Machine.execRsForney s
  | .rsDecode => Sys2Proof.Machine.execRsDecode s
  | .mxBase => Sys2Proof.Machine.execMxBase s
  | .mxPlace => Sys2Proof.Machine.execMxPlace s
  | .mxMask arg => Sys2Proof.Machine.execMxMask arg s
  | .mxPenalty => Sys2Proof.Machine.execMxPenalty s
  | .mxSelect => Sys2Proof.Machine.execMxSelect s
  | .mxStamp => Sys2Proof.Machine.execMxStamp s
  | .mxExtract => Sys2Proof.Machine.execMxExtract s
  | .xfMap => Sys2Proof.Machine.execXfMap s

end Sys2Proof.Machine
end

