-- ==== Sys2Proof/Decode.lean ====
section
/-! DEFINITION. Decoding command words (30_encoding.md rules R90-R96), the opcode map of rule R94 as a table, and the encoder (R100). -/

namespace Sys2Proof

/-- Why a command word is illegal (R95). Every reason ends in `EILLEGAL` (R109). -/
inductive DecodeError where
  /-- `RSV`, bits 31:16, is not 0. -/
  | reservedNotZero
  /-- `OPC`, bits 7:0, is assigned to no command. -/
  | unassignedOpcode
  /-- `ARG`, bits 15:8, is not 0 on a command without immediate, or `ARG[7:3]` is not 0 on `MX_MASK`. -/
  | badArgument
  /-- Fewer than four bytes were given. -/
  | truncated
  deriving DecidableEq, Repr

/-- `OPC`, bits 7:0 (R91). -/
def opcField (w : Word) : BitVec 8 := w.extractLsb' 0 8

/-- `ARG`, bits 15:8 (R91). -/
def argField (w : Word) : BitVec 8 := w.extractLsb' 8 8

/-- `RSV`, bits 31:16 (R91). -/
def rsvField (w : Word) : BitVec 16 := w.extractLsb' 16 16

/-- The command an opcode selects, its `ARG` field not yet checked (R94). -/
def opcodeInstr (opc arg : BitVec 8) : Option Instr :=
  if opc = 0x00#8 then some .nop
  else if opc = 0x10#8 then some .gfMul
  else if opc = 0x11#8 then some .gfDiv
  else if opc = 0x12#8 then some .polyMul
  else if opc = 0x13#8 then some .polyDiv
  else if opc = 0x20#8 then some .rsEncode
  else if opc = 0x21#8 then some .rsSyndrome
  else if opc = 0x22#8 then some .rsBm
  else if opc = 0x23#8 then some .rsChien
  else if opc = 0x24#8 then some .rsForney
  else if opc = 0x25#8 then some .rsDecode
  else if opc = 0x30#8 then some .mxBase
  else if opc = 0x31#8 then some .mxPlace
  else if opc = 0x32#8 then some (.mxMask arg)
  else if opc = 0x33#8 then some .mxPenalty
  else if opc = 0x34#8 then some .mxSelect
  else if opc = 0x35#8 then some .mxStamp
  else if opc = 0x36#8 then some .mxExtract
  else if opc = 0x40#8 then some .xfMap
  else none

/-- The `ARG` field is legal for the command: a mask index for `MX_MASK`, else 0 (R91, R92). -/
def argLegal (i : Instr) (arg : BitVec 8) : Bool :=
  match i with
  | .mxMask _ => maskArgOk arg
  | _ => arg == 0#8

/-- The command a word selects, or why it is illegal; total on every word (R94, R95). -/
def decode (w : Word) : Except DecodeError Instr :=
  if rsvField w ≠ 0#16 then .error .reservedNotZero
  else match opcodeInstr (opcField w) (argField w) with
    | none => .error .unassignedOpcode
    | some i => if argLegal i (argField w) then .ok i else .error .badArgument

/-- A word from four bytes, the first in bits 7:0 (R74). -/
def wordOfBytes (b0 b1 b2 b3 : Byte) : Word := b3 ++ b2 ++ b1 ++ b0

/-- Decoding from bytes in bus order: one command has one length, four bytes (R90). -/
def decodeBytes : List Byte → Except DecodeError (Instr × List Byte)
  | b0 :: b1 :: b2 :: b3 :: rest =>
    match decode (wordOfBytes b0 b1 b2 b3) with
    | .ok i => .ok (i, rest)
    | .error e => .error e
  | _ => .error .truncated

/-- The bytes of a word in bus order (R74). -/
def bytesOfWord (w : Word) : List Byte :=
  [w.extractLsb' 0 8, w.extractLsb' 8 8, w.extractLsb' 16 8, w.extractLsb' 24 8]

/-- The host's question: the command this decoder reads from the opcode-table word `w` of `nbits`
bits, every bit above them 0, laid out as the bus stores it. A command has 32 bits (R90). -/
def decodeTableWord (nbits w : Nat) : Option Instr :=
  if nbits ≤ 32 then
    match decodeBytes (bytesOfWord (BitVec.ofNat 32 (w % 2 ^ nbits))) with
    | .ok (i, []) => some i
    | _ => none
  else none

/-- The word of a command: its `match` value of R94, and for `MX_MASK #m` the value `0x32 | (m << 8)` (R100). -/
def encode : Instr → Word
  | .nop => 0x00000000#32
  | .gfMul => 0x00000010#32
  | .gfDiv => 0x00000011#32
  | .polyMul => 0x00000012#32
  | .polyDiv => 0x00000013#32
  | .rsEncode => 0x00000020#32
  | .rsSyndrome => 0x00000021#32
  | .rsBm => 0x00000022#32
  | .rsChien => 0x00000023#32
  | .rsForney => 0x00000024#32
  | .rsDecode => 0x00000025#32
  | .mxBase => 0x00000030#32
  | .mxPlace => 0x00000031#32
  | .mxMask arg => 0x00000032#32 ||| (arg.setWidth 32 <<< 8)
  | .mxPenalty => 0x00000033#32
  | .mxSelect => 0x00000034#32
  | .mxStamp => 0x00000035#32
  | .mxExtract => 0x00000036#32
  | .xfMap => 0x00000040#32

/-- One row of the opcode map: a word w is the row's command when `w & mask = pattern` (R94). -/
structure OpcodeRow where
  mnemonic : String
  pattern : Word
  mask : Word
  deriving DecidableEq, Repr

/-- The opcode map of R94, row by row. -/
def opcodeMap : List OpcodeRow :=
  [ ⟨"NOP", 0x00000000#32, 0xFFFFFFFF#32⟩,
    ⟨"GF_MUL", 0x00000010#32, 0xFFFFFFFF#32⟩,
    ⟨"GF_DIV", 0x00000011#32, 0xFFFFFFFF#32⟩,
    ⟨"POLY_MUL", 0x00000012#32, 0xFFFFFFFF#32⟩,
    ⟨"POLY_DIV", 0x00000013#32, 0xFFFFFFFF#32⟩,
    ⟨"RS_ENCODE", 0x00000020#32, 0xFFFFFFFF#32⟩,
    ⟨"RS_SYNDROME", 0x00000021#32, 0xFFFFFFFF#32⟩,
    ⟨"RS_BM", 0x00000022#32, 0xFFFFFFFF#32⟩,
    ⟨"RS_CHIEN", 0x00000023#32, 0xFFFFFFFF#32⟩,
    ⟨"RS_FORNEY", 0x00000024#32, 0xFFFFFFFF#32⟩,
    ⟨"RS_DECODE", 0x00000025#32, 0xFFFFFFFF#32⟩,
    ⟨"MX_BASE", 0x00000030#32, 0xFFFFFFFF#32⟩,
    ⟨"MX_PLACE", 0x00000031#32, 0xFFFFFFFF#32⟩,
    ⟨"MX_MASK", 0x00000032#32, 0xFFFFF8FF#32⟩,
    ⟨"MX_PENALTY", 0x00000033#32, 0xFFFFFFFF#32⟩,
    ⟨"MX_SELECT", 0x00000034#32, 0xFFFFFFFF#32⟩,
    ⟨"MX_STAMP", 0x00000035#32, 0xFFFFFFFF#32⟩,
    ⟨"MX_EXTRACT", 0x00000036#32, 0xFFFFFFFF#32⟩,
    ⟨"XF_MAP", 0x00000040#32, 0xFFFFFFFF#32⟩ ]

/-- The word matches the row: `w & mask = match` (R94). -/
def OpcodeRow.fits (row : OpcodeRow) (w : Word) : Bool := w &&& row.mask == row.pattern

/-- The mnemonic of a command, as R94 spells it. -/
def Instr.mnemonic : Instr → String
  | .nop => "NOP"
  | .gfMul => "GF_MUL"
  | .gfDiv => "GF_DIV"
  | .polyMul => "POLY_MUL"
  | .polyDiv => "POLY_DIV"
  | .rsEncode => "RS_ENCODE"
  | .rsSyndrome => "RS_SYNDROME"
  | .rsBm => "RS_BM"
  | .rsChien => "RS_CHIEN"
  | .rsForney => "RS_FORNEY"
  | .rsDecode => "RS_DECODE"
  | .mxBase => "MX_BASE"
  | .mxPlace => "MX_PLACE"
  | .mxMask _ => "MX_MASK"
  | .mxPenalty => "MX_PENALTY"
  | .mxSelect => "MX_SELECT"
  | .mxStamp => "MX_STAMP"
  | .mxExtract => "MX_EXTRACT"
  | .xfMap => "XF_MAP"

end Sys2Proof
end

