-- ==== Sys2Proof/Machine/Bus.lean ====
section
/-! DEFINITION. The host bus: register map, address map, views, access errors and blocking (10_state.md R21-R43, 20_memory.md R70-R89). -/

namespace Sys2Proof.Machine

/-! ### Register file -/

/-- The registers of the map of R21. `pen m` is `PEN<m>`; `xfLo k`, `xfHi k` are `XF_k_LO`, `XF_k_HI`. -/
inductive Reg where
  | id
  | ctrl
  | status
  | cmd
  | opa
  | opb
  | res
  | lenA
  | lenB
  | lenR
  | eccLen
  | rsL
  | nroots
  | nerr
  | version
  | ecLevel
  | mask
  | mxVer
  | ndata
  | cwLen
  | penN1
  | penN2
  | penN3
  | penN4
  | penTotal
  | fmtWord
  | pen (m : Fin 8)
  | xfRow
  | xfCol
  | xfPx
  | xfPy
  | xfLo (k : Fin 8)
  | xfHi (k : Fin 8)
  deriving DecidableEq, Repr

/-- The offset of a register (R21). -/
def Reg.offset : Reg → Nat
  | .id => 0x000
  | .ctrl => 0x004
  | .status => 0x008
  | .cmd => 0x00C
  | .opa => 0x010
  | .opb => 0x014
  | .res => 0x018
  | .lenA => 0x01C
  | .lenB => 0x020
  | .lenR => 0x024
  | .eccLen => 0x028
  | .rsL => 0x02C
  | .nroots => 0x030
  | .nerr => 0x034
  | .version => 0x038
  | .ecLevel => 0x03C
  | .mask => 0x040
  | .mxVer => 0x044
  | .ndata => 0x048
  | .cwLen => 0x04C
  | .penN1 => 0x050
  | .penN2 => 0x054
  | .penN3 => 0x058
  | .penN4 => 0x05C
  | .penTotal => 0x060
  | .fmtWord => 0x064
  | .pen m => 0x080 + 4 * m.val
  | .xfRow => 0x0A0
  | .xfCol => 0x0A4
  | .xfPx => 0x0A8
  | .xfPy => 0x0AC
  | .xfLo k => 0x0C0 + 8 * k.val
  | .xfHi k => 0x0C4 + 8 * k.val

/-- Every register of the map, in address order. -/
def Reg.all : List Reg :=
  [.id, .ctrl, .status, .cmd, .opa, .opb, .res, .lenA, .lenB, .lenR, .eccLen, .rsL, .nroots, .nerr,
    .version, .ecLevel, .mask, .mxVer, .ndata, .cwLen, .penN1, .penN2, .penN3, .penN4, .penTotal,
    .fmtWord] ++
  (List.finRange 8).map .pen ++ [.xfRow, .xfCol, .xfPx, .xfPy] ++
  (List.finRange 8).flatMap (fun k => [.xfLo k, .xfHi k])

/-- The register at an address of the register range: an address is a register exactly when it
equals an offset of R21 (20_memory.md R72). -/
def regAt (a : Nat) : Option Reg := Reg.all.find? (fun r => r.offset == a)

/-- `ID` reads the constant 0x51520100 (R25). -/
def idWord : Word := 0x51520100#32

/-- What a register reads as: its stored field zero-extended, every other bit 0 (R23, R24). -/
def State.readReg (s : State) : Reg → Word
  | .id => idWord
  | .ctrl => (BitVec.ofBool s.regs.ie).setWidth 32
  | .status => s.statusWord
  | .cmd => s.regs.cmd
  | .opa => s.regs.opa.setWidth 32
  | .opb => s.regs.opb.setWidth 32
  | .res => s.regs.res.setWidth 32
  | .lenA => s.regs.lenA.setWidth 32
  | .lenB => s.regs.lenB.setWidth 32
  | .lenR => s.regs.lenR.setWidth 32
  | .eccLen => s.regs.eccLen.setWidth 32
  | .rsL => s.regs.rsL.setWidth 32
  | .nroots => s.regs.nroots.setWidth 32
  | .nerr => s.regs.nerr.setWidth 32
  | .version => s.regs.version.setWidth 32
  | .ecLevel => s.regs.ecLevel.setWidth 32
  | .mask => s.regs.mask.setWidth 32
  | .mxVer => s.regs.mxVer.setWidth 32
  | .ndata => s.regs.ndata.setWidth 32
  | .cwLen => s.regs.cwLen.setWidth 32
  | .penN1 => s.regs.penN1
  | .penN2 => s.regs.penN2
  | .penN3 => s.regs.penN3
  | .penN4 => s.regs.penN4
  | .penTotal => s.regs.penTotal
  | .fmtWord => s.regs.fmtWord.setWidth 32
  | .pen m => s.regs.pen[m]
  | .xfRow => s.regs.xfRow.setWidth 32
  | .xfCol => s.regs.xfCol.setWidth 32
  | .xfPx => s.regs.xfPx
  | .xfPy => s.regs.xfPy
  | .xfLo k => (s.regs.xfCoef[k]).extractLsb' 0 32
  | .xfHi k => (s.regs.xfCoef[k]).extractLsb' 32 32

/-- A host write of `v` to a register (R23, R24): a read-only register is unchanged; `STATUS` clears by
ones (R28); `CTRL` bit 31 is the soft reset, else bit 0 is `IE` (R27, R243); `CMD` issues a command
(R35, R106; a write while busy is blocked before it comes here, R80); an `RW` register stores its used bits. -/
def State.writeReg (s : State) (r : Reg) (v : Word) : State :=
  match r with
  | .id => s
  | .ctrl =>
    if v.getLsbD 31 then s.softReset else { s with regs := { s.regs with ie := v.getLsbD 0 } }
  | .status => { s with regs := s.regs.clearStatus v }
  | .cmd => s.accept v
  | .opa => { s with regs := { s.regs with opa := v.setWidth 8 } }
  | .opb => { s with regs := { s.regs with opb := v.setWidth 8 } }
  | .res => s
  | .lenA => { s with regs := { s.regs with lenA := v.setWidth 9 } }
  | .lenB => { s with regs := { s.regs with lenB := v.setWidth 9 } }
  | .lenR => s
  | .eccLen => { s with regs := { s.regs with eccLen := v.setWidth 7 } }
  | .rsL => { s with regs := { s.regs with rsL := v.setWidth 7 } }
  | .nroots => { s with regs := { s.regs with nroots := v.setWidth 9 } }
  | .nerr => s
  | .version => { s with regs := { s.regs with version := v.setWidth 6 } }
  | .ecLevel => { s with regs := { s.regs with ecLevel := v.setWidth 2 } }
  | .mask => { s with regs := { s.regs with mask := v.setWidth 3 } }
  | .mxVer => s
  | .ndata => s
  | .cwLen => { s with regs := { s.regs with cwLen := v.setWidth 12 } }
  | .penN1 => s
  | .penN2 => s
  | .penN3 => s
  | .penN4 => s
  | .penTotal => s
  | .fmtWord => s
  | .pen _ => s
  | .xfRow => { s with regs := { s.regs with xfRow := v.setWidth 8 } }
  | .xfCol => { s with regs := { s.regs with xfCol := v.setWidth 8 } }
  | .xfPx => s
  | .xfPy => s
  | .xfLo k =>
    { s with regs := { s.regs with
        xfCoef := s.regs.xfCoef.set k.val ((s.regs.xfCoef[k]).extractLsb' 32 32 ++ v) } }
  | .xfHi k =>
    { s with regs := { s.regs with
        xfCoef := s.regs.xfCoef.set k.val (v ++ (s.regs.xfCoef[k]).extractLsb' 0 32) } }

/-! ### Address map -/

/-- What one byte address outside the register range names (R71, R73). -/
inductive ByteTarget where
  /-- A buffer byte. -/
  | buffer
  /-- A read-only table byte and its constant content. -/
  | rom (v : Byte)
  /-- Module (r, c) in the raw view. -/
  | raw (r c : Nat)
  /-- Module (r, c) in the color view. -/
  | color (r c : Nat)
  /-- An unbacked matrix byte (R79) or an unmapped address (R78). -/
  | nothing
  deriving DecidableEq, Repr

/-- The byte address's target (R71, R73, R78, R79). -/
def byteTarget (a : Nat) : ByteTarget :=
  if Buffer.all.any (fun b => b.holds a) then .buffer
  else if 0x10000 ≤ a ∧ a < 0x20000 then
    if (a - 0x10000) / 256 < dMax ∧ (a - 0x10000) % 256 < dMax then
      .raw ((a - 0x10000) / 256) ((a - 0x10000) % 256)
    else .nothing
  else if 0x20000 ≤ a ∧ a < 0x30000 then
    if (a - 0x20000) / 256 < dMax ∧ (a - 0x20000) % 256 < dMax then
      .color ((a - 0x20000) / 256) ((a - 0x20000) % 256)
    else .nothing
  else match romByte a with
    | some v => .rom v
    | none => .nothing

/-- One byte of a read: its value, and whether it is an access error (R73, R78, R79). -/
def State.readByte (s : State) (a : Nat) : Byte × Bool :=
  match byteTarget a with
  | .buffer => (s.mem.read a, false)
  | .rom v => (v, false)
  | .raw r c => (moduleByte (s.moduleAt r c), false)
  | .color r c => ((BitVec.ofBool (colorOf (s.moduleAt r c))).setWidth 8, false)
  | .nothing => (0#8, true)

/-- One byte of a write; an access error changes no storage (R73, R77-R79). -/
def State.writeByte (s : State) (a : Nat) (v : Byte) : State :=
  match byteTarget a with
  | .buffer => { s with mem := s.mem.write a v }
  | .rom _ => s.accessError
  | .raw r c => { s with mem := s.mem.write (moduleAddr r c) (moduleByte (v.setWidth 3)) }
  | .color r c => s.setColor r c (v.getLsbD 0)
  | .nothing => s.accessError

/-! ### Transactions -/

/-- The number of bytes of a transaction (R70). -/
def BusWidth.bytes : BusWidth → Nat
  | .w8 => 1
  | .w16 => 2
  | .w32 => 4

/-- The address is a multiple of the width (R75). -/
def aligned (addr : BusAddr) (w : BusWidth) : Bool := addr.toNat % w.bytes == 0

/-- While a command is pending, the only reads performed are those of `ID`, `CTRL` and `STATUS` (R80). -/
def readAllowed (s : State) (addr : BusAddr) : Bool :=
  !s.busy || addr == 0x000#18 || addr == 0x004#18 || addr == 0x008#18

/-- While a command is pending, the only writes performed are those of `CTRL` and `STATUS` (R80). -/
def writeAllowed (s : State) (addr : BusAddr) : Bool :=
  !s.busy || addr == 0x004#18 || addr == 0x008#18

/-- The address lies in the register range (R72). -/
def inRegRange (addr : BusAddr) : Bool := addr.toNat < 0x1000

/-- The value and the access error of `n` byte reads from `a` on, little-endian (R74). -/
def State.readBytes (s : State) : (n a : Nat) → Nat × Bool
  | 0, _ => (0, false)
  | n + 1, a =>
    let first := s.readByte a
    let rest := s.readBytes n (a + 1)
    (first.1.toNat + 256 * rest.1, first.2 || rest.2)

/-- `n` byte writes of the low bytes of `v` from `a` on, little-endian (R74). -/
def State.writeBytes (s : State) : (n a : Nat) → (v : Word) → State
  | 0, _, _ => s
  | n + 1, a, v => (s.writeByte a (v.setWidth 8)).writeBytes n (a + 1) (v >>> 8)

/-- What `MemRead(addr, n)` returns, and whether it is an access error (R70-R80). -/
def State.readValue (s : State) (w : BusWidth) (addr : BusAddr) : Word × Bool :=
  if !readAllowed s addr then (0#32, true)
  else if !aligned addr w then (0#32, true)
  else if inRegRange addr then
    match w, regAt addr.toNat with
    | .w32, some r => (s.readReg r, false)
    | _, _ => (0#32, true)
  else
    let got := s.readBytes w.bytes addr.toNat
    (BitVec.ofNat 32 got.1, got.2)

/-- `MemRead(addr, n)`: the value goes to the host (`readData`), an access error sets `ACCERR`, and
a read has no other effect (R81). -/
def State.busRead (s : State) (w : BusWidth) (addr : BusAddr) : State :=
  let got := s.readValue w addr
  { (if got.2 then s.accessError else s) with readData := got.1 }

/-- `MemWrite(addr, n, v)` with the low n bytes of `v` (R70-R81). -/
def State.busWrite (s : State) (w : BusWidth) (addr : BusAddr) (v : Word) : State :=
  if !writeAllowed s addr then s.accessError
  else if !aligned addr w then s.accessError
  else if inRegRange addr then
    match w, regAt addr.toNat with
    | .w32, some r => s.writeReg r v
    | _, _ => s.accessError
  else s.writeBytes w.bytes addr.toNat v

end Sys2Proof.Machine
end

