-- ==== Sys2Proof/Machine/HostAgent.lean ====
section
/-! DEFINITION. The host as an agent: the statements and pseudo-instructions of the host script, the assembler and the disassembler (30_encoding.md rules R100-R104). -/

namespace Sys2Proof.Machine

/-! ### Assembler and disassembler -/

/-- The assembler's mnemonics: every command but `MX_MASK`, which needs an operand (R100). -/
def plainCommands : List Instr :=
  [.nop, .gfMul, .gfDiv, .polyMul, .polyDiv, .rsEncode, .rsSyndrome, .rsBm, .rsChien, .rsForney,
    .rsDecode, .mxBase, .mxPlace, .mxPenalty, .mxSelect, .mxStamp, .mxExtract, .xfMap]

/-- Two mnemonics are the same: case does not count (R100). -/
def sameMnemonic (a b : String) : Bool := a.toList.map Char.toUpper == b.toList.map Char.toUpper

/-- Assemble a mnemonic and the operand `#m` if there is one: `MX_MASK` takes a decimal 0..7, no
other mnemonic takes an operand (R100). -/
def assemble (mnemonic : String) (operand : Option Nat) : Option Word :=
  match operand with
  | none => (plainCommands.find? (fun i => sameMnemonic i.mnemonic mnemonic)).map encode
  | some m =>
    if sameMnemonic "MX_MASK" mnemonic && decide (m ≤ 7) then some (encode (.mxMask (BitVec.ofNat 8 m)))
    else none

/-- One hexadecimal digit, lower case (DESIGN CHOICE, log 15: R104 does not give the case). -/
def hexDigit (n : Nat) : Char :=
  if n < 10 then Char.ofNat (48 + n) else Char.ofNat (87 + n)

/-- The eight hexadecimal digits of a word, most significant first. -/
def hexDigits (w : Word) : List Char :=
  (List.range 8).map (fun k => hexDigit ((w.extractLsb' (4 * (7 - k)) 4).toNat))

/-- How a command prints: its mnemonic, and `#m` with `m = ARG[2:0]` for `MX_MASK` (R104). -/
def Instr.print : Instr → List Char
  | .mxMask arg => "MX_MASK #".toList ++ [hexDigit (maskIndex arg)]
  | i => i.mnemonic.toList

/-- Disassembly: a legal word prints as its command, an illegal one as `.word 0xhhhhhhhh` (R104). -/
def disassemble (w : Word) : List Char :=
  match decode w with
  | .ok i => Instr.print i
  | .error _ => ".word 0x".toList ++ hexDigits w

/-! ### Pseudo-instructions -/

/-- The bus address of `CMD` (R21). -/
def cmdAddr : BusAddr := 0x0000C#18

/-- The bus address of `STATUS` (R21). -/
def statusAddr : BusAddr := 0x00008#18

/-- A line of a host script: a statement, or a pseudo-instruction (R101, R102). -/
inductive Line where
  | stmt (s : Stmt)
  /-- `CMD mnemonic [#m]`. -/
  | cmd (i : Instr)
  /-- `WAIT`. -/
  | wait
  /-- `FILL8 base, b0, …, bk`. -/
  | fill8 (base : BusAddr) (bytes : List Byte)
  /-- `RUN mnemonic [#m]`. -/
  | run (i : Instr)
  deriving DecidableEq, Repr

/-- `W32 CMD, <encoding>` (R102). -/
def cmdStmt (i : Instr) : Stmt := .write .w32 cmdAddr (encode i)

/-- `wait_k: IF32 STATUS, 0x1, 0x1, wait_k`: loop while `BUSY = 1` (R102). -/
def waitStmts (k : Nat) : List Stmt := [.label (.wait k), .if32 statusAddr 1#32 1#32 (.wait k)]

/-- `W8 base, b0`, `W8 base+1, b1`, … (R102). -/
def fillStmts (base : BusAddr) : List Byte → List Stmt
  | [] => []
  | b :: bs => .write .w8 base (b.setWidth 32) :: fillStmts (base + 1#18) bs

/-- The script with its pseudo-instructions expanded; `k` numbers the fresh `WAIT` labels (R102). -/
def expandFrom : (k : Nat) → List Line → List Stmt
  | _, [] => []
  | k, .stmt s :: rest => s :: expandFrom k rest
  | k, .cmd i :: rest => cmdStmt i :: expandFrom k rest
  | k, .wait :: rest => waitStmts k ++ expandFrom (k + 1) rest
  | k, .fill8 base bytes :: rest => fillStmts base bytes ++ expandFrom k rest
  | k, .run i :: rest => cmdStmt i :: (waitStmts k ++ expandFrom (k + 1) rest)

/-- The statements of a host script (R102). -/
def expand (lines : List Line) : List Stmt := expandFrom 0 lines

/-- The machine with a host script loaded from outside, at its first line (log 5). -/
def State.withScript (s : State) (lines : List Line) : State :=
  { s with script := expand lines, pos := 0, passed := true }

/-! ### The host's turn -/

/-- The index of a label: its first place where the script has it more than once, and past the end of the
script where it has none, so that the host stops (DESIGN CHOICE, log 14: R101 says neither). -/
def labelIndex (script : List Stmt) (target : Label) : Nat :=
  script.findIdx (fun s => s == .label target)

/-- The host performs the statement it stands at, and goes to the next one or the one a jump names
(R101, R103); past the end of its script it does nothing. -/
def State.hostTurn (s : State) : State :=
  match s.script[s.pos]? with
  | none => s
  | some (.write w addr v) => { s.busWrite w addr v with pos := s.pos + 1 }
  | some (.read w addr) => { s.busRead w addr with pos := s.pos + 1 }
  | some (.expect w addr v) =>
    let t := s.busRead w addr
    { t with pos := s.pos + 1, passed := s.passed && t.readData == v }
  | some (.if32 addr mask v target) =>
    let t := s.busRead .w32 addr
    { t with pos := if t.readData &&& mask = v then labelIndex s.script target else s.pos + 1 }
  | some (.jmp target) => { s with pos := labelIndex s.script target }
  | some (.label _) => { s with pos := s.pos + 1 }

end Sys2Proof.Machine
end

