-- ==== Sys2Proof/Machine/Step.lean ====
section
/-! DEFINITION. One step of the interleaving: the engine performs the pending command, the host performs one statement of its script, or the reset input is asserted (20_memory.md rule R82, 40_control.md rule R105). -/

namespace Sys2Proof.Machine

/-- The engine performs a command word: the command it decodes to, or the illegal word (R105, R109). -/
def perform (w : Word) (s : State) : Result :=
  match decode w with
  | .ok i => exec i s
  | .error _ => execIllegal s

/-- The engine's turn: with nothing pending it has no step and the state stays (R105). -/
def engineTurn (s : State) : Result :=
  match s.pending with
  | some w => perform w s
  | none => .next s

/-- One step. `turns` says who moves; when it is empty, the engine moves if a command is pending, else
the host, which does nothing past the end of its script (R82, R105, R230, log 1). -/
def step (s : State) : Host.Outcome State Fault Refusal :=
  match s.turns with
  | .engine :: rest => engineTurn { s with turns := rest }
  | .host :: rest => .next { s with turns := rest }.hostTurn
  | .powerOn cells :: rest => .next ({ s with turns := rest }.powerOnReset cells)
  | [] =>
    match s.pending with
    | some w => perform w s
    | none => .next s.hostTurn

/-- The machine about to perform an opcode-table word: accepted as by a write to `CMD` (R106), the
engine's turn next. The block fetches nothing (R44): issuing a word is what a fetch would be (log 5). -/
def State.withFetchWord (s : State) (nbits w : Nat) : State :=
  { s.accept (BitVec.ofNat 32 (w % 2 ^ nbits)) with turns := .engine :: s.turns }

end Sys2Proof.Machine
end

