-- ==== Sys2Proof/Safety.lean ====
section
/-! DEFINITION. The terms claims are stated in: the invariant of the machine, what a completed command may have changed, and the formulas of the spec that the meanings are compared with. -/

namespace Sys2Proof.Machine

/-! ### The invariant -/

/-- What every reachable state satisfies. -/
structure Inv (s : State) : Prop where
  /-- RAM is in its canonical form. -/
  canonical : s.mem.wf = true
  /-- RAM lists only bytes that exist, and a module byte stores bits 2:0 only (R46-R49, R52). -/
  backed : ∀ cell ∈ s.mem, isRamAddr cell.1 = true ∧ (isModuleAddr cell.1 = true → cell.2.toNat < 8)
  /-- The matrix held is of a version 1..40, or there is none (R41). -/
  version : s.regs.mxVer.toNat ≤ 40
  /-- With no matrix there are no data modules counted (R41). -/
  noMatrix : s.regs.mxVer = 0#6 → s.regs.ndata = 0#15
  /-- A pending command is the word in `CMD`, and `DONE` is 0 while it is pending (R106, R107). -/
  pendingCmd : ∀ w, s.pending = some w → s.regs.cmd = w ∧ s.regs.done = false
  /-- `UNC` holds a reason exactly when the last command ended with `EUNCORR` (R34). -/
  reason : s.regs.unc ≠ .none ↔ s.regs.err = .eUncorr
  /-- `PEN_TOTAL` is the sum of the four terms (R42). -/
  penaltySum : s.regs.penTotal = s.regs.penN1 + s.regs.penN2 + s.regs.penN3 + s.regs.penN4
  /-- `LEN_R` is at most the length of the largest product (R123). -/
  resultLength : s.regs.lenR.toNat ≤ 511
  /-- At most 255 corrections are counted (R146). -/
  corrections : s.regs.nerr.toNat ≤ 255

/-! ### What changed and what did not -/

/-- Every byte of RAM reads as before. -/
def SameRam (s t : State) : Prop := ∀ a, t.mem.read a = s.mem.read a

/-- Every byte of RAM outside the `n` addresses from `lo` on reads as before. -/
def SameRamOutside (lo n : Nat) (s t : State) : Prop :=
  ∀ a, ¬(lo ≤ a ∧ a < lo + n) → t.mem.read a = s.mem.read a

/-- Every byte of RAM that is no module byte reads as before. -/
def SameBuffers (s t : State) : Prop := ∀ a, isModuleAddr a = false → t.mem.read a = s.mem.read a

/-- Only registers, RAM and `pending` changed: `pending` is now empty, the registers are `g`, and
the configuration and the host are as before. What RAM holds is said beside it. -/
def Ended (s t : State) (g : Regs) : Prop := t = { s with regs := g, pending := none, mem := t.mem }

/-- The registers after a completion with code `c` and reason `u` (R107). -/
def Regs.completed (g : Regs) (c : ErrCode) (u : UncReason) : Regs :=
  { g with done := true, err := c, unc := u }

/-- The flags `NONDATA` and `FIXED` of every module are as before. -/
def SameFlags (s t : State) : Prop :=
  ∀ r c, r < dMax → c < dMax →
    nonData (t.moduleAt r c) = nonData (s.moduleAt r c) ∧ isFixed (t.moduleAt r c) = isFixed (s.moduleAt r c)

/-! ### Formulas of the spec -/

/-- The carry-less product of two bytes in GF(2)[x] (R127). -/
def carrylessProduct (a b : Byte) : Nat :=
  (List.range 8).foldl (fun acc k => if b.getLsbD k then acc ^^^ (a.toNat <<< k) else acc) 0

/-- The carry-less product reduced modulo 0x11D (R127). -/
def reducedProduct (a b : Byte) : Byte := BitVec.ofNat 8 (bchReduce 0x11D 8 7 (carrylessProduct a b))

/-- `R(α^j)` of a block of n bytes: `⊕_(i<n) A[n-1-i] ⊗ EXP[(i j) mod 255]` (R135). -/
def syndromeOf (n : Nat) (byteAt : Nat → Byte) (j : Nat) : Byte :=
  gfSumRange n (fun i => gfMul (byteAt (n - 1 - i)) (gfExp ((i * j) % 255)))

/-- `⊕_(k<n) c_k ⊗ z^k` (R141, R144). -/
def valueAt (n : Nat) (coefAt : Nat → Byte) (z : Byte) : Byte :=
  gfSumRange n (fun k => gfMul (coefAt k) (gfPow z k))

/-- `α^(-i) = EXP[(255 - i) mod 255]` (R141). -/
def inversePower (i : Nat) : Byte := gfExp ((255 - i) % 255)

/-- `σ′(z) = ⊕ SIGMA[m] ⊗ z^(m-1)` over odd m, `1 ≤ m ≤ L` (R144). -/
def sigmaPrime (l : Nat) (sigmaAt : Nat → Byte) (z : Byte) : Byte :=
  gfSumRange l (fun k => if k % 2 = 0 then gfMul (sigmaAt (k + 1)) (gfPow z k) else 0#8)

/-- The number of pairs (r, c) below d that a predicate picks. -/
def countPairs (d : Nat) (p : Nat → Nat → Bool) : Nat :=
  ((List.range d).map (fun r => (List.range d).countP (fun c => p r c))).sum

/-- The number of differing bits of two 18-bit words. -/
def hamming (a b : BitVec 18) : Nat := (List.range 18).countP (fun i => a.getLsbD i != b.getLsbD i)

/-- The run of `len` modules from `i` on is a maximal run of one color of the line (R181). -/
def maximalRun (line : List Bool) (i len : Nat) : Bool :=
  decide (i + len ≤ line.length) &&
    (List.range len).all (fun k => line.getD (i + k) false == line.getD i false) &&
    (i == 0 || line.getD (i - 1) false != line.getD i false) &&
    (i + len == line.length || line.getD (i + len) false != line.getD i false)

/-- N1 of a line as R181 words it: `3 + (len - 5)` for every maximal run of length `len ≥ 5`. -/
def n1OfRuns (line : List Bool) : Nat :=
  ((List.range line.length).map (fun i =>
    ((List.range (line.length + 1)).map (fun len =>
      if 5 ≤ len ∧ maximalRun line i len = true then 3 + (len - 5) else 0)).sum)).sum

/-- The used bits of a register as a mask (the "used bits" column of R21). -/
def Reg.usedBits : Reg → Word
  | .id => 0xFFFFFFFF#32
  | .ctrl => 0x00000001#32
  | .status => 0x000003FF#32
  | .cmd => 0xFFFFFFFF#32
  | .opa => 0x000000FF#32
  | .opb => 0x000000FF#32
  | .res => 0x000000FF#32
  | .lenA => 0x000001FF#32
  | .lenB => 0x000001FF#32
  | .lenR => 0x000003FF#32
  | .eccLen => 0x0000007F#32
  | .rsL => 0x0000007F#32
  | .nroots => 0x000001FF#32
  | .nerr => 0x000001FF#32
  | .version => 0x0000003F#32
  | .ecLevel => 0x00000003#32
  | .mask => 0x00000007#32
  | .mxVer => 0x0000003F#32
  | .ndata => 0x00007FFF#32
  | .cwLen => 0x00000FFF#32
  | .penN1 => 0xFFFFFFFF#32
  | .penN2 => 0xFFFFFFFF#32
  | .penN3 => 0xFFFFFFFF#32
  | .penN4 => 0xFFFFFFFF#32
  | .penTotal => 0xFFFFFFFF#32
  | .fmtWord => 0x00007FFF#32
  | .pen _ => 0xFFFFFFFF#32
  | .xfRow => 0x000000FF#32
  | .xfCol => 0x000000FF#32
  | .xfPx => 0xFFFFFFFF#32
  | .xfPy => 0xFFFFFFFF#32
  | .xfLo _ => 0xFFFFFFFF#32
  | .xfHi _ => 0xFFFFFFFF#32

/-- The registers a host write stores into as they are written: access `RW`, but for `CTRL` and
`CMD`, whose writes act (R21, R27, R35). -/
def Reg.plainRw : Reg → Bool
  | .opa | .opb | .lenA | .lenB | .eccLen | .rsL | .nroots | .version | .ecLevel | .mask | .cwLen
  | .xfRow | .xfCol | .xfLo _ | .xfHi _ => true
  | .id | .ctrl | .status | .cmd | .res | .lenR | .nerr | .mxVer | .ndata | .penN1 | .penN2 | .penN3
  | .penN4 | .penTotal | .fmtWord | .pen _ | .xfPx | .xfPy => false

/-- The read-only registers (R21). -/
def Reg.readOnly : Reg → Bool
  | .id | .res | .lenR | .nerr | .mxVer | .ndata | .penN1 | .penN2 | .penN3 | .penN4 | .penTotal
  | .fmtWord | .pen _ | .xfPx | .xfPy => true
  | .ctrl | .status | .cmd | .opa | .opb | .lenA | .lenB | .eccLen | .rsL | .nroots | .version
  | .ecLevel | .mask | .cwLen | .xfRow | .xfCol | .xfLo _ | .xfHi _ => false

/-- The machine after a command that ended with a code and changed nothing else (R107, R213). -/
def State.endedWith (s : State) (c : ErrCode) (u : UncReason) : State :=
  { s with pending := none, regs := s.regs.completed c u }

/-- The code is one that only a check made before the first write gives (R213). -/
def ErrCode.precondition : ErrCode → Bool
  | .eIllegal | .eLen | .eEcc | .eDivZero | .eVersion | .eSeq | .eCap | .eXform => true
  | .ok | .eUncorr => false

/-! ### The command tables of R99 and R212 -/

/-- The outcomes a command can end with (R211, R212). -/
def outcomesOf : Instr → List (ErrCode × UncReason)
  | .nop | .gfMul => [(.ok, .none)]
  | .gfDiv => [(.ok, .none), (.eDivZero, .none)]
  | .polyMul => [(.ok, .none), (.eLen, .none)]
  | .polyDiv => [(.ok, .none), (.eLen, .none), (.eDivZero, .none)]
  | .rsEncode | .rsSyndrome => [(.ok, .none), (.eEcc, .none), (.eLen, .none)]
  | .rsBm => [(.ok, .none), (.eEcc, .none), (.eUncorr, .degree)]
  | .rsChien => [(.ok, .none), (.eLen, .none), (.eUncorr, .rootCount)]
  | .rsForney => [(.ok, .none), (.eEcc, .none), (.eLen, .none), (.eUncorr, .derivative)]
  | .rsDecode =>
    [(.ok, .none), (.eEcc, .none), (.eLen, .none), (.eUncorr, .degree), (.eUncorr, .rootCount),
      (.eUncorr, .derivative)]
  | .mxBase => [(.ok, .none), (.eVersion, .none)]
  | .mxPlace => [(.ok, .none), (.eSeq, .none), (.eCap, .none)]
  | .mxMask _ | .mxPenalty | .mxSelect | .mxStamp | .mxExtract => [(.ok, .none), (.eSeq, .none)]
  | .xfMap => [(.ok, .none), (.eXform, .none)]

/-- The coefficient registers. -/
def coefRegs : List Reg := (List.finRange 8).flatMap (fun k => [.xfLo k, .xfHi k])

/-- The five penalty registers of R186. -/
def penaltyRegs : List Reg := [.penN1, .penN2, .penN3, .penN4, .penTotal]

/-- The registers in the "reads" column of R99. -/
def regReads : Instr → List Reg
  | .nop => []
  | .gfMul | .gfDiv => [.opa, .opb]
  | .polyMul | .polyDiv => [.lenA, .lenB]
  | .rsEncode | .rsSyndrome | .rsDecode => [.lenA, .eccLen]
  | .rsBm => [.eccLen]
  | .rsChien => [.lenA, .rsL]
  | .rsForney => [.lenA, .eccLen, .rsL, .nroots]
  | .mxBase => [.version]
  | .mxPlace => [.mxVer, .cwLen]
  | .mxMask _ | .mxPenalty | .mxSelect | .mxExtract => [.mxVer]
  | .mxStamp => [.mxVer, .ecLevel, .mask]
  | .xfMap => [.xfRow, .xfCol] ++ coefRegs

/-- The registers in the "writes" column of R99; the fields of `STATUS` are said apart. -/
def regWrites : Instr → List Reg
  | .nop | .rsSyndrome | .mxPlace | .mxMask _ => []
  | .gfMul | .gfDiv => [.res]
  | .polyMul | .polyDiv | .rsEncode => [.lenR]
  | .rsBm => [.rsL]
  | .rsChien => [.nroots]
  | .rsForney => [.nerr]
  | .rsDecode => [.rsL, .nroots, .nerr]
  | .mxBase => [.mxVer, .ndata]
  | .mxPenalty => penaltyRegs
  | .mxSelect => (List.finRange 8).map .pen ++ penaltyRegs ++ [.mask]
  | .mxStamp => [.fmtWord]
  | .mxExtract => [.cwLen]
  | .xfMap => [.xfPx, .xfPy]

/-- The buffers in the "reads" column of R99. -/
def bufReads : Instr → List Buffer
  | .polyMul | .polyDiv => [.bufA, .bufB]
  | .rsEncode | .rsSyndrome | .rsDecode => [.bufA]
  | .rsBm => [.syn]
  | .rsChien => [.sigma]
  | .rsForney => [.sigma, .omega, .errpos, .bufA]
  | .mxPlace => [.cw]
  | .nop | .gfMul | .gfDiv | .mxBase | .mxMask _ | .mxPenalty | .mxSelect | .mxStamp | .mxExtract
  | .xfMap => []

/-- The buffers in the "writes" column of R99. -/
def bufWrites : Instr → List Buffer
  | .polyMul | .polyDiv | .rsEncode => [.bufR]
  | .rsSyndrome => [.syn]
  | .rsBm => [.sigma, .omega]
  | .rsChien => [.errpos]
  | .rsForney => [.bufA]
  | .rsDecode => [.syn, .sigma, .omega, .errpos, .bufA]
  | .mxExtract => [.cw]
  | .nop | .gfMul | .gfDiv | .mxBase | .mxPlace | .mxMask _ | .mxPenalty | .mxSelect | .mxStamp
  | .xfMap => []

/-- The matrix stands in the "reads" column of R99. -/
def readsMatrix : Instr → Bool
  | .mxPlace | .mxMask _ | .mxPenalty | .mxSelect | .mxStamp | .mxExtract => true
  | .nop | .gfMul | .gfDiv | .polyMul | .polyDiv | .rsEncode | .rsSyndrome | .rsBm | .rsChien
  | .rsForney | .rsDecode | .mxBase | .xfMap => false

/-- The matrix stands in the "writes" column of R99. -/
def writesMatrix : Instr → Bool
  | .mxBase | .mxPlace | .mxMask _ | .mxSelect | .mxStamp => true
  | .nop | .gfMul | .gfDiv | .polyMul | .polyDiv | .rsEncode | .rsSyndrome | .rsBm | .rsChien
  | .rsForney | .rsDecode | .mxPenalty | .mxExtract | .xfMap => false

/-- `STATUS.CLEAN` stands in the "writes" column of R99 (R32). -/
def writesClean : Instr → Bool
  | .rsSyndrome | .rsDecode => true
  | .nop | .gfMul | .gfDiv | .polyMul | .polyDiv | .rsEncode | .rsBm | .rsChien | .rsForney
  | .mxBase | .mxPlace | .mxMask _ | .mxPenalty | .mxSelect | .mxStamp | .mxExtract | .xfMap => false

/-- Two states agree on everything a command may read (R98, R99) and on the open parameter. -/
structure SameInputs (i : Instr) (s s' : State) : Prop where
  param : s'.cfg = s.cfg
  regs : ∀ r ∈ regReads i, s'.readReg r = s.readReg r
  buffers : ∀ b ∈ bufReads i, ∀ k < b.size, s'.buf b k = s.buf b k
  matrix : readsMatrix i = true → ∀ r c, r < dMax → c < dMax → s'.moduleAt r c = s.moduleAt r c

/-! ### The bus map -/

/-- The bus address of a register. -/
def Reg.addr (r : Reg) : BusAddr := BitVec.ofNat 18 r.offset

/-- What a register reads as after a reset (the "reset" column of R21). -/
def Reg.resetWord : Reg → Word
  | .id => 0x51520100#32
  | _ => 0#32

/-- The address lies in one of the ranges `lo .. hi`. -/
def inRanges (ranges : List (Nat × Nat)) (a : Nat) : Bool :=
  ranges.any (fun p => decide (p.1 ≤ a) && decide (a ≤ p.2))

/-- The read-only tables of R71: `EXP`, `LOG`, `GEN`, `FMT`, `VER`, `ALIGN`. -/
def tableRanges : List (Nat × Nat) :=
  [(0x02000, 0x021FF), (0x02200, 0x022FF), (0x03000, 0x0527F), (0x05400, 0x0547F), (0x05500, 0x055A3),
    (0x05600, 0x0573F)]

/-- The buffers of R71: `A`, `B`, `R`, `SYN`, `SIGMA`, `OMEGA`, `ERRPOS`, `CW`. -/
def bufferRanges : List (Nat × Nat) :=
  [(0x01000, 0x010FF), (0x01100, 0x011FF), (0x01200, 0x013FF), (0x01400, 0x0147F), (0x01480, 0x014FF),
    (0x01500, 0x0157F), (0x01600, 0x016FF), (0x08000, 0x08FFF)]

/-- The two matrix views of R71. -/
def matrixRanges : List (Nat × Nat) := [(0x10000, 0x1FFFF), (0x20000, 0x2FFFF)]

/-- The address is mapped: the offset of a register, or in a region of R71 (R72, R78). -/
def mappedAddr (a : Nat) : Bool :=
  Reg.all.any (fun r => r.offset == a) || inRanges (bufferRanges ++ tableRanges ++ matrixRanges) a

/-- The bus address of module (r, c) in the raw view (R73). -/
def rawAddr (r c : Nat) : BusAddr := BitVec.ofNat 18 (0x10000 + 256 * r + c)

/-- The bus address of module (r, c) in the color view (R73). -/
def colorAddr (r c : Nat) : BusAddr := BitVec.ofNat 18 (0x20000 + 256 * r + c)

/-- The byte a table holds at an address, 0 where there is none. -/
def tableByte (a : Nat) : Byte := (romByte a).getD 0#8

/-! ### Polynomials and the codec -/

/-- Coefficient k of the product of two coefficient arrays: `⊕ A[i] ⊗ B[k-i]` (R123). -/
def convolution (la lb : Nat) (aAt bAt : Nat → Byte) (k : Nat) : Byte :=
  gfSumRange la (fun i => if i ≤ k ∧ k - i < lb then gfMul (aAt i) (bAt (k - i)) else 0#8)

/-- The variables of R138 with arrays as functions of the index. -/
structure BmTrace where
  c : Nat → Byte
  p : Nat → Byte
  l : Nat
  m : Nat
  b : Byte

/-- `C[k+m] <- C[k+m] ⊕ ((d ⊘ b) ⊗ P[k])` (R138). -/
def BmTrace.updated (v : BmTrace) (d : Byte) (k : Nat) : Byte :=
  if v.m ≤ k then v.c k ^^^ gfMul (gfDiv d v.b) (v.p (k - v.m)) else v.c k

/-- The discrepancy of round r (R138). -/
def BmTrace.gap (syn : Nat → Byte) (v : BmTrace) (r : Nat) : Byte :=
  syn r ^^^ gfSumRange v.l (fun k => gfMul (v.c (k + 1)) (syn (r - (k + 1))))

/-- One round of the loop of R138. -/
def BmTrace.round (syn : Nat → Byte) (r : Nat) (v : BmTrace) : BmTrace :=
  if v.gap syn r = 0#8 then { v with m := v.m + 1 }
  else if 2 * v.l ≤ r then
    { c := v.updated (v.gap syn r), p := v.c, l := r + 1 - v.l, m := 1, b := v.gap syn r }
  else { v with c := v.updated (v.gap syn r), m := v.m + 1 }

/-- The variables of R138 after r rounds. -/
def bmTrace (syn : Nat → Byte) : Nat → BmTrace
  | 0 => { c := fun k => if k = 0 then 1#8 else 0#8, p := fun k => if k = 0 then 1#8 else 0#8,
           l := 0, m := 1, b := 1#8 }
  | r + 1 => (bmTrace syn r).round syn r

/-- A connection polynomial `1 ⊕ c_1 x ⊕ … ⊕ c_l x^l` generates `S_0 .. S_(e-1)`: from index l on each
syndrome is the combination of the l before it that the coefficients give. -/
def generates (e l : Nat) (cAt synAt : Nat → Byte) : Prop :=
  cAt 0 = 1#8 ∧ ∀ r, l ≤ r → r < e → gfSumRange (l + 1) (fun k => gfMul (cAt k) (synAt (r - k))) = 0#8

/-- The positions i < n with `σ(α^(-i)) = 0`, ascending (R141, R143). -/
def rootPositions (n l : Nat) (sigmaAt : Nat → Byte) : List Nat :=
  (List.range n).filter (fun i => valueAt (l + 1) sigmaAt (inversePower i) == 0#8)

/-- `Y_i = α^i ⊗ (ω(α^(-i)) ⊘ σ′(α^(-i)))` (R144). -/
def errorValue (e l : Nat) (sigmaAt omegaAt : Nat → Byte) (i : Nat) : Byte :=
  gfMul (gfExp i) (gfDiv (valueAt e omegaAt (inversePower i)) (sigmaPrime l sigmaAt (inversePower i)))

/-! ### The matrix -/

/-- The module is a data module of the current symbol (R53). -/
def State.isData (s : State) (r c : Nat) : Bool :=
  decide (r < s.dim) && decide (c < s.dim) && !nonData (s.moduleAt r c)

/-- Every byte of RAM but those of the current symbol's modules reads as before. -/
def SameOutsideSymbol (s t : State) : Prop :=
  ∀ a, (¬∃ r c, r < s.dim ∧ c < s.dim ∧ a = moduleAddr r c) → t.mem.read a = s.mem.read a

/-- Modules that are no data modules are as before, and the data modules keep their flags. -/
def OnlyDataColors (s t : State) : Prop :=
  SameOutsideSymbol s t ∧ SameFlags s t ∧
    ∀ r c, r < dMax → c < dMax → s.isData r c = false → t.moduleAt r c = s.moduleAt r c

/-- What each step of the construction writes at a module, in step order (R161, R163-R169). -/
def baseSteps (v r c : Nat) : List (Option (BitVec 3)) :=
  [finderStep (dimension v) r c, separatorStep (dimension v) r c, timingStep (dimension v) r c,
    alignStep (alignCentres v) r c, darkStep v r c, reservedStep v r c]

/-- The number of the two-column strip that column c belongs to, from the right, column 6 being
skipped (R172). -/
def stripOf (d c : Nat) : Nat := if 6 < c then (d - 1 - c) / 2 else (d - 2 - c) / 2

/-- Module p comes before module q in the serpentine order: an earlier strip, or in one strip an
earlier row of its direction (even strips upward), or in one row the right column (R172). -/
def comesBefore (d : Nat) (p q : Nat × Nat) : Prop :=
  stripOf d p.2 < stripOf d q.2 ∨
    (stripOf d p.2 = stripOf d q.2 ∧
      ((if stripOf d p.2 % 2 = 0 then q.1 < p.1 else p.1 < q.1) ∨ (p.1 = q.1 ∧ q.2 < p.2)))

/-- The color of module (r, c). -/
def State.dark (s : State) (r c : Nat) : Bool := colorOf (s.moduleAt r c)

/-- The lines of the penalty: the D rows, then the D columns (R180). -/
def State.lines (s : State) : List (List Bool) :=
  (List.range s.dim).map (fun r => (List.range s.dim).map (fun c => s.dark r c)) ++
    (List.range s.dim).map (fun c => (List.range s.dim).map (fun r => s.dark r c))

/-- The four modules from (r, c) have one color (R182). -/
def State.blockOfOne (s : State) (r c : Nat) : Bool :=
  s.dark r c == s.dark r (c + 1) && s.dark r c == s.dark (r + 1) c && s.dark r c == s.dark (r + 1) (c + 1)

/-- The pattern of R183 stands at p of the line, with four light modules before it or after it. -/
def n3Occurs (outside : Bool) (line : List Bool) (p : Nat) : Bool :=
  (List.range 7).all (fun k => line.getD (p + k) false == decide (k ≠ 1 ∧ k ≠ 5)) &&
    ((List.range 4).all (fun k => if p + k < 4 then outside else !line.getD (p + k - 4) false) ||
      (List.range 4).all (fun k => if line.length ≤ p + 7 + k then outside else !line.getD (p + 7 + k) false))

/-- N3 of a line: 40 for each place p in 0..D-7 where the pattern occurs (R183). -/
def n3OfLine (outside : Bool) (line : List Bool) : Nat :=
  40 * (List.range (line.length - 6)).countP (n3Occurs outside line)

/-- The four terms of the penalty of the current colors, by the wording of R181-R184. -/
def State.penaltyTerms (s : State) : Penalty where
  n1 := (s.lines.map n1OfRuns).sum
  n2 := 3 * countPairs (s.dim - 1) s.blockOfOne
  n3 := (s.lines.map (n3OfLine s.cfg.n3OutsideLight)).sum
  n4 := 10 * ((100 * (countPairs s.dim s.dark : Int) - 50 * (s.dim * s.dim : Nat)).natAbs / (5 * (s.dim * s.dim)))

/-- The carry-less product of two naturals, `k` bits of the second. -/
def clProduct (a b : Nat) : (k : Nat) → Nat
  | 0 => 0
  | k + 1 => clProduct a b k ^^^ (if b.testBit k then a <<< k else 0)

/-- The closed form of the alignment coordinates of R166. -/
def alignClosedForm (v : Nat) : List Nat :=
  let num := v / 7 + 2
  let gap := if v = 32 then 26 else 2 * ((4 * v + 2 * num + 1) / (2 * num - 2))
  6 :: (List.range (num - 1)).map (fun t => 4 * v + 10 - gap * (num - 2 - t))

/-! ### The transform -/

/-- `p` is x/w rounded to the nearest integer, a tie going away from zero (R202). -/
def RoundedAway (x w p : Int) : Prop :=
  2 * (x - p * w).natAbs ≤ w.natAbs ∧ (2 * (x - p * w).natAbs = w.natAbs → x.natAbs < (p * w).natAbs)

end Sys2Proof.Machine
end

