-- ==== Sys2Proof/Certificates/Slice0/Obligations.lean ====
section
/-! DEFINITION. The statements for the provers: resets and steps, encoding, the host bus, and the commands family by family. -/

section

open Sys2Proof Sys2Proof.Machine

/-! ### Resets, steps, encoding -/

/-- R60, R240, R243: after either reset every register reads its value in the reset column and
nothing is pending; a soft reset keeps RAM, and after a power-on reset RAM can hold anything. -/
def Obligations.ResetRegisterValues : Prop :=
  (∀ (s : State) (cells : List Host.Cell),
    (s.powerOnReset cells).pending = none ∧ (∀ r, (s.powerOnReset cells).readReg r = r.resetWord)) ∧
  (∀ s : State, s.softReset.pending = none ∧ (∀ r, s.softReset.readReg r = r.resetWord) ∧
    s.softReset.mem = s.mem) ∧
  (∀ (s : State) (ram : Memory), ram.wf = true →
    (∀ cell ∈ ram, isRamAddr cell.1 = true ∧ (isModuleAddr cell.1 = true → cell.2.toNat < 8)) →
    (s.powerOnReset ram).mem = ram)

/-- The invariant holds after power-on, whatever the parameter is and whatever RAM holds. The shape
of RAM as a canonical list is the model's own (log 2). -/
def Obligations.ResetMeetsInvariant : Prop :=
  ∀ (cfg : Config) (cells : List Host.Cell), Inv (State.powerOn cfg (Memory.ofCells cells))

/-- Every step keeps the invariant, whoever moves: the engine, the host or the reset input. -/
def Obligations.StepKeepsInvariant : Prop :=
  ∀ s t : State, Inv s → step s = .next t → Inv t

/-- R105: when the pending word decodes to a command, the engine's step is `exec` of that command at
that state. Who moves is the model's `turns` (log 1): the engine at an `engine` turn, and with no turn
prescribed whenever a command is pending. A word put in place as `withFetchWord` does (log 5) runs so in the
very next step, at the state its acceptance leaves. -/
def Obligations.StepRunsDecodedCommand : Prop :=
  (∀ (s : State) (w : Word) (i : Instr), s.pending = some w → decode w = .ok i →
    (s.turns = [] → step s = exec i s) ∧
    (∀ rest, s.turns = .engine :: rest → step s = exec i { s with turns := rest })) ∧
  (∀ (s : State) (nbits w : Nat) (i : Instr), nbits ≤ 32 → decodeTableWord nbits w = some i →
    step (s.withFetchWord nbits w) = exec i (s.accept (BitVec.ofNat 32 (w % 2 ^ nbits))))

/-- R109: performing a word that fits no row of the opcode map ends with `EILLEGAL` and changes nothing but
the completion fields. -/
def Obligations.IllegalWordEndsEillegal : Prop :=
  ∀ (s : State) (w : Word), (∀ row ∈ opcodeMap, row.fits w = false) →
    perform w s = .next (s.endedWith .eIllegal .none) ∧
    (s.pending = some w → engineTurn s = .next (s.endedWith .eIllegal .none))

/-- R94: a word is a legal command exactly when it fits a row of the opcode map, it fits at most one
row, and the command it decodes to is well-formed and has that row's mnemonic. -/
def Obligations.LegalWordsAreTheMap : Prop :=
  (∀ w : Word, (∃ i, decode w = .ok i) ↔ ∃ row ∈ opcodeMap, row.fits w = true) ∧
  (∀ w : Word, ∀ row ∈ opcodeMap, ∀ row' ∈ opcodeMap,
    row.fits w = true → row'.fits w = true → row = row') ∧
  (∀ (w : Word) (i : Instr), decode w = .ok i →
    WellFormed i ∧ ∀ row ∈ opcodeMap, row.fits w = true → row.mnemonic = i.mnemonic)

/-- Decoding and encoding are inverse: each well-formed command has its word, with every mask index,
and each legal word is the word of the command it decodes to. -/
def Obligations.DecodeInvertsEncode : Prop :=
  (∀ i : Instr, WellFormed i → decode (encode i) = .ok i) ∧
  (∀ (w : Word) (i : Instr), decode w = .ok i → encode i = w)

/-- A word of each family, written from R91 and R94, read as bytes in bus order. -/
def Obligations.WrittenWordsDecode : Prop :=
  decodeBytes [0x00#8, 0x00#8, 0x00#8, 0x00#8] = .ok (.nop, []) ∧
  decodeBytes [0x11#8, 0x00#8, 0x00#8, 0x00#8] = .ok (.gfDiv, []) ∧
  decodeBytes [0x25#8, 0x00#8, 0x00#8, 0x00#8] = .ok (.rsDecode, []) ∧
  decodeBytes [0x32#8, 0x05#8, 0x00#8, 0x00#8] = .ok (.mxMask 5#8, []) ∧
  decodeBytes [0x40#8, 0x00#8, 0x00#8, 0x00#8] = .ok (.xfMap, []) ∧
  decodeBytes [0x32#8, 0x08#8, 0x00#8, 0x00#8] = .error .badArgument ∧
  decodeBytes [0x10#8, 0x01#8, 0x00#8, 0x00#8] = .error .badArgument ∧
  decodeBytes [0x10#8, 0x00#8, 0x01#8, 0x00#8] = .error .reservedNotZero ∧
  decodeBytes [0x14#8, 0x00#8, 0x00#8, 0x00#8] = .error .unassignedOpcode

/-- R100: each command but `MX_MASK` assembles to its word from its mnemonic alone, in any case, and takes
no operand; `MX_MASK #m` assembles to `0x32 | (m << 8)` for m in 0..7 and for nothing else; what is assembled
decodes to the command. -/
def Obligations.AssembledWordsDecode : Prop :=
  (∀ i ∈ plainCommands, ∀ name : String, name.toList.map Char.toUpper = i.mnemonic.toList →
    assemble name none = some (encode i) ∧ decode (encode i) = .ok i ∧ ∀ m, assemble name (some m) = none) ∧
  (∀ name : String, name.toList.map Char.toUpper = "MX_MASK".toList →
    assemble name none = none ∧
    (∀ m, m ≤ 7 → assemble name (some m) = some (0x00000032#32 ||| (BitVec.ofNat 32 m <<< 8)) ∧
      decode (0x00000032#32 ||| (BitVec.ofNat 32 m <<< 8)) = .ok (.mxMask (BitVec.ofNat 8 m))) ∧
    (∀ m, 7 < m → assemble name (some m) = none))

/-! ### The host bus -/

/-- R106: a write to `CMD` while idle is accepted and changes `CMD`, `pending` and `DONE` only; while a
command is pending it is not accepted and sets `ACCERR` only. -/
def Obligations.CommandWordAcceptance : Prop :=
  (∀ (s : State) (w : Word), s.pending = none →
    s.busWrite .w32 0x0000C#18 w =
      { s with pending := some w, regs := { s.regs with cmd := w, done := false } }) ∧
  (∀ (s : State) (w w' : Word), s.pending = some w' →
    s.busWrite .w32 0x0000C#18 w = { s with regs := { s.regs with accErr := true } })

/-- R80: while a command is pending, a 32-bit read of `ID`, `CTRL` or `STATUS` and a 32-bit write of
`STATUS` or `CTRL` are performed as when idle; every other access, a 1- or 2-byte access to these three among
them, reads 0, changes nothing and sets `ACCERR`. -/
def Obligations.BusyBlocksOtherAccesses : Prop :=
  ∀ (s : State) (w : Word), s.pending = some w →
    (∀ r : Reg, r = .id ∨ r = .ctrl ∨ r = .status →
      s.busRead .w32 r.addr = { s with readData := s.readReg r }) ∧
    (∀ (r : Reg) (v : Word), r = .ctrl ∨ r = .status → s.busWrite .w32 r.addr v = s.writeReg r v) ∧
    (∀ n addr, n ≠ .w32 ∨ (addr ≠ Reg.id.addr ∧ addr ≠ Reg.ctrl.addr ∧ addr ≠ Reg.status.addr) →
      s.busRead n addr = { s with readData := 0#32, regs := { s.regs with accErr := true } }) ∧
    (∀ n addr v, n ≠ .w32 ∨ (addr ≠ Reg.ctrl.addr ∧ addr ≠ Reg.status.addr) →
      s.busWrite n addr v = { s with regs := { s.regs with accErr := true } })

/-- R23, R24: on an idle block a write stores exactly the used bits of a read/write register and
changes no other register and no RAM, whatever the value; a write to a read-only register changes
nothing; an accepted write to `CMD` stores all its bits; a read returns the field zero-extended. -/
def Obligations.RegisterWritesStoreUsedBits : Prop :=
  ∀ s : State, s.pending = none →
    (∀ (r : Reg) (v : Word), r.plainRw = true →
      (s.busWrite .w32 r.addr v).readReg r = v &&& r.usedBits ∧
      (∀ r', r' ≠ r → (s.busWrite .w32 r.addr v).readReg r' = s.readReg r') ∧
      (s.busWrite .w32 r.addr v).mem = s.mem ∧ (s.busWrite .w32 r.addr v).pending = none) ∧
    (∀ (r : Reg) (v : Word), r.readOnly = true → s.busWrite .w32 r.addr v = s) ∧
    (∀ v : Word, (s.busWrite .w32 Reg.cmd.addr v).readReg .cmd = v) ∧
    (∀ r, s.busRead .w32 r.addr = { s with readData := s.readReg r }) ∧
    (∀ r, s.readReg r &&& ~~~r.usedBits = 0#32)

/-- R28: the fields of `STATUS`, and its write, which clears `DONE` and `ACCERR` by ones and does
nothing else, idle or busy. -/
def Obligations.StatusFieldsAndClearing : Prop :=
  ∀ (s : State),
    ((s.readReg .status).getLsbD 0 = s.pending.isSome ∧ (s.readReg .status).getLsbD 1 = s.regs.done ∧
      (s.readReg .status).getLsbD 2 = s.regs.accErr ∧ (s.readReg .status).getLsbD 3 = s.regs.clean ∧
      (s.readReg .status).extractLsb' 4 4 = s.regs.err.code ∧
      (s.readReg .status).extractLsb' 8 2 = s.regs.unc.code ∧
      (s.readReg .status).extractLsb' 10 22 = 0#22) ∧
    (∀ v : Word, s.busWrite .w32 0x00008#18 v =
      { s with regs := { s.regs with
          done := if v.getLsbD 1 then false else s.regs.done
          accErr := if v.getLsbD 2 then false else s.regs.accErr } })

/-- R27, R243: a write to `CTRL` with bit 31 = 1 empties `pending` and puts every register at its reset
value and does nothing else, in every state; with bit 31 = 0 it stores `IE <- v[0]`. `CTRL` reads `IE` in
bit 0 and 0 in every other bit. -/
def Obligations.ControlWriteResetsOrStores : Prop :=
  ∀ (s : State) (v : Word),
    (v.getLsbD 31 = true →
      s.busWrite .w32 0x00004#18 v = { s with pending := none, regs := Regs.reset } ∧
      ∀ r, (s.busWrite .w32 0x00004#18 v).readReg r = r.resetWord) ∧
    (v.getLsbD 31 = false →
      s.busWrite .w32 0x00004#18 v = { s with regs := { s.regs with ie := v.getLsbD 0 } }) ∧
    (s.readReg .ctrl).getLsbD 0 = s.regs.ie ∧ (s.readReg .ctrl).extractLsb' 1 31 = 0#31

/-- R222, R243: a soft reset written while a command is pending races with the engine; both orders are
runs of the model, the registers end at reset either way, and RAM has the command's effect or none. The
order is the model's `turns` (log 1). -/
def Obligations.SoftResetRace : Prop :=
  ∀ (s : State) (w v : Word) (rest : List Turn), s.pending = some w → v.getLsbD 31 = true →
    s.script[s.pos]? = some (.write .w32 0x00004#18 v) →
    (∃ p t, perform w s = .next p ∧ step { s with turns := .engine :: .host :: rest } = .next t ∧
      step t = .next { s with pending := none, regs := Regs.reset, mem := p.mem, pos := s.pos + 1, turns := rest }) ∧
    (∃ t u, step { s with turns := .host :: .engine :: rest } = .next t ∧ step t = .next u ∧
      u = { s with pending := none, regs := Regs.reset, pos := s.pos + 1, turns := rest })

/-- R81: a read gives the host the value of its address, sets `ACCERR` exactly if it is an access error, and
has no other effect; repeated at once it gives the same value and state. What value each address has, and
which accesses are errors, is said by the statements on registers, buffers, tables and views. -/
def Obligations.ReadsHaveNoSideEffects : Prop :=
  ∀ (s : State) (n : BusWidth) (addr : BusAddr),
    s.busRead n addr = { s with
      readData := (s.readValue n addr).1
      regs := { s.regs with accErr := s.regs.accErr || (s.readValue n addr).2 } } ∧
    (s.busRead n addr).busRead n addr = s.busRead n addr

/-- R75, R76, R78, R81: a misaligned access, a 1- or 2-byte access in the register range, and an access to an
unmapped address read 0, change nothing else and set `ACCERR`, idle or busy. That a misaligned access sets
`ACCERR` is the model's reading of R75 and R81 beside R31 (log 7), and that 0x05740..0x05747 are unmapped is its
choice (log 20). -/
def Obligations.BadAddressesAreAccessErrors : Prop :=
  ∀ (s : State) (n : BusWidth) (addr : BusAddr) (v : Word),
    (addr.toNat % n.bytes ≠ 0 ∨ (addr.toNat < 0x1000 ∧ n ≠ .w32) ∨ mappedAddr addr.toNat = false) →
    s.busRead n addr = { s with readData := 0#32, regs := { s.regs with accErr := true } } ∧
    s.busWrite n addr v = { s with regs := { s.regs with accErr := true } }

/-- R77, R241: a write to a read-only table changes nothing and is an access error; a read is none, and
returns the table's constant bytes, little-endian, in every state and after any reset. -/
def Obligations.TablesAreReadOnly : Prop :=
  ∀ (s : State) (n : BusWidth) (addr : BusAddr) (v : Word), s.pending = none →
    addr.toNat % n.bytes = 0 → inRanges tableRanges addr.toNat = true →
    s.busWrite n addr v = { s with regs := { s.regs with accErr := true } } ∧
    ∃ got, s.busRead n addr = { s with readData := got } ∧
      ∀ k, k < 4 → got.extractLsb' (8 * k) 8 = if k < n.bytes then tableByte (addr.toNat + k) else 0#8

/-- R74, R83: an aligned write in the buffers stores its bytes little-endian and changes no other byte of
RAM and no register; the read that follows returns the value, zero-extended. -/
def Obligations.BufferWritesReadBack : Prop :=
  ∀ (s : State) (n : BusWidth) (addr : BusAddr) (v : Word), s.mem.wf = true → s.pending = none →
    addr.toNat % n.bytes = 0 → inRanges bufferRanges addr.toNat = true →
    ∃ t, s.busWrite n addr v = t ∧ t = { s with mem := t.mem } ∧
      (∀ k < n.bytes, t.mem.read (addr.toNat + k) = v.extractLsb' (8 * k) 8) ∧
      SameRamOutside addr.toNat n.bytes s t ∧
      t.busRead n addr = { t with readData := v &&& BitVec.ofNat 32 (2 ^ (8 * n.bytes) - 1) }

/-- R74: an aligned access outside the register range is the composition of byte accesses, the byte
at the address itself in bits 7:0, each handled by the rule of its own address. -/
def Obligations.WideAccessesAreByteAccesses : Prop :=
  ∀ (s : State) (addr : BusAddr) (v : Word), s.pending = none → 0x1000 ≤ addr.toNat →
    (addr.toNat % 2 = 0 →
      s.busWrite .w16 addr v = (s.busWrite .w8 addr v).busWrite .w8 (addr + 1#18) (v >>> 8) ∧
      s.readValue .w16 addr =
        ((s.readValue .w8 addr).1 ||| ((s.readValue .w8 (addr + 1#18)).1 <<< 8),
          (s.readValue .w8 addr).2 || (s.readValue .w8 (addr + 1#18)).2)) ∧
    (addr.toNat % 4 = 0 →
      s.busWrite .w32 addr v = (s.busWrite .w16 addr v).busWrite .w16 (addr + 2#18) (v >>> 16) ∧
      s.readValue .w32 addr =
        ((s.readValue .w16 addr).1 ||| ((s.readValue .w16 (addr + 2#18)).1 <<< 16),
          (s.readValue .w16 addr).2 || (s.readValue .w16 (addr + 2#18)).2))

/-- R73, R79: both views of the matrix, byte by byte, whatever `MX_VER` is: the raw view stores and
returns bits 2:0, the color view bit 0 only, keeping both flags; an unbacked byte reads 0, ignores its
write and is an access error. -/
def Obligations.MatrixViews : Prop :=
  ∀ (s : State) (r c : Nat) (v : Word), s.mem.wf = true → s.pending = none → r < 256 → c < 256 →
    (r < 177 → c < 177 →
      s.readValue .w8 (rawAddr r c) = ((s.moduleAt r c).setWidth 32, false) ∧
      s.readValue .w8 (colorAddr r c) = ((BitVec.ofBool (s.dark r c)).setWidth 32, false) ∧
      (∃ t, s.busWrite .w8 (rawAddr r c) v = t ∧ t = { s with mem := t.mem } ∧
        t.moduleAt r c = v.setWidth 3 ∧ SameRamOutside (moduleAddr r c) 1 s t) ∧
      (∃ t, s.busWrite .w8 (colorAddr r c) v = t ∧ t = { s with mem := t.mem } ∧
        t.dark r c = v.getLsbD 0 ∧ nonData (t.moduleAt r c) = nonData (s.moduleAt r c) ∧
        isFixed (t.moduleAt r c) = isFixed (s.moduleAt r c) ∧ SameRamOutside (moduleAddr r c) 1 s t)) ∧
    (177 ≤ r ∨ 177 ≤ c →
      s.readValue .w8 (rawAddr r c) = (0#32, true) ∧ s.readValue .w8 (colorAddr r c) = (0#32, true) ∧
      s.busWrite .w8 (rawAddr r c) v = { s with regs := { s.regs with accErr := true } } ∧
      s.busWrite .w8 (colorAddr r c) v = { s with regs := { s.regs with accErr := true } })

/-- R102: at the `IF32` of an expanded `WAIT` the host goes back to its fresh label while `BUSY = 1` and
goes on when it is 0, and changes nothing else but what its read of `STATUS` returned. -/
def Obligations.WaitPollsBusy : Prop :=
  ∀ (s : State) (k : Nat) (before after : List Stmt),
    s.script = before ++ waitStmts k ++ after → .label (.wait k) ∉ before → s.pos = before.length + 1 →
    s.hostTurn = { s with
      readData := s.readReg .status
      pos := if s.pending.isSome then before.length else before.length + 2 }

/-- R220: `IRQ = DONE ∧ IE`; a completion asserts it exactly while `IE = 1`, setting `IE` asserts it while
`DONE = 1`, and clearing `DONE`, an acceptance, `IE <- 0` and both resets deassert it. -/
def Obligations.InterruptOutput : Prop :=
  (∀ s : State, s.irq = (s.regs.done && s.regs.ie)) ∧
  (∀ (i : Instr) (s t : State), exec i s = .next t → t.irq = s.regs.ie) ∧
  (∀ (s : State) (v : Word), v.getLsbD 31 = false →
    (s.busWrite .w32 0x00004#18 v).irq = (s.regs.done && v.getLsbD 0)) ∧
  (∀ (s : State) (v : Word), v.getLsbD 1 = true → (s.busWrite .w32 0x00008#18 v).irq = false) ∧
  (∀ (s : State) (w : Word), s.pending = none → (s.busWrite .w32 0x0000C#18 w).irq = false) ∧
  (∀ (s : State) (cells : List Host.Cell), s.softReset.irq = false ∧ (s.powerOnReset cells).irq = false)

/-! ### All commands -/

/-- R107, R111, R212: every command completes from every state, with one of the outcomes the table gives
it; it changes registers, `pending` and RAM only. -/
def Obligations.EveryCommandCompletes : Prop :=
  ∀ (i : Instr) (s : State), WellFormed i →
    ∃ t, exec i s = .next t ∧ t.pending = none ∧ t.regs.done = true ∧
      (t.regs.err, t.regs.unc) ∈ outcomesOf i ∧ t = { s with regs := t.regs, pending := none, mem := t.mem }

/-- R213: a command that ends with a precondition error, and `RS_FORNEY` when it ends with `EUNCORR`,
changes nothing but the completion fields. -/
def Obligations.PreconditionFailuresWriteNothing : Prop :=
  ∀ (i : Instr) (s t : State), exec i s = .next t →
    (t.regs.err.precondition = true ∨ (i = .rsForney ∧ t.regs.err = .eUncorr)) →
    t = s.endedWith t.regs.err t.regs.unc

/-- R99, R31, R32: a command changes no register, buffer or module that its row does not list as
written, and of `STATUS` only the completion fields, and `CLEAN` where it is listed. -/
def Obligations.CommandsWriteOnlyTheirRow : Prop :=
  ∀ (i : Instr) (s t : State), s.mem.wf = true → s.regs.mxVer.toNat ≤ 40 → exec i s = .next t →
    (∀ r, r ≠ .status → r ∉ regWrites i → t.readReg r = s.readReg r) ∧
    t.regs.accErr = s.regs.accErr ∧ (writesClean i = false → t.regs.clean = s.regs.clean) ∧
    (∀ b, b ∉ bufWrites i → ∀ k < b.size, t.buf b k = s.buf b k) ∧
    (writesMatrix i = false → ∀ r c, r < dMax → c < dMax → t.moduleAt r c = s.moduleAt r c)

/-- R98, R112: a command's effect depends on nothing but what its row lists as read and the open
parameter: from two states that agree there it ends with the same code, and each register and each byte
of RAM is either kept in both or ends equal in both. -/
def Obligations.CommandsReadOnlyTheirRow : Prop :=
  ∀ (i : Instr) (s s' t t' : State), s.mem.wf = true → s'.mem.wf = true → s.regs.mxVer.toNat ≤ 40 →
    s'.regs.mxVer.toNat ≤ 40 → SameInputs i s s' → exec i s = .next t → exec i s' = .next t' →
    t'.regs.err = t.regs.err ∧ t'.regs.unc = t.regs.unc ∧
    ((t.regs.clean = s.regs.clean ∧ t'.regs.clean = s'.regs.clean) ∨ t'.regs.clean = t.regs.clean) ∧
    (∀ r, r ≠ .status →
      (t.readReg r = s.readReg r ∧ t'.readReg r = s'.readReg r) ∨ t'.readReg r = t.readReg r) ∧
    (∀ a, (t.mem.read a = s.mem.read a ∧ t'.mem.read a = s'.mem.read a) ∨
      t'.mem.read a = t.mem.read a)

/-- R198, R53: no command but `MX_BASE` changes `NONDATA` or `FIXED`; placing, masking and selecting
change data modules only; stamping changes format and version modules only. -/
def Obligations.FlagsKeptByAllButBase : Prop :=
  ∀ (i : Instr) (s t : State), s.mem.wf = true → s.regs.mxVer.toNat ≤ 40 → exec i s = .next t →
    (i ≠ .mxBase → SameFlags s t) ∧
    ((i = .mxPlace ∨ (∃ arg, i = .mxMask arg) ∨ i = .mxSelect) →
      ∀ r c, r < dMax → c < dMax → s.isData r c = false → t.moduleAt r c = s.moduleAt r c) ∧
    (i = .mxStamp → ∀ r c, r < dMax → c < dMax →
      (r, c) ∉ formatModules s.dim ++ versionModules s.matrixVersion → t.moduleAt r c = s.moduleAt r c)

/-! ### Control and GF commands -/

/-- R110: `NOP` completes with success and changes nothing but the completion fields. -/
def Obligations.NopCompletes : Prop :=
  ∀ s : State, exec .nop s = .next (s.endedWith .ok .none) ∧
    (s.regs.accErr = false → s.regs.clean = false →
      (s.endedWith .ok .none).readReg .status = 0x00000002#32)

/-- R120, R127: `GF_MUL` writes to `RES` the carry-less product of the operands reduced modulo 0x11D, and
nothing else. -/
def Obligations.GfMulResult : Prop :=
  ∀ s : State, exec .gfMul s = .next { s with
    pending := none
    regs := ({ s.regs with res := reducedProduct s.regs.opa s.regs.opb } : Regs).completed .ok .none }

/-- R121: with a non-zero divisor `GF_DIV` writes to `RES` the one element whose product with `OPB` is
`OPA`; with a zero divisor it ends with `EDIVZERO` and writes nothing. -/
def Obligations.GfDivResult : Prop :=
  ∀ s : State,
    (s.regs.opb ≠ 0#8 → ∃ q, reducedProduct q s.regs.opb = s.regs.opa ∧
      (∀ q', reducedProduct q' s.regs.opb = s.regs.opa → q' = q) ∧
      exec .gfDiv s = .next { s with
        pending := none, regs := ({ s.regs with res := q } : Regs).completed .ok .none }) ∧
    (s.regs.opb = 0#8 → exec .gfDiv s = .next (s.endedWith .eDivZero .none))

/-- R116, R117: the contents of `EXP` and `LOG` at their bus addresses. -/
def Obligations.ExpAndLogTables : Prop :=
  tableByte 0x02000 = 1#8 ∧
  (∀ i < 254, tableByte (0x02001 + i) =
    (if (tableByte (0x02000 + i)).getLsbD 7 then
      ((tableByte (0x02000 + i)).setWidth 9 <<< 1) ^^^ 0x11D#9
    else (tableByte (0x02000 + i)).setWidth 9 <<< 1).setWidth 8) ∧
  (∀ i < 257, tableByte (0x020FF + i) = tableByte (0x02000 + i)) ∧
  (∀ i < 255, tableByte (0x02200 + (tableByte (0x02000 + i)).toNat) = BitVec.ofNat 8 i) ∧
  tableByte 0x02200 = 0#8

/-- R126: the identities of the field, with the `EXP` and `LOG` of the tables. -/
def Obligations.FieldLaws : Prop :=
  (∀ a b : Byte, a ≠ 0#8 → b ≠ 0#8 → gfDiv (gfMul a b) b = a) ∧
  (∀ a : Byte, a ≠ 0#8 → gfExp (gfLog a) = a) ∧
  (∀ i j : Nat, gfMul (gfExp i) (gfExp j) = gfExp ((i + j) % 255)) ∧
  (∀ a b : Byte, gfMul a b = gfMul b a) ∧
  (∀ a b c : Byte, gfMul (gfMul a b) c = gfMul a (gfMul b c)) ∧
  (∀ a b c : Byte, gfMul a (b ^^^ c) = gfMul a b ^^^ gfMul a c) ∧
  (∀ a : Byte, gfMul a 1#8 = a) ∧ (∀ a : Byte, a ≠ 0#8 → gfDiv a a = 1#8)

/-- R123: `POLY_MUL` writes the convolution of the operands to `R[0..la+lb-2]` and its length to `LEN_R`,
and nothing else; a length outside 1..256 gives `ELEN` and writes nothing. -/
def Obligations.PolyMulIsConvolution : Prop :=
  ∀ s : State, s.mem.wf = true →
    (1 ≤ s.la ∧ s.la ≤ 256 ∧ 1 ≤ s.lb ∧ s.lb ≤ 256 →
      ∃ t, exec .polyMul s = .next t ∧
        Ended s t (({ s.regs with lenR := BitVec.ofNat 10 (s.la + s.lb - 1) } : Regs).completed .ok .none) ∧
        (∀ k < s.la + s.lb - 1,
          t.buf .bufR k = convolution s.la s.lb (s.buf .bufA) (s.buf .bufB) k) ∧
        SameRamOutside Buffer.bufR.base (s.la + s.lb - 1) s t) ∧
    (¬(1 ≤ s.la ∧ s.la ≤ 256 ∧ 1 ≤ s.lb ∧ s.lb ≤ 256) →
      exec .polyMul s = .next (s.endedWith .eLen .none))

/-- R124: `POLY_DIV` leaves in `R` a quotient and a remainder that multiply back to the dividend,
`A = Q · B ⊕ rem`, the remainder of lb-1 coefficients; with la < lb the quotient is empty and the remainder
is the dividend padded by leading zeros. `ELEN`, then `EDIVZERO`, writes nothing. -/
def Obligations.PolyDivIsLongDivision : Prop :=
  ∀ s : State, s.mem.wf = true →
    (1 ≤ s.la ∧ s.la ≤ 256 ∧ 1 ≤ s.lb ∧ s.lb ≤ 256 → s.buf .bufB 0 ≠ 0#8 →
      (s.lb ≤ s.la → ∃ t, exec .polyDiv s = .next t ∧
        Ended s t (({ s.regs with lenR := BitVec.ofNat 10 s.la } : Regs).completed .ok .none) ∧
        (∀ k < s.la, s.buf .bufA k =
          convolution (s.la - s.lb + 1) s.lb (t.buf .bufR) (s.buf .bufB) k ^^^
            (if k < s.la - s.lb + 1 then 0#8 else t.buf .bufR k)) ∧
        SameRamOutside Buffer.bufR.base s.la s t) ∧
      (s.la < s.lb → ∃ t, exec .polyDiv s = .next t ∧
        Ended s t (({ s.regs with lenR := BitVec.ofNat 10 (s.lb - 1) } : Regs).completed .ok .none) ∧
        (∀ k < s.lb - 1, t.buf .bufR k =
          if k < s.lb - 1 - s.la then 0#8 else s.buf .bufA (k - (s.lb - 1 - s.la))) ∧
        SameRamOutside Buffer.bufR.base (s.lb - 1) s t)) ∧
    (¬(1 ≤ s.la ∧ s.la ≤ 256 ∧ 1 ≤ s.lb ∧ s.lb ≤ 256) →
      exec .polyDiv s = .next (s.endedWith .eLen .none)) ∧
    (1 ≤ s.la ∧ s.la ≤ 256 ∧ 1 ≤ s.lb ∧ s.lb ≤ 256 → s.buf .bufB 0 = 0#8 →
      exec .polyDiv s = .next (s.endedWith .eDivZero .none))

/-! ### Reed-Solomon commands -/

/-- R131, R56: for each valid length e the `GEN` table holds a polynomial of degree e with leading
coefficient 1 that vanishes at `α^0 .. α^(e-1)`, and 0 past it; for every other length it holds 0. -/
def Obligations.GeneratorPolynomials : Prop :=
  (∀ e ∈ genset, tableByte (0x03000 + 128 * e) = 1#8 ∧
    (∀ j < e, valueAt (e + 1) (fun k => tableByte (0x03000 + 128 * e + (e - k))) (gfExp j) = 0#8) ∧
    (∀ j, e < j → j < 128 → tableByte (0x03000 + 128 * e + j) = 0#8)) ∧
  (∀ e < 69, e ∉ genset → ∀ j < 128, tableByte (0x03000 + 128 * e + j) = 0#8)

/-- R134, R133: `RS_ENCODE` writes to `R[0..e-1]` the remainder of `data · x^e` by the generator of the
`GEN` table: with some quotient of k coefficients, quotient times generator, plus the remainder, is the
data followed by e zeros. `EECC`, then `ELEN`, writes nothing. -/
def Obligations.RsEncodeIsRemainder : Prop :=
  ∀ s : State, s.mem.wf = true →
    (s.ecc ∈ genset → 1 ≤ s.la → s.la + s.ecc ≤ 255 →
      ∃ t quot, exec .rsEncode s = .next t ∧
        Ended s t (({ s.regs with lenR := BitVec.ofNat 10 s.ecc } : Regs).completed .ok .none) ∧
        (∀ p < s.la + s.ecc, (if p < s.la then s.buf .bufA p else 0#8) =
          convolution s.la (s.ecc + 1) quot (fun j => tableByte (0x03000 + 128 * s.ecc + j)) p ^^^
            (if p < s.la then 0#8 else t.buf .bufR (p - s.la))) ∧
        SameRamOutside Buffer.bufR.base s.ecc s t) ∧
    (s.ecc ∉ genset → exec .rsEncode s = .next (s.endedWith .eEcc .none)) ∧
    (s.ecc ∈ genset → ¬(1 ≤ s.la ∧ s.la + s.ecc ≤ 255) →
      exec .rsEncode s = .next (s.endedWith .eLen .none))

/-- R136: the block the encoder produces, data then ECC, has e zero syndromes. -/
def Obligations.EncodedBlockIsClean : Prop :=
  ∀ s t : State, s.mem.wf = true → s.ecc ∈ genset → 1 ≤ s.la → s.la + s.ecc ≤ 255 →
    exec .rsEncode s = .next t →
    ∀ j < s.ecc, syndromeOf (s.la + s.ecc)
      (fun p => if p < s.la then t.buf .bufA p else t.buf .bufR (p - s.la)) j = 0#8

/-- R137, R135: `RS_SYNDROME` writes `S_0 .. S_(e-1)` to `SYN` and whether all are zero to `CLEAN`, and
nothing else. `EECC`, then `ELEN`, writes nothing. -/
def Obligations.RsSyndromeResult : Prop :=
  ∀ s : State, s.mem.wf = true →
    (s.ecc ∈ genset → s.ecc + 1 ≤ s.la → s.la ≤ 255 →
      ∃ t, exec .rsSyndrome s = .next t ∧
        Ended s t (({ s.regs with clean := t.regs.clean } : Regs).completed .ok .none) ∧
        (∀ j < s.ecc, t.buf .syn j = syndromeOf s.la (s.buf .bufA) j) ∧
        (t.regs.clean = true ↔ ∀ j < s.ecc, t.buf .syn j = 0#8) ∧
        SameRamOutside Buffer.syn.base s.ecc s t) ∧
    (s.ecc ∉ genset → exec .rsSyndrome s = .next (s.endedWith .eEcc .none)) ∧
    (s.ecc ∈ genset → ¬(s.ecc + 1 ≤ s.la ∧ s.la ≤ 255) →
      exec .rsSyndrome s = .next (s.endedWith .eLen .none))

/-- R140, R138, R139: `RS_BM` writes to `SIGMA[0..e]` and `RS_L` what the loop of R138 ends with and to
`OMEGA` the evaluator, also when the degree test fails; it succeeds exactly when `2 L ≤ e`. `EECC` writes
nothing. -/
def Obligations.RsBmResult : Prop :=
  ∀ s : State, s.mem.wf = true →
    (s.ecc ∈ genset →
      ∃ t, exec .rsBm s = .next t ∧ (bmTrace (s.buf .syn) s.ecc).l ≤ s.ecc ∧
        (2 * (bmTrace (s.buf .syn) s.ecc).l ≤ s.ecc →
          Ended s t (({ s.regs with
            rsL := BitVec.ofNat 7 (bmTrace (s.buf .syn) s.ecc).l } : Regs).completed .ok .none)) ∧
        (s.ecc < 2 * (bmTrace (s.buf .syn) s.ecc).l →
          Ended s t (({ s.regs with
            rsL := BitVec.ofNat 7 (bmTrace (s.buf .syn) s.ecc).l } : Regs).completed .eUncorr .degree)) ∧
        (∀ k ≤ s.ecc, t.buf .sigma k = (bmTrace (s.buf .syn) s.ecc).c k) ∧
        (∀ k < s.ecc, t.buf .omega k =
          gfSumRange (k + 1) (fun i => gfMul (t.buf .sigma i) (s.buf .syn (k - i)))) ∧
        (∀ a, ¬(Buffer.sigma.base ≤ a ∧ a ≤ Buffer.sigma.base + s.ecc) →
          ¬(Buffer.omega.base ≤ a ∧ a < Buffer.omega.base + s.ecc) → t.mem.read a = s.mem.read a)) ∧
    (s.ecc ∉ genset → exec .rsBm s = .next (s.endedWith .eEcc .none))

/-- What R138 is for: the σ and L that `RS_BM` leaves generate the syndromes, σ has degree at most L, and
no shorter recurrence generates them. -/
def Obligations.RsBmFindsShortestRecurrence : Prop :=
  ∀ s t : State, s.mem.wf = true → s.ecc ∈ genset → exec .rsBm s = .next t →
    generates s.ecc t.regs.rsL.toNat (t.buf .sigma) (s.buf .syn) ∧
    (∀ k, t.regs.rsL.toNat < k → k ≤ s.ecc → t.buf .sigma k = 0#8) ∧
    ∀ (l : Nat) (coef : Nat → Byte), generates s.ecc l coef (s.buf .syn) → t.regs.rsL.toNat ≤ l

/-- R143, R141: `RS_CHIEN` records in `ERRPOS` the positions where σ vanishes, ascending, and their
number in `NROOTS`, also when the count test fails; it succeeds exactly when the number is L. `ELEN` writes
nothing. -/
def Obligations.RsChienResult : Prop :=
  ∀ s : State, s.mem.wf = true →
    (1 ≤ s.la → s.la ≤ 255 → s.regs.rsL.toNat ≤ 68 →
      ∃ t roots, roots = rootPositions s.la s.regs.rsL.toNat (s.buf .sigma) ∧ exec .rsChien s = .next t ∧
        (roots.length = s.regs.rsL.toNat →
          Ended s t (({ s.regs with nroots := BitVec.ofNat 9 roots.length } : Regs).completed .ok .none)) ∧
        (roots.length ≠ s.regs.rsL.toNat →
          Ended s t
            (({ s.regs with nroots := BitVec.ofNat 9 roots.length } : Regs).completed .eUncorr .rootCount)) ∧
        (∀ k i, roots[k]? = some i → (t.buf .errpos k).toNat = i) ∧
        SameRamOutside Buffer.errpos.base roots.length s t) ∧
    (¬(1 ≤ s.la ∧ s.la ≤ 255 ∧ s.regs.rsL.toNat ≤ 68) →
      exec .rsChien s = .next (s.endedWith .eLen .none))

/-- R146, R144, R145: `RS_FORNEY` XORs into each byte of the block the values of the positions that name
it (a position listed twice counts twice) and sets `NERR` to their number; if σ′ vanishes at a position it
ends with `EUNCORR` and writes nothing. `EECC`, then `ELEN`, writes nothing. -/
def Obligations.RsForneyResult : Prop :=
  ∀ s : State, s.mem.wf = true →
    (s.ecc ∈ genset → s.ecc + 1 ≤ s.la → s.la ≤ 255 → s.regs.rsL.toNat ≤ 68 →
      s.regs.nroots.toNat ≤ 255 → (∀ k < s.regs.nroots.toNat, (s.buf .errpos k).toNat < s.la) →
      ((∀ k < s.regs.nroots.toNat,
          sigmaPrime s.regs.rsL.toNat (s.buf .sigma) (inversePower (s.buf .errpos k).toNat) ≠ 0#8) →
        ∃ t, exec .rsForney s = .next t ∧
          Ended s t (({ s.regs with nerr := s.regs.nroots } : Regs).completed .ok .none) ∧
          (∀ p < s.la, t.buf .bufA p = s.buf .bufA p ^^^
            gfSumRange s.regs.nroots.toNat (fun k =>
              if s.la - 1 - (s.buf .errpos k).toNat = p then
                errorValue s.ecc s.regs.rsL.toNat (s.buf .sigma) (s.buf .omega) (s.buf .errpos k).toNat
              else 0#8)) ∧
          SameRamOutside Buffer.bufA.base s.la s t) ∧
      ((∃ k < s.regs.nroots.toNat,
          sigmaPrime s.regs.rsL.toNat (s.buf .sigma) (inversePower (s.buf .errpos k).toNat) = 0#8) →
        exec .rsForney s = .next (s.endedWith .eUncorr .derivative))) ∧
    (s.ecc ∉ genset → exec .rsForney s = .next (s.endedWith .eEcc .none)) ∧
    (s.ecc ∈ genset →
      ¬(s.ecc + 1 ≤ s.la ∧ s.la ≤ 255 ∧ s.regs.rsL.toNat ≤ 68 ∧ s.regs.nroots.toNat ≤ 255 ∧
        ∀ k < s.regs.nroots.toNat, (s.buf .errpos k).toNat < s.la) →
      exec .rsForney s = .next (s.endedWith .eLen .none))

/-- R147, R148: `RS_DECODE` does what the four stage commands do one after another: it stops after the
first on a clean block, with the three counts at 0, it ends where a stage ends with `EUNCORR`, and else it
ends as `RS_FORNEY` does. `EECC`, then `ELEN`, writes nothing. -/
def Obligations.DecodeIsTheFourStages : Prop :=
  ∀ s : State, s.mem.wf = true →
    (s.ecc ∈ genset → s.ecc + 1 ≤ s.la → s.la ≤ 255 →
      ∃ s1, exec .rsSyndrome s = .next s1 ∧
        (s1.regs.clean = true →
          exec .rsDecode s =
            .next { s1 with regs := { s1.regs with rsL := 0#7, nroots := 0#9, nerr := 0#9 } }) ∧
        (s1.regs.clean = false → ∃ s2, exec .rsBm s1 = .next s2 ∧
          (s2.regs.err = .eUncorr → exec .rsDecode s = .next s2) ∧
          (s2.regs.err = .ok → ∃ s3, exec .rsChien s2 = .next s3 ∧
            (s3.regs.err = .eUncorr → exec .rsDecode s = .next s3) ∧
            (s3.regs.err = .ok → exec .rsDecode s = exec .rsForney s3)))) ∧
    (s.ecc ∉ genset → exec .rsDecode s = .next (s.endedWith .eEcc .none)) ∧
    (s.ecc ∈ genset → ¬(s.ecc + 1 ≤ s.la ∧ s.la ≤ 255) →
      exec .rsDecode s = .next (s.endedWith .eLen .none))

/-- R148, R214: when `RS_DECODE` does not succeed, `A` and `NERR` are unchanged, and it never ends with the
reason "σ′ is zero", because a σ that passes the root count has simple roots. -/
def Obligations.FailedDecodeKeepsBlock : Prop :=
  ∀ s t : State, s.mem.wf = true → exec .rsDecode s = .next t →
    t.regs.unc ≠ .derivative ∧
    (t.regs.err ≠ .ok → t.regs.nerr = s.regs.nerr ∧
      ∀ k < Buffer.bufA.size, t.buf .bufA k = s.buf .bufA k)

/-- R137, R140, R149 for one error: a block with zero syndromes but for one codeword, wrong by `y` at
position `i`, gives `S_j = y ⊗ α^(i j)`, `σ = 1 ⊕ α^i x`, `ω = y` and `L = 1`, and `RS_DECODE` restores it. -/
def Obligations.DecodeCorrectsOneCodeword : Prop :=
  ∀ (s : State) (block : Nat → Byte) (i : Nat) (y : Byte), s.mem.wf = true → s.ecc ∈ genset →
    s.ecc + 1 ≤ s.la → s.la ≤ 255 → i < s.la → y ≠ 0#8 →
    (∀ j < s.ecc, syndromeOf s.la block j = 0#8) →
    (∀ p < s.la, s.buf .bufA p = if p = s.la - 1 - i then block p ^^^ y else block p) →
    ∃ t, exec .rsDecode s = .next t ∧
      Ended s t (({ s.regs with
        clean := false, rsL := 1#7, nroots := 1#9, nerr := 1#9 } : Regs).completed .ok .none) ∧
      (∀ p < s.la, t.buf .bufA p = block p) ∧
      (∀ j < s.ecc, t.buf .syn j = gfMul y (gfExp (i * j))) ∧
      (∀ k ≤ s.ecc, t.buf .sigma k = if k = 0 then 1#8 else if k = 1 then gfExp i else 0#8) ∧
      (∀ k < s.ecc, t.buf .omega k = if k = 0 then y else 0#8) ∧ (t.buf .errpos 0).toNat = i

/-- R149: a block with zero syndromes in which up to half of e codewords were changed is restored
exactly, and `NERR` is the number of changed codewords. -/
def Obligations.DecodeCorrectsHalfOfEcc : Prop :=
  ∀ (s : State) (block : Nat → Byte), s.mem.wf = true → s.ecc ∈ genset → s.ecc + 1 ≤ s.la →
    s.la ≤ 255 → (∀ j < s.ecc, syndromeOf s.la block j = 0#8) →
    2 * (List.range s.la).countP (fun p => s.buf .bufA p != block p) ≤ s.ecc →
    ∃ t, exec .rsDecode s = .next t ∧ t.regs.err = .ok ∧
      (∀ p < s.la, t.buf .bufA p = block p) ∧
      t.regs.nerr.toNat = (List.range s.la).countP (fun p => s.buf .bufA p != block p)

/-! ### Matrix commands -/

/-- R170, R162: for a version 1..40 `MX_BASE` clears all 177 × 177 bytes, writes each module of the square
as the last step that writes it says, and sets `MX_VER` and `NDATA`, the number of its data modules, which for
versions 1, 2, 3, 7, 14, 21 and 40 is what R171 lists; for any other version it ends with `EVERSION` and writes
nothing. -/
def Obligations.MxBaseResult : Prop :=
  ∀ (s : State) (v : Nat), s.mem.wf = true → s.regs.version.toNat = v →
    (1 ≤ v ∧ v ≤ 40 →
      ∃ t, exec .mxBase s = .next t ∧
        Ended s t (({ s.regs with mxVer := s.regs.version, ndata := t.regs.ndata } : Regs).completed .ok .none) ∧
        t.regs.ndata.toNat = countPairs (dimension v) (fun r c => !nonData (t.moduleAt r c)) ∧
        (∀ p ∈ [(1, 208), (2, 359), (3, 567), (7, 1568), (14, 4651), (21, 9252), (40, 29648)],
          v = p.1 → t.regs.ndata.toNat = p.2) ∧
        (∀ r c, r < dMax → c < dMax → t.mem.read (moduleAddr r c) =
          if r < dimension v ∧ c < dimension v then
            moduleByte (((baseSteps v r c).reverse.findSome? id).getD 0#3)
          else 0#8) ∧
        SameBuffers s t) ∧
    (¬(1 ≤ v ∧ v ≤ 40) → exec .mxBase s = .next (s.endedWith .eVersion .none))

/-- R161: no module is written by two steps of the construction, but for timing modules under an
alignment pattern, and there both steps write the same byte. -/
def Obligations.BaseStepsDoNotConflict : Prop :=
  ∀ v r c i j : Nat, 1 ≤ v → v ≤ 40 → r < dimension v → c < dimension v → i < j →
    ∀ m m', (baseSteps v r c)[i]? = some (some m) → (baseSteps v r c)[j]? = some (some m') →
      i = 2 ∧ j = 3 ∧ m = m'

/-- R172: `ORDER` holds exactly the data modules of the square outside column 6, in serpentine order. -/
def Obligations.OrderIsSerpentine : Prop :=
  ∀ s : State, s.mem.wf = true → 1 ≤ s.matrixVersion → s.matrixVersion ≤ 40 →
    (∀ r c, (r, c) ∈ s.order ↔ s.isData r c = true ∧ c ≠ 6) ∧
    s.order.Pairwise (comesBefore s.dim)

/-- R175, R173, R174: `MX_PLACE` gives the b-th module of `ORDER` bit `7 - b mod 8` of codeword `b / 8`, and
0 past the stream, and changes nothing else. `ESEQ`, then `ECAP`, writes nothing. -/
def Obligations.MxPlaceResult : Prop :=
  ∀ s : State, s.mem.wf = true → s.matrixVersion ≤ 40 →
    (1 ≤ s.matrixVersion → 8 * s.regs.cwLen.toNat ≤ s.order.length →
      ∃ t, exec .mxPlace s = .next t ∧ Ended s t (s.regs.completed .ok .none) ∧
        (∀ b r c, s.order[b]? = some (r, c) → t.dark r c =
          if b < 8 * s.regs.cwLen.toNat then (s.buf .cw (b / 8)).getLsbD (7 - b % 8) else false) ∧
        (∀ r c, r < dMax → c < dMax → (r, c) ∉ s.order → t.moduleAt r c = s.moduleAt r c) ∧
        OnlyDataColors s t) ∧
    (s.matrixVersion = 0 → exec .mxPlace s = .next (s.endedWith .eSeq .none)) ∧
    (1 ≤ s.matrixVersion → s.order.length < 8 * s.regs.cwLen.toNat →
      exec .mxPlace s = .next (s.endedWith .eCap .none))

/-- R196: `MX_EXTRACT` packs the colors of `ORDER`, first color in bit 7, into the codewords `CW[0..q-1]`
with `q = |ORDER| / 8`, sets `CW_LEN` to q and changes nothing else. `ESEQ` writes nothing. -/
def Obligations.MxExtractResult : Prop :=
  ∀ s : State, s.mem.wf = true → s.matrixVersion ≤ 40 →
    (1 ≤ s.matrixVersion →
      ∃ t, exec .mxExtract s = .next t ∧
        Ended s t (({ s.regs with cwLen := BitVec.ofNat 12 (s.order.length / 8) } : Regs).completed .ok .none) ∧
        s.order.length / 8 ≤ 3916 ∧
        (∀ k b r c, k < s.order.length / 8 → b < 8 → s.order[8 * k + b]? = some (r, c) →
          (t.buf .cw k).getLsbD (7 - b) = s.dark r c) ∧
        SameRamOutside Buffer.cw.base (s.order.length / 8) s t) ∧
    (s.matrixVersion = 0 → exec .mxExtract s = .next (s.endedWith .eSeq .none))

/-- R196, R195: extracting after placing gives the placed codewords back, 0 in the rest of the capacity,
and `CW_LEN` the capacity. -/
def Obligations.ExtractUndoesPlace : Prop :=
  ∀ s t u : State, s.mem.wf = true → 1 ≤ s.matrixVersion → s.matrixVersion ≤ 40 →
    8 * s.regs.cwLen.toNat ≤ s.order.length → exec .mxPlace s = .next t → exec .mxExtract t = .next u →
    u.regs.cwLen.toNat = s.order.length / 8 ∧
    ∀ k < s.order.length / 8, u.buf .cw k = if k < s.regs.cwLen.toNat then s.buf .cw k else 0#8

/-- R178, R177, R176: `MX_MASK #m` inverts the color of exactly the data modules its predicate holds at,
keeps `MASK` and everything else. `ESEQ` writes nothing. -/
def Obligations.MxMaskResult : Prop :=
  ∀ (s : State) (m : Nat), s.mem.wf = true → s.matrixVersion ≤ 40 → m ≤ 7 →
    (1 ≤ s.matrixVersion →
      ∃ t, exec (.mxMask (BitVec.ofNat 8 m)) s = .next t ∧ Ended s t (s.regs.completed .ok .none) ∧
        (∀ r c, s.isData r c = true → t.dark r c = xor (s.dark r c) (maskHits m r c)) ∧
        OnlyDataColors s t) ∧
    (s.matrixVersion = 0 → exec (.mxMask (BitVec.ofNat 8 m)) s = .next (s.endedWith .eSeq .none))

/-- R179: applying one mask twice gives RAM back as it was, to the last byte. -/
def Obligations.MaskTwiceIsIdentity : Prop :=
  ∀ (s t u : State) (arg : BitVec 8), Inv s → WellFormed (.mxMask arg) → 1 ≤ s.matrixVersion →
    exec (.mxMask arg) s = .next t → exec (.mxMask arg) t = .next u →
    u.mem = s.mem ∧ Ended s u (s.regs.completed .ok .none)

/-- R186, R180-R185: `MX_PENALTY` writes the four terms and their sum, none of which overflows its
register, and changes nothing else. `ESEQ` writes nothing. -/
def Obligations.MxPenaltyResult : Prop :=
  ∀ s : State, s.mem.wf = true → s.matrixVersion ≤ 40 →
    (1 ≤ s.matrixVersion →
      ∃ t, exec .mxPenalty s = .next t ∧
        Ended s t (({ s.regs with
          penN1 := t.regs.penN1, penN2 := t.regs.penN2, penN3 := t.regs.penN3, penN4 := t.regs.penN4
          penTotal := t.regs.penTotal } : Regs).completed .ok .none) ∧
        t.mem = s.mem ∧
        t.regs.penN1.toNat = s.penaltyTerms.n1 ∧ t.regs.penN2.toNat = s.penaltyTerms.n2 ∧
        t.regs.penN3.toNat = s.penaltyTerms.n3 ∧ t.regs.penN4.toNat = s.penaltyTerms.n4 ∧
        t.regs.penTotal.toNat =
          s.penaltyTerms.n1 + s.penaltyTerms.n2 + s.penaltyTerms.n3 + s.penaltyTerms.n4) ∧
    (s.matrixVersion = 0 → exec .mxPenalty s = .next (s.endedWith .eSeq .none))

/-- R188, R187: `MX_SELECT` scores each mask as masking and then scoring would, and leaves the matrix, the
penalty registers and `MASK` as applying the best mask does: the smallest index of least total. -/
def Obligations.SelectAppliesBestMask : Prop :=
  ∀ s : State, s.mem.wf = true → s.matrixVersion ≤ 40 →
    (1 ≤ s.matrixVersion →
      ∃ (t : State) (best : Fin 8), exec .mxSelect s = .next t ∧
        (∀ m : Fin 8, ∃ a b, exec (.mxMask (BitVec.ofNat 8 m.val)) s = .next a ∧
          exec .mxPenalty a = .next b ∧ t.regs.pen[m] = b.regs.penTotal ∧
          (m = best → t = { b with regs := { b.regs with
            pen := t.regs.pen, mask := BitVec.ofNat 3 best.val } })) ∧
        (∀ m : Fin 8, (t.regs.pen[best]).toNat ≤ (t.regs.pen[m]).toNat) ∧
        (∀ m : Fin 8, m < best → (t.regs.pen[best]).toNat < (t.regs.pen[m]).toNat)) ∧
    (s.matrixVersion = 0 → exec .mxSelect s = .next (s.endedWith .eSeq .none))

/-- R194, R191, R193: `MX_STAMP` writes the masked format word to both format copies and to `FMT_WORD`,
from version 7 on the version word to both version blocks, and changes nothing else. `ESEQ` writes nothing. -/
def Obligations.MxStampResult : Prop :=
  ∀ (s : State) (f : BitVec 15), s.mem.wf = true → s.matrixVersion ≤ 40 →
    f = fmtCode ((s.regs.ecLevel ^^^ 1#2).toNat * 8 + s.regs.mask.toNat) ^^^ 0x5412#15 →
    (1 ≤ s.matrixVersion →
      ∃ t, exec .mxStamp s = .next t ∧
        Ended s t (({ s.regs with fmtWord := f } : Regs).completed .ok .none) ∧
        (∀ i < 15, t.dark (fc1 i).1 (fc1 i).2 = f.getLsbD i ∧
          t.dark (fc2 s.dim i).1 (fc2 s.dim i).2 = f.getLsbD i) ∧
        (7 ≤ s.matrixVersion → ∀ i < 18,
          t.dark (vtr s.dim i).1 (vtr s.dim i).2 = (verCode s.matrixVersion).getLsbD i ∧
          t.dark (vbl s.dim i).1 (vbl s.dim i).2 = (verCode s.matrixVersion).getLsbD i) ∧
        SameFlags s t ∧
        (∀ a, (∀ p ∈ formatModules s.dim ++ versionModules s.matrixVersion, a ≠ moduleAddr p.1 p.2) →
          t.mem.read a = s.mem.read a)) ∧
    (s.matrixVersion = 0 → exec .mxStamp s = .next (s.endedWith .eSeq .none))

/-- R190, R192, R197: each format word is its 5 data bits followed by what makes it a multiple of 0x537,
each version word from 7 on its 6 data bits followed by what makes it a multiple of 0x1F25, and two of either
table differ in at least 7 and 8 bits. R166: the alignment lists agree with the closed form from version 2 on.
R57, R58, R59: the bus shows them as little-endian words and as 8 bytes a version, 0 past the end of a list, for
versions 0..39; the addresses the formula of R59 gives version 40 lie past the table's range (log 20). -/
def Obligations.LayoutTables : Prop :=
  (∀ d < 32, (fmtCode d).toNat / 2 ^ 10 = d ∧ ∃ q < 32, clProduct 0x537 q 5 = (fmtCode d).toNat) ∧
  (∀ v < 41, 7 ≤ v → (verCode v).toNat / 2 ^ 12 = v ∧ ∃ q < 64, clProduct 0x1F25 q 6 = (verCode v).toNat) ∧
  (∀ d < 32, ∀ d' < d, 7 ≤ hamming ((fmtCode d).setWidth 18) ((fmtCode d').setWidth 18)) ∧
  (∀ v < 41, 7 ≤ v → ∀ v' < v, 7 ≤ v' → 8 ≤ hamming (verCode v) (verCode v')) ∧
  alignCoords 1 = [] ∧ (∀ v < 41, 2 ≤ v → alignCoords v = alignClosedForm v) ∧
  (∀ d < 32, ∀ k < 4, tableByte (0x05400 + 4 * d + k) = ((fmtCode d).setWidth 32).extractLsb' (8 * k) 8) ∧
  (∀ v < 41, ∀ k < 4, tableByte (0x05500 + 4 * v + k) =
    if v < 7 then 0#8 else ((verCode v).setWidth 32).extractLsb' (8 * k) 8) ∧
  (∀ v < 40, ∀ j < 8, tableByte (0x05600 + 8 * v + j) =
    if v < 2 then 0#8 else BitVec.ofNat 8 ((alignClosedForm v).getD j 0))

/-! ### The transform -/

/-- R203, R201, R202: with a positive denominator and results that fit, `XF_MAP` writes the quotients
rounded to nearest, ties away from zero, and nothing else; otherwise it ends with `EXFORM` and writes
nothing. -/
def Obligations.XfMapRoundsToNearest : Prop :=
  ∀ (s : State) (x y w : Int),
    x = s.coef 0 * s.regs.xfCol.toNat + s.coef 2 * s.regs.xfRow.toNat + s.coef 4 →
    y = s.coef 1 * s.regs.xfCol.toNat + s.coef 3 * s.regs.xfRow.toNat + s.coef 5 →
    w = s.coef 6 * s.regs.xfCol.toNat + s.coef 7 * s.regs.xfRow.toNat + 2 ^ 32 →
    (0 < w → ∃ px py, RoundedAway x w px ∧ RoundedAway y w py ∧
      (-(2 ^ 31) ≤ px ∧ px < 2 ^ 31 ∧ -(2 ^ 31) ≤ py ∧ py < 2 ^ 31 →
        ∃ t, exec .xfMap s = .next t ∧ t.mem = s.mem ∧
          Ended s t (({ s.regs with xfPx := t.regs.xfPx, xfPy := t.regs.xfPy } : Regs).completed .ok .none) ∧
          t.regs.xfPx.toInt = px ∧ t.regs.xfPy.toInt = py) ∧
      (¬(-(2 ^ 31) ≤ px ∧ px < 2 ^ 31 ∧ -(2 ^ 31) ≤ py ∧ py < 2 ^ 31) →
        exec .xfMap s = .next (s.endedWith .eXform .none))) ∧
    (w ≤ 0 → exec .xfMap s = .next (s.endedWith .eXform .none))

end
end

