-- ==== Sys2Proof/Laws/Memory.lean ====
section
/-! SUPPORT. The laws of RAM: what each memory operation makes every address read as, and that each keeps the canonical form. -/

namespace Sys2Proof.Machine

/-! ### The canonical form -/

theorem wfFrom_mono {lo lo' : Nat} {m : Memory} (h : lo' ≤ lo) (hm : Memory.wfFrom lo m = true) :
    Memory.wfFrom lo' m = true := by
  cases m with
  | nil => rfl
  | cons cell rest =>
    obtain ⟨a, v⟩ := cell
    simp only [Memory.wfFrom, Bool.and_eq_true, decide_eq_true_eq] at hm ⊢
    exact ⟨⟨by omega, hm.1.2⟩, hm.2⟩

theorem wfFrom_cons {lo a : Nat} {v : Byte} {m : Memory} :
    Memory.wfFrom lo ((a, v) :: m) = true ↔ lo ≤ a ∧ v ≠ Memory.unlisted ∧ Memory.wfFrom (a + 1) m = true := by
  simp [Memory.wfFrom, and_assoc]

theorem read_below {lo x : Nat} {m : Memory} (hm : Memory.wfFrom lo m = true) (hx : x < lo) :
    Memory.read m x = Memory.unlisted := by
  induction m generalizing lo with
  | nil => rfl
  | cons cell rest ih =>
    obtain ⟨a, v⟩ := cell
    obtain ⟨h1, _, h3⟩ := wfFrom_cons.1 hm
    have : a ≠ x := by omega
    simp only [Memory.read, this, if_false]
    exact ih h3 (by omega)

theorem wf_nil : Memory.wf [] = true := rfl

/-! ### Listing one byte -/

theorem wfFrom_emit {a : Nat} {v : Byte} {m : Memory} (hm : Memory.wfFrom (a + 1) m = true) :
    Memory.wfFrom a (Memory.emit a v m) = true := by
  unfold Memory.emit
  split
  · exact wfFrom_mono (by omega) hm
  · exact wfFrom_cons.2 ⟨le_refl _, ‹_›, hm⟩

theorem read_emit {a x : Nat} {v : Byte} {m : Memory} (hm : Memory.wfFrom (a + 1) m = true) :
    Memory.read (Memory.emit a v m) x = if x = a then v else Memory.read m x := by
  unfold Memory.emit
  by_cases hv : v = Memory.unlisted
  · by_cases hx : x = a
    · subst hx; simp [hv, read_below hm (Nat.lt_succ_self x)]
    · simp [hv, hx]
  · by_cases hx : x = a
    · subst hx; simp [hv, Memory.read]
    · have : a ≠ x := fun h => hx h.symm
      simp [hv, hx, Memory.read, this]

/-! ### Rewriting a range -/

theorem wfFrom_rewrite (f : Nat → Byte → Byte) (n a : Nat) (m : Memory)
    (hm : Memory.wfFrom a m = true) : Memory.wfFrom a (Memory.rewrite f n a m) = true := by
  induction n generalizing a m with
  | zero => simpa [Memory.rewrite] using hm
  | succ n ih =>
    cases m with
    | nil => exact wfFrom_emit (ih _ _ rfl)
    | cons cell rest =>
      obtain ⟨b, v⟩ := cell
      obtain ⟨h1, h2, h3⟩ := wfFrom_cons.1 hm
      by_cases hb : b = a
      · subst hb
        simpa [Memory.rewrite] using wfFrom_emit (ih _ _ h3)
      · simp only [Memory.rewrite, hb, if_false]
        exact wfFrom_emit (ih _ _ (wfFrom_cons.2 ⟨by omega, h2, h3⟩))

theorem read_rewrite (f : Nat → Byte → Byte) (n a x : Nat) (m : Memory)
    (hm : Memory.wfFrom a m = true) :
    Memory.read (Memory.rewrite f n a m) x =
      if a ≤ x ∧ x < a + n then f x (Memory.read m x) else Memory.read m x := by
  induction n generalizing a m with
  | zero =>
    rw [Memory.rewrite, if_neg (by omega)]
  | succ n ih =>
    cases m with
    | nil =>
      rw [Memory.rewrite, read_emit (wfFrom_rewrite f n _ _ rfl), ih _ _ rfl]
      by_cases hx : x = a
      · subst hx; simp [Memory.read]
      · by_cases h : a + 1 ≤ x ∧ x < a + 1 + n
        · rw [if_neg hx, if_pos h, if_pos (by omega)]
        · rw [if_neg hx, if_neg h, if_neg (by omega)]
    | cons cell rest =>
      obtain ⟨b, v⟩ := cell
      obtain ⟨h1, h2, h3⟩ := wfFrom_cons.1 hm
      by_cases hb : b = a
      · subst hb
        rw [Memory.rewrite, if_pos rfl, read_emit (wfFrom_rewrite f n _ _ h3), ih _ _ h3]
        by_cases hx : x = b
        · subst hx; simp [Memory.read]
        · have hne : b ≠ x := fun h => hx h.symm
          by_cases h : b + 1 ≤ x ∧ x < b + 1 + n
          · rw [if_neg hx, if_pos h, if_pos (by omega), Memory.read, if_neg hne]
          · rw [if_neg hx, if_neg h, if_neg (by omega), Memory.read, if_neg hne]
      · have hw : Memory.wfFrom (a + 1) ((b, v) :: rest) = true :=
          wfFrom_cons.2 ⟨by omega, h2, h3⟩
        rw [Memory.rewrite, if_neg hb, read_emit (wfFrom_rewrite f n _ _ hw), ih _ _ hw]
        by_cases hx : x = a
        · subst hx
          have hr : Memory.read ((b, v) :: rest) x = Memory.unlisted := read_below hw (by omega)
          simp [hr]
        · by_cases h : a + 1 ≤ x ∧ x < a + 1 + n
          · rw [if_neg hx, if_pos h, if_pos (by omega)]
          · rw [if_neg hx, if_neg h, if_neg (by omega)]

/-! ### Updating a range -/

theorem wfFrom_update (lo n : Nat) (f : Nat → Byte → Byte) (k : Nat) (m : Memory)
    (hk : k ≤ lo) (hm : Memory.wfFrom k m = true) :
    Memory.wfFrom k (Memory.update lo n f m) = true := by
  induction m generalizing k with
  | nil => exact wfFrom_mono hk (wfFrom_rewrite f n lo [] rfl)
  | cons cell rest ih =>
    obtain ⟨b, v⟩ := cell
    obtain ⟨h1, h2, h3⟩ := wfFrom_cons.1 hm
    by_cases hb : b < lo
    · simp only [Memory.update, hb, if_true]
      exact wfFrom_cons.2 ⟨h1, h2, ih _ (by omega) h3⟩
    · simp only [Memory.update, hb, if_false]
      exact wfFrom_mono hk (wfFrom_rewrite f n lo _ (wfFrom_cons.2 ⟨by omega, h2, h3⟩))

theorem read_updateFrom (lo n : Nat) (f : Nat → Byte → Byte) (k x : Nat) (m : Memory)
    (hm : Memory.wfFrom k m = true) :
    Memory.read (Memory.update lo n f m) x =
      if lo ≤ x ∧ x < lo + n then f x (Memory.read m x) else Memory.read m x := by
  induction m generalizing k with
  | nil => exact read_rewrite f n lo x [] rfl
  | cons cell rest ih =>
    obtain ⟨b, v⟩ := cell
    obtain ⟨h1, h2, h3⟩ := wfFrom_cons.1 hm
    by_cases hb : b < lo
    · simp only [Memory.update, hb, if_true, Memory.read]
      by_cases hx : b = x
      · rw [if_pos hx, if_neg (by omega), if_pos hx]
      · simp only [hx, if_false]
        exact ih _ h3
    · simp only [Memory.update, hb, if_false]
      exact read_rewrite f n lo x _ (wfFrom_cons.2 ⟨by omega, h2, h3⟩)

/-- Updating a range keeps the canonical form. -/
theorem wf_update (lo n : Nat) (f : Nat → Byte → Byte) {m : Memory} (hm : Memory.wf m = true) :
    Memory.wf (Memory.update lo n f m) = true := wfFrom_update lo n f 0 m (Nat.zero_le _) hm

/-- Everything an update does: `f` inside the range, nothing outside. -/
theorem read_update (lo n : Nat) (f : Nat → Byte → Byte) (x : Nat) {m : Memory}
    (hm : Memory.wf m = true) :
    Memory.read (Memory.update lo n f m) x =
      if lo ≤ x ∧ x < lo + n then f x (Memory.read m x) else Memory.read m x :=
  read_updateFrom lo n f 0 x m hm

/-! ### Writing -/

theorem wf_write {m : Memory} (hm : Memory.wf m = true) (a : Nat) (v : Byte) :
    Memory.wf (m.write a v) = true := wf_update a 1 _ hm

/-- A read after a write to the same address gives the value; every other address is left alone. -/
theorem read_write {m : Memory} (hm : Memory.wf m = true) (a : Nat) (v : Byte) (x : Nat) :
    Memory.read (m.write a v) x = if x = a then v else Memory.read m x := by
  rw [Memory.write, read_update _ _ _ _ hm]
  by_cases hx : x = a
  · subst hx; simp
  · rw [if_neg hx, if_neg (by omega)]

theorem wf_store {m : Memory} (hm : Memory.wf m = true) (lo : Nat) (bytes : List Byte) :
    Memory.wf (m.store lo bytes) = true := wf_update lo _ _ hm

/-- A stored list is read back byte by byte; every other address is left alone. -/
theorem read_store {m : Memory} (hm : Memory.wf m = true) (lo : Nat) (bytes : List Byte) (x : Nat) :
    Memory.read (m.store lo bytes) x =
      if lo ≤ x ∧ x < lo + bytes.length then bytes.getD (x - lo) 0#8 else Memory.read m x := by
  rw [Memory.store, read_update _ _ _ _ hm]
  by_cases h : lo ≤ x ∧ x < lo + bytes.length
  · have hlt : x - lo < bytes.length := by omega
    rw [if_pos h, if_pos h, List.getD_eq_getElem _ _ hlt, List.getD_eq_getElem _ _ hlt]
  · rw [if_neg h, if_neg h]

/-! ### Clearing -/

theorem wfFrom_clear (p : Nat → Bool) (k : Nat) (m : Memory) (hm : Memory.wfFrom k m = true) :
    Memory.wfFrom k (m.clear p) = true := by
  induction m generalizing k with
  | nil => rfl
  | cons cell rest ih =>
    obtain ⟨b, v⟩ := cell
    obtain ⟨h1, h2, h3⟩ := wfFrom_cons.1 hm
    by_cases hb : p b = true
    · simpa [Memory.clear, hb] using wfFrom_mono (by omega) (ih _ h3)
    · have := wfFrom_cons.2 ⟨h1, h2, ih _ h3⟩
      simpa [Memory.clear, hb] using this

theorem wf_clear (p : Nat → Bool) {m : Memory} (hm : Memory.wf m = true) :
    Memory.wf (m.clear p) = true := wfFrom_clear p 0 m hm

/-- What is cleared reads as unlisted; every other address is left alone. -/
theorem read_clear (p : Nat → Bool) (m : Memory) (x : Nat) :
    Memory.read (m.clear p) x = if p x = true then Memory.unlisted else Memory.read m x := by
  induction m with
  | nil => simp [Memory.clear, Memory.read]
  | cons cell rest ih =>
    obtain ⟨b, v⟩ := cell
    have ih' : Memory.read (List.filter (fun cell => !p cell.1) rest) x =
        if p x = true then Memory.unlisted else Memory.read rest x := ih
    by_cases hb : p b = true
    · by_cases hx : b = x
      · subst hx; simp [Memory.clear, hb, ih']
      · simp [Memory.clear, hb, ih', Memory.read, hx]
    · by_cases hx : b = x
      · subst hx; simp [Memory.clear, hb, Memory.read]
      · simp [Memory.clear, hb, ih', Memory.read, hx]

/-! ### Reading a range -/

theorem length_window (n a : Nat) (m : Memory) : (Memory.window n a m).length = n := by
  induction n generalizing a m with
  | zero => simp [Memory.window]
  | succ n ih =>
    cases m with
    | nil => simp [Memory.window, ih]
    | cons cell rest =>
      obtain ⟨b, v⟩ := cell
      by_cases hb : b = a <;> simp [Memory.window, hb, ih]

@[simp] theorem length_bytes (m : Memory) (lo n : Nat) : (m.bytes lo n).length = n :=
  length_window _ _ _

theorem window_eq_map (n a : Nat) (m : Memory) (hm : Memory.wfFrom a m = true) :
    Memory.window n a m = (List.range' a n).map (Memory.read m) := by
  induction n generalizing a m with
  | zero => simp [Memory.window]
  | succ n ih =>
    cases m with
    | nil => simp [Memory.window, List.range'_succ, Memory.read, ih _ _ (rfl : Memory.wfFrom (a + 1) [] = true)]
    | cons cell rest =>
      obtain ⟨b, v⟩ := cell
      obtain ⟨h1, h2, h3⟩ := wfFrom_cons.1 hm
      by_cases hb : b = a
      · subst hb
        rw [List.range'_succ, List.map_cons, Memory.window, if_pos rfl, ih _ _ h3]
        simp only [Memory.read, if_true, List.cons.injEq, true_and]
        apply List.map_congr_left
        intro x hx
        have : b ≠ x := by rw [List.mem_range'_1] at hx; omega
        simp [this]
      · have hw : Memory.wfFrom (a + 1) ((b, v) :: rest) = true :=
          wfFrom_cons.2 ⟨by omega, h2, h3⟩
        rw [List.range'_succ, List.map_cons, Memory.window, if_neg hb, ih _ _ hw,
          read_below hw (Nat.lt_succ_self a)]

theorem wfFrom_dropWhile (lo k : Nat) (m : Memory) (hm : Memory.wfFrom k m = true) :
    Memory.wfFrom lo (m.dropWhile (fun cell => cell.1 < lo)) = true := by
  induction m generalizing k with
  | nil => rfl
  | cons cell rest ih =>
    obtain ⟨b, v⟩ := cell
    obtain ⟨h1, h2, h3⟩ := wfFrom_cons.1 hm
    by_cases hb : b < lo
    · simpa [List.dropWhile_cons, hb] using ih _ h3
    · have := wfFrom_cons.2 ⟨(by omega : lo ≤ b), h2, h3⟩
      simpa [List.dropWhile_cons, hb] using this

theorem read_dropWhile (lo x : Nat) (m : Memory) (hx : lo ≤ x) :
    Memory.read (m.dropWhile (fun cell => cell.1 < lo)) x = Memory.read m x := by
  induction m with
  | nil => rfl
  | cons cell rest ih =>
    obtain ⟨b, v⟩ := cell
    by_cases hb : b < lo
    · have : b ≠ x := by omega
      simp [hb, Memory.read, this, ih]
    · simp [hb]

/-- A range of RAM read at once is its bytes read one by one. -/
theorem bytes_eq_map {m : Memory} (hm : Memory.wf m = true) (lo n : Nat) :
    m.bytes lo n = (List.range n).map (fun i => m.read (lo + i)) := by
  rw [Memory.bytes, window_eq_map _ _ _ (wfFrom_dropWhile lo 0 m hm), List.range_eq_range',
    List.range'_eq_map_range, List.map_map, List.range_eq_range']
  apply List.map_congr_left
  intro i _
  exact read_dropWhile lo _ m (Nat.le_add_right lo i)

/-- Byte `i` of a range. -/
theorem getD_bytes {m : Memory} (hm : Memory.wf m = true) (lo n i : Nat) (hi : i < n) :
    (m.bytes lo n).getD i 0#8 = m.read (lo + i) := by
  rw [bytes_eq_map hm]
  simp [List.getD_eq_getElem?_getD, hi]

/-- What is stored is what a read of the range gives. -/
theorem bytes_store {m : Memory} (hm : Memory.wf m = true) (lo : Nat) (bytes : List Byte) :
    (m.store lo bytes).bytes lo bytes.length = bytes := by
  rw [bytes_eq_map (wf_store hm _ _)]
  apply List.ext_getElem
  · simp
  · intro i h1 h2
    have h3 : lo ≤ lo + i ∧ lo + i < lo + bytes.length := by omega
    simp only [List.getElem_map, List.getElem_range]
    rw [read_store hm, if_pos h3, Nat.add_sub_cancel_left, List.getD_eq_getElem _ _ h2]

/-! ### Equal contents are equal lists -/

theorem eq_of_readFrom (k : Nat) (m m' : Memory) (hm : Memory.wfFrom k m = true)
    (hm' : Memory.wfFrom k m' = true) (h : ∀ x, Memory.read m x = Memory.read m' x) : m = m' := by
  induction m generalizing k m' with
  | nil =>
    cases m' with
    | nil => rfl
    | cons cell rest =>
      obtain ⟨b, v⟩ := cell
      have := h b
      simp only [Memory.read, if_true] at this
      exact absurd this.symm (wfFrom_cons.1 hm').2.1
  | cons cell rest ih =>
    obtain ⟨a, v⟩ := cell
    obtain ⟨h1, h2, h3⟩ := wfFrom_cons.1 hm
    cases m' with
    | nil =>
      have := h a
      simp only [Memory.read, if_true] at this
      exact absurd this h2
    | cons cell' rest' =>
      obtain ⟨b, w⟩ := cell'
      obtain ⟨g1, g2, g3⟩ := wfFrom_cons.1 hm'
      have hab : a = b := by
        rcases Nat.lt_trichotomy a b with hlt | heq | hgt
        · have := h a
          rw [read_below (wfFrom_cons.2 ⟨(le_refl b), g2, g3⟩) hlt] at this
          simp only [Memory.read, if_true] at this
          exact absurd this h2
        · exact heq
        · have := h b
          rw [read_below (wfFrom_cons.2 ⟨(le_refl a), h2, h3⟩) hgt] at this
          simp only [Memory.read, if_true] at this
          exact absurd this.symm g2
      subst hab
      have hvw : v = w := by simpa [Memory.read] using h a
      subst hvw
      have hrest : rest = rest' := by
        apply ih (a + 1) rest' h3 g3
        intro x
        by_cases hx : a = x
        · subst hx
          rw [read_below h3 (Nat.lt_succ_self a), read_below g3 (Nat.lt_succ_self a)]
        · simpa [Memory.read, hx] using h x
      rw [hrest]

/-- Two memories in canonical form that read alike everywhere are equal. -/
theorem eq_of_read {m m' : Memory} (hm : Memory.wf m = true) (hm' : Memory.wf m' = true)
    (h : ∀ x, m.read x = m'.read x) : m = m' := eq_of_readFrom 0 m m' hm hm' h

/-! ### RAM from cells -/

theorem wf_ramWrite {m : Memory} (hm : Memory.wf m = true) (a : Nat) (v : Byte) :
    Memory.wf (m.ramWrite a v) = true := by
  unfold Memory.ramWrite
  split
  · exact wf_write hm _ _
  · split
    · exact wf_write hm _ _
    · exact hm

theorem wf_ofCells (cells : List Host.Cell) : Memory.wf (Memory.ofCells cells) = true := by
  unfold Memory.ofCells
  suffices h : ∀ m : Memory, Memory.wf m = true →
      Memory.wf (cells.foldl (fun m cell => m.ramWrite cell.1 cell.2) m) = true from h [] rfl
  induction cells with
  | nil => intro m hm; exact hm
  | cons cell cells ih => intro m hm; exact ih _ (wf_ramWrite hm _ _)

/-- Reset RAM has the canonical form. -/
theorem wf_reset : Memory.wf State.reset.mem = true := rfl

/-! ### The canonical form of the state's RAM after each state-level write -/

theorem wf_setBuf {s : State} (h : s.mem.wf = true) (b : Buffer) (bytes : List Byte) :
    (s.setBuf b bytes).mem.wf = true := wf_store h _ _

theorem wf_setColor {s : State} (h : s.mem.wf = true) (r c : Nat) (dark : Bool) :
    (s.setColor r c dark).mem.wf = true := wf_update _ _ _ h

theorem wf_mapModules {s : State} (h : s.mem.wf = true) (d : Nat) (f : Nat → Nat → BitVec 3 → BitVec 3) :
    (s.mapModules d f).mem.wf = true := wf_update _ _ _ h

theorem wf_clearMatrix {s : State} (h : s.mem.wf = true) : s.clearMatrix.mem.wf = true :=
  wf_clear _ h

theorem wf_powerOnReset (s : State) (cells : List Host.Cell) :
    (s.powerOnReset cells).mem.wf = true := wf_ofCells cells

end Sys2Proof.Machine
end

