-- ==== Sys2Proof/Laws/State.lean ====
section
/-! SUPPORT. What each update of the state does to each field: one small lemma per field per update, so that no proof unfolds a record update. -/

namespace Sys2Proof.Machine

/-! ### Completion -/

@[simp] theorem complete_cfg (s : State) (c : ErrCode) (u : UncReason) : (s.complete c u).cfg = s.cfg := rfl
@[simp] theorem complete_pending (s : State) (c : ErrCode) (u : UncReason) : (s.complete c u).pending = none := rfl
@[simp] theorem complete_mem (s : State) (c : ErrCode) (u : UncReason) : (s.complete c u).mem = s.mem := rfl
@[simp] theorem complete_script (s : State) (c : ErrCode) (u : UncReason) : (s.complete c u).script = s.script := rfl
@[simp] theorem complete_pos (s : State) (c : ErrCode) (u : UncReason) : (s.complete c u).pos = s.pos := rfl
@[simp] theorem complete_readData (s : State) (c : ErrCode) (u : UncReason) : (s.complete c u).readData = s.readData := rfl
@[simp] theorem complete_passed (s : State) (c : ErrCode) (u : UncReason) : (s.complete c u).passed = s.passed := rfl
@[simp] theorem complete_turns (s : State) (c : ErrCode) (u : UncReason) : (s.complete c u).turns = s.turns := rfl
@[simp] theorem complete_regs_ie (s : State) (c : ErrCode) (u : UncReason) : (s.complete c u).regs.ie = s.regs.ie := rfl
@[simp] theorem complete_regs_done (s : State) (c : ErrCode) (u : UncReason) : (s.complete c u).regs.done = true := rfl
@[simp] theorem complete_regs_accErr (s : State) (c : ErrCode) (u : UncReason) : (s.complete c u).regs.accErr = s.regs.accErr := rfl
@[simp] theorem complete_regs_clean (s : State) (c : ErrCode) (u : UncReason) : (s.complete c u).regs.clean = s.regs.clean := rfl
@[simp] theorem complete_regs_err (s : State) (c : ErrCode) (u : UncReason) : (s.complete c u).regs.err = c := rfl
@[simp] theorem complete_regs_unc (s : State) (c : ErrCode) (u : UncReason) : (s.complete c u).regs.unc = u := rfl
@[simp] theorem complete_regs_cmd (s : State) (c : ErrCode) (u : UncReason) : (s.complete c u).regs.cmd = s.regs.cmd := rfl
@[simp] theorem complete_regs_opa (s : State) (c : ErrCode) (u : UncReason) : (s.complete c u).regs.opa = s.regs.opa := rfl
@[simp] theorem complete_regs_opb (s : State) (c : ErrCode) (u : UncReason) : (s.complete c u).regs.opb = s.regs.opb := rfl
@[simp] theorem complete_regs_res (s : State) (c : ErrCode) (u : UncReason) : (s.complete c u).regs.res = s.regs.res := rfl
@[simp] theorem complete_regs_lenA (s : State) (c : ErrCode) (u : UncReason) : (s.complete c u).regs.lenA = s.regs.lenA := rfl
@[simp] theorem complete_regs_lenB (s : State) (c : ErrCode) (u : UncReason) : (s.complete c u).regs.lenB = s.regs.lenB := rfl
@[simp] theorem complete_regs_lenR (s : State) (c : ErrCode) (u : UncReason) : (s.complete c u).regs.lenR = s.regs.lenR := rfl
@[simp] theorem complete_regs_eccLen (s : State) (c : ErrCode) (u : UncReason) : (s.complete c u).regs.eccLen = s.regs.eccLen := rfl
@[simp] theorem complete_regs_rsL (s : State) (c : ErrCode) (u : UncReason) : (s.complete c u).regs.rsL = s.regs.rsL := rfl
@[simp] theorem complete_regs_nroots (s : State) (c : ErrCode) (u : UncReason) : (s.complete c u).regs.nroots = s.regs.nroots := rfl
@[simp] theorem complete_regs_nerr (s : State) (c : ErrCode) (u : UncReason) : (s.complete c u).regs.nerr = s.regs.nerr := rfl
@[simp] theorem complete_regs_version (s : State) (c : ErrCode) (u : UncReason) : (s.complete c u).regs.version = s.regs.version := rfl
@[simp] theorem complete_regs_ecLevel (s : State) (c : ErrCode) (u : UncReason) : (s.complete c u).regs.ecLevel = s.regs.ecLevel := rfl
@[simp] theorem complete_regs_mask (s : State) (c : ErrCode) (u : UncReason) : (s.complete c u).regs.mask = s.regs.mask := rfl
@[simp] theorem complete_regs_mxVer (s : State) (c : ErrCode) (u : UncReason) : (s.complete c u).regs.mxVer = s.regs.mxVer := rfl
@[simp] theorem complete_regs_ndata (s : State) (c : ErrCode) (u : UncReason) : (s.complete c u).regs.ndata = s.regs.ndata := rfl
@[simp] theorem complete_regs_cwLen (s : State) (c : ErrCode) (u : UncReason) : (s.complete c u).regs.cwLen = s.regs.cwLen := rfl
@[simp] theorem complete_regs_penN1 (s : State) (c : ErrCode) (u : UncReason) : (s.complete c u).regs.penN1 = s.regs.penN1 := rfl
@[simp] theorem complete_regs_penN2 (s : State) (c : ErrCode) (u : UncReason) : (s.complete c u).regs.penN2 = s.regs.penN2 := rfl
@[simp] theorem complete_regs_penN3 (s : State) (c : ErrCode) (u : UncReason) : (s.complete c u).regs.penN3 = s.regs.penN3 := rfl
@[simp] theorem complete_regs_penN4 (s : State) (c : ErrCode) (u : UncReason) : (s.complete c u).regs.penN4 = s.regs.penN4 := rfl
@[simp] theorem complete_regs_penTotal (s : State) (c : ErrCode) (u : UncReason) : (s.complete c u).regs.penTotal = s.regs.penTotal := rfl
@[simp] theorem complete_regs_fmtWord (s : State) (c : ErrCode) (u : UncReason) : (s.complete c u).regs.fmtWord = s.regs.fmtWord := rfl
@[simp] theorem complete_regs_pen (s : State) (c : ErrCode) (u : UncReason) : (s.complete c u).regs.pen = s.regs.pen := rfl
@[simp] theorem complete_regs_xfRow (s : State) (c : ErrCode) (u : UncReason) : (s.complete c u).regs.xfRow = s.regs.xfRow := rfl
@[simp] theorem complete_regs_xfCol (s : State) (c : ErrCode) (u : UncReason) : (s.complete c u).regs.xfCol = s.regs.xfCol := rfl
@[simp] theorem complete_regs_xfPx (s : State) (c : ErrCode) (u : UncReason) : (s.complete c u).regs.xfPx = s.regs.xfPx := rfl
@[simp] theorem complete_regs_xfPy (s : State) (c : ErrCode) (u : UncReason) : (s.complete c u).regs.xfPy = s.regs.xfPy := rfl
@[simp] theorem complete_regs_xfCoef (s : State) (c : ErrCode) (u : UncReason) : (s.complete c u).regs.xfCoef = s.regs.xfCoef := rfl

/-! ### Acceptance -/

@[simp] theorem accept_cfg (s : State) (w : Word) : (s.accept w).cfg = s.cfg := rfl
@[simp] theorem accept_pending (s : State) (w : Word) : (s.accept w).pending = some w := rfl
@[simp] theorem accept_mem (s : State) (w : Word) : (s.accept w).mem = s.mem := rfl
@[simp] theorem accept_script (s : State) (w : Word) : (s.accept w).script = s.script := rfl
@[simp] theorem accept_pos (s : State) (w : Word) : (s.accept w).pos = s.pos := rfl
@[simp] theorem accept_readData (s : State) (w : Word) : (s.accept w).readData = s.readData := rfl
@[simp] theorem accept_passed (s : State) (w : Word) : (s.accept w).passed = s.passed := rfl
@[simp] theorem accept_turns (s : State) (w : Word) : (s.accept w).turns = s.turns := rfl
@[simp] theorem accept_regs_ie (s : State) (w : Word) : (s.accept w).regs.ie = s.regs.ie := rfl
@[simp] theorem accept_regs_done (s : State) (w : Word) : (s.accept w).regs.done = false := rfl
@[simp] theorem accept_regs_accErr (s : State) (w : Word) : (s.accept w).regs.accErr = s.regs.accErr := rfl
@[simp] theorem accept_regs_clean (s : State) (w : Word) : (s.accept w).regs.clean = s.regs.clean := rfl
@[simp] theorem accept_regs_err (s : State) (w : Word) : (s.accept w).regs.err = s.regs.err := rfl
@[simp] theorem accept_regs_unc (s : State) (w : Word) : (s.accept w).regs.unc = s.regs.unc := rfl
@[simp] theorem accept_regs_cmd (s : State) (w : Word) : (s.accept w).regs.cmd = w := rfl
@[simp] theorem accept_regs_opa (s : State) (w : Word) : (s.accept w).regs.opa = s.regs.opa := rfl
@[simp] theorem accept_regs_opb (s : State) (w : Word) : (s.accept w).regs.opb = s.regs.opb := rfl
@[simp] theorem accept_regs_res (s : State) (w : Word) : (s.accept w).regs.res = s.regs.res := rfl
@[simp] theorem accept_regs_lenA (s : State) (w : Word) : (s.accept w).regs.lenA = s.regs.lenA := rfl
@[simp] theorem accept_regs_lenB (s : State) (w : Word) : (s.accept w).regs.lenB = s.regs.lenB := rfl
@[simp] theorem accept_regs_lenR (s : State) (w : Word) : (s.accept w).regs.lenR = s.regs.lenR := rfl
@[simp] theorem accept_regs_eccLen (s : State) (w : Word) : (s.accept w).regs.eccLen = s.regs.eccLen := rfl
@[simp] theorem accept_regs_rsL (s : State) (w : Word) : (s.accept w).regs.rsL = s.regs.rsL := rfl
@[simp] theorem accept_regs_nroots (s : State) (w : Word) : (s.accept w).regs.nroots = s.regs.nroots := rfl
@[simp] theorem accept_regs_nerr (s : State) (w : Word) : (s.accept w).regs.nerr = s.regs.nerr := rfl
@[simp] theorem accept_regs_version (s : State) (w : Word) : (s.accept w).regs.version = s.regs.version := rfl
@[simp] theorem accept_regs_ecLevel (s : State) (w : Word) : (s.accept w).regs.ecLevel = s.regs.ecLevel := rfl
@[simp] theorem accept_regs_mask (s : State) (w : Word) : (s.accept w).regs.mask = s.regs.mask := rfl
@[simp] theorem accept_regs_mxVer (s : State) (w : Word) : (s.accept w).regs.mxVer = s.regs.mxVer := rfl
@[simp] theorem accept_regs_ndata (s : State) (w : Word) : (s.accept w).regs.ndata = s.regs.ndata := rfl
@[simp] theorem accept_regs_cwLen (s : State) (w : Word) : (s.accept w).regs.cwLen = s.regs.cwLen := rfl
@[simp] theorem accept_regs_penN1 (s : State) (w : Word) : (s.accept w).regs.penN1 = s.regs.penN1 := rfl
@[simp] theorem accept_regs_penN2 (s : State) (w : Word) : (s.accept w).regs.penN2 = s.regs.penN2 := rfl
@[simp] theorem accept_regs_penN3 (s : State) (w : Word) : (s.accept w).regs.penN3 = s.regs.penN3 := rfl
@[simp] theorem accept_regs_penN4 (s : State) (w : Word) : (s.accept w).regs.penN4 = s.regs.penN4 := rfl
@[simp] theorem accept_regs_penTotal (s : State) (w : Word) : (s.accept w).regs.penTotal = s.regs.penTotal := rfl
@[simp] theorem accept_regs_fmtWord (s : State) (w : Word) : (s.accept w).regs.fmtWord = s.regs.fmtWord := rfl
@[simp] theorem accept_regs_pen (s : State) (w : Word) : (s.accept w).regs.pen = s.regs.pen := rfl
@[simp] theorem accept_regs_xfRow (s : State) (w : Word) : (s.accept w).regs.xfRow = s.regs.xfRow := rfl
@[simp] theorem accept_regs_xfCol (s : State) (w : Word) : (s.accept w).regs.xfCol = s.regs.xfCol := rfl
@[simp] theorem accept_regs_xfPx (s : State) (w : Word) : (s.accept w).regs.xfPx = s.regs.xfPx := rfl
@[simp] theorem accept_regs_xfPy (s : State) (w : Word) : (s.accept w).regs.xfPy = s.regs.xfPy := rfl
@[simp] theorem accept_regs_xfCoef (s : State) (w : Word) : (s.accept w).regs.xfCoef = s.regs.xfCoef := rfl

/-! ### Access error -/

@[simp] theorem accessError_cfg (s : State) : (s.accessError).cfg = s.cfg := rfl
@[simp] theorem accessError_pending (s : State) : (s.accessError).pending = s.pending := rfl
@[simp] theorem accessError_mem (s : State) : (s.accessError).mem = s.mem := rfl
@[simp] theorem accessError_script (s : State) : (s.accessError).script = s.script := rfl
@[simp] theorem accessError_pos (s : State) : (s.accessError).pos = s.pos := rfl
@[simp] theorem accessError_readData (s : State) : (s.accessError).readData = s.readData := rfl
@[simp] theorem accessError_passed (s : State) : (s.accessError).passed = s.passed := rfl
@[simp] theorem accessError_turns (s : State) : (s.accessError).turns = s.turns := rfl
@[simp] theorem accessError_regs_ie (s : State) : (s.accessError).regs.ie = s.regs.ie := rfl
@[simp] theorem accessError_regs_done (s : State) : (s.accessError).regs.done = s.regs.done := rfl
@[simp] theorem accessError_regs_accErr (s : State) : (s.accessError).regs.accErr = true := rfl
@[simp] theorem accessError_regs_clean (s : State) : (s.accessError).regs.clean = s.regs.clean := rfl
@[simp] theorem accessError_regs_err (s : State) : (s.accessError).regs.err = s.regs.err := rfl
@[simp] theorem accessError_regs_unc (s : State) : (s.accessError).regs.unc = s.regs.unc := rfl
@[simp] theorem accessError_regs_cmd (s : State) : (s.accessError).regs.cmd = s.regs.cmd := rfl
@[simp] theorem accessError_regs_opa (s : State) : (s.accessError).regs.opa = s.regs.opa := rfl
@[simp] theorem accessError_regs_opb (s : State) : (s.accessError).regs.opb = s.regs.opb := rfl
@[simp] theorem accessError_regs_res (s : State) : (s.accessError).regs.res = s.regs.res := rfl
@[simp] theorem accessError_regs_lenA (s : State) : (s.accessError).regs.lenA = s.regs.lenA := rfl
@[simp] theorem accessError_regs_lenB (s : State) : (s.accessError).regs.lenB = s.regs.lenB := rfl
@[simp] theorem accessError_regs_lenR (s : State) : (s.accessError).regs.lenR = s.regs.lenR := rfl
@[simp] theorem accessError_regs_eccLen (s : State) : (s.accessError).regs.eccLen = s.regs.eccLen := rfl
@[simp] theorem accessError_regs_rsL (s : State) : (s.accessError).regs.rsL = s.regs.rsL := rfl
@[simp] theorem accessError_regs_nroots (s : State) : (s.accessError).regs.nroots = s.regs.nroots := rfl
@[simp] theorem accessError_regs_nerr (s : State) : (s.accessError).regs.nerr = s.regs.nerr := rfl
@[simp] theorem accessError_regs_version (s : State) : (s.accessError).regs.version = s.regs.version := rfl
@[simp] theorem accessError_regs_ecLevel (s : State) : (s.accessError).regs.ecLevel = s.regs.ecLevel := rfl
@[simp] theorem accessError_regs_mask (s : State) : (s.accessError).regs.mask = s.regs.mask := rfl
@[simp] theorem accessError_regs_mxVer (s : State) : (s.accessError).regs.mxVer = s.regs.mxVer := rfl
@[simp] theorem accessError_regs_ndata (s : State) : (s.accessError).regs.ndata = s.regs.ndata := rfl
@[simp] theorem accessError_regs_cwLen (s : State) : (s.accessError).regs.cwLen = s.regs.cwLen := rfl
@[simp] theorem accessError_regs_penN1 (s : State) : (s.accessError).regs.penN1 = s.regs.penN1 := rfl
@[simp] theorem accessError_regs_penN2 (s : State) : (s.accessError).regs.penN2 = s.regs.penN2 := rfl
@[simp] theorem accessError_regs_penN3 (s : State) : (s.accessError).regs.penN3 = s.regs.penN3 := rfl
@[simp] theorem accessError_regs_penN4 (s : State) : (s.accessError).regs.penN4 = s.regs.penN4 := rfl
@[simp] theorem accessError_regs_penTotal (s : State) : (s.accessError).regs.penTotal = s.regs.penTotal := rfl
@[simp] theorem accessError_regs_fmtWord (s : State) : (s.accessError).regs.fmtWord = s.regs.fmtWord := rfl
@[simp] theorem accessError_regs_pen (s : State) : (s.accessError).regs.pen = s.regs.pen := rfl
@[simp] theorem accessError_regs_xfRow (s : State) : (s.accessError).regs.xfRow = s.regs.xfRow := rfl
@[simp] theorem accessError_regs_xfCol (s : State) : (s.accessError).regs.xfCol = s.regs.xfCol := rfl
@[simp] theorem accessError_regs_xfPx (s : State) : (s.accessError).regs.xfPx = s.regs.xfPx := rfl
@[simp] theorem accessError_regs_xfPy (s : State) : (s.accessError).regs.xfPy = s.regs.xfPy := rfl
@[simp] theorem accessError_regs_xfCoef (s : State) : (s.accessError).regs.xfCoef = s.regs.xfCoef := rfl

/-! ### Soft reset -/

@[simp] theorem softReset_cfg (s : State) : (s.softReset).cfg = s.cfg := rfl
@[simp] theorem softReset_regs (s : State) : (s.softReset).regs = Regs.reset := rfl
@[simp] theorem softReset_pending (s : State) : (s.softReset).pending = none := rfl
@[simp] theorem softReset_mem (s : State) : (s.softReset).mem = s.mem := rfl
@[simp] theorem softReset_script (s : State) : (s.softReset).script = s.script := rfl
@[simp] theorem softReset_pos (s : State) : (s.softReset).pos = s.pos := rfl
@[simp] theorem softReset_readData (s : State) : (s.softReset).readData = s.readData := rfl
@[simp] theorem softReset_passed (s : State) : (s.softReset).passed = s.passed := rfl
@[simp] theorem softReset_turns (s : State) : (s.softReset).turns = s.turns := rfl

/-! ### Power-on reset -/

@[simp] theorem powerOnReset_cfg (s : State) (cells : List Host.Cell) : (s.powerOnReset cells).cfg = s.cfg := rfl
@[simp] theorem powerOnReset_regs (s : State) (cells : List Host.Cell) : (s.powerOnReset cells).regs = Regs.reset := rfl
@[simp] theorem powerOnReset_pending (s : State) (cells : List Host.Cell) : (s.powerOnReset cells).pending = none := rfl
@[simp] theorem powerOnReset_mem (s : State) (cells : List Host.Cell) : (s.powerOnReset cells).mem = Memory.ofCells cells := rfl
@[simp] theorem powerOnReset_script (s : State) (cells : List Host.Cell) : (s.powerOnReset cells).script = s.script := rfl
@[simp] theorem powerOnReset_pos (s : State) (cells : List Host.Cell) : (s.powerOnReset cells).pos = s.pos := rfl
@[simp] theorem powerOnReset_readData (s : State) (cells : List Host.Cell) : (s.powerOnReset cells).readData = s.readData := rfl
@[simp] theorem powerOnReset_passed (s : State) (cells : List Host.Cell) : (s.powerOnReset cells).passed = s.passed := rfl
@[simp] theorem powerOnReset_turns (s : State) (cells : List Host.Cell) : (s.powerOnReset cells).turns = s.turns := rfl

/-! ### Buffer write -/

@[simp] theorem setBuf_cfg (s : State) (b : Buffer) (bytes : List Byte) : (s.setBuf b bytes).cfg = s.cfg := rfl
@[simp] theorem setBuf_regs (s : State) (b : Buffer) (bytes : List Byte) : (s.setBuf b bytes).regs = s.regs := rfl
@[simp] theorem setBuf_pending (s : State) (b : Buffer) (bytes : List Byte) : (s.setBuf b bytes).pending = s.pending := rfl
@[simp] theorem setBuf_mem (s : State) (b : Buffer) (bytes : List Byte) : (s.setBuf b bytes).mem = s.mem.store b.base bytes := rfl
@[simp] theorem setBuf_script (s : State) (b : Buffer) (bytes : List Byte) : (s.setBuf b bytes).script = s.script := rfl
@[simp] theorem setBuf_pos (s : State) (b : Buffer) (bytes : List Byte) : (s.setBuf b bytes).pos = s.pos := rfl
@[simp] theorem setBuf_readData (s : State) (b : Buffer) (bytes : List Byte) : (s.setBuf b bytes).readData = s.readData := rfl
@[simp] theorem setBuf_passed (s : State) (b : Buffer) (bytes : List Byte) : (s.setBuf b bytes).passed = s.passed := rfl
@[simp] theorem setBuf_turns (s : State) (b : Buffer) (bytes : List Byte) : (s.setBuf b bytes).turns = s.turns := rfl

/-! ### Color write -/

@[simp] theorem setColor_cfg (s : State) (r c : Nat) (dark : Bool) : (s.setColor r c dark).cfg = s.cfg := rfl
@[simp] theorem setColor_regs (s : State) (r c : Nat) (dark : Bool) : (s.setColor r c dark).regs = s.regs := rfl
@[simp] theorem setColor_pending (s : State) (r c : Nat) (dark : Bool) : (s.setColor r c dark).pending = s.pending := rfl
@[simp] theorem setColor_mem (s : State) (r c : Nat) (dark : Bool) : (s.setColor r c dark).mem = s.mem.update (moduleAddr r c) 1
      (fun _ old => moduleByte (withColor (old.setWidth 3) dark)) := rfl
@[simp] theorem setColor_script (s : State) (r c : Nat) (dark : Bool) : (s.setColor r c dark).script = s.script := rfl
@[simp] theorem setColor_pos (s : State) (r c : Nat) (dark : Bool) : (s.setColor r c dark).pos = s.pos := rfl
@[simp] theorem setColor_readData (s : State) (r c : Nat) (dark : Bool) : (s.setColor r c dark).readData = s.readData := rfl
@[simp] theorem setColor_passed (s : State) (r c : Nat) (dark : Bool) : (s.setColor r c dark).passed = s.passed := rfl
@[simp] theorem setColor_turns (s : State) (r c : Nat) (dark : Bool) : (s.setColor r c dark).turns = s.turns := rfl

/-! ### Clearing the matrix -/

@[simp] theorem clearMatrix_cfg (s : State) : (s.clearMatrix).cfg = s.cfg := rfl
@[simp] theorem clearMatrix_regs (s : State) : (s.clearMatrix).regs = s.regs := rfl
@[simp] theorem clearMatrix_pending (s : State) : (s.clearMatrix).pending = s.pending := rfl
@[simp] theorem clearMatrix_mem (s : State) : (s.clearMatrix).mem = s.mem.clear isModuleAddr := rfl
@[simp] theorem clearMatrix_script (s : State) : (s.clearMatrix).script = s.script := rfl
@[simp] theorem clearMatrix_pos (s : State) : (s.clearMatrix).pos = s.pos := rfl
@[simp] theorem clearMatrix_readData (s : State) : (s.clearMatrix).readData = s.readData := rfl
@[simp] theorem clearMatrix_passed (s : State) : (s.clearMatrix).passed = s.passed := rfl
@[simp] theorem clearMatrix_turns (s : State) : (s.clearMatrix).turns = s.turns := rfl

/-! ### The result register -/

@[simp] theorem setRes_cfg (s : State) (v : Byte) : (s.setRes v).cfg = s.cfg := rfl
@[simp] theorem setRes_pending (s : State) (v : Byte) : (s.setRes v).pending = s.pending := rfl
@[simp] theorem setRes_mem (s : State) (v : Byte) : (s.setRes v).mem = s.mem := rfl
@[simp] theorem setRes_script (s : State) (v : Byte) : (s.setRes v).script = s.script := rfl
@[simp] theorem setRes_pos (s : State) (v : Byte) : (s.setRes v).pos = s.pos := rfl
@[simp] theorem setRes_readData (s : State) (v : Byte) : (s.setRes v).readData = s.readData := rfl
@[simp] theorem setRes_passed (s : State) (v : Byte) : (s.setRes v).passed = s.passed := rfl
@[simp] theorem setRes_turns (s : State) (v : Byte) : (s.setRes v).turns = s.turns := rfl
@[simp] theorem setRes_regs_ie (s : State) (v : Byte) : (s.setRes v).regs.ie = s.regs.ie := rfl
@[simp] theorem setRes_regs_done (s : State) (v : Byte) : (s.setRes v).regs.done = s.regs.done := rfl
@[simp] theorem setRes_regs_accErr (s : State) (v : Byte) : (s.setRes v).regs.accErr = s.regs.accErr := rfl
@[simp] theorem setRes_regs_clean (s : State) (v : Byte) : (s.setRes v).regs.clean = s.regs.clean := rfl
@[simp] theorem setRes_regs_err (s : State) (v : Byte) : (s.setRes v).regs.err = s.regs.err := rfl
@[simp] theorem setRes_regs_unc (s : State) (v : Byte) : (s.setRes v).regs.unc = s.regs.unc := rfl
@[simp] theorem setRes_regs_cmd (s : State) (v : Byte) : (s.setRes v).regs.cmd = s.regs.cmd := rfl
@[simp] theorem setRes_regs_opa (s : State) (v : Byte) : (s.setRes v).regs.opa = s.regs.opa := rfl
@[simp] theorem setRes_regs_opb (s : State) (v : Byte) : (s.setRes v).regs.opb = s.regs.opb := rfl
@[simp] theorem setRes_regs_res (s : State) (v : Byte) : (s.setRes v).regs.res = v := rfl
@[simp] theorem setRes_regs_lenA (s : State) (v : Byte) : (s.setRes v).regs.lenA = s.regs.lenA := rfl
@[simp] theorem setRes_regs_lenB (s : State) (v : Byte) : (s.setRes v).regs.lenB = s.regs.lenB := rfl
@[simp] theorem setRes_regs_lenR (s : State) (v : Byte) : (s.setRes v).regs.lenR = s.regs.lenR := rfl
@[simp] theorem setRes_regs_eccLen (s : State) (v : Byte) : (s.setRes v).regs.eccLen = s.regs.eccLen := rfl
@[simp] theorem setRes_regs_rsL (s : State) (v : Byte) : (s.setRes v).regs.rsL = s.regs.rsL := rfl
@[simp] theorem setRes_regs_nroots (s : State) (v : Byte) : (s.setRes v).regs.nroots = s.regs.nroots := rfl
@[simp] theorem setRes_regs_nerr (s : State) (v : Byte) : (s.setRes v).regs.nerr = s.regs.nerr := rfl
@[simp] theorem setRes_regs_version (s : State) (v : Byte) : (s.setRes v).regs.version = s.regs.version := rfl
@[simp] theorem setRes_regs_ecLevel (s : State) (v : Byte) : (s.setRes v).regs.ecLevel = s.regs.ecLevel := rfl
@[simp] theorem setRes_regs_mask (s : State) (v : Byte) : (s.setRes v).regs.mask = s.regs.mask := rfl
@[simp] theorem setRes_regs_mxVer (s : State) (v : Byte) : (s.setRes v).regs.mxVer = s.regs.mxVer := rfl
@[simp] theorem setRes_regs_ndata (s : State) (v : Byte) : (s.setRes v).regs.ndata = s.regs.ndata := rfl
@[simp] theorem setRes_regs_cwLen (s : State) (v : Byte) : (s.setRes v).regs.cwLen = s.regs.cwLen := rfl
@[simp] theorem setRes_regs_penN1 (s : State) (v : Byte) : (s.setRes v).regs.penN1 = s.regs.penN1 := rfl
@[simp] theorem setRes_regs_penN2 (s : State) (v : Byte) : (s.setRes v).regs.penN2 = s.regs.penN2 := rfl
@[simp] theorem setRes_regs_penN3 (s : State) (v : Byte) : (s.setRes v).regs.penN3 = s.regs.penN3 := rfl
@[simp] theorem setRes_regs_penN4 (s : State) (v : Byte) : (s.setRes v).regs.penN4 = s.regs.penN4 := rfl
@[simp] theorem setRes_regs_penTotal (s : State) (v : Byte) : (s.setRes v).regs.penTotal = s.regs.penTotal := rfl
@[simp] theorem setRes_regs_fmtWord (s : State) (v : Byte) : (s.setRes v).regs.fmtWord = s.regs.fmtWord := rfl
@[simp] theorem setRes_regs_pen (s : State) (v : Byte) : (s.setRes v).regs.pen = s.regs.pen := rfl
@[simp] theorem setRes_regs_xfRow (s : State) (v : Byte) : (s.setRes v).regs.xfRow = s.regs.xfRow := rfl
@[simp] theorem setRes_regs_xfCol (s : State) (v : Byte) : (s.setRes v).regs.xfCol = s.regs.xfCol := rfl
@[simp] theorem setRes_regs_xfPx (s : State) (v : Byte) : (s.setRes v).regs.xfPx = s.regs.xfPx := rfl
@[simp] theorem setRes_regs_xfPy (s : State) (v : Byte) : (s.setRes v).regs.xfPy = s.regs.xfPy := rfl
@[simp] theorem setRes_regs_xfCoef (s : State) (v : Byte) : (s.setRes v).regs.xfCoef = s.regs.xfCoef := rfl

/-! ### A polynomial result -/

@[simp] theorem setResult_cfg (s : State) (bytes : List Byte) : (s.setResult bytes).cfg = s.cfg := rfl
@[simp] theorem setResult_pending (s : State) (bytes : List Byte) : (s.setResult bytes).pending = s.pending := rfl
@[simp] theorem setResult_mem (s : State) (bytes : List Byte) : (s.setResult bytes).mem = s.mem.store Buffer.bufR.base bytes := rfl
@[simp] theorem setResult_script (s : State) (bytes : List Byte) : (s.setResult bytes).script = s.script := rfl
@[simp] theorem setResult_pos (s : State) (bytes : List Byte) : (s.setResult bytes).pos = s.pos := rfl
@[simp] theorem setResult_readData (s : State) (bytes : List Byte) : (s.setResult bytes).readData = s.readData := rfl
@[simp] theorem setResult_passed (s : State) (bytes : List Byte) : (s.setResult bytes).passed = s.passed := rfl
@[simp] theorem setResult_turns (s : State) (bytes : List Byte) : (s.setResult bytes).turns = s.turns := rfl
@[simp] theorem setResult_regs_ie (s : State) (bytes : List Byte) : (s.setResult bytes).regs.ie = s.regs.ie := rfl
@[simp] theorem setResult_regs_done (s : State) (bytes : List Byte) : (s.setResult bytes).regs.done = s.regs.done := rfl
@[simp] theorem setResult_regs_accErr (s : State) (bytes : List Byte) : (s.setResult bytes).regs.accErr = s.regs.accErr := rfl
@[simp] theorem setResult_regs_clean (s : State) (bytes : List Byte) : (s.setResult bytes).regs.clean = s.regs.clean := rfl
@[simp] theorem setResult_regs_err (s : State) (bytes : List Byte) : (s.setResult bytes).regs.err = s.regs.err := rfl
@[simp] theorem setResult_regs_unc (s : State) (bytes : List Byte) : (s.setResult bytes).regs.unc = s.regs.unc := rfl
@[simp] theorem setResult_regs_cmd (s : State) (bytes : List Byte) : (s.setResult bytes).regs.cmd = s.regs.cmd := rfl
@[simp] theorem setResult_regs_opa (s : State) (bytes : List Byte) : (s.setResult bytes).regs.opa = s.regs.opa := rfl
@[simp] theorem setResult_regs_opb (s : State) (bytes : List Byte) : (s.setResult bytes).regs.opb = s.regs.opb := rfl
@[simp] theorem setResult_regs_res (s : State) (bytes : List Byte) : (s.setResult bytes).regs.res = s.regs.res := rfl
@[simp] theorem setResult_regs_lenA (s : State) (bytes : List Byte) : (s.setResult bytes).regs.lenA = s.regs.lenA := rfl
@[simp] theorem setResult_regs_lenB (s : State) (bytes : List Byte) : (s.setResult bytes).regs.lenB = s.regs.lenB := rfl
@[simp] theorem setResult_regs_lenR (s : State) (bytes : List Byte) : (s.setResult bytes).regs.lenR = BitVec.ofNat 10 bytes.length := rfl
@[simp] theorem setResult_regs_eccLen (s : State) (bytes : List Byte) : (s.setResult bytes).regs.eccLen = s.regs.eccLen := rfl
@[simp] theorem setResult_regs_rsL (s : State) (bytes : List Byte) : (s.setResult bytes).regs.rsL = s.regs.rsL := rfl
@[simp] theorem setResult_regs_nroots (s : State) (bytes : List Byte) : (s.setResult bytes).regs.nroots = s.regs.nroots := rfl
@[simp] theorem setResult_regs_nerr (s : State) (bytes : List Byte) : (s.setResult bytes).regs.nerr = s.regs.nerr := rfl
@[simp] theorem setResult_regs_version (s : State) (bytes : List Byte) : (s.setResult bytes).regs.version = s.regs.version := rfl
@[simp] theorem setResult_regs_ecLevel (s : State) (bytes : List Byte) : (s.setResult bytes).regs.ecLevel = s.regs.ecLevel := rfl
@[simp] theorem setResult_regs_mask (s : State) (bytes : List Byte) : (s.setResult bytes).regs.mask = s.regs.mask := rfl
@[simp] theorem setResult_regs_mxVer (s : State) (bytes : List Byte) : (s.setResult bytes).regs.mxVer = s.regs.mxVer := rfl
@[simp] theorem setResult_regs_ndata (s : State) (bytes : List Byte) : (s.setResult bytes).regs.ndata = s.regs.ndata := rfl
@[simp] theorem setResult_regs_cwLen (s : State) (bytes : List Byte) : (s.setResult bytes).regs.cwLen = s.regs.cwLen := rfl
@[simp] theorem setResult_regs_penN1 (s : State) (bytes : List Byte) : (s.setResult bytes).regs.penN1 = s.regs.penN1 := rfl
@[simp] theorem setResult_regs_penN2 (s : State) (bytes : List Byte) : (s.setResult bytes).regs.penN2 = s.regs.penN2 := rfl
@[simp] theorem setResult_regs_penN3 (s : State) (bytes : List Byte) : (s.setResult bytes).regs.penN3 = s.regs.penN3 := rfl
@[simp] theorem setResult_regs_penN4 (s : State) (bytes : List Byte) : (s.setResult bytes).regs.penN4 = s.regs.penN4 := rfl
@[simp] theorem setResult_regs_penTotal (s : State) (bytes : List Byte) : (s.setResult bytes).regs.penTotal = s.regs.penTotal := rfl
@[simp] theorem setResult_regs_fmtWord (s : State) (bytes : List Byte) : (s.setResult bytes).regs.fmtWord = s.regs.fmtWord := rfl
@[simp] theorem setResult_regs_pen (s : State) (bytes : List Byte) : (s.setResult bytes).regs.pen = s.regs.pen := rfl
@[simp] theorem setResult_regs_xfRow (s : State) (bytes : List Byte) : (s.setResult bytes).regs.xfRow = s.regs.xfRow := rfl
@[simp] theorem setResult_regs_xfCol (s : State) (bytes : List Byte) : (s.setResult bytes).regs.xfCol = s.regs.xfCol := rfl
@[simp] theorem setResult_regs_xfPx (s : State) (bytes : List Byte) : (s.setResult bytes).regs.xfPx = s.regs.xfPx := rfl
@[simp] theorem setResult_regs_xfPy (s : State) (bytes : List Byte) : (s.setResult bytes).regs.xfPy = s.regs.xfPy := rfl
@[simp] theorem setResult_regs_xfCoef (s : State) (bytes : List Byte) : (s.setResult bytes).regs.xfCoef = s.regs.xfCoef := rfl

/-! ### The penalty registers -/

@[simp] theorem setPenalty_cfg (s : State) (p : Penalty) : (s.setPenalty p).cfg = s.cfg := rfl
@[simp] theorem setPenalty_pending (s : State) (p : Penalty) : (s.setPenalty p).pending = s.pending := rfl
@[simp] theorem setPenalty_mem (s : State) (p : Penalty) : (s.setPenalty p).mem = s.mem := rfl
@[simp] theorem setPenalty_script (s : State) (p : Penalty) : (s.setPenalty p).script = s.script := rfl
@[simp] theorem setPenalty_pos (s : State) (p : Penalty) : (s.setPenalty p).pos = s.pos := rfl
@[simp] theorem setPenalty_readData (s : State) (p : Penalty) : (s.setPenalty p).readData = s.readData := rfl
@[simp] theorem setPenalty_passed (s : State) (p : Penalty) : (s.setPenalty p).passed = s.passed := rfl
@[simp] theorem setPenalty_turns (s : State) (p : Penalty) : (s.setPenalty p).turns = s.turns := rfl
@[simp] theorem setPenalty_regs_ie (s : State) (p : Penalty) : (s.setPenalty p).regs.ie = s.regs.ie := rfl
@[simp] theorem setPenalty_regs_done (s : State) (p : Penalty) : (s.setPenalty p).regs.done = s.regs.done := rfl
@[simp] theorem setPenalty_regs_accErr (s : State) (p : Penalty) : (s.setPenalty p).regs.accErr = s.regs.accErr := rfl
@[simp] theorem setPenalty_regs_clean (s : State) (p : Penalty) : (s.setPenalty p).regs.clean = s.regs.clean := rfl
@[simp] theorem setPenalty_regs_err (s : State) (p : Penalty) : (s.setPenalty p).regs.err = s.regs.err := rfl
@[simp] theorem setPenalty_regs_unc (s : State) (p : Penalty) : (s.setPenalty p).regs.unc = s.regs.unc := rfl
@[simp] theorem setPenalty_regs_cmd (s : State) (p : Penalty) : (s.setPenalty p).regs.cmd = s.regs.cmd := rfl
@[simp] theorem setPenalty_regs_opa (s : State) (p : Penalty) : (s.setPenalty p).regs.opa = s.regs.opa := rfl
@[simp] theorem setPenalty_regs_opb (s : State) (p : Penalty) : (s.setPenalty p).regs.opb = s.regs.opb := rfl
@[simp] theorem setPenalty_regs_res (s : State) (p : Penalty) : (s.setPenalty p).regs.res = s.regs.res := rfl
@[simp] theorem setPenalty_regs_lenA (s : State) (p : Penalty) : (s.setPenalty p).regs.lenA = s.regs.lenA := rfl
@[simp] theorem setPenalty_regs_lenB (s : State) (p : Penalty) : (s.setPenalty p).regs.lenB = s.regs.lenB := rfl
@[simp] theorem setPenalty_regs_lenR (s : State) (p : Penalty) : (s.setPenalty p).regs.lenR = s.regs.lenR := rfl
@[simp] theorem setPenalty_regs_eccLen (s : State) (p : Penalty) : (s.setPenalty p).regs.eccLen = s.regs.eccLen := rfl
@[simp] theorem setPenalty_regs_rsL (s : State) (p : Penalty) : (s.setPenalty p).regs.rsL = s.regs.rsL := rfl
@[simp] theorem setPenalty_regs_nroots (s : State) (p : Penalty) : (s.setPenalty p).regs.nroots = s.regs.nroots := rfl
@[simp] theorem setPenalty_regs_nerr (s : State) (p : Penalty) : (s.setPenalty p).regs.nerr = s.regs.nerr := rfl
@[simp] theorem setPenalty_regs_version (s : State) (p : Penalty) : (s.setPenalty p).regs.version = s.regs.version := rfl
@[simp] theorem setPenalty_regs_ecLevel (s : State) (p : Penalty) : (s.setPenalty p).regs.ecLevel = s.regs.ecLevel := rfl
@[simp] theorem setPenalty_regs_mask (s : State) (p : Penalty) : (s.setPenalty p).regs.mask = s.regs.mask := rfl
@[simp] theorem setPenalty_regs_mxVer (s : State) (p : Penalty) : (s.setPenalty p).regs.mxVer = s.regs.mxVer := rfl
@[simp] theorem setPenalty_regs_ndata (s : State) (p : Penalty) : (s.setPenalty p).regs.ndata = s.regs.ndata := rfl
@[simp] theorem setPenalty_regs_cwLen (s : State) (p : Penalty) : (s.setPenalty p).regs.cwLen = s.regs.cwLen := rfl
@[simp] theorem setPenalty_regs_penN1 (s : State) (p : Penalty) : (s.setPenalty p).regs.penN1 = BitVec.ofNat 32 p.n1 := rfl
@[simp] theorem setPenalty_regs_penN2 (s : State) (p : Penalty) : (s.setPenalty p).regs.penN2 = BitVec.ofNat 32 p.n2 := rfl
@[simp] theorem setPenalty_regs_penN3 (s : State) (p : Penalty) : (s.setPenalty p).regs.penN3 = BitVec.ofNat 32 p.n3 := rfl
@[simp] theorem setPenalty_regs_penN4 (s : State) (p : Penalty) : (s.setPenalty p).regs.penN4 = BitVec.ofNat 32 p.n4 := rfl
@[simp] theorem setPenalty_regs_penTotal (s : State) (p : Penalty) : (s.setPenalty p).regs.penTotal = BitVec.ofNat 32 p.total := rfl
@[simp] theorem setPenalty_regs_fmtWord (s : State) (p : Penalty) : (s.setPenalty p).regs.fmtWord = s.regs.fmtWord := rfl
@[simp] theorem setPenalty_regs_pen (s : State) (p : Penalty) : (s.setPenalty p).regs.pen = s.regs.pen := rfl
@[simp] theorem setPenalty_regs_xfRow (s : State) (p : Penalty) : (s.setPenalty p).regs.xfRow = s.regs.xfRow := rfl
@[simp] theorem setPenalty_regs_xfCol (s : State) (p : Penalty) : (s.setPenalty p).regs.xfCol = s.regs.xfCol := rfl
@[simp] theorem setPenalty_regs_xfPx (s : State) (p : Penalty) : (s.setPenalty p).regs.xfPx = s.regs.xfPx := rfl
@[simp] theorem setPenalty_regs_xfPy (s : State) (p : Penalty) : (s.setPenalty p).regs.xfPy = s.regs.xfPy := rfl
@[simp] theorem setPenalty_regs_xfCoef (s : State) (p : Penalty) : (s.setPenalty p).regs.xfCoef = s.regs.xfCoef := rfl

/-! ### The eight totals -/

@[simp] theorem setPens_cfg (s : State) (pens : List Penalty) : (s.setPens pens).cfg = s.cfg := rfl
@[simp] theorem setPens_pending (s : State) (pens : List Penalty) : (s.setPens pens).pending = s.pending := rfl
@[simp] theorem setPens_mem (s : State) (pens : List Penalty) : (s.setPens pens).mem = s.mem := rfl
@[simp] theorem setPens_script (s : State) (pens : List Penalty) : (s.setPens pens).script = s.script := rfl
@[simp] theorem setPens_pos (s : State) (pens : List Penalty) : (s.setPens pens).pos = s.pos := rfl
@[simp] theorem setPens_readData (s : State) (pens : List Penalty) : (s.setPens pens).readData = s.readData := rfl
@[simp] theorem setPens_passed (s : State) (pens : List Penalty) : (s.setPens pens).passed = s.passed := rfl
@[simp] theorem setPens_turns (s : State) (pens : List Penalty) : (s.setPens pens).turns = s.turns := rfl
@[simp] theorem setPens_regs_ie (s : State) (pens : List Penalty) : (s.setPens pens).regs.ie = s.regs.ie := rfl
@[simp] theorem setPens_regs_done (s : State) (pens : List Penalty) : (s.setPens pens).regs.done = s.regs.done := rfl
@[simp] theorem setPens_regs_accErr (s : State) (pens : List Penalty) : (s.setPens pens).regs.accErr = s.regs.accErr := rfl
@[simp] theorem setPens_regs_clean (s : State) (pens : List Penalty) : (s.setPens pens).regs.clean = s.regs.clean := rfl
@[simp] theorem setPens_regs_err (s : State) (pens : List Penalty) : (s.setPens pens).regs.err = s.regs.err := rfl
@[simp] theorem setPens_regs_unc (s : State) (pens : List Penalty) : (s.setPens pens).regs.unc = s.regs.unc := rfl
@[simp] theorem setPens_regs_cmd (s : State) (pens : List Penalty) : (s.setPens pens).regs.cmd = s.regs.cmd := rfl
@[simp] theorem setPens_regs_opa (s : State) (pens : List Penalty) : (s.setPens pens).regs.opa = s.regs.opa := rfl
@[simp] theorem setPens_regs_opb (s : State) (pens : List Penalty) : (s.setPens pens).regs.opb = s.regs.opb := rfl
@[simp] theorem setPens_regs_res (s : State) (pens : List Penalty) : (s.setPens pens).regs.res = s.regs.res := rfl
@[simp] theorem setPens_regs_lenA (s : State) (pens : List Penalty) : (s.setPens pens).regs.lenA = s.regs.lenA := rfl
@[simp] theorem setPens_regs_lenB (s : State) (pens : List Penalty) : (s.setPens pens).regs.lenB = s.regs.lenB := rfl
@[simp] theorem setPens_regs_lenR (s : State) (pens : List Penalty) : (s.setPens pens).regs.lenR = s.regs.lenR := rfl
@[simp] theorem setPens_regs_eccLen (s : State) (pens : List Penalty) : (s.setPens pens).regs.eccLen = s.regs.eccLen := rfl
@[simp] theorem setPens_regs_rsL (s : State) (pens : List Penalty) : (s.setPens pens).regs.rsL = s.regs.rsL := rfl
@[simp] theorem setPens_regs_nroots (s : State) (pens : List Penalty) : (s.setPens pens).regs.nroots = s.regs.nroots := rfl
@[simp] theorem setPens_regs_nerr (s : State) (pens : List Penalty) : (s.setPens pens).regs.nerr = s.regs.nerr := rfl
@[simp] theorem setPens_regs_version (s : State) (pens : List Penalty) : (s.setPens pens).regs.version = s.regs.version := rfl
@[simp] theorem setPens_regs_ecLevel (s : State) (pens : List Penalty) : (s.setPens pens).regs.ecLevel = s.regs.ecLevel := rfl
@[simp] theorem setPens_regs_mask (s : State) (pens : List Penalty) : (s.setPens pens).regs.mask = s.regs.mask := rfl
@[simp] theorem setPens_regs_mxVer (s : State) (pens : List Penalty) : (s.setPens pens).regs.mxVer = s.regs.mxVer := rfl
@[simp] theorem setPens_regs_ndata (s : State) (pens : List Penalty) : (s.setPens pens).regs.ndata = s.regs.ndata := rfl
@[simp] theorem setPens_regs_cwLen (s : State) (pens : List Penalty) : (s.setPens pens).regs.cwLen = s.regs.cwLen := rfl
@[simp] theorem setPens_regs_penN1 (s : State) (pens : List Penalty) : (s.setPens pens).regs.penN1 = s.regs.penN1 := rfl
@[simp] theorem setPens_regs_penN2 (s : State) (pens : List Penalty) : (s.setPens pens).regs.penN2 = s.regs.penN2 := rfl
@[simp] theorem setPens_regs_penN3 (s : State) (pens : List Penalty) : (s.setPens pens).regs.penN3 = s.regs.penN3 := rfl
@[simp] theorem setPens_regs_penN4 (s : State) (pens : List Penalty) : (s.setPens pens).regs.penN4 = s.regs.penN4 := rfl
@[simp] theorem setPens_regs_penTotal (s : State) (pens : List Penalty) : (s.setPens pens).regs.penTotal = s.regs.penTotal := rfl
@[simp] theorem setPens_regs_fmtWord (s : State) (pens : List Penalty) : (s.setPens pens).regs.fmtWord = s.regs.fmtWord := rfl
@[simp] theorem setPens_regs_pen (s : State) (pens : List Penalty) : (s.setPens pens).regs.pen = Vector.ofFn (fun m : Fin 8 =>
      BitVec.ofNat 32 ((pens.map Penalty.total).getD m.val 0)) := rfl
@[simp] theorem setPens_regs_xfRow (s : State) (pens : List Penalty) : (s.setPens pens).regs.xfRow = s.regs.xfRow := rfl
@[simp] theorem setPens_regs_xfCol (s : State) (pens : List Penalty) : (s.setPens pens).regs.xfCol = s.regs.xfCol := rfl
@[simp] theorem setPens_regs_xfPx (s : State) (pens : List Penalty) : (s.setPens pens).regs.xfPx = s.regs.xfPx := rfl
@[simp] theorem setPens_regs_xfPy (s : State) (pens : List Penalty) : (s.setPens pens).regs.xfPy = s.regs.xfPy := rfl
@[simp] theorem setPens_regs_xfCoef (s : State) (pens : List Penalty) : (s.setPens pens).regs.xfCoef = s.regs.xfCoef := rfl

/-! ### Mapping the square -/

@[simp] theorem mapModules_cfg (s : State) (d : Nat) (f : Nat → Nat → BitVec 3 → BitVec 3) : (s.mapModules d f).cfg = s.cfg := rfl
@[simp] theorem mapModules_regs (s : State) (d : Nat) (f : Nat → Nat → BitVec 3 → BitVec 3) : (s.mapModules d f).regs = s.regs := rfl
@[simp] theorem mapModules_pending (s : State) (d : Nat) (f : Nat → Nat → BitVec 3 → BitVec 3) : (s.mapModules d f).pending = s.pending := rfl
@[simp] theorem mapModules_script (s : State) (d : Nat) (f : Nat → Nat → BitVec 3 → BitVec 3) : (s.mapModules d f).script = s.script := rfl
@[simp] theorem mapModules_pos (s : State) (d : Nat) (f : Nat → Nat → BitVec 3 → BitVec 3) : (s.mapModules d f).pos = s.pos := rfl
@[simp] theorem mapModules_readData (s : State) (d : Nat) (f : Nat → Nat → BitVec 3 → BitVec 3) : (s.mapModules d f).readData = s.readData := rfl
@[simp] theorem mapModules_passed (s : State) (d : Nat) (f : Nat → Nat → BitVec 3 → BitVec 3) : (s.mapModules d f).passed = s.passed := rfl
@[simp] theorem mapModules_turns (s : State) (d : Nat) (f : Nat → Nat → BitVec 3 → BitVec 3) : (s.mapModules d f).turns = s.turns := rfl

/-! ### Painting modules in turn -/

@[simp] theorem paint_cfg (s : State) (ps : List ((Nat × Nat) × Bool)) : (s.paint ps).cfg = s.cfg := by
  induction ps generalizing s with
  | nil => rfl
  | cons p ps ih => exact ih _
@[simp] theorem paint_regs (s : State) (ps : List ((Nat × Nat) × Bool)) : (s.paint ps).regs = s.regs := by
  induction ps generalizing s with
  | nil => rfl
  | cons p ps ih => exact ih _
@[simp] theorem paint_pending (s : State) (ps : List ((Nat × Nat) × Bool)) : (s.paint ps).pending = s.pending := by
  induction ps generalizing s with
  | nil => rfl
  | cons p ps ih => exact ih _
@[simp] theorem paint_script (s : State) (ps : List ((Nat × Nat) × Bool)) : (s.paint ps).script = s.script := by
  induction ps generalizing s with
  | nil => rfl
  | cons p ps ih => exact ih _
@[simp] theorem paint_pos (s : State) (ps : List ((Nat × Nat) × Bool)) : (s.paint ps).pos = s.pos := by
  induction ps generalizing s with
  | nil => rfl
  | cons p ps ih => exact ih _
@[simp] theorem paint_readData (s : State) (ps : List ((Nat × Nat) × Bool)) : (s.paint ps).readData = s.readData := by
  induction ps generalizing s with
  | nil => rfl
  | cons p ps ih => exact ih _
@[simp] theorem paint_passed (s : State) (ps : List ((Nat × Nat) × Bool)) : (s.paint ps).passed = s.passed := by
  induction ps generalizing s with
  | nil => rfl
  | cons p ps ih => exact ih _
@[simp] theorem paint_turns (s : State) (ps : List ((Nat × Nat) × Bool)) : (s.paint ps).turns = s.turns := by
  induction ps generalizing s with
  | nil => rfl
  | cons p ps ih => exact ih _

/-! ### Corrections -/

@[simp] theorem correct_cfg (s : State) (n : Nat) (is : List Nat) (ys : List Byte) : (s.correct n is ys).cfg = s.cfg := by
  induction is generalizing s ys with
  | nil => rfl
  | cons i is ih => cases ys with
    | nil => rfl
    | cons y ys => exact ih _ _
@[simp] theorem correct_regs (s : State) (n : Nat) (is : List Nat) (ys : List Byte) : (s.correct n is ys).regs = s.regs := by
  induction is generalizing s ys with
  | nil => rfl
  | cons i is ih => cases ys with
    | nil => rfl
    | cons y ys => exact ih _ _
@[simp] theorem correct_pending (s : State) (n : Nat) (is : List Nat) (ys : List Byte) : (s.correct n is ys).pending = s.pending := by
  induction is generalizing s ys with
  | nil => rfl
  | cons i is ih => cases ys with
    | nil => rfl
    | cons y ys => exact ih _ _
@[simp] theorem correct_script (s : State) (n : Nat) (is : List Nat) (ys : List Byte) : (s.correct n is ys).script = s.script := by
  induction is generalizing s ys with
  | nil => rfl
  | cons i is ih => cases ys with
    | nil => rfl
    | cons y ys => exact ih _ _
@[simp] theorem correct_pos (s : State) (n : Nat) (is : List Nat) (ys : List Byte) : (s.correct n is ys).pos = s.pos := by
  induction is generalizing s ys with
  | nil => rfl
  | cons i is ih => cases ys with
    | nil => rfl
    | cons y ys => exact ih _ _
@[simp] theorem correct_readData (s : State) (n : Nat) (is : List Nat) (ys : List Byte) : (s.correct n is ys).readData = s.readData := by
  induction is generalizing s ys with
  | nil => rfl
  | cons i is ih => cases ys with
    | nil => rfl
    | cons y ys => exact ih _ _
@[simp] theorem correct_passed (s : State) (n : Nat) (is : List Nat) (ys : List Byte) : (s.correct n is ys).passed = s.passed := by
  induction is generalizing s ys with
  | nil => rfl
  | cons i is ih => cases ys with
    | nil => rfl
    | cons y ys => exact ih _ _
@[simp] theorem correct_turns (s : State) (n : Nat) (is : List Nat) (ys : List Byte) : (s.correct n is ys).turns = s.turns := by
  induction is generalizing s ys with
  | nil => rfl
  | cons i is ih => cases ys with
    | nil => rfl
    | cons y ys => exact ih _ _

end Sys2Proof.Machine
end

