-- ==== Sys2Proof/Laws/Bus.lean ====
section
/-! SUPPORT. What the bus operations can do, once each: a read stores its value and at most sets `ACCERR`; a write keeps the canonical form of RAM. -/

namespace Sys2Proof.Machine

/-- Everything a bus read does: the value, and `ACCERR` on an access error. -/
theorem busRead_eq (s : State) (w : BusWidth) (addr : BusAddr) :
    s.busRead w addr =
      { s with
        readData := (s.readValue w addr).1
        regs := { s.regs with accErr := s.regs.accErr || (s.readValue w addr).2 } } := by
  unfold State.busRead State.accessError
  generalize s.readValue w addr = got
  obtain ⟨v, bad⟩ := got
  cases bad <;> simp

/-- An access error changes no byte of RAM. -/
theorem accessError_idem (s : State) : s.accessError.accessError = s.accessError := rfl

/-- A register write leaves RAM alone. -/
theorem writeReg_mem (s : State) (r : Reg) (v : Word) : (s.writeReg r v).mem = s.mem := by
  cases r <;> simp [State.writeReg]
  split <;> rfl

theorem wf_writeByte {s : State} (h : s.mem.wf = true) (a : Nat) (v : Byte) :
    (s.writeByte a v).mem.wf = true := by
  unfold State.writeByte
  split
  · exact wf_write h _ _
  · exact h
  · exact wf_write h _ _
  · exact wf_setColor h _ _ _
  · exact h

theorem wf_writeBytes {s : State} (h : s.mem.wf = true) (n a : Nat) (v : Word) :
    (s.writeBytes n a v).mem.wf = true := by
  induction n generalizing s a v with
  | zero => exact h
  | succ n ih => exact ih (wf_writeByte h a _) _ _

/-- A bus write keeps the canonical form of RAM. -/
theorem wf_busWrite {s : State} (h : s.mem.wf = true) (w : BusWidth) (addr : BusAddr) (v : Word) :
    (s.busWrite w addr v).mem.wf = true := by
  unfold State.busWrite
  split
  · exact h
  · split
    · exact h
    · split
      · split
        · rw [writeReg_mem]; exact h
        · exact h
      · exact wf_writeBytes h _ _ _

/-- The host's turn keeps the canonical form of RAM. -/
theorem wf_hostTurn {s : State} (h : s.mem.wf = true) : s.hostTurn.mem.wf = true := by
  unfold State.hostTurn
  split
  · exact h
  · exact wf_busWrite h _ _ _
  · simpa [busRead_eq] using h
  · simpa [busRead_eq] using h
  · simpa [busRead_eq] using h
  · exact h
  · exact h

end Sys2Proof.Machine
end

