-- ==== Sys2Proof/Laws/Field.lean ====
section
/-! SUPPORT. The field tables against the rules that define them (41_gf_arith.md R116, R117), and the small laws of the list operations the GF and RS commands are written with. -/

namespace Sys2Proof.Machine

/-! ### The tables follow their rules -/

/-- `EXP[0] = 1` (R116). -/
theorem gfExp_zero : gfExp 0 = 1#8 := by decide

/-- `EXP` has period 255 (R116). -/
@[simp] theorem gfExp_mod (i : Nat) : gfExp (i % 255) = gfExp i := by simp [gfExp]

theorem gfExp_succ_small : ∀ i : Fin 255, gfExp (i.val + 1) = alphaStep (gfExp i.val) := by
  decide +kernel

/-- The recurrence of R116: each entry is the one before it times α, reduced by 0x11D. -/
theorem gfExp_succ (i : Nat) : gfExp (i + 1) = alphaStep (gfExp i) := by
  have h := gfExp_succ_small ⟨i % 255, Nat.mod_lt _ (by decide)⟩
  simp only [gfExp_mod] at h
  rw [← h, ← gfExp_mod (i + 1), ← gfExp_mod (i % 255 + 1), Nat.add_mod i 1 255]

/-- `LOG[EXP[i]] = i` for i = 0..254 (R117). -/
theorem gfLog_gfExp : ∀ i : Fin 255, gfLog (gfExp i.val) = i.val := by decide +kernel

/-- `EXP[LOG[a]] = a` for every non-zero a (R117, R126). -/
theorem gfExp_gfLog : ∀ a : Byte, a ≠ 0#8 → gfExp (gfLog a) = a := by decide +kernel

/-- Every logarithm is at most 254 (R125). -/
theorem gfLog_le : ∀ a : Byte, gfLog a ≤ 254 := by decide +kernel

/-! ### Field operations on zero and one -/

@[simp] theorem gfMul_zero_left (b : Byte) : gfMul 0#8 b = 0#8 := by simp [gfMul]

@[simp] theorem gfMul_zero_right (a : Byte) : gfMul a 0#8 = 0#8 := by simp [gfMul]

@[simp] theorem gfDiv_zero_left (b : Byte) : gfDiv 0#8 b = 0#8 := by simp [gfDiv]

theorem gfMul_comm (a b : Byte) : gfMul a b = gfMul b a := by
  simp only [gfMul, Nat.add_comm (gfLog a), or_comm]

theorem gfMul_of_ne {a b : Byte} (ha : a ≠ 0#8) (hb : b ≠ 0#8) :
    gfMul a b = gfExp (gfLog a + gfLog b) := by simp [gfMul, ha, hb]

theorem gfDiv_of_ne {a b : Byte} (ha : a ≠ 0#8) :
    gfDiv a b = gfExp (gfLog a + 255 - gfLog b) := by simp [gfDiv, ha]

/-! ### Lengths -/

@[simp] theorem length_addOnto (xs ys : List Byte) : (addOnto xs ys).length = ys.length := by
  induction xs generalizing ys with
  | nil => rfl
  | cons x xs ih => cases ys with
    | nil => rfl
    | cons y ys => simp [addOnto, ih]

theorem length_polyMul (a b : List Byte) (ha : a ≠ []) (hb : b ≠ []) :
    (polyMul a b).length = a.length + b.length - 1 := by
  have hpos := List.length_pos_of_ne_nil hb
  induction a with
  | nil => exact absurd rfl ha
  | cons x xs ih =>
    cases xs with
    | nil =>
      simp only [polyMul, length_addOnto, List.length_cons, List.length_replicate, List.length_nil]
      omega
    | cons y ys =>
      have := ih (by simp)
      simp only [polyMul, length_addOnto, List.length_cons] at this ⊢
      omega

@[simp] theorem length_genPoly (e : Nat) : (genPoly e).length = e + 1 := by
  induction e with
  | zero => rfl
  | succ e ih =>
    have hne : genPoly e ≠ [] := by intro h; simp [h] at ih
    rw [genPoly, length_polyMul _ _ hne (by simp), ih]
    simp

theorem length_encodeLoop (g : List Byte) (k : Nat) (w : List Byte) :
    (encodeLoop g k w).length = w.length - k := by
  induction k generalizing w with
  | zero => simp [encodeLoop]
  | succ k ih =>
    cases w with
    | nil => simp [encodeLoop]
    | cons q w =>
      simp only [encodeLoop, ih]
      split <;> simp

/-- The encoder emits `e` ECC codewords. -/
@[simp] theorem length_rsEcc (e : Nat) (data : List Byte) : (rsEcc e data).length = e := by
  simp [rsEcc, length_encodeLoop]

@[simp] theorem length_syndromes (block : List Byte) (e : Nat) : (syndromes block e).length = e := by
  simp [syndromes]

@[simp] theorem length_evaluator (sigma syn : List Byte) (e : Nat) :
    (evaluator sigma syn e).length = e := by simp [evaluator]

theorem length_bmUpdate (v : BmState) (d : Byte) (h : v.p.length = v.c.length) :
    (bmUpdate v d).length = v.c.length := by
  simp [bmUpdate, h]

/-- Both arrays of a round keep their length. -/
theorem length_bmRound (syn : List Byte) (v : BmState) (r : Nat) (h : v.p.length = v.c.length) :
    (bmRound syn v r).c.length = v.c.length ∧ (bmRound syn v r).p.length = v.c.length := by
  unfold bmRound
  dsimp only
  split
  · exact ⟨rfl, h⟩
  · split
    · exact ⟨length_bmUpdate v _ h, rfl⟩
    · exact ⟨length_bmUpdate v _ h, h⟩

/-- σ has `e + 1` coefficients. -/
@[simp] theorem length_berlekampMassey (syn : List Byte) (e : Nat) :
    (berlekampMassey syn e).c.length = e + 1 := by
  suffices h : ∀ (l : List Nat) (v : BmState), v.p.length = v.c.length →
      (l.foldl (bmRound syn) v).c.length = v.c.length by
    simpa [berlekampMassey, bmInit] using h (List.range e) (bmInit e) (by simp [bmInit])
  intro l
  induction l with
  | nil => intro v _; rfl
  | cons r l ih =>
    intro v hv
    have hr := length_bmRound syn v r hv
    rw [List.foldl_cons, ih _ (hr.2.trans hr.1.symm), hr.1]

/-- At most `n` positions are roots. -/
theorem length_chienRoots (sigma : List Byte) (n : Nat) : (chienRoots sigma n).length ≤ n := by
  simpa [chienRoots] using List.length_filter_le (fun i => evalAsc sigma (alphaInv i) == 0#8) (List.range n)

/-- A Chien position lies in the block (R148). -/
theorem lt_of_mem_chienRoots {sigma : List Byte} {n i : Nat} (h : i ∈ chienRoots sigma n) : i < n := by
  simpa using (List.mem_filter.1 h).1

end Sys2Proof.Machine
end

