-- ==== Sys2Proof/Laws/Matrix.lean ====
section
/-! SUPPORT. The matrix as modules: what each shared operation over the matrix does to every module and to every other byte of RAM. -/

namespace Sys2Proof.Machine

/-! ### Module bits -/

@[simp] theorem setWidth_moduleByte (m : BitVec 3) : (moduleByte m).setWidth 3 = m := by
  revert m; decide

@[simp] theorem colorOf_withColor (m : BitVec 3) (dark : Bool) : colorOf (withColor m dark) = dark := by
  revert m dark; decide

@[simp] theorem nonData_withColor (m : BitVec 3) (dark : Bool) : nonData (withColor m dark) = nonData m := by
  revert m dark; decide

@[simp] theorem isFixed_withColor (m : BitVec 3) (dark : Bool) : isFixed (withColor m dark) = isFixed m := by
  revert m dark; decide

@[simp] theorem nonData_maskModule (m r c : Nat) (old : BitVec 3) :
    nonData (maskModule m r c old) = nonData old := by
  unfold maskModule; split <;> simp

@[simp] theorem isFixed_maskModule (m r c : Nat) (old : BitVec 3) :
    isFixed (maskModule m r c old) = isFixed old := by
  unfold maskModule; split <;> simp

/-! ### Addresses -/

theorem moduleAddr_inj {r c r' c' : Nat} (hc : c < 256) (hc' : c' < 256)
    (h : moduleAddr r c = moduleAddr r' c') : r = r' ∧ c = c' := by
  unfold moduleAddr at h; omega

theorem matrixBase_le_moduleAddr (r c : Nat) : matrixBase ≤ moduleAddr r c := by
  unfold moduleAddr; omega

theorem moduleAddr_row {r c : Nat} (hc : c < 256) : (moduleAddr r c - matrixBase) / 256 = r := by
  unfold moduleAddr; omega

theorem moduleAddr_col {r c : Nat} (hc : c < 256) : (moduleAddr r c - matrixBase) % 256 = c := by
  unfold moduleAddr; omega

theorem isModuleAddr_moduleAddr {r c : Nat} (hr : r < dMax) (hc : c < dMax) :
    isModuleAddr (moduleAddr r c) = true := by
  have h256 : c < 256 := lt_trans hc (by decide)
  simp [isModuleAddr, moduleAddr_row h256, moduleAddr_col h256, hr, hc, matrixBase_le_moduleAddr]

/-! ### One module -/

/-- Setting a color changes the byte of that module only, and there only the color. -/
theorem read_setColor {s : State} (h : s.mem.wf = true) (r c : Nat) (dark : Bool) (x : Nat) :
    (s.setColor r c dark).mem.read x =
      if x = moduleAddr r c then moduleByte (withColor (s.moduleAt r c) dark) else s.mem.read x := by
  rw [setColor_mem, read_update _ _ _ _ h]
  by_cases hx : x = moduleAddr r c
  · subst hx
    rw [if_pos ⟨le_refl _, Nat.lt_succ_self _⟩, if_pos rfl, State.moduleAt]
  · rw [if_neg (by omega), if_neg hx]

theorem moduleAt_setColor {s : State} (h : s.mem.wf = true) (r c r' c' : Nat) (hc : c < 256)
    (hc' : c' < 256) (dark : Bool) :
    (s.setColor r c dark).moduleAt r' c' =
      if r' = r ∧ c' = c then withColor (s.moduleAt r c) dark else s.moduleAt r' c' := by
  rw [State.moduleAt, read_setColor h]
  by_cases he : moduleAddr r' c' = moduleAddr r c
  · obtain ⟨hr, hcc⟩ := moduleAddr_inj hc' hc he
    subst hr hcc
    simp
  · have hne : ¬(r' = r ∧ c' = c) := fun hh => he (by rw [hh.1, hh.2])
    rw [if_neg he, if_neg hne, State.moduleAt]

/-! ### The whole square -/

/-- Mapping the square rewrites its bytes and leaves every other byte of RAM alone. -/
theorem read_mapModules {s : State} (h : s.mem.wf = true) (d : Nat)
    (f : Nat → Nat → BitVec 3 → BitVec 3) (x : Nat) :
    (s.mapModules d f).mem.read x =
      if matrixBase ≤ x ∧ x < matrixBase + 256 * d ∧ (x - matrixBase) % 256 < d then
        moduleByte (f ((x - matrixBase) / 256) ((x - matrixBase) % 256) ((s.mem.read x).setWidth 3))
      else s.mem.read x := by
  rw [State.mapModules, read_update _ _ _ _ h]
  by_cases h1 : matrixBase ≤ x ∧ x < matrixBase + 256 * d
  · by_cases h2 : (x - matrixBase) % 256 < d
    · rw [if_pos h1, if_pos h2, if_pos ⟨h1.1, h1.2, h2⟩]
    · rw [if_pos h1, if_neg h2, if_neg (fun hh => h2 hh.2.2)]
  · rw [if_neg h1, if_neg (fun hh => h1 ⟨hh.1, hh.2.1⟩)]

theorem moduleAt_mapModules {s : State} (h : s.mem.wf = true) (d : Nat)
    (f : Nat → Nat → BitVec 3 → BitVec 3) (r c : Nat) (hc : c < 256) :
    (s.mapModules d f).moduleAt r c =
      if r < d ∧ c < d then f r c (s.moduleAt r c) else s.moduleAt r c := by
  rw [State.moduleAt, read_mapModules h, moduleAddr_row hc, moduleAddr_col hc]
  by_cases hd : r < d ∧ c < d
  · have hin : matrixBase ≤ moduleAddr r c ∧ moduleAddr r c < matrixBase + 256 * d ∧ c < d := by
      unfold moduleAddr; omega
    rw [if_pos hin, if_pos hd, setWidth_moduleByte, State.moduleAt]
  · have hout : ¬(matrixBase ≤ moduleAddr r c ∧ moduleAddr r c < matrixBase + 256 * d ∧ c < d) := by
      unfold moduleAddr; omega
    rw [if_neg hout, if_neg hd, State.moduleAt]

/-- Clearing the matrix empties every module and leaves every other byte of RAM alone (R162). -/
theorem read_clearMatrix (s : State) (x : Nat) :
    s.clearMatrix.mem.read x = if isModuleAddr x = true then 0#8 else s.mem.read x := by
  rw [clearMatrix_mem, read_clear]; rfl

/-! ### Painting -/

theorem wf_paint {s : State} (h : s.mem.wf = true) (ps : List ((Nat × Nat) × Bool)) :
    (s.paint ps).mem.wf = true := by
  induction ps generalizing s with
  | nil => exact h
  | cons p ps ih => exact ih (wf_setColor h _ _ _)

/-- Painting leaves every byte alone that is not one of the painted modules. -/
theorem read_paint_of_not_mem {s : State} (h : s.mem.wf = true) (ps : List ((Nat × Nat) × Bool))
    (x : Nat) (hx : ∀ p ∈ ps, x ≠ moduleAddr p.1.1 p.1.2) : (s.paint ps).mem.read x = s.mem.read x := by
  induction ps generalizing s with
  | nil => rfl
  | cons p ps ih =>
    have := ih (wf_setColor h p.1.1 p.1.2 p.2) (fun q hq => hx q (List.mem_cons_of_mem _ hq))
    rw [State.paint, this, read_setColor h, if_neg (hx p (List.mem_cons_self))]

/-! ### Reading the square -/

/-- The modules of a row, one by one. -/
theorem moduleRow_eq {s : State} (h : s.mem.wf = true) (d r : Nat) :
    s.moduleRow d r = (List.range d).map (fun c => s.moduleAt r c) := by
  rw [State.moduleRow, bytes_eq_map h, List.map_map]
  apply List.map_congr_left
  intro c _
  simp only [Function.comp, State.moduleAt, moduleAddr, Nat.add_zero]

/-- The square, module by module. -/
theorem gridAt_grid {s : State} (h : s.mem.wf = true) (d r c : Nat) (hr : r < d) (hc : c < d) :
    gridAt (s.grid d) r c = s.moduleAt r c := by
  simp [gridAt, State.grid, moduleRow_eq h, List.getD_eq_getElem?_getD, hr, hc]

/-! ### Corrections -/

theorem wf_correct {s : State} (h : s.mem.wf = true) (n : Nat) (is : List Nat) (ys : List Byte) :
    (s.correct n is ys).mem.wf = true := by
  induction is generalizing s ys with
  | nil => exact h
  | cons i is ih => cases ys with
    | nil => exact h
    | cons y ys =>
      rw [State.correct]
      exact ih (wf_update _ _ _ h) ys

/-! ### Base matrix -/

theorem nonData_finderStep {d r c : Nat} {m : BitVec 3} (h : finderStep d r c = some m) :
    nonData m = true := by
  simp only [finderStep, finderAt] at h
  grind [darkFixed, lightFixed, nonData]

theorem nonData_separatorStep {d r c : Nat} {m : BitVec 3} (h : separatorStep d r c = some m) :
    nonData m = true := by
  simp only [separatorStep] at h
  grind [lightFixed, nonData]

theorem nonData_timingStep {d r c : Nat} {m : BitVec 3} (h : timingStep d r c = some m) :
    nonData m = true := by
  simp only [timingStep] at h
  grind [darkFixed, lightFixed, nonData]

theorem nonData_alignStep {centres : List (Nat × Nat)} {r c : Nat} {m : BitVec 3}
    (h : alignStep centres r c = some m) : nonData m = true := by
  obtain ⟨p, -, hp⟩ := List.exists_of_findSome?_eq_some h
  simp only [alignAt] at hp
  grind [darkFixed, lightFixed, nonData]

theorem nonData_darkStep {v r c : Nat} {m : BitVec 3} (h : darkStep v r c = some m) :
    nonData m = true := by
  simp only [darkStep] at h
  grind [darkFixed, nonData]

theorem nonData_reservedStep {v r c : Nat} {m : BitVec 3} (h : reservedStep v r c = some m) :
    nonData m = true := by
  simp only [reservedStep] at h
  grind [reservedModule, nonData]

/-- A module of the base matrix is no data module exactly when some step of the construction writes it. -/
theorem nonData_baseModule (v : Nat) (centres : List (Nat × Nat)) (r c : Nat) :
    nonData (baseModule v centres r c) =
      ((reservedStep v r c).isSome || ((darkStep v r c).isSome || ((alignStep centres r c).isSome ||
        ((timingStep (dimension v) r c).isSome || ((separatorStep (dimension v) r c).isSome ||
          (finderStep (dimension v) r c).isSome))))) := by
  have written : ∀ o : Option (BitVec 3), (∀ m, o = some m → nonData m = true) →
      nonData (o.getD 0#3) = o.isSome := by
    intro o h
    cases o with
    | none => rfl
    | some m => exact h m rfl
  unfold baseModule
  rw [written]
  · simp only [Option.isSome_or]
  · intro m h
    simp only [Option.or_eq_some_iff] at h
    rcases h with h | ⟨-, h | ⟨-, h | ⟨-, h | ⟨-, h | ⟨-, h⟩⟩⟩⟩⟩
    · exact nonData_reservedStep h
    · exact nonData_darkStep h
    · exact nonData_alignStep h
    · exact nonData_timingStep h
    · exact nonData_separatorStep h
    · exact nonData_finderStep h

end Sys2Proof.Machine
end

