-- ==== Sys2Proof/Laws/PerInstr.lean ====
section
/-! SUPPORT. A per-instruction family about the encoding of commands: the reserved field is 0 and only MX_MASK has an argument (30_encoding.md R91, R92). -/

namespace Sys2Proof.Laws.EncodedFields

/-- The `RSV` field of a command's word is 0, and its `ARG` field is 0 unless the command is `MX_MASK`. -/
def Statement (i : Instr) : Prop :=
  rsvField (encode i) = 0#16 ∧ (argField (encode i) = 0#8 ∨ ∃ arg, i = .mxMask arg ∧ argField (encode i) = arg)

theorem nop : Statement .nop := ⟨by decide, .inl (by decide)⟩

theorem gfMul : Statement .gfMul := ⟨by decide, .inl (by decide)⟩

theorem gfDiv : Statement .gfDiv := ⟨by decide, .inl (by decide)⟩

theorem polyMul : Statement .polyMul := ⟨by decide, .inl (by decide)⟩

theorem polyDiv : Statement .polyDiv := ⟨by decide, .inl (by decide)⟩

theorem rsEncode : Statement .rsEncode := ⟨by decide, .inl (by decide)⟩

theorem rsSyndrome : Statement .rsSyndrome := ⟨by decide, .inl (by decide)⟩

theorem rsBm : Statement .rsBm := ⟨by decide, .inl (by decide)⟩

theorem rsChien : Statement .rsChien := ⟨by decide, .inl (by decide)⟩

theorem rsForney : Statement .rsForney := ⟨by decide, .inl (by decide)⟩

theorem rsDecode : Statement .rsDecode := ⟨by decide, .inl (by decide)⟩

theorem mxBase : Statement .mxBase := ⟨by decide, .inl (by decide)⟩

theorem mxPlace : Statement .mxPlace := ⟨by decide, .inl (by decide)⟩

theorem mask_fields : ∀ arg : BitVec 8,
    rsvField (encode (.mxMask arg)) = 0#16 ∧ argField (encode (.mxMask arg)) = arg := by decide +kernel

theorem mxMask (arg : BitVec 8) : Statement (.mxMask arg) :=
  ⟨(mask_fields arg).1, .inr ⟨arg, rfl, (mask_fields arg).2⟩⟩

theorem mxPenalty : Statement .mxPenalty := ⟨by decide, .inl (by decide)⟩

theorem mxSelect : Statement .mxSelect := ⟨by decide, .inl (by decide)⟩

theorem mxStamp : Statement .mxStamp := ⟨by decide, .inl (by decide)⟩

theorem mxExtract : Statement .mxExtract := ⟨by decide, .inl (by decide)⟩

theorem xfMap : Statement .xfMap := ⟨by decide, .inl (by decide)⟩

end Sys2Proof.Laws.EncodedFields
end

