-- ==== Sys2Proof/Laws/Step.lean ====
section
/-! SUPPORT. What one step can be: the case lemma that later proofs about `step` start from. -/

namespace Sys2Proof.Machine

/-- The engine's turn with a word pending. -/
theorem engineTurn_some {s : State} {w : Word} (h : s.pending = some w) :
    engineTurn s = perform w s := by
  unfold engineTurn; rw [h]

/-- The engine's turn with nothing pending: no step. -/
theorem engineTurn_none {s : State} (h : s.pending = none) : engineTurn s = .next s := by
  unfold engineTurn; rw [h]

/-- Who moves in a step, and on which state: the engine on its pending word, the host, or the reset input. -/
theorem step_cases (s : State) :
    (∃ w s0, s0.pending = some w ∧ (s0 = s ∨ ∃ rest, s.turns = .engine :: rest ∧ s0 = { s with turns := rest }) ∧
      step s = perform w s0) ∨
    (∃ rest, s.turns = .engine :: rest ∧ s.pending = none ∧ step s = .next { s with turns := rest }) ∨
    (∃ s0, (s0 = s ∨ ∃ rest, s.turns = .host :: rest ∧ s0 = { s with turns := rest }) ∧
      step s = .next s0.hostTurn) ∨
    (∃ cells rest, s.turns = .powerOn cells :: rest ∧
      step s = .next ({ s with turns := rest }.powerOnReset cells)) := by
  unfold step
  split
  · next rest h =>
    rcases Option.eq_none_or_eq_some s.pending with hp | ⟨w, hp⟩
    · exact .inr (.inl ⟨rest, h, hp, engineTurn_none hp⟩)
    · exact .inl ⟨w, { s with turns := rest }, hp, .inr ⟨rest, h, rfl⟩, engineTurn_some hp⟩
  · next rest h => exact .inr (.inr (.inl ⟨_, .inr ⟨rest, h, rfl⟩, rfl⟩))
  · next cells rest h => exact .inr (.inr (.inr ⟨cells, rest, h, rfl⟩))
  · next h =>
    cases hp : s.pending with
    | none => exact .inr (.inr (.inl ⟨s, .inl rfl, rfl⟩))
    | some w => exact .inl ⟨w, s, hp, .inl rfl, rfl⟩

/-- Performing a word: the command it decodes to, or `EILLEGAL` and nothing else. -/
theorem perform_cases (w : Word) (s : State) :
    (∃ i, decode w = .ok i ∧ perform w s = exec i s) ∨
    (∃ e, decode w = .error e ∧ perform w s = .next (s.complete .eIllegal .none)) := by
  unfold perform
  cases h : decode w with
  | ok i => exact .inl ⟨i, rfl, rfl⟩
  | error e => exact .inr ⟨e, rfl, rfl⟩

/-- A command ends in a next state: no arm of `exec` stops the machine. -/
theorem exec_next (i : Instr) (s : State) : ∃ t, exec i s = .next t := by
  cases h : exec i s with
  | next t => exact ⟨t, rfl⟩
  | fault f => exact nomatch f
  | refused r =>
    exfalso
    cases i <;>
      simp only [exec, execNop, execGfMul, execGfDiv, execPolyMul, execPolyDiv, execRsEncode,
        execRsSyndrome, execRsBm, execRsChien, execRsForney, execRsDecode, execMxBase, execMxPlace,
        execMxMask, execMxPenalty, execMxSelect, execMxStamp, execMxExtract, execXfMap, succeed, raise,
        raiseUncorr] at h <;>
      (repeat' split at h) <;> cases h

end Sys2Proof.Machine
end

