-- ==== Sys2Proof/Tests/Slice0.lean ====
section
/-! SUPPORT. Tests with values taken from the spec (its rules, and 95_test_vectors.md), and a witness for the hypotheses of every statement. -/

namespace Sys2Proof.Tests

open Sys2Proof Sys2Proof.Machine

/-! ### Helpers -/

/-- A machine right after power-on, but for its registers and the given RAM bytes. -/
def withRegs (g : Regs) (cells : List Host.Cell) : State :=
  { State.powerOn Config.default (Memory.ofCells cells) with regs := g }

/-- The next state of a result. -/
def resultOf (r : Result) : State :=
  match r with
  | .next t => t
  | .fault f => nomatch f
  | .refused _ => State.reset

/-- Bytes at rising addresses as cells. -/
def cellsAt (lo : Nat) (bytes : List Byte) : List Host.Cell := bytes.mapIdx (fun i b => (lo + i, b))

theorem wf_withRegs (g : Regs) (cells : List Host.Cell) : (withRegs g cells).mem.wf = true :=
  wf_ofCells cells

/-! ### Well-formed terms -/

/-- R92: `ARG[7:3] ≠ 0` is not a mask index; the check refuses the ill-formed terms. -/
theorem test_wellFormed_refuses : ¬WellFormed (.mxMask 8#8) ∧ ¬WellFormed (.mxMask 0xFF#8) ∧
    WellFormed (.mxMask 7#8) ∧ WellFormed .nop := by decide

/-! ### Decoding: words written out as `RSV`, `ARG`, `OPC` from R91 and R94 -/

theorem test_decode_control_gf :
    decode 0b0000000000000000_00000000_00000000#32 = .ok .nop ∧
    decode 0b0000000000000000_00000000_00010000#32 = .ok .gfMul ∧
    decode 0b0000000000000000_00000000_00010001#32 = .ok .gfDiv ∧
    decode 0b0000000000000000_00000000_00010010#32 = .ok .polyMul ∧
    decode 0b0000000000000000_00000000_00010011#32 = .ok .polyDiv := by decide

theorem test_decode_rs :
    decode 0b0000000000000000_00000000_00100000#32 = .ok .rsEncode ∧
    decode 0b0000000000000000_00000000_00100001#32 = .ok .rsSyndrome ∧
    decode 0b0000000000000000_00000000_00100010#32 = .ok .rsBm ∧
    decode 0b0000000000000000_00000000_00100011#32 = .ok .rsChien ∧
    decode 0b0000000000000000_00000000_00100100#32 = .ok .rsForney ∧
    decode 0b0000000000000000_00000000_00100101#32 = .ok .rsDecode := by decide

theorem test_decode_mx_xf :
    decode 0b0000000000000000_00000000_00110000#32 = .ok .mxBase ∧
    decode 0b0000000000000000_00000000_00110001#32 = .ok .mxPlace ∧
    decode 0b0000000000000000_00000101_00110010#32 = .ok (.mxMask 5#8) ∧
    decode 0b0000000000000000_00000000_00110011#32 = .ok .mxPenalty ∧
    decode 0b0000000000000000_00000000_00110100#32 = .ok .mxSelect ∧
    decode 0b0000000000000000_00000000_00110101#32 = .ok .mxStamp ∧
    decode 0b0000000000000000_00000000_00110110#32 = .ok .mxExtract ∧
    decode 0b0000000000000000_00000000_01000000#32 = .ok .xfMap := by decide

/-- R95: an unassigned opcode, a reserved bit, an argument where none is allowed. -/
theorem test_decode_illegal :
    decode 0x00000001#32 = .error .unassignedOpcode ∧ decode 0x00000041#32 = .error .unassignedOpcode ∧
    decode 0x80000000#32 = .error .reservedNotZero ∧ decode 0x00000832#32 = .error .badArgument ∧
    decode 0x00000110#32 = .error .badArgument := by decide

/-- R104: disassembly of a mask command and of an illegal word. -/
theorem test_disassemble :
    disassemble 0x00000532#32 = "MX_MASK #5".toList ∧
    disassemble 0x00000014#32 = ".word 0x00000014".toList := by decide

/-! ### GF commands (examples and corner cases of R120-R124) -/

theorem test_gfMul_example :
    (resultOf (exec .gfMul (withRegs { Regs.reset with opa := 0x53#8, opb := 0xCA#8 } []))).regs.res = 0x8F#8 := by
  decide

theorem test_gfMul_reduces :
    (resultOf (exec .gfMul (withRegs { Regs.reset with opa := 0x80#8, opb := 2#8 } []))).regs.res = 0x1D#8 := by
  decide

theorem test_gfDiv_example :
    (resultOf (exec .gfDiv (withRegs { Regs.reset with opa := 0x53#8, opb := 0xCA#8 } []))).regs.res = 0x6D#8 := by
  decide

theorem test_gfDiv_zero :
    (resultOf (exec .gfDiv (withRegs { Regs.reset with opa := 0#8, res := 9#8 } []))).readReg .status = 0x42#32 ∧
    (resultOf (exec .gfDiv (withRegs { Regs.reset with opa := 0#8, res := 9#8 } []))).regs.res = 9#8 := by
  decide

/-- `A = [3, 0, 2]`, `B = [1, 4]` (R123). -/
def polyMulState : State :=
  withRegs { Regs.reset with lenA := 3#9, lenB := 2#9 }
    (cellsAt 0x01000 [3#8, 0#8, 2#8] ++ cellsAt 0x01100 [1#8, 4#8])

theorem test_polyMul_example :
    (resultOf (exec .polyMul polyMulState)).bufBytes .bufR 5 = [3#8, 12#8, 2#8, 8#8, 0#8] ∧
    (resultOf (exec .polyMul polyMulState)).regs.lenR = 4#10 := by decide

/-- `A = [5, 6, 7, 8]`, `B = [2, 3]` (R124). -/
def polyDivState : State :=
  withRegs { Regs.reset with lenA := 4#9, lenB := 2#9 }
    (cellsAt 0x01000 [5#8, 6#8, 7#8, 8#8] ++ cellsAt 0x01100 [2#8, 3#8])

theorem test_polyDiv_example :
    (resultOf (exec .polyDiv polyDivState)).bufBytes .bufR 4 = [140#8, 201#8, 174#8, 231#8] ∧
    (resultOf (exec .polyDiv polyDivState)).regs.lenR = 4#10 := by decide

/-- With la < lb the quotient is empty and the remainder is `A` after leading zeros (R124). -/
def polyShortState : State :=
  withRegs { Regs.reset with lenA := 1#9, lenB := 3#9 } (cellsAt 0x01000 [7#8] ++ cellsAt 0x01100 [1#8])

theorem test_polyDiv_short :
    (resultOf (exec .polyDiv polyShortState)).bufBytes .bufR 3 = [0#8, 7#8, 0#8] ∧
    (resultOf (exec .polyDiv polyShortState)).regs.lenR = 2#10 := by decide

/-! ### Reed-Solomon commands (examples of R134-R148) -/

/-- The example of R134: the data of HELLO WORLD, e = 13. -/
def encodeState : State :=
  withRegs { Regs.reset with lenA := 13#9, eccLen := 13#7 }
    (cellsAt 0x01000 [32#8, 91#8, 11#8, 120#8, 209#8, 114#8, 220#8, 77#8, 67#8, 64#8, 236#8, 17#8, 236#8])

theorem test_rsEncode_example :
    (resultOf (exec .rsEncode encodeState)).bufBytes .bufR 13 =
      [168#8, 72#8, 22#8, 82#8, 217#8, 54#8, 156#8, 0#8, 46#8, 15#8, 180#8, 122#8, 16#8] := by
  decide +kernel

/-- The clean block of the example of R137, e = 7. -/
def cleanBlock : List Byte :=
  [1#8, 2#8, 3#8, 4#8, 5#8, 25#8, 12#8, 98#8, 89#8, 59#8, 45#8, 57#8]

def cleanState : State :=
  withRegs { Regs.reset with lenA := 12#9, eccLen := 7#7 } (cellsAt 0x01000 cleanBlock)

theorem test_rsSyndrome_clean :
    (resultOf (exec .rsSyndrome cleanState)).regs.clean = true ∧
    (resultOf (exec .rsSyndrome cleanState)).bufBytes .syn 7 = List.replicate 7 0#8 := by decide +kernel

/-- The syndromes of the example of R140. -/
def bmExample : State :=
  withRegs { Regs.reset with eccLen := 7#7 }
    (cellsAt 0x01400 [238#8, 249#8, 141#8, 147#8, 13#8, 46#8, 193#8])

theorem test_rsBm_example :
    (resultOf (exec .rsBm bmExample)).bufBytes .sigma 8 = [1#8, 201#8, 132#8, 76#8, 0#8, 0#8, 0#8, 0#8] ∧
    (resultOf (exec .rsBm bmExample)).bufBytes .omega 7 = [238#8, 59#8, 147#8, 0#8, 0#8, 0#8, 0#8] ∧
    (resultOf (exec .rsBm bmExample)).regs.rsL = 3#7 := by decide +kernel

/-- The locator of the example of R143. -/
def chienExample : State :=
  withRegs { Regs.reset with lenA := 12#9, rsL := 3#7 } (cellsAt 0x01480 [1#8, 201#8, 132#8, 76#8])

theorem test_rsChien_example :
    (resultOf (exec .rsChien chienExample)).bufBytes .errpos 3 = [0#8, 5#8, 11#8] ∧
    (resultOf (exec .rsChien chienExample)).readReg .status = 0x002#32 ∧
    (resultOf (exec .rsChien chienExample)).regs.nroots = 3#9 := by decide +kernel

/-- The example of R146. -/
def forneyExample : State :=
  withRegs { Regs.reset with lenA := 12#9, eccLen := 7#7, rsL := 1#7, nroots := 1#9 }
    (cellsAt 0x01480 [1#8, 58#8] ++ cellsAt 0x01500 [85#8] ++ cellsAt 0x01600 [9#8])

theorem test_rsForney_example :
    (resultOf (exec .rsForney forneyExample)).buf .bufA 2 = 0x55#8 ∧
    (resultOf (exec .rsForney forneyExample)).regs.nerr = 1#9 := by decide +kernel

/-- σ′ vanishes at the position: `UNC = 3` and nothing written (R146). -/
def forneyZeroState : State :=
  withRegs { Regs.reset with lenA := 12#9, eccLen := 7#7, rsL := 0#7, nroots := 1#9 } []

theorem test_rsForney_zero_derivative :
    (resultOf (exec .rsForney forneyZeroState)).readReg .status = 0x352#32 ∧
    (resultOf (exec .rsForney forneyZeroState)).mem = forneyZeroState.mem := by decide +kernel

/-- The block of the example of R148: three codewords changed. -/
def decodeExample : State :=
  withRegs { Regs.reset with lenA := 12#9, eccLen := 7#7 }
    (cellsAt 0x01000 [17#8, 2#8, 3#8, 4#8, 5#8, 25#8, 13#8, 98#8, 89#8, 59#8, 45#8, 198#8])

theorem test_rsDecode_example :
    (resultOf (exec .rsDecode decodeExample)).bufBytes .bufA 12 = cleanBlock := by decide +kernel

/-! ### Matrix commands (rules R160-R197 and 95_test_vectors.md §3) -/

/-- A version 1 matrix whose modules are all light data modules. -/
def blankMatrix : State :=
  withRegs { Regs.reset with mxVer := 1#6, ecLevel := 2#2, mask := 1#3, cwLen := 1#12 } [(0x08000, 0xB1#8)]

/-- R170: 208 data modules in version 1. -/
theorem test_mxBase_ndata :
    (resultOf (exec .mxBase (withRegs { Regs.reset with version := 1#6 } []))).regs.ndata = 208#15 := by
  decide +kernel

/-- R163-R169 in version 1: a finder corner, its light ring, a separator, timing, the dark module at
(13, 8), a format module, a data module. -/
theorem test_mxBase_modules :
    (baseModule 1 [] 0 0, baseModule 1 [] 1 1, baseModule 1 [] 7 7, baseModule 1 [] 6 8, baseModule 1 [] 6 9,
      baseModule 1 [] 13 8, baseModule 1 [] 8 0, baseModule 1 [] 10 10) =
    (7#3, 6#3, 6#3, 7#3, 6#3, 7#3, 2#3, 0#3) := by decide

theorem test_mxBase_version_zero :
    (resultOf (exec .mxBase (withRegs Regs.reset []))).readReg .status = 0x62#32 := by decide

/-- R175: `CW[0]` bit 7 goes to (20, 20). -/
theorem test_mxPlace_first_bit : (resultOf (exec .mxPlace blankMatrix)).dark 20 20 = true := by
  decide +kernel

/-- R172: the order starts at the bottom right corner going up, right column first. -/
theorem test_order_start :
    (serpentine 21).take 4 = [(20, 20), (20, 19), (19, 20), (19, 19)] := by decide +kernel

/-- R178: with all data light, mask 1 makes (10, 0) dark and leaves (9, 0) light. -/
theorem test_mxMask_example :
    (resultOf (exec (.mxMask 1#8) blankMatrix)).dark 10 0 = true ∧
    (resultOf (exec (.mxMask 1#8) blankMatrix)).dark 9 0 = false := by decide +kernel

/-- R181-R184 by hand for 21 × 21 light modules: 42 lines of 3 + 16, 400 blocks of 3, no pattern, and
"all light gives N4 = 100" (R186). -/
theorem test_mxPenalty_all_light :
    (resultOf (exec .mxPenalty blankMatrix)).regs.penTotal = 2098#32 := by decide +kernel

/-- R183: the pattern at the left edge counts when what lies outside is light, and not when it is not. -/
theorem test_n3_edge :
    n3Line true [true, false, true, true, true, false, true, true, false, false, false] = 40 ∧
    n3Line false [true, false, true, true, true, false, true, true, false, false, false] = 0 := by
  decide

/-- R188: the best of the example's eight totals is mask 1. -/
theorem test_mxSelect_best :
    bestMask ([1214, 1098, 1188, 1153, 1195, 1164, 1112, 1214].map (fun n => ⟨n, 0, 0, 0⟩)) = 1 := by decide

/-- R188: with no matrix the command ends with `ESEQ`. -/
theorem test_mxSelect_no_matrix :
    (resultOf (exec .mxSelect (withRegs Regs.reset []))).readReg .status = 0x72#32 := by decide

/-- R194: level Q, mask 1 gives the word 0x3068. -/
theorem test_mxStamp_example :
    (resultOf (exec .mxStamp blankMatrix)).regs.fmtWord = 0x3068#15 := by decide +kernel

/-- R196: 420 modules in `ORDER` of the blank square give 52 codewords. -/
theorem test_mxExtract_length :
    (resultOf (exec .mxExtract blankMatrix)).regs.cwLen = 52#12 := by decide +kernel

/-- R173: a codeword is read back first bit highest. -/
theorem test_packBytes :
    packBytes 1 [true, false, true, true, false, false, false, true, true] = [0xB1#8] := by decide

/-! ### The transform (R203, R204) -/

/-- The example of R203: a = d = 4.0, e = f = 12.0, row = col = 3. -/
def xfExample : State :=
  withRegs { Regs.reset with
    xfRow := 3#8, xfCol := 3#8
    xfCoef := #v[4#64 <<< 32, 0#64, 0#64, 4#64 <<< 32, 12#64 <<< 32, 12#64 <<< 32, 0#64, 0#64] } []

theorem test_xfMap_example :
    (resultOf (exec .xfMap xfExample)).regs.xfPx = 24#32 ∧
    (resultOf (exec .xfMap xfExample)).regs.xfPy = 24#32 := by decide +kernel

/-- R204: a = -0.5 at column 3 gives -2. -/
def xfTie : State :=
  withRegs { Regs.reset with
    xfCol := 3#8, xfCoef := #v[0xFFFFFFFF80000000#64, 0#64, 0#64, 0#64, 0#64, 0#64, 0#64, 0#64] } []

theorem test_xfMap_tie : (resultOf (exec .xfMap xfTie)).regs.xfPx = 0xFFFFFFFE#32 := by decide +kernel

/-! ### The bus and the host -/

/-- R110: `CMD NOP` on an idle block, then the engine's step, leaves `STATUS = 2`. -/
theorem test_nop_status :
    (resultOf (step (State.reset.withFetchWord 32 0))).readReg .status = 0x00000002#32 := by decide

/-- R80: a read of `OPA` while busy reads 0 and sets `ACCERR`. -/
theorem test_busy_read :
    ((State.reset.accept 0x10#32).busRead .w32 0x00010#18).readReg .status = 0x00000005#32 := by decide

/-- R79: of a 32-bit raw read at column 176 only the first byte is backed. -/
theorem test_unbacked_bytes :
    (withRegs Regs.reset [(0x100B0, 5#8)]).readValue .w32 0x100B0#18 = (5#32, true) := by decide

/-- R58: `VER[7] = 0x07C94` at 0x0551C. -/
theorem test_version_table : State.reset.readValue .w32 0x0551C#18 = (0x07C94#32, false) := by
  decide +kernel

/-- R80, R76: a byte read of `STATUS` while busy is an access error too. -/
theorem test_busy_narrow_read :
    ((State.reset.accept 0x10#32).busRead .w8 0x00008#18).readReg .status = 0x00000005#32 := by decide

/-- The end of the `ALIGN` table: R166's list of version 39 is its last entry, and the next address is
unmapped (log 20). -/
theorem test_align_table_end :
    State.reset.readValue .w32 0x05738#18 = (0x52361A06#32, false) ∧
    State.reset.readValue .w32 0x05740#18 = (0#32, true) := by decide +kernel

/-! ### Witnesses: states and operands that meet each statement's hypotheses -/

/-- A busy state: `GF_MUL` accepted after power-on. -/
def busyState : State := State.reset.accept 0x10#32

theorem test_witness_inv_reset : Inv State.reset where
  canonical := rfl
  backed := fun _ h => nomatch h
  version := by decide
  noMatrix := fun _ => rfl
  pendingCmd := fun _ h => nomatch h
  reason := by decide
  penaltySum := by decide
  resultLength := by decide
  corrections := by decide

theorem test_witness_ResetRegisterValues :
    Memory.wf [(0x01000, 5#8), (0x10000, 7#8)] = true ∧
    (isRamAddr 0x01000 = true ∧ isModuleAddr 0x01000 = false) ∧
    (isRamAddr 0x10000 = true ∧ isModuleAddr 0x10000 = true ∧ (7#8).toNat < 8) := by decide

theorem test_witness_StepKeepsInvariant : ∃ s t : State, Inv s ∧ step s = .next t :=
  ⟨State.reset, _, test_witness_inv_reset, rfl⟩

theorem test_witness_StepRunsDecodedCommand :
    busyState.pending = some 0x10#32 ∧ decode 0x10#32 = .ok .gfMul ∧ busyState.turns = [] ∧
    { busyState with turns := [.engine] }.turns = .engine :: [] ∧
    32 ≤ 32 ∧ decodeTableWord 32 0x10 = some .gfMul := by decide

theorem test_witness_IllegalWordEndsEillegal :
    (State.reset.accept 0x14#32).pending = some 0x14#32 ∧ (∀ row ∈ opcodeMap, row.fits 0x14#32 = false) ∧
    (∀ row ∈ opcodeMap, row.fits 0x80000000#32 = false) ∧ (∀ row ∈ opcodeMap, row.fits 0x832#32 = false) := by
  decide

theorem test_witness_LegalWordsAreTheMap :
    decode 0x732#32 = .ok (.mxMask 7#8) ∧
    (⟨"MX_MASK", 0x00000032#32, 0xFFFFF8FF#32⟩ : OpcodeRow) ∈ opcodeMap ∧
    OpcodeRow.fits ⟨"MX_MASK", 0x00000032#32, 0xFFFFF8FF#32⟩ 0x732#32 = true := by decide

theorem test_witness_DecodeInvertsEncode :
    WellFormed (.mxMask 0#8) ∧ WellFormed (.mxMask 7#8) ∧ decode 0x32#32 = .ok (.mxMask 0#8) := by decide

theorem test_witness_AssembledWordsDecode :
    Instr.gfMul ∈ plainCommands ∧ "gf_Mul".toList.map Char.toUpper = Instr.gfMul.mnemonic.toList ∧
    "mx_mask".toList.map Char.toUpper = "MX_MASK".toList ∧ 7 ≤ 7 ∧ 7 < 8 := by decide

theorem test_witness_CommandWordAcceptance :
    State.reset.pending = none ∧ busyState.pending = some 0x10#32 := by decide

theorem test_witness_BusyBlocksOtherAccesses :
    busyState.pending = some 0x10#32 ∧ BusWidth.w8 ≠ .w32 ∧ BusWidth.w16 ≠ .w32 ∧ (0x0000C#18 ≠ Reg.id.addr ∧ 0x0000C#18 ≠ Reg.ctrl.addr ∧
      0x0000C#18 ≠ Reg.status.addr) ∧
    (Reg.id.addr ≠ Reg.ctrl.addr ∧ Reg.id.addr ≠ Reg.status.addr) := by decide

theorem test_witness_RegisterWritesStoreUsedBits :
    State.reset.pending = none ∧ Reg.plainRw .lenA = true ∧ Reg.plainRw (.xfHi 7) = true ∧
    Reg.readOnly .id = true ∧ Reg.readOnly .xfPy = true ∧ Reg.xfLo 7 ≠ Reg.xfHi 7 := by decide

theorem test_witness_ControlWriteResetsOrStores :
    (0x80000001#32).getLsbD 31 = true ∧ (0x7FFFFFFF#32).getLsbD 31 = false := by decide

/-- A busy machine whose host is about to write `CTRL.SRST`. -/
def raceState : State := { busyState with script := [.write .w32 0x00004#18 0x80000000#32] }

theorem test_witness_SoftResetRace :
    raceState.pending = some 0x10#32 ∧ (0x80000000#32).getLsbD 31 = true ∧
    raceState.script[raceState.pos]? = some (.write .w32 0x00004#18 0x80000000#32) := by decide

theorem test_witness_BadAddressesAreAccessErrors :
    0x01001 % BusWidth.bytes .w16 ≠ 0 ∧ 0x01002 % BusWidth.bytes .w32 ≠ 0 ∧
    (0x00010 < 0x1000 ∧ BusWidth.w8 ≠ .w32) ∧ mappedAddr 0x00068 = false ∧ mappedAddr 0x01700 = false ∧
    mappedAddr 0x055A4 = false ∧ mappedAddr 0x30000 = false ∧ mappedAddr 0x3FFFF = false := by decide

theorem test_witness_TablesAreReadOnly :
    State.reset.pending = none ∧ 0x02000 % BusWidth.bytes .w32 = 0 ∧ inRanges tableRanges 0x02000 = true ∧
    inRanges tableRanges 0x0527C = true ∧ inRanges tableRanges 0x055A0 = true ∧
    inRanges tableRanges 0x0573F = true ∧ 0x0573F % BusWidth.bytes .w8 = 0 := by decide

theorem test_witness_BufferWritesReadBack :
    State.reset.mem.wf = true ∧ State.reset.pending = none ∧ inRanges bufferRanges 0x01000 = true ∧
    inRanges bufferRanges 0x016FC = true ∧ inRanges bufferRanges 0x08FFC = true ∧
    0x08FFC % BusWidth.bytes .w32 = 0 ∧ 0x08FFE % BusWidth.bytes .w16 = 0 := by decide

theorem test_witness_WideAccessesAreByteAccesses :
    State.reset.pending = none ∧ 0x1000 ≤ (0x01000#18).toNat ∧ (0x01002#18).toNat % 2 = 0 ∧
    0x1000 ≤ (0x3FFFC#18).toNat ∧ (0x3FFFC#18).toNat % 4 = 0 := by decide

theorem test_witness_MatrixViews :
    State.reset.mem.wf = true ∧ State.reset.pending = none ∧ (176 < 177 ∧ 177 ≤ 177 ∧ 255 < 256) ∧
    (rawAddr 176 176, colorAddr 176 176, rawAddr 255 255) = (0x1B0B0#18, 0x2B0B0#18, 0x1FFFF#18) := by decide

/-- A host at the `IF32` of the only `WAIT` of `RUN GF_MUL`. -/
def waitState : State := { State.reset.withScript [.run .gfMul] with pos := 2 }

theorem test_witness_WaitPollsBusy :
    waitState.script = [cmdStmt .gfMul] ++ waitStmts 0 ++ [] ∧ .label (.wait 0) ∉ [cmdStmt .gfMul] ∧
    waitState.pos = [cmdStmt .gfMul].length + 1 := by decide

theorem test_witness_InterruptOutput :
    (∃ t, exec .nop State.reset = .next t) ∧ (1#32).getLsbD 31 = false ∧ (2#32).getLsbD 1 = true ∧
    State.reset.pending = none := ⟨⟨_, rfl⟩, by decide, by decide, rfl⟩

theorem test_witness_EveryCommandCompletes : WellFormed .nop ∧ WellFormed (.mxMask 7#8) := by decide

theorem test_witness_PreconditionFailuresWriteNothing :
    (∃ t, exec .gfDiv State.reset = .next t ∧ t.regs.err.precondition = true) ∧
    ∃ t, exec .rsForney forneyZeroState = .next t ∧ t.regs.err = .eUncorr :=
  ⟨⟨_, rfl, by decide⟩, by
    obtain ⟨t, ht⟩ := exec_next .rsForney forneyZeroState
    have h : (resultOf (exec .rsForney forneyZeroState)).regs.err = .eUncorr := by decide +kernel
    exact ⟨t, ht, by rw [ht] at h; exact h⟩⟩

theorem test_witness_CommandsWriteOnlyTheirRow :
    (∃ t, exec .mxSelect blankMatrix = .next t) ∧ blankMatrix.mem.wf = true ∧
    blankMatrix.regs.mxVer.toNat ≤ 40 ∧ Reg.cwLen ≠ .status ∧ Reg.cwLen ∉ regWrites .mxSelect ∧
    writesClean .mxSelect = false ∧ Buffer.cw ∉ bufWrites .mxSelect ∧ writesMatrix .mxPenalty = false :=
  ⟨exec_next _ _, wf_withRegs _ _, by decide, by decide, by decide, by decide, by decide, by decide⟩

theorem test_witness_CommandsReadOnlyTheirRow :
    SameInputs .gfMul (withRegs { Regs.reset with opa := 3#8 } []) (withRegs { Regs.reset with opa := 3#8, lenA := 9#9 } []) ∧
    (∃ t, exec .gfMul (withRegs { Regs.reset with opa := 3#8 } []) = .next t) ∧
    ∃ t, exec .gfMul (withRegs { Regs.reset with opa := 3#8, lenA := 9#9 } []) = .next t :=
  ⟨⟨rfl, by decide, (fun _ h => nomatch h), (fun h => nomatch h)⟩, exec_next _ _, exec_next _ _⟩

theorem test_witness_FlagsKeptByAllButBase :
    blankMatrix.mem.wf = true ∧ blankMatrix.regs.mxVer.toNat ≤ 40 ∧
    (∃ t, exec .mxPlace blankMatrix = .next t) ∧ (∃ t, exec .mxStamp blankMatrix = .next t) ∧
    Instr.mxPlace ≠ .mxBase ∧ blankMatrix.isData 21 0 = false ∧
    (20, 20) ∉ formatModules blankMatrix.dim ++ versionModules blankMatrix.matrixVersion :=
  ⟨wf_withRegs _ _, by decide, exec_next _ _, exec_next _ _, by decide, by decide +kernel, by decide +kernel⟩

theorem test_witness_NopCompletes :
    State.reset.regs.accErr = false ∧ State.reset.regs.clean = false := by decide

theorem test_witness_GfDivResult :
    (withRegs { Regs.reset with opb := 1#8 } []).regs.opb ≠ 0#8 ∧ State.reset.regs.opb = 0#8 := by decide

theorem test_witness_FieldLaws : (1#8 : Byte) ≠ 0#8 ∧ (255#8 : Byte) ≠ 0#8 := by decide

/-- Polynomial lengths at the two ends of their range, and one past each. -/
theorem test_witness_poly_lengths :
    (withRegs { Regs.reset with lenA := 1#9, lenB := 256#9 } []).la = 1 ∧
    (withRegs { Regs.reset with lenA := 1#9, lenB := 256#9 } []).lb = 256 ∧
    (withRegs { Regs.reset with lenA := 0#9, lenB := 257#9 } []).la = 0 ∧
    (withRegs { Regs.reset with lenA := 0#9, lenB := 257#9 } []).lb = 257 := by decide

theorem test_witness_PolyMulIsConvolution :
    polyMulState.mem.wf = true ∧
    (1 ≤ polyMulState.la ∧ polyMulState.la ≤ 256 ∧ 1 ≤ polyMulState.lb ∧ polyMulState.lb ≤ 256) ∧
    ¬(1 ≤ State.reset.la ∧ State.reset.la ≤ 256 ∧ 1 ≤ State.reset.lb ∧ State.reset.lb ≤ 256) :=
  ⟨wf_withRegs _ _, by decide, by decide⟩

theorem test_witness_PolyDivIsLongDivision :
    (polyDivState.mem.wf = true ∧ 1 ≤ polyDivState.la ∧ polyDivState.la ≤ 256 ∧ 1 ≤ polyDivState.lb ∧
      polyDivState.lb ≤ 256 ∧ polyDivState.buf .bufB 0 ≠ 0#8 ∧ polyDivState.lb ≤ polyDivState.la) ∧
    (polyShortState.mem.wf = true ∧ polyShortState.buf .bufB 0 ≠ 0#8 ∧ polyShortState.la < polyShortState.lb) ∧
    (withRegs { Regs.reset with lenA := 1#9, lenB := 1#9 } []).buf .bufB 0 = 0#8 :=
  ⟨⟨wf_withRegs _ _, by decide, by decide, by decide, by decide, by decide, by decide⟩,
    ⟨wf_withRegs _ _, by decide, by decide⟩, by decide⟩

theorem test_witness_GeneratorPolynomials : 7 ∈ genset ∧ 68 ∈ genset ∧ 8 ∉ genset ∧ 0 ∉ genset ∧ 67 ∉ genset := by
  decide

theorem test_witness_RsEncodeIsRemainder :
    (encodeState.mem.wf = true ∧ encodeState.ecc ∈ genset ∧ 1 ≤ encodeState.la ∧
      encodeState.la + encodeState.ecc ≤ 255) ∧
    (State.reset.ecc ∉ genset) ∧
    (withRegs { Regs.reset with eccLen := 7#7, lenA := 249#9 } []).ecc ∈ genset ∧
    ¬(1 ≤ (withRegs { Regs.reset with eccLen := 7#7, lenA := 249#9 } []).la ∧
      (withRegs { Regs.reset with eccLen := 7#7, lenA := 249#9 } []).la +
        (withRegs { Regs.reset with eccLen := 7#7, lenA := 249#9 } []).ecc ≤ 255) :=
  ⟨⟨wf_withRegs _ _, by decide, by decide, by decide⟩, by decide, by decide, by decide⟩

theorem test_witness_EncodedBlockIsClean :
    encodeState.mem.wf = true ∧ encodeState.ecc ∈ genset ∧ 1 ≤ encodeState.la ∧
    encodeState.la + encodeState.ecc ≤ 255 ∧ (∃ t, exec .rsEncode encodeState = .next t) ∧ 12 < encodeState.ecc :=
  ⟨wf_withRegs _ _, by decide, by decide, by decide, exec_next _ _, by decide⟩

/-- One codeword more than the ECC, the shortest block. -/
def shortestBlock : State := withRegs { Regs.reset with eccLen := 7#7, lenA := 8#9 } []

/-- One codeword too few. -/
def tooShortBlock : State := withRegs { Regs.reset with eccLen := 7#7, lenA := 7#9 } []

theorem test_witness_RsSyndromeResult :
    (shortestBlock.mem.wf = true ∧ shortestBlock.ecc ∈ genset ∧ shortestBlock.ecc + 1 ≤ shortestBlock.la ∧
      shortestBlock.la ≤ 255) ∧
    State.reset.ecc ∉ genset ∧
    (tooShortBlock.ecc ∈ genset ∧ ¬(tooShortBlock.ecc + 1 ≤ tooShortBlock.la ∧ tooShortBlock.la ≤ 255)) :=
  ⟨⟨wf_withRegs _ _, by decide, by decide, by decide⟩, by decide, by decide, by decide⟩

/-- Seven syndromes of which only the last is not zero: the shortest recurrence has length 7 > 7/2. -/
def hopelessSyndromes : State := withRegs { Regs.reset with eccLen := 7#7 } [(0x01406, 1#8)]

theorem test_witness_RsBmResult :
    (bmExample.mem.wf = true ∧ bmExample.ecc ∈ genset ∧ 2 * (bmTrace (bmExample.buf .syn) 7).l ≤ 7) ∧
    7 < 2 * (bmTrace (hopelessSyndromes.buf .syn) 7).l ∧ State.reset.ecc ∉ genset :=
  ⟨⟨wf_withRegs _ _, by decide, by decide +kernel⟩, by decide +kernel, by decide⟩

theorem test_witness_RsBmFindsShortestRecurrence :
    bmExample.mem.wf = true ∧ bmExample.ecc ∈ genset ∧ (∃ t, exec .rsBm bmExample = .next t) ∧
    generates 7 7 (fun k => if k = 0 then 1#8 else 0#8) (bmExample.buf .syn) :=
  ⟨wf_withRegs _ _, by decide, exec_next _ _, rfl, fun _ h h' => absurd h' (by omega)⟩

theorem test_witness_RsChienResult :
    (chienExample.mem.wf = true ∧ 1 ≤ chienExample.la ∧ chienExample.la ≤ 255 ∧
      chienExample.regs.rsL.toNat ≤ 68 ∧ (rootPositions 12 3 (chienExample.buf .sigma)).length = 3) ∧
    (rootPositions 11 3 (chienExample.buf .sigma)).length ≠ 3 ∧
    ¬(1 ≤ State.reset.la ∧ State.reset.la ≤ 255 ∧ State.reset.regs.rsL.toNat ≤ 68) :=
  ⟨⟨wf_withRegs _ _, by decide, by decide, by decide, by decide +kernel⟩, by decide +kernel, by decide⟩

theorem test_witness_RsForneyResult :
    (forneyExample.mem.wf = true ∧ forneyExample.ecc ∈ genset ∧ forneyExample.ecc + 1 ≤ forneyExample.la ∧
      forneyExample.la ≤ 255 ∧ forneyExample.regs.rsL.toNat ≤ 68 ∧ forneyExample.regs.nroots.toNat ≤ 255 ∧
      (∀ k < forneyExample.regs.nroots.toNat, (forneyExample.buf .errpos k).toNat < forneyExample.la) ∧
      ∀ k < forneyExample.regs.nroots.toNat,
        sigmaPrime 1 (forneyExample.buf .sigma) (inversePower (forneyExample.buf .errpos k).toNat) ≠ 0#8) ∧
    (∃ k < forneyZeroState.regs.nroots.toNat,
      sigmaPrime 0 (forneyZeroState.buf .sigma) (inversePower (forneyZeroState.buf .errpos k).toNat) = 0#8) ∧
    State.reset.ecc ∉ genset ∧ (tooShortBlock.ecc ∈ genset ∧ ¬tooShortBlock.ecc + 1 ≤ tooShortBlock.la) :=
  ⟨⟨wf_withRegs _ _, by decide, by decide, by decide, by decide, by decide, by decide +kernel, by decide +kernel⟩,
    by decide +kernel, by decide, by decide, by decide⟩

theorem test_witness_DecodeIsTheFourStages :
    (decodeExample.mem.wf = true ∧ decodeExample.ecc ∈ genset ∧ decodeExample.ecc + 1 ≤ decodeExample.la ∧
      decodeExample.la ≤ 255) ∧
    (resultOf (exec .rsSyndrome decodeExample)).regs.clean = false ∧
    (resultOf (exec .rsSyndrome cleanState)).regs.clean = true ∧
    (resultOf (exec .rsBm (resultOf (exec .rsSyndrome decodeExample)))).regs.err = .ok ∧
    (resultOf (exec .rsBm hopelessSyndromes)).regs.err = .eUncorr ∧
    (resultOf (exec .rsChien chienExample)).regs.err = .ok ∧
    (resultOf (exec .rsChien { chienExample with regs := { chienExample.regs with lenA := 11#9 } })).regs.err =
      .eUncorr :=
  ⟨⟨wf_withRegs _ _, by decide, by decide, by decide⟩, by decide +kernel, by decide +kernel, by decide +kernel,
    by decide +kernel, by decide +kernel, by decide +kernel⟩

theorem test_witness_FailedDecodeKeepsBlock :
    ∃ s t : State, s.mem.wf = true ∧ exec .rsDecode s = .next t ∧ t.regs.err ≠ .ok := by
  refine ⟨tooShortBlock, _, wf_withRegs _ _, rfl, ?_⟩
  decide

/-- The clean block of R137 as a function, and its state with one codeword wrong at position 0. -/
def blockAt (p : Nat) : Byte := cleanBlock.getD p 0#8

def oneErrorState : State :=
  withRegs { Regs.reset with lenA := 12#9, eccLen := 7#7 } (cellsAt 0x01000 (cleanBlock.set 11 (57#8 ^^^ 0xFF#8)))

theorem test_witness_DecodeCorrectsOneCodeword :
    oneErrorState.mem.wf = true ∧ oneErrorState.ecc ∈ genset ∧ oneErrorState.ecc + 1 ≤ oneErrorState.la ∧
    oneErrorState.la ≤ 255 ∧ 0 < oneErrorState.la ∧ (0xFF#8 : Byte) ≠ 0#8 ∧
    (∀ j < oneErrorState.ecc, syndromeOf oneErrorState.la blockAt j = 0#8) ∧
    (∀ p < oneErrorState.la, oneErrorState.buf .bufA p =
      if p = oneErrorState.la - 1 - 0 then blockAt p ^^^ 0xFF#8 else blockAt p) :=
  ⟨wf_withRegs _ _, by decide, by decide, by decide, by decide, by decide, by decide +kernel, by decide +kernel⟩

theorem test_witness_DecodeCorrectsHalfOfEcc :
    decodeExample.mem.wf = true ∧ decodeExample.ecc ∈ genset ∧ decodeExample.ecc + 1 ≤ decodeExample.la ∧
    decodeExample.la ≤ 255 ∧ (∀ j < decodeExample.ecc, syndromeOf decodeExample.la blockAt j = 0#8) ∧
    (List.range decodeExample.la).countP (fun p => decodeExample.buf .bufA p != blockAt p) = 3 ∧
    2 * 3 ≤ decodeExample.ecc :=
  ⟨wf_withRegs _ _, by decide, by decide, by decide, by decide +kernel, by decide +kernel, by decide⟩

theorem test_witness_MxBaseResult :
    (withRegs { Regs.reset with version := 40#6 } []).mem.wf = true ∧
    (withRegs { Regs.reset with version := 40#6 } []).regs.version.toNat = 40 ∧ (1 ≤ 40 ∧ 40 ≤ 40) ∧
    (withRegs { Regs.reset with version := 41#6 } []).regs.version.toNat = 41 ∧ ¬(1 ≤ 41 ∧ 41 ≤ 40) ∧
    State.reset.regs.version.toNat = 0 ∧ ¬(1 ≤ 0 ∧ 0 ≤ 40) :=
  ⟨wf_withRegs _ _, by decide, by decide, by decide, by decide, by decide, by decide⟩

/-- R161: version 7 has a timing module under an alignment pattern centred on row 6. -/
theorem test_witness_BaseStepsDoNotConflict :
    6 < dimension 7 ∧ 22 < dimension 7 ∧ (baseSteps 7 6 22)[2]? = some (some 7#3) ∧
    (baseSteps 7 6 22)[3]? = some (some 7#3) := by decide +kernel

theorem test_witness_OrderIsSerpentine :
    blankMatrix.mem.wf = true ∧ 1 ≤ blankMatrix.matrixVersion ∧ blankMatrix.matrixVersion ≤ 40 :=
  ⟨wf_withRegs _ _, by decide, by decide⟩

theorem test_order_length : blankMatrix.order.length = 420 := by decide +kernel

/-- A stream that just fits the 420 modules, and one codeword more. -/
theorem test_witness_MxPlaceResult :
    (blankMatrix.mem.wf = true ∧ 1 ≤ blankMatrix.matrixVersion ∧ blankMatrix.matrixVersion ≤ 40) ∧
    (∃ cwLen : BitVec 12, 8 * cwLen.toNat ≤ blankMatrix.order.length ∧
      blankMatrix.order.length < 8 * (cwLen + 1#12).toNat) ∧
    State.reset.matrixVersion = 0 :=
  ⟨⟨wf_withRegs _ _, by decide, by decide⟩, ⟨52#12, by rw [test_order_length]; decide⟩, by decide⟩

theorem test_witness_MxExtractResult :
    blankMatrix.mem.wf = true ∧ blankMatrix.matrixVersion ≤ 40 ∧ 1 ≤ blankMatrix.matrixVersion ∧
    State.reset.matrixVersion = 0 := ⟨wf_withRegs _ _, by decide, by decide, by decide⟩

theorem test_witness_ExtractUndoesPlace :
    ∃ s t u : State, s.mem.wf = true ∧ 1 ≤ s.matrixVersion ∧ s.matrixVersion ≤ 40 ∧
      8 * s.regs.cwLen.toNat ≤ s.order.length ∧ exec .mxPlace s = .next t ∧ exec .mxExtract t = .next u := by
  obtain ⟨t, ht⟩ := exec_next .mxPlace blankMatrix
  obtain ⟨u, hu⟩ := exec_next .mxExtract t
  exact ⟨blankMatrix, t, u, wf_withRegs _ _, by decide, by decide, by rw [test_order_length]; decide, ht, hu⟩

theorem test_witness_MxMaskResult :
    blankMatrix.mem.wf = true ∧ blankMatrix.matrixVersion ≤ 40 ∧ 7 ≤ 7 ∧ 1 ≤ blankMatrix.matrixVersion ∧
    State.reset.matrixVersion = 0 := ⟨wf_withRegs _ _, by decide, by decide, by decide, by decide⟩

/-- A state with a version 1 matrix that meets the invariant. -/
def invMatrix : State := { State.reset with regs := { Regs.reset with mxVer := 1#6 } }

theorem test_witness_MaskTwiceIsIdentity :
    Inv invMatrix ∧ WellFormed (.mxMask 7#8) ∧ 1 ≤ invMatrix.matrixVersion ∧
    ∃ t u, exec (.mxMask 7#8) invMatrix = .next t ∧ exec (.mxMask 7#8) t = .next u := by
  refine ⟨⟨rfl, (fun _ h => nomatch h), by decide, (fun _ => rfl), (fun _ h => nomatch h), by decide, by decide,
    by decide, by decide⟩, by decide, by decide, ?_⟩
  obtain ⟨t, ht⟩ := exec_next (.mxMask 7#8) invMatrix
  obtain ⟨u, hu⟩ := exec_next (.mxMask 7#8) t
  exact ⟨t, u, ht, hu⟩

theorem test_witness_MxPenaltyResult :
    blankMatrix.mem.wf = true ∧ blankMatrix.matrixVersion ≤ 40 ∧ 1 ≤ blankMatrix.matrixVersion ∧
    State.reset.matrixVersion = 0 := ⟨wf_withRegs _ _, by decide, by decide, by decide⟩

theorem test_witness_SelectAppliesBestMask :
    invMatrix.mem.wf = true ∧ invMatrix.matrixVersion ≤ 40 ∧ 1 ≤ invMatrix.matrixVersion ∧
    State.reset.matrixVersion = 0 := by decide

/-- Versions 1 and 7, either side of where the version blocks begin, and no matrix. -/
theorem test_witness_MxStampResult :
    blankMatrix.mem.wf = true ∧ blankMatrix.matrixVersion = 1 ∧
    fmtCode ((blankMatrix.regs.ecLevel ^^^ 1#2).toNat * 8 + blankMatrix.regs.mask.toNat) ^^^ 0x5412#15 = 0x3068#15 ∧
    (withRegs { Regs.reset with mxVer := 7#6 } []).matrixVersion = 7 ∧ State.reset.matrixVersion = 0 :=
  ⟨wf_withRegs _ _, by decide, by decide +kernel, by decide, by decide⟩

/-- A zero denominator: h = -1.0 at row 1. -/
def xfHorizon : State :=
  withRegs { Regs.reset with
    xfRow := 1#8, xfCoef := #v[0#64, 0#64, 0#64, 0#64, 0#64, 0#64, 0#64, 0xFFFFFFFF00000000#64] } []

/-- The denominators of a mapping that completes, of one at the horizon, and a numerator that does not
fit 32 bits (a = 2^30 at column 255). -/
theorem test_witness_XfMapRoundsToNearest :
    0 < xfExample.xfW ∧ xfHorizon.xfW ≤ 0 ∧
    (resultOf (exec .xfMap (withRegs { Regs.reset with xfCol := 255#8, xfCoef :=
      #v[0x4000000000000000#64, 0#64, 0#64, 0#64, 0#64, 0#64, 0#64, 0#64] } []))).regs.err = .eXform := by
  decide +kernel

end Sys2Proof.Tests
end

section
/-! The register file over the bus: which register an address names, and when an access to one is performed. -/

namespace Sys2Proof.Machine

/-! ### Registers by address -/

-- Proved before the text goes on, so that the long kernel checks of the tests above are over when the proofs below
-- begin: side by side they need more threads than the check's memory limit has room for.
set_option Elab.async false in
theorem Reg.mem_all (r : Reg) : r ∈ Reg.all := by
  cases r <;> simp [Reg.all]

/-- An offset of the map names its register and no other (R72). -/
theorem regAt_offset (r : Reg) : regAt r.offset = some r := by
  have hall : ∀ r ∈ Reg.all, regAt r.offset = some r := by decide
  exact hall r r.mem_all

theorem Reg.offset_lt (r : Reg) : r.offset < 0x1000 := by
  have hall : ∀ r ∈ Reg.all, r.offset < 0x1000 := by decide
  exact hall r r.mem_all

theorem Reg.offset_mod_four (r : Reg) : r.offset % 4 = 0 := by
  have hall : ∀ r ∈ Reg.all, r.offset % 4 = 0 := by decide
  exact hall r r.mem_all

@[simp] theorem Reg.addr_toNat (r : Reg) : r.addr.toNat = r.offset :=
  (BitVec.toNat_ofNat r.offset 18).trans (Nat.mod_eq_of_lt (r.offset_lt.trans (by decide)))

@[simp] theorem inRegRange_addr (r : Reg) : inRegRange r.addr = true := by
  simp [inRegRange, r.offset_lt]

@[simp] theorem aligned_addr (r : Reg) : aligned r.addr .w32 = true := by
  simp [aligned, BusWidth.bytes, r.offset_mod_four]

/-- A 32-bit write to a register that is not blocked is the register's own write. -/
theorem busWrite_addr {s : State} {r : Reg} (h : writeAllowed s r.addr = true) (v : Word) :
    s.busWrite .w32 r.addr v = s.writeReg r v := by
  simp [State.busWrite, h, regAt_offset]

/-- A 32-bit read of a register that is not blocked gives the register's word and sets no flag. -/
theorem busRead_addr {s : State} {r : Reg} (h : readAllowed s r.addr = true) :
    s.busRead .w32 r.addr = { s with readData := s.readReg r } := by
  simp [State.busRead, State.readValue, h, regAt_offset]

theorem writeAllowed_of_idle {s : State} (h : s.pending = none) (addr : BusAddr) : writeAllowed s addr = true := by
  simp [writeAllowed, State.busy, h]

theorem readAllowed_of_idle {s : State} (h : s.pending = none) (addr : BusAddr) : readAllowed s addr = true := by
  simp [readAllowed, State.busy, h]

theorem writeAllowed_ctrl (s : State) : writeAllowed s Reg.ctrl.addr = true := by
  simp [writeAllowed, Reg.addr, Reg.offset]

theorem writeAllowed_status (s : State) : writeAllowed s Reg.status.addr = true := by
  simp [writeAllowed, Reg.addr, Reg.offset]

end Sys2Proof.Machine
end

section
/-! Sound RAM: the invariant's two clauses about RAM as one predicate on what addresses read as, kept by every
operation that writes RAM. -/

namespace Sys2Proof.Machine

/-! ### Sound bytes -/

/-- The byte `v` may stand at address `a`: only a RAM byte holds anything but what is unlisted, and a module byte
stores bits 2:0 only (R46-R49, R52). -/
def ByteSound (a : Nat) (v : Byte) : Prop :=
  v ≠ Memory.unlisted → isRamAddr a = true ∧ (isModuleAddr a = true → v.toNat < 8)

theorem byteSound_unlisted (a : Nat) : ByteSound a Memory.unlisted := fun h => absurd rfl h

theorem moduleByte_toNat_lt (m : BitVec 3) : (moduleByte m).toNat < 8 := by
  revert m; decide

theorem byteSound_moduleByte {a : Nat} (ha : isModuleAddr a = true) (m : BitVec 3) :
    ByteSound a (moduleByte m) := fun _ => ⟨by simp [isRamAddr, ha], fun _ => moduleByte_toNat_lt m⟩

theorem Buffer.mem_all (b : Buffer) : b ∈ Buffer.all := by
  cases b <;> decide

/-- The matrix memory lies above every buffer (R71). -/
theorem Buffer.base_add_size_le_matrixBase (b : Buffer) : b.base + b.size ≤ matrixBase := by
  cases b <;> decide

theorem Buffer.isRamAddr_of_holds {b : Buffer} {a : Nat} (h : b.holds a = true) : isRamAddr a = true := by
  rw [isRamAddr, Bool.or_eq_true, List.any_eq_true]
  exact .inl ⟨b, b.mem_all, h⟩

theorem Buffer.holds_iff {b : Buffer} {a : Nat} : b.holds a = true ↔ b.base ≤ a ∧ a < b.base + b.size := by
  simp [Buffer.holds]

theorem matrixBase_le_of_isModuleAddr {a : Nat} (h : isModuleAddr a = true) : matrixBase ≤ a := by
  simp only [isModuleAddr, Bool.and_eq_true, decide_eq_true_eq] at h
  exact h.1.1

theorem Buffer.not_isModuleAddr_of_holds {b : Buffer} {a : Nat} (h : b.holds a = true) :
    ¬isModuleAddr a = true := fun hm => by
  have := matrixBase_le_of_isModuleAddr hm
  have := b.base_add_size_le_matrixBase
  have := Buffer.holds_iff.1 h
  omega

/-- A buffer byte may hold any value. -/
theorem byteSound_of_holds {b : Buffer} {a : Nat} (h : b.holds a = true) (v : Byte) : ByteSound a v :=
  fun _ => ⟨Buffer.isRamAddr_of_holds h, fun hm => absurd hm (Buffer.not_isModuleAddr_of_holds h)⟩

/-! ### Listed cells and read bytes -/

theorem mem_of_read_ne {m : Memory} {a : Nat} (h : m.read a ≠ Memory.unlisted) : (a, m.read a) ∈ m := by
  induction m with
  | nil => exact absurd rfl h
  | cons cell rest ih =>
    obtain ⟨b, v⟩ := cell
    by_cases hb : b = a
    · simp [Memory.read, hb]
    · simp only [Memory.read, hb, if_false] at h ⊢
      exact List.mem_cons_of_mem _ (ih h)

theorem read_of_memFrom {lo : Nat} {m : Memory} (hm : Memory.wfFrom lo m = true) {cell : Host.Cell}
    (h : cell ∈ m) : m.read cell.1 = cell.2 ∧ cell.2 ≠ Memory.unlisted := by
  induction m generalizing lo with
  | nil => exact nomatch h
  | cons head rest ih =>
    obtain ⟨b, v⟩ := head
    obtain ⟨-, hv, hrest⟩ := wfFrom_cons.1 hm
    rcases List.mem_cons.1 h with rfl | htail
    · exact ⟨by simp [Memory.read], hv⟩
    · obtain ⟨hread, hne⟩ := ih hrest htail
      have hb : b ≠ cell.1 := fun hb =>
        hne (hread.symm.trans (read_below hrest (hb ▸ Nat.lt_succ_self b)))
      exact ⟨by simp [Memory.read, hb, hread], hne⟩

/-! ### Sound RAM -/

/-- RAM in its canonical form in which every address reads as a byte that may stand there. -/
def RamSound (m : Memory) : Prop := m.wf = true ∧ ∀ a, ByteSound a (m.read a)

theorem RamSound.canonical {m : Memory} (h : RamSound m) : m.wf = true := h.1

theorem RamSound.bytes {m : Memory} (h : RamSound m) (a : Nat) : ByteSound a (m.read a) := h.2 a

/-- Sound RAM is what the two RAM clauses of `Inv` ask. -/
theorem ramSound_iff_cells {m : Memory} : RamSound m ↔ m.wf = true ∧
    ∀ cell ∈ m, isRamAddr cell.1 = true ∧ (isModuleAddr cell.1 = true → cell.2.toNat < 8) := by
  constructor
  · rintro ⟨hwf, hbytes⟩
    refine ⟨hwf, fun cell hcell => ?_⟩
    obtain ⟨hread, hne⟩ := read_of_memFrom hwf hcell
    have := hbytes cell.1
    rw [hread] at this
    exact this hne
  · rintro ⟨hwf, hcells⟩
    exact ⟨hwf, fun a hne => hcells _ (mem_of_read_ne hne)⟩

theorem ramSound_nil : RamSound [] := ⟨rfl, byteSound_unlisted⟩

/-- An update keeps RAM sound if it maps sound bytes of its range to sound bytes. -/
theorem RamSound.update {m : Memory} (h : RamSound m) {lo n : Nat} {f : Nat → Byte → Byte}
    (hf : ∀ a old, lo ≤ a → a < lo + n → ByteSound a old → ByteSound a (f a old)) :
    RamSound (m.update lo n f) := by
  refine ⟨wf_update lo n f h.canonical, fun a => ?_⟩
  rw [read_update lo n f a h.canonical]
  split
  · next hin => exact hf a _ hin.1 hin.2 (h.bytes a)
  · exact h.bytes a

theorem RamSound.write {m : Memory} (h : RamSound m) {a : Nat} {v : Byte} (hv : ByteSound a v) :
    RamSound (m.write a v) :=
  h.update fun x _ hlo hhi _ => by
    obtain rfl : x = a := by omega
    exact hv

/-- Storing at most a buffer's size of bytes into it keeps RAM sound. -/
theorem RamSound.store {m : Memory} (h : RamSound m) (b : Buffer) {bytes : List Byte}
    (hlen : bytes.length ≤ b.size) : RamSound (m.store b.base bytes) :=
  h.update fun _ _ hlo hhi _ => byteSound_of_holds (Buffer.holds_iff.2 ⟨hlo, by omega⟩) _

theorem RamSound.clear {m : Memory} (h : RamSound m) (p : Nat → Bool) : RamSound (m.clear p) := by
  refine ⟨wf_clear p h.canonical, fun a => ?_⟩
  rw [read_clear]
  split
  · exact byteSound_unlisted a
  · exact h.bytes a

theorem RamSound.ramWrite {m : Memory} (h : RamSound m) (a : Nat) (v : Byte) : RamSound (m.ramWrite a v) := by
  unfold Memory.ramWrite
  split
  · next hmod => exact h.write (byteSound_moduleByte hmod _)
  · next hmod =>
    split
    · next hram => exact h.write fun _ => ⟨hram, fun hm => absurd hm hmod⟩
    · exact h

theorem RamSound.foldl_ramWrite (cells : List Host.Cell) {m : Memory} (h : RamSound m) :
    RamSound (cells.foldl (fun m cell => m.ramWrite cell.1 cell.2) m) := by
  induction cells generalizing m with
  | nil => exact h
  | cons cell cells ih => exact ih (h.ramWrite cell.1 cell.2)

/-- RAM built from cells is sound, whatever the cells are. -/
theorem ramSound_ofCells (cells : List Host.Cell) : RamSound (Memory.ofCells cells) :=
  ramSound_nil.foldl_ramWrite cells

/-! ### RAM built from cells -/

theorem ramWrite_of_byteSound (m : Memory) {a : Nat} {v : Byte}
    (h : isRamAddr a = true ∧ (isModuleAddr a = true → v.toNat < 8)) : m.ramWrite a v = m.write a v := by
  obtain ⟨hram, hmodule⟩ := h
  unfold Memory.ramWrite
  by_cases hm : isModuleAddr a = true
  · have hv : moduleByte (v.setWidth 3) = v := by
      apply BitVec.eq_of_toNat_eq
      have := hmodule hm
      simp only [moduleByte, BitVec.toNat_setWidth]
      omega
    rw [if_pos hm, hv]
  · rw [if_neg hm, if_pos hram]

/-- Writing the cells of a canonical list onto RAM: a listed address reads as listed, every other one as before. -/
theorem read_foldl_write {lo : Nat} {cells : Memory} (hcells : Memory.wfFrom lo cells = true) {m : Memory}
    (hm : m.wf = true) (x : Nat) :
    (cells.foldl (fun m cell => m.write cell.1 cell.2) m).read x =
      if cells.read x = Memory.unlisted then m.read x else cells.read x := by
  induction cells generalizing lo m with
  | nil => rfl
  | cons cell rest ih =>
    obtain ⟨a, v⟩ := cell
    obtain ⟨-, hv, hrest⟩ := wfFrom_cons.1 hcells
    rw [List.foldl_cons, ih hrest (wf_write hm a v), read_write hm]
    by_cases hx : x = a
    · subst hx
      simp [Memory.read, read_below hrest (Nat.lt_succ_self x), hv]
    · have hax : a ≠ x := fun h => hx h.symm
      simp [Memory.read, hx, hax]

/-- RAM in canonical form that lists only bytes that may stand there is what its own cells build. -/
theorem ofCells_eq_self {ram : Memory} (hwf : ram.wf = true)
    (hcells : ∀ cell ∈ ram, isRamAddr cell.1 = true ∧ (isModuleAddr cell.1 = true → cell.2.toNat < 8)) :
    Memory.ofCells ram = ram := by
  have hfold : Memory.ofCells ram = ram.foldl (fun m cell => Memory.write m cell.1 cell.2) [] :=
    List.foldl_ext _ _ _ fun m cell hcell => ramWrite_of_byteSound m (hcells cell hcell)
  refine eq_of_read (wf_ofCells ram) hwf fun x => ?_
  rw [hfold, read_foldl_write hwf wf_nil]
  split
  · next h => exact h.symm
  · rfl

/-! ### Sound RAM after a write to the matrix -/

theorem RamSound.setColor {s : State} (h : RamSound s.mem) {r c : Nat} (hr : r < dMax) (hc : c < dMax)
    (dark : Bool) : RamSound (s.setColor r c dark).mem :=
  h.update fun a _ hlo hhi _ => by
    obtain rfl : a = moduleAddr r c := by omega
    exact byteSound_moduleByte (isModuleAddr_moduleAddr hr hc) _

/-- Painting modules of the matrix memory keeps RAM sound. -/
theorem RamSound.paint {s : State} (h : RamSound s.mem) {ps : List ((Nat × Nat) × Bool)}
    (hps : ∀ p ∈ ps, p.1.1 < dMax ∧ p.1.2 < dMax) : RamSound (s.paint ps).mem := by
  induction ps generalizing s with
  | nil => exact h
  | cons p ps ih =>
    obtain ⟨hr, hc⟩ := hps p List.mem_cons_self
    exact ih (h.setColor hr hc p.2) fun q hq => hps q (List.mem_cons_of_mem p hq)

theorem isModuleAddr_of_square {d a : Nat} (hd : d ≤ dMax) (hlo : matrixBase ≤ a)
    (hhi : a < matrixBase + 256 * d) (hcol : (a - matrixBase) % 256 < d) : isModuleAddr a = true := by
  have hrow : (a - matrixBase) / 256 < d := by omega
  simp only [isModuleAddr, Bool.and_eq_true, decide_eq_true_eq]
  exact ⟨⟨hlo, lt_of_lt_of_le hrow hd⟩, lt_of_lt_of_le hcol hd⟩

/-- Rewriting the modules of a square that fits the matrix memory keeps RAM sound. -/
theorem RamSound.mapModules {s : State} (h : RamSound s.mem) {d : Nat} (hd : d ≤ dMax)
    (f : Nat → Nat → BitVec 3 → BitVec 3) : RamSound (s.mapModules d f).mem :=
  h.update fun a old hlo hhi hold => by
    split
    · next hcol => exact byteSound_moduleByte (isModuleAddr_of_square hd hlo hhi hcol) _
    · exact hold

/-- Correcting the positions of a block of at most 256 bytes writes inside the buffer `A` (R146). -/
theorem RamSound.correct {s : State} (h : RamSound s.mem) {n : Nat} (hn : n ≤ 256) (is : List Nat)
    (ys : List Byte) : RamSound (s.correct n is ys).mem := by
  induction is generalizing s ys with
  | nil => exact h
  | cons i is ih =>
    cases ys with
    | nil => exact h
    | cons y ys =>
      refine ih (h.update fun a _ hlo hhi _ => byteSound_of_holds (b := .bufA) (Buffer.holds_iff.2 ⟨?_, ?_⟩) _) ys
      · omega
      · have : Buffer.bufA.size = 256 := rfl
        omega

end Sys2Proof.Machine
end

section
/-! Sizes and ranges: how many bytes the commands write to a buffer, and which modules they write. -/

namespace Sys2Proof.Machine

/-! ### Lengths of polynomial results -/

theorem length_polyDivLoop (divisor : List Byte) (lq : Nat) (work : List Byte) :
    (polyDivLoop divisor lq work).1.length + (polyDivLoop divisor lq work).2.length = work.length := by
  induction lq generalizing work with
  | zero => simp [polyDivLoop]
  | succ lq ih =>
    cases work with
    | nil => rfl
    | cons w work =>
      have := ih (addOnto (divisor.tail.map (gfMul (gfDiv w (divisor.headD 0#8)))) work)
      simp only [polyDivLoop, List.length_cons, length_addOnto] at this ⊢
      omega

/-- `POLY_DIV` writes as many bytes as the longer of the dividend and the remainder has (R124). -/
theorem length_polyDivResult (dividend divisor : List Byte) :
    (polyDivResult dividend divisor).length = max dividend.length (divisor.length - 1) := by
  simp only [polyDivResult]
  split
  · have := length_polyDivLoop divisor (dividend.length - divisor.length + 1) dividend
    rw [List.length_append]
    omega
  · rw [List.length_append, List.length_replicate]
    omega

@[simp] theorem length_bufBytes (s : State) (b : Buffer) (n : Nat) : (s.bufBytes b n).length = n :=
  length_bytes _ _ _

@[simp] theorem length_opA (s : State) : s.opA.length = s.la := length_bufBytes _ _ _

@[simp] theorem length_opB (s : State) : s.opB.length = s.lb := length_bufBytes _ _ _

theorem polyLenOk_iff {n : Nat} : polyLenOk n = true ↔ 1 ≤ n ∧ n ≤ 256 := by
  simp [polyLenOk]

theorem blockLenOk_iff {n e : Nat} : blockLenOk n e = true ↔ e + 1 ≤ n ∧ n ≤ 255 := by
  simp [blockLenOk]

/-- Every valid ECC length is at most 68 (R130). -/
theorem le_of_eccValid {e : Nat} (h : eccValid e = true) : e ≤ 68 := by
  have hall : ∀ e ∈ genset, e ≤ 68 := by decide
  exact hall e (by simpa [eccValid] using h)

@[simp] theorem length_packBytes (q : Nat) (bits : List Bool) : (packBytes q bits).length = q := by
  induction q generalizing bits with
  | zero => rfl
  | succ q ih => simp [packBytes, ih]

/-! ### The serpentine stays in the square -/

theorem mem_strip {d right : Nat} {upward : Bool} {p : Nat × Nat} (h : p ∈ strip d right upward) :
    p.1 < d ∧ p.2 ≤ right := by
  have hrow : ∃ r < d, p = (r, right) ∨ p = (r, right - 1) := by
    cases upward <;> simpa [strip] using h
  obtain ⟨r, hr, rfl | rfl⟩ := hrow
  · exact ⟨hr, le_refl _⟩
  · exact ⟨hr, Nat.sub_le _ _⟩

theorem length_strip (d right : Nat) (upward : Bool) : (strip d right upward).length = 2 * d := by
  cases upward <;> simp [strip, List.length_flatMap, Nat.mul_comm]

theorem mem_strips {d fuel right : Nat} {upward : Bool} {p : Nat × Nat}
    (h : p ∈ strips d fuel right upward) : p.1 < d ∧ p.2 ≤ right := by
  induction fuel generalizing right upward with
  | zero => exact nomatch h
  | succ fuel ih =>
    simp only [strips] at h
    split at h
    · exact nomatch h
    · have hcol : (if right = 6 then 5 else right) ≤ right := by split <;> omega
      rcases List.mem_append.1 h with hstrip | hrest
      · obtain ⟨hrow, hle⟩ := mem_strip hstrip
        exact ⟨hrow, hle.trans hcol⟩
      · obtain ⟨hrow, hle⟩ := ih hrest
        exact ⟨hrow, by omega⟩

theorem length_strips_le (d fuel right : Nat) (upward : Bool) :
    (strips d fuel right upward).length ≤ 2 * d * ((right + 1) / 2) := by
  induction fuel generalizing right upward with
  | zero => exact Nat.zero_le _
  | succ fuel ih =>
    simp only [strips]
    split
    · exact Nat.zero_le _
    · generalize hcol : (if right = 6 then 5 else right) = col
      have hstrips : (col - 2 + 1) / 2 + 1 ≤ (right + 1) / 2 := by split at hcol <;> omega
      calc (strip d col upward ++ strips d fuel (col - 2) !upward).length
          = 2 * d + (strips d fuel (col - 2) !upward).length := by rw [List.length_append, length_strip]
        _ ≤ 2 * d + 2 * d * ((col - 2 + 1) / 2) := Nat.add_le_add_left (ih _ _) _
        _ = 2 * d * ((col - 2 + 1) / 2 + 1) := by ring
        _ ≤ 2 * d * ((right + 1) / 2) := Nat.mul_le_mul_left _ hstrips

theorem mem_placementOrder {d : Nat} {grid : List (List (BitVec 3))} {p : Nat × Nat}
    (h : p ∈ placementOrder d grid) : p.1 < d ∧ p.2 < d := by
  obtain ⟨hrow, hcol⟩ := mem_strips (List.mem_filter.1 h).1
  exact ⟨hrow, by omega⟩

theorem length_placementOrder_le (d : Nat) (grid : List (List (BitVec 3))) :
    (placementOrder d grid).length ≤ d * d := by
  calc (placementOrder d grid).length
      ≤ (serpentine d).length := List.length_filter_le _ _
    _ ≤ 2 * d * ((d - 1 + 1) / 2) := length_strips_le d d (d - 1) true
    _ = d * (2 * ((d - 1 + 1) / 2)) := by ring
    _ ≤ d * d := by
      rcases Nat.eq_zero_or_pos d with rfl | hd
      · exact le_refl _
      · exact Nat.mul_le_mul_left _ (by omega)

/-- The codewords a matrix holds fit the buffer `CW` (R196). -/
theorem length_placementOrder_div_le {d : Nat} (hd : d ≤ dMax) (grid : List (List (BitVec 3))) :
    (placementOrder d grid).length / 8 ≤ Buffer.cw.size := by
  have hsq : d * d ≤ 177 * 177 := Nat.mul_le_mul hd hd
  have := length_placementOrder_le d grid
  have : Buffer.cw.size = 4096 := rfl
  omega

/-! ### The format and version modules lie in the square -/

/-- The dimension of a matrix of version at most 40 fits the matrix memory (R49). -/
theorem dimension_le_dMax {v : Nat} (hv : v ≤ 40) : dimension v ≤ dMax := by
  unfold dimension dMax
  omega

theorem fc1_lt {d i : Nat} (hd : 17 ≤ d) (hi : i < 15) : (fc1 i).1 < d ∧ (fc1 i).2 < d := by
  unfold fc1
  split_ifs <;> constructor <;> dsimp only <;> omega

theorem fc2_lt {d i : Nat} (hd : 17 ≤ d) (hi : i < 15) : (fc2 d i).1 < d ∧ (fc2 d i).2 < d := by
  unfold fc2
  split_ifs <;> constructor <;> dsimp only <;> omega

theorem vtr_lt {d i : Nat} (hd : 17 ≤ d) (hi : i < 18) : (vtr d i).1 < d ∧ (vtr d i).2 < d := by
  unfold vtr
  constructor <;> dsimp only <;> omega

theorem vbl_lt {d i : Nat} (hd : 17 ≤ d) (hi : i < 18) : (vbl d i).1 < d ∧ (vbl d i).2 < d :=
  And.symm (vtr_lt hd hi)

theorem mem_formatStamps {d : Nat} (hd : 17 ≤ d) {f : BitVec 15} {p : (Nat × Nat) × Bool}
    (h : p ∈ formatStamps d f) : p.1.1 < d ∧ p.1.2 < d := by
  obtain ⟨i, hi, hp⟩ := List.mem_flatMap.1 h
  have hi := List.mem_range.1 hi
  rcases List.mem_pair.1 hp with rfl | rfl
  · exact fc1_lt hd hi
  · exact fc2_lt hd hi

theorem mem_versionStamps {v : Nat} {p : (Nat × Nat) × Bool} (h : p ∈ versionStamps v) :
    p.1.1 < dimension v ∧ p.1.2 < dimension v := by
  have hd : 17 ≤ dimension v := Nat.le_add_right _ _
  unfold versionStamps at h
  split at h
  · exact nomatch h
  · obtain ⟨i, hi, hp⟩ := List.mem_flatMap.1 h
    have hi := List.mem_range.1 hi
    rcases List.mem_pair.1 hp with rfl | rfl
    · exact vtr_lt hd hi
    · exact vbl_lt hd hi

end Sys2Proof.Machine
end

section
/-! The engine keeps the invariant: every command is a body that keeps all of `Inv` but the clauses about completion,
and a completion that restores those. -/

namespace Sys2Proof.Machine

/-! ### The invariant by its parts -/

theorem Inv.ram {s : State} (h : Inv s) : RamSound s.mem := ramSound_iff_cells.2 ⟨h.canonical, h.backed⟩

/-- The clauses of `Inv` about registers that no completion writes (R41, R42, R123, R146). -/
def RegsSound (g : Regs) : Prop :=
  g.mxVer.toNat ≤ 40 ∧ (g.mxVer = 0#6 → g.ndata = 0#15) ∧
    g.penTotal = g.penN1 + g.penN2 + g.penN3 + g.penN4 ∧ g.lenR.toNat ≤ 511 ∧ g.nerr.toNat ≤ 255

/-- The clauses of `Inv` that a command's writes keep before the command completes: all but the ones about
`pending`, `DONE`, `ERR` and `UNC`, which completion settles (R107). -/
def BodyInv (s : State) : Prop := RamSound s.mem ∧ RegsSound s.regs

theorem BodyInv.ram {s : State} (h : BodyInv s) : RamSound s.mem := h.1

theorem BodyInv.regs {s : State} (h : BodyInv s) : RegsSound s.regs := h.2

theorem Inv.body {s : State} (h : Inv s) : BodyInv s :=
  ⟨h.ram, h.version, h.noMatrix, h.penaltySum, h.resultLength, h.corrections⟩

/-- The invariant from its parts. -/
theorem BodyInv.inv {s : State} (h : BodyInv s)
    (hpending : ∀ w, s.pending = some w → s.regs.cmd = w ∧ s.regs.done = false)
    (hreason : s.regs.unc ≠ .none ↔ s.regs.err = .eUncorr) : Inv s := by
  obtain ⟨hcanonical, hbacked⟩ := ramSound_iff_cells.1 h.ram
  obtain ⟨hversion, hnoMatrix, hsum, hlen, hcorr⟩ := h.regs
  exact ⟨hcanonical, hbacked, hversion, hnoMatrix, hpending, hreason, hsum, hlen, hcorr⟩

/-- Completion turns the clauses of the body into the invariant, if the reason goes with the code (R34, R107). -/
theorem BodyInv.complete {s : State} (h : BodyInv s) {c : ErrCode} {u : UncReason}
    (hreason : u ≠ .none ↔ c = .eUncorr) : Inv (s.complete c u) :=
  BodyInv.inv (s := s.complete c u) ⟨h.ram, h.regs⟩ (fun _ hw => nomatch hw) hreason

/-! ### Outcomes that meet the invariant -/

/-- If the result is a next state, that state meets the invariant. -/
def LeadsToInv (r : Result) : Prop := ∀ t, r = .next t → Inv t

theorem leadsToInv_next {t : State} (h : Inv t) : LeadsToInv (.next t) := by
  rintro _ ⟨⟩
  exact h

theorem BodyInv.succeed {s : State} (h : BodyInv s) : LeadsToInv (succeed s) :=
  leadsToInv_next (h.complete (by decide))

theorem BodyInv.raise {s : State} (h : BodyInv s) {c : ErrCode} (hc : c ≠ .eUncorr) :
    LeadsToInv (raise s c) := leadsToInv_next (h.complete (by simp [hc]))

theorem BodyInv.raiseUncorr {s : State} (h : BodyInv s) {u : UncReason} (hu : u ≠ .none) :
    LeadsToInv (raiseUncorr s u) := leadsToInv_next (h.complete (by simp [hu]))

/-! ### What the shared operations keep -/

/-- Writes to RAM keep the body's clauses if RAM stays sound. -/
theorem BodyInv.of_regs_eq {s t : State} (h : BodyInv s) (hregs : t.regs = s.regs) (hram : RamSound t.mem) :
    BodyInv t := ⟨hram, hregs ▸ h.regs⟩

theorem BodyInv.setRes {s : State} (h : BodyInv s) (v : Byte) : BodyInv (s.setRes v) :=
  ⟨h.ram, h.regs⟩

theorem BodyInv.setBuf {s : State} (h : BodyInv s) (b : Buffer) {bytes : List Byte}
    (hlen : bytes.length ≤ b.size) : BodyInv (s.setBuf b bytes) :=
  h.of_regs_eq (setBuf_regs s b bytes) (h.ram.store b hlen)

theorem BodyInv.setResult {s : State} (h : BodyInv s) {bytes : List Byte} (hlen : bytes.length ≤ 511) :
    BodyInv (s.setResult bytes) := by
  obtain ⟨hversion, hnoMatrix, hsum, -, hcorr⟩ := h.regs
  refine ⟨h.ram.store .bufR (hlen.trans (by decide)), hversion, hnoMatrix, hsum, ?_, hcorr⟩
  rw [setResult_regs_lenR, BitVec.toNat_ofNat]
  exact (Nat.mod_le _ _).trans hlen

theorem BodyInv.setPenalty {s : State} (h : BodyInv s) (p : Penalty) : BodyInv (s.setPenalty p) := by
  obtain ⟨hversion, hnoMatrix, -, hlen, hcorr⟩ := h.regs
  refine ⟨h.ram, hversion, hnoMatrix, ?_, hlen, hcorr⟩
  simp [Penalty.total, BitVec.ofNat_add]

theorem BodyInv.dim_le {s : State} (h : BodyInv s) : s.dim ≤ dMax := dimension_le_dMax h.regs.1

theorem BodyInv.applyMask {s : State} (h : BodyInv s) (m : Nat) : BodyInv (s.applyMask m) :=
  h.of_regs_eq rfl (h.ram.mapModules h.dim_le _)

theorem BodyInv.paint {s : State} (h : BodyInv s) {ps : List ((Nat × Nat) × Bool)}
    (hps : ∀ p ∈ ps, p.1.1 < s.dim ∧ p.1.2 < s.dim) : BodyInv (s.paint ps) :=
  h.of_regs_eq (paint_regs s ps) <| h.ram.paint fun p hp =>
    ⟨(hps p hp).1.trans_le h.dim_le, (hps p hp).2.trans_le h.dim_le⟩

/-! ### The GF commands -/

theorem execGfMul_leadsToInv {s : State} (h : BodyInv s) : LeadsToInv (execGfMul s) := (h.setRes _).succeed

theorem execGfDiv_leadsToInv {s : State} (h : BodyInv s) : LeadsToInv (execGfDiv s) := by
  unfold execGfDiv
  split
  · exact h.raise (by decide)
  · exact (h.setRes _).succeed

/-- The branch of the polynomial commands in which both lengths are in range. -/
theorem polyLens_le {s : State} (hlens : ¬(!polyLenOk s.la || !polyLenOk s.lb) = true) :
    (1 ≤ s.la ∧ s.la ≤ 256) ∧ (1 ≤ s.lb ∧ s.lb ≤ 256) := by
  rw [← polyLenOk_iff, ← polyLenOk_iff]
  simpa using hlens

theorem execPolyMul_leadsToInv {s : State} (h : BodyInv s) : LeadsToInv (execPolyMul s) := by
  unfold execPolyMul
  split
  · exact h.raise (by decide)
  · next hlens =>
    obtain ⟨⟨hla, hla'⟩, hlb, hlb'⟩ := polyLens_le hlens
    have hlen := length_polyMul s.opA s.opB (List.ne_nil_of_length_pos (by rw [length_opA]; exact hla))
      (List.ne_nil_of_length_pos (by rw [length_opB]; exact hlb))
    rw [length_opA, length_opB] at hlen
    exact (h.setResult (by omega)).succeed

theorem execPolyDiv_leadsToInv {s : State} (h : BodyInv s) : LeadsToInv (execPolyDiv s) := by
  unfold execPolyDiv
  split
  · exact h.raise (by decide)
  · next hlens =>
    obtain ⟨⟨-, hla⟩, -, hlb⟩ := polyLens_le hlens
    split
    · exact h.raise (by decide)
    · refine (h.setResult ?_).succeed
      rw [length_polyDivResult, length_opA, length_opB]
      omega

/-! ### The RS commands -/

theorem ecc_le {s : State} (h : ¬(!eccValid s.ecc) = true) : s.ecc ≤ 68 :=
  le_of_eccValid (by simpa using h)

theorem BodyInv.syndromeBody {s : State} (h : BodyInv s) (he : s.ecc ≤ 68) : BodyInv s.syndromeBody := by
  have hram := h.ram.store .syn (bytes := syndromes s.opA s.ecc) (by
    rw [length_syndromes]
    exact he.trans (by decide))
  exact ⟨hram, h.regs⟩

theorem BodyInv.bmBody {s : State} (h : BodyInv s) (he : s.ecc ≤ 68) : BodyInv s.bmBody := by
  have hsize : Buffer.sigma.size = 128 ∧ Buffer.omega.size = 128 := ⟨rfl, rfl⟩
  have hsigma := h.ram.store .sigma (bytes := (berlekampMassey (s.bufBytes .syn s.ecc) s.ecc).c) (by
    rw [length_berlekampMassey]
    omega)
  have hram := hsigma.store .omega (bytes := evaluator (berlekampMassey (s.bufBytes .syn s.ecc) s.ecc).c
    (s.bufBytes .syn s.ecc) s.ecc) (by
    rw [length_evaluator]
    omega)
  exact ⟨hram, h.regs⟩

theorem BodyInv.chienBody {s : State} (h : BodyInv s) (hn : s.la ≤ 255) : BodyInv s.chienBody := by
  have hram := h.ram.store .errpos (bytes := (chienRoots s.sigmaOp s.la).map (BitVec.ofNat 8)) (by
    rw [List.length_map]
    exact (length_chienRoots _ _).trans (hn.trans (by decide)))
  exact ⟨hram, h.regs⟩

/-- The Chien search counts at most one root per position of the block (R143). -/
theorem chienBody_nroots_le (s : State) : s.chienBody.regs.nroots.toNat ≤ s.la := by
  simp only [State.chienBody, BitVec.toNat_ofNat]
  exact (Nat.mod_le _ _).trans (length_chienRoots _ _)

/-- What the Forney body does where it corrects: the corrections, and `NERR` counts the positions (R146). -/
theorem forneyBody_eq_some {s t : State} (h : s.forneyBody = some t) :
    ∃ ys, t = { s.correct s.la s.errorPositions ys with regs := { s.regs with nerr := s.regs.nroots } } := by
  unfold State.forneyBody at h
  split at h
  · exact nomatch h
  · next ys _ =>
    obtain rfl := Option.some.inj h
    exact ⟨ys, by simp only [correct_regs]⟩

theorem BodyInv.forneyBody {s t : State} (h : BodyInv s) (hn : s.la ≤ 255)
    (hroots : s.regs.nroots.toNat ≤ 255) (ht : s.forneyBody = some t) : BodyInv t := by
  obtain ⟨ys, rfl⟩ := forneyBody_eq_some ht
  obtain ⟨hversion, hnoMatrix, hsum, hlen, -⟩ := h.regs
  exact ⟨h.ram.correct (by omega) _ _, hversion, hnoMatrix, hsum, hlen, hroots⟩

theorem BodyInv.cleanResult {s : State} (h : BodyInv s) : BodyInv s.cleanResult := by
  obtain ⟨hversion, hnoMatrix, hsum, hlen, -⟩ := h.regs
  exact ⟨h.ram, hversion, hnoMatrix, hsum, hlen, Nat.zero_le 255⟩

theorem execRsEncode_leadsToInv {s : State} (h : BodyInv s) : LeadsToInv (execRsEncode s) := by
  unfold execRsEncode
  split
  · exact h.raise (by decide)
  · next hecc =>
    split
    · exact h.raise (by decide)
    · refine (h.setResult ?_).succeed
      rw [length_rsEcc]
      exact (ecc_le hecc).trans (by decide)

theorem execRsSyndrome_leadsToInv {s : State} (h : BodyInv s) : LeadsToInv (execRsSyndrome s) := by
  unfold execRsSyndrome
  split
  · exact h.raise (by decide)
  · next hecc =>
    split
    · exact h.raise (by decide)
    · exact (h.syndromeBody (ecc_le hecc)).succeed

theorem execRsBm_leadsToInv {s : State} (h : BodyInv s) : LeadsToInv (execRsBm s) := by
  unfold execRsBm
  split
  · exact h.raise (by decide)
  · next hecc =>
    dsimp only
    split
    · exact (h.bmBody (ecc_le hecc)).raiseUncorr (by decide)
    · exact (h.bmBody (ecc_le hecc)).succeed

theorem execRsChien_leadsToInv {s : State} (h : BodyInv s) : LeadsToInv (execRsChien s) := by
  unfold execRsChien
  split
  · exact h.raise (by decide)
  · next hlens =>
    simp only [Bool.not_eq_true', Bool.not_eq_false, Bool.and_eq_true, decide_eq_true_eq] at hlens
    obtain ⟨⟨-, hn⟩, -⟩ := hlens
    dsimp only
    split
    · exact (h.chienBody hn).raiseUncorr (by decide)
    · exact (h.chienBody hn).succeed

theorem execRsForney_leadsToInv {s : State} (h : BodyInv s) : LeadsToInv (execRsForney s) := by
  unfold execRsForney
  split
  · exact h.raise (by decide)
  · split
    · exact h.raise (by decide)
    · next hlens =>
      simp only [Bool.not_eq_true', Bool.not_eq_false, Bool.and_eq_true, decide_eq_true_eq,
        blockLenOk_iff] at hlens
      obtain ⟨⟨⟨-, hn⟩, -⟩, hroots⟩ := hlens
      split
      · exact h.raise (by decide)
      · split
        · exact h.raiseUncorr (by decide)
        · next ht => exact (h.forneyBody hn hroots ht).succeed

theorem execRsDecode_leadsToInv {s : State} (h : BodyInv s) : LeadsToInv (execRsDecode s) := by
  unfold execRsDecode
  split
  · exact h.raise (by decide)
  · next hecc =>
    split
    · exact h.raise (by decide)
    · next hlens =>
      obtain ⟨-, hn⟩ := blockLenOk_iff.1 (by simpa using hlens)
      have he := ecc_le hecc
      have h1 := h.syndromeBody he
      have h2 := h1.bmBody he
      have h3 := h2.chienBody hn
      dsimp only
      split
      · exact h1.cleanResult.succeed
      · split
        · exact h2.raiseUncorr (by decide)
        · split
          · exact h3.raiseUncorr (by decide)
          · split
            · exact h3.raiseUncorr (by decide)
            · next ht => exact (h3.forneyBody hn ((chienBody_nroots_le _).trans hn) ht).succeed

/-! ### The matrix commands -/

theorem BodyInv.buildBase {s : State} (h : BodyInv s) {v : Nat} (hv : v ≤ 40) : BodyInv (s.buildBase v) := by
  have hclear : BodyInv s.clearMatrix := h.of_regs_eq rfl (h.ram.clear isModuleAddr)
  unfold State.buildBase
  exact hclear.of_regs_eq rfl (hclear.ram.mapModules (dimension_le_dMax hv) _)

/-- Recording a matrix of a version 1..40 with any count of data modules (R41, R170). -/
theorem BodyInv.setMatrix {s : State} (h : BodyInv s) {v : BitVec 6} (hv : 1 ≤ v.toNat ∧ v.toNat ≤ 40)
    (n : BitVec 15) : BodyInv { s with regs := { s.regs with mxVer := v, ndata := n } } := by
  obtain ⟨-, -, hsum, hlen, hcorr⟩ := h.regs
  refine ⟨h.ram, hv.2, fun hzero => ?_, hsum, hlen, hcorr⟩
  have : v.toNat = 0 := congrArg BitVec.toNat hzero
  omega

theorem execMxBase_leadsToInv {s : State} (h : BodyInv s) : LeadsToInv (execMxBase s) := by
  unfold execMxBase
  dsimp only
  split
  · exact h.raise (by decide)
  · next hver =>
    have hv : 1 ≤ s.regs.version.toNat ∧ s.regs.version.toNat ≤ 40 := by omega
    exact ((h.buildBase hv.2).setMatrix hv _).succeed

theorem execMxPlace_leadsToInv {s : State} (h : BodyInv s) : LeadsToInv (execMxPlace s) := by
  unfold execMxPlace
  split
  · exact h.raise (by decide)
  · dsimp only
    split
    · exact h.raise (by decide)
    · refine (h.paint fun p hp => ?_).succeed
      obtain ⟨i, hi, rfl⟩ := List.mem_mapIdx.1 hp
      exact mem_placementOrder (List.getElem_mem hi)

theorem execMxExtract_leadsToInv {s : State} (h : BodyInv s) : LeadsToInv (execMxExtract s) := by
  unfold execMxExtract
  split
  · exact h.raise (by decide)
  · dsimp only
    have hbuf := h.setBuf .cw (bytes := packBytes ((placementOrder s.dim (s.grid s.dim)).length / 8)
      ((placementOrder s.dim (s.grid s.dim)).map fun p => colorOf (gridAt (s.grid s.dim) p.1 p.2))) (by
      rw [length_packBytes]
      exact length_placementOrder_div_le h.dim_le _)
    exact BodyInv.succeed ⟨hbuf.ram, hbuf.regs⟩

theorem execMxMask_leadsToInv {s : State} (h : BodyInv s) (arg : BitVec 8) : LeadsToInv (execMxMask arg s) := by
  unfold execMxMask
  split
  · exact h.raise (by decide)
  · split
    · exact h.raise (by decide)
    · exact (h.applyMask _).succeed

theorem execMxPenalty_leadsToInv {s : State} (h : BodyInv s) : LeadsToInv (execMxPenalty s) := by
  unfold execMxPenalty
  split
  · exact h.raise (by decide)
  · exact (h.setPenalty _).succeed

theorem BodyInv.setPens {s : State} (h : BodyInv s) (pens : List Penalty) : BodyInv (s.setPens pens) :=
  ⟨h.ram, h.regs⟩

theorem BodyInv.setMask {s : State} (h : BodyInv s) (m : BitVec 3) :
    BodyInv { s with regs := { s.regs with mask := m } } :=
  ⟨h.ram, h.regs⟩

theorem execMxSelect_leadsToInv {s : State} (h : BodyInv s) : LeadsToInv (execMxSelect s) := by
  unfold execMxSelect
  split
  · exact h.raise (by decide)
  · exact ((((h.applyMask _).setPens _).setPenalty _).setMask _).succeed

theorem execMxStamp_leadsToInv {s : State} (h : BodyInv s) : LeadsToInv (execMxStamp s) := by
  unfold execMxStamp
  split
  · exact h.raise (by decide)
  · have hpaint := h.paint (ps := formatStamps s.dim (formatWord s.regs.ecLevel s.regs.mask) ++
      versionStamps s.matrixVersion) (fun p hp => (List.mem_append.1 hp).elim
        (mem_formatStamps (Nat.le_add_right _ _)) mem_versionStamps)
    exact BodyInv.succeed ⟨hpaint.ram, hpaint.regs⟩

/-! ### The transform, and the step of the engine -/

theorem execXfMap_leadsToInv {s : State} (h : BodyInv s) : LeadsToInv (execXfMap s) := by
  unfold execXfMap
  split
  · exact h.raise (by decide)
  · dsimp only
    split
    · exact h.raise (by decide)
    · exact BodyInv.succeed ⟨h.ram, h.regs⟩

/-- Every command leads from the clauses of the body to the invariant. -/
theorem exec_leadsToInv {s : State} (h : BodyInv s) (i : Instr) : LeadsToInv (exec i s) := by
  cases i with
  | nop => exact h.succeed
  | gfMul => exact execGfMul_leadsToInv h
  | gfDiv => exact execGfDiv_leadsToInv h
  | polyMul => exact execPolyMul_leadsToInv h
  | polyDiv => exact execPolyDiv_leadsToInv h
  | rsEncode => exact execRsEncode_leadsToInv h
  | rsSyndrome => exact execRsSyndrome_leadsToInv h
  | rsBm => exact execRsBm_leadsToInv h
  | rsChien => exact execRsChien_leadsToInv h
  | rsForney => exact execRsForney_leadsToInv h
  | rsDecode => exact execRsDecode_leadsToInv h
  | mxBase => exact execMxBase_leadsToInv h
  | mxPlace => exact execMxPlace_leadsToInv h
  | mxMask arg => exact execMxMask_leadsToInv h arg
  | mxPenalty => exact execMxPenalty_leadsToInv h
  | mxSelect => exact execMxSelect_leadsToInv h
  | mxStamp => exact execMxStamp_leadsToInv h
  | mxExtract => exact execMxExtract_leadsToInv h
  | xfMap => exact execXfMap_leadsToInv h

theorem perform_leadsToInv {s : State} (h : BodyInv s) (w : Word) : LeadsToInv (perform w s) := by
  rcases perform_cases w s with ⟨i, -, hi⟩ | ⟨e, -, he⟩
  · rw [hi]
    exact exec_leadsToInv h i
  · rw [he]
    exact h.raise (by decide)

end Sys2Proof.Machine
end

section
/-! The host and the resets keep the invariant, and so does every step. -/

namespace Sys2Proof.Machine

/-! ### Resets -/

/-- With every register at its reset value and nothing pending, sound RAM is all the invariant asks. -/
theorem inv_of_reset {s : State} (hpending : s.pending = none) (hregs : s.regs = Regs.reset)
    (hram : RamSound s.mem) : Inv s := by
  obtain ⟨cfg, regs, pending, mem, script, pos, readData, passed, turns⟩ := s
  subst hpending hregs
  have hbody : BodyInv ⟨cfg, Regs.reset, none, mem, script, pos, readData, passed, turns⟩ :=
    ⟨hram, Nat.zero_le 40, fun _ => rfl, rfl, Nat.zero_le 511, Nat.zero_le 255⟩
  exact hbody.inv (fun _ hw => nomatch hw) (by simp [Regs.reset])

theorem inv_powerOnReset (s : State) (cells : List Host.Cell) : Inv (s.powerOnReset cells) :=
  inv_of_reset rfl rfl (ramSound_ofCells cells)

theorem Inv.softReset {s : State} (h : Inv s) : Inv s.softReset := inv_of_reset rfl rfl h.ram

/-! ### What the host does -/

/-- Only the registers, `pending` and RAM matter to the invariant. -/
theorem Inv.of_regs_eq {s t : State} (h : Inv s) (hregs : t.regs = s.regs) (hpending : t.pending = s.pending)
    (hram : RamSound t.mem) : Inv t := by
  refine (h.body.of_regs_eq hregs hram).inv ?_ ?_
  · rw [hregs, hpending]
    exact h.pendingCmd
  · rw [hregs]
    exact h.reason

theorem Inv.accessError {s : State} (h : Inv s) : Inv s.accessError :=
  BodyInv.inv (s := s.accessError) h.body h.pendingCmd h.reason

/-- A bus read changes at most `ACCERR` and the host's read value (R81). -/
theorem Inv.busRead {s : State} (h : Inv s) (w : BusWidth) (addr : BusAddr) : Inv (s.busRead w addr) := by
  rw [busRead_eq]
  exact BodyInv.inv ⟨h.ram, h.body.regs⟩ h.pendingCmd h.reason

/-- Acceptance puts the accepted word in `CMD` and clears `DONE` (R106). -/
theorem Inv.accept {s : State} (h : Inv s) (w : Word) : Inv (s.accept w) :=
  BodyInv.inv (s := s.accept w) h.body (fun _ hw => ⟨Option.some.inj hw, rfl⟩) h.reason

/-- Clearing status bits can clear `DONE` but not set it (R28). -/
theorem Inv.clearStatus {s : State} (h : Inv s) (v : Word) : Inv { s with regs := s.regs.clearStatus v } := by
  refine BodyInv.inv ⟨h.ram, h.body.regs⟩ (fun w hw => ?_) h.reason
  obtain ⟨hcmd, hdone⟩ := h.pendingCmd w hw
  exact ⟨hcmd, by simp [Regs.clearStatus, hdone]⟩

/-- A write to `CTRL` with bit 31 set is the soft reset (R27, R243). -/
theorem writeReg_ctrl_of_srst {s : State} {v : Word} (hv : v.getLsbD 31 = true) :
    s.writeReg .ctrl v = s.softReset := if_pos hv

/-- A write to `CTRL` with bit 31 clear stores `IE` (R27). -/
theorem writeReg_ctrl_of_not_srst {s : State} {v : Word} (hv : ¬v.getLsbD 31 = true) :
    s.writeReg .ctrl v = { s with regs := { s.regs with ie := v.getLsbD 0 } } := if_neg hv

/-- A register write keeps the invariant: `CTRL`, `STATUS` and `CMD` act, a read-only register ignores it, and the
invariant has no clause about the other read/write registers. -/
theorem Inv.writeReg {s : State} (h : Inv s) (r : Reg) (v : Word) : Inv (s.writeReg r v) := by
  cases r with
  | ctrl =>
    by_cases hv : v.getLsbD 31 = true
    · rw [writeReg_ctrl_of_srst hv]
      exact h.softReset
    · rw [writeReg_ctrl_of_not_srst hv]
      exact BodyInv.inv ⟨h.ram, h.body.regs⟩ h.pendingCmd h.reason
  | status => exact h.clearStatus v
  | cmd => exact h.accept v
  | _ => exact BodyInv.inv ⟨h.ram, h.body.regs⟩ h.pendingCmd h.reason

/-! ### Byte writes -/

/-- A buffer address is one of a buffer, and a module's target is a module of the matrix memory (R71, R73). -/
theorem byteTarget_cases (a : Nat) :
    match byteTarget a with
    | .buffer => ∃ b : Buffer, b.holds a = true
    | .raw r c | .color r c => r < dMax ∧ c < dMax
    | .rom _ | .nothing => True := by
  unfold byteTarget
  split_ifs with hbuf hraw hrawIn hcol hcolIn
  · obtain ⟨b, -, hb⟩ := List.any_eq_true.1 hbuf
    exact ⟨b, hb⟩
  · exact hrawIn
  · trivial
  · exact hcolIn
  · trivial
  · cases romByte a <;> trivial

theorem Inv.writeByte {s : State} (h : Inv s) (a : Nat) (v : Byte) : Inv (s.writeByte a v) := by
  have htarget := byteTarget_cases a
  unfold State.writeByte
  cases hcase : byteTarget a with
  | buffer =>
    rw [hcase] at htarget
    obtain ⟨b, hb⟩ := htarget
    exact h.of_regs_eq rfl rfl (h.ram.write (byteSound_of_holds hb v))
  | raw r c =>
    rw [hcase] at htarget
    obtain ⟨hr, hc⟩ := htarget
    exact h.of_regs_eq rfl rfl (h.ram.write (byteSound_moduleByte (isModuleAddr_moduleAddr hr hc) _))
  | color r c =>
    rw [hcase] at htarget
    obtain ⟨hr, hc⟩ := htarget
    exact h.of_regs_eq rfl rfl (h.ram.setColor hr hc _)
  | rom _ => exact h.accessError
  | nothing => exact h.accessError

theorem Inv.writeBytes {s : State} (h : Inv s) (n a : Nat) (v : Word) : Inv (s.writeBytes n a v) := by
  induction n generalizing s a v with
  | zero => exact h
  | succ n ih => exact ih (h.writeByte a _) _ _

theorem Inv.busWrite {s : State} (h : Inv s) (w : BusWidth) (addr : BusAddr) (v : Word) :
    Inv (s.busWrite w addr v) := by
  unfold State.busWrite
  split
  · exact h.accessError
  · split
    · exact h.accessError
    · split
      · split
        · exact h.writeReg _ v
        · exact h.accessError
      · exact h.writeBytes _ _ v

/-- A statement of the host's script is a bus access, or changes the host's own fields only. -/
theorem Inv.hostTurn {s : State} (h : Inv s) : Inv s.hostTurn := by
  unfold State.hostTurn
  split
  · exact h
  · next w addr v _ => exact (h.busWrite w addr v).of_regs_eq rfl rfl (h.busWrite w addr v).ram
  · next w addr _ => exact (h.busRead w addr).of_regs_eq rfl rfl (h.busRead w addr).ram
  · next w addr v _ => exact (h.busRead w addr).of_regs_eq rfl rfl (h.busRead w addr).ram
  · next addr mask v target _ => exact (h.busRead .w32 addr).of_regs_eq rfl rfl (h.busRead .w32 addr).ram
  · exact h.of_regs_eq rfl rfl h.ram
  · exact h.of_regs_eq rfl rfl h.ram

/-! ### Steps -/

theorem Inv.setTurns {s : State} (h : Inv s) (turns : List Turn) : Inv { s with turns := turns } :=
  h.of_regs_eq rfl rfl h.ram

/-- The state that moves in a step is `s`, or `s` with a turn used up. -/
theorem Inv.of_turn {s s0 : State} {turn : Turn} (h : Inv s)
    (hs : s0 = s ∨ ∃ rest, s.turns = turn :: rest ∧ s0 = { s with turns := rest }) : Inv s0 := by
  obtain rfl | ⟨rest, -, rfl⟩ := hs
  · exact h
  · exact h.setTurns rest

theorem Inv.step {s : State} (h : Inv s) : LeadsToInv (step s) := by
  rcases step_cases s with ⟨w, s0, -, hs, hstep⟩ | ⟨rest, -, -, hstep⟩ | ⟨s0, hs, hstep⟩ |
    ⟨cells, rest, -, hstep⟩
  all_goals rw [hstep]
  · exact perform_leadsToInv (h.of_turn hs).body w
  · exact leadsToInv_next (h.setTurns rest)
  · exact leadsToInv_next (h.of_turn hs).hostTurn
  · exact leadsToInv_next (inv_powerOnReset _ cells)

/-- Settles O3: the engine's step by `perform_leadsToInv`, the host's by `Inv.hostTurn`, the reset input's by
`inv_powerOnReset`. -/
theorem stepKeepsInvariant : Obligations.StepKeepsInvariant := fun _ _ h ht => h.step _ ht

/-- Settles O2: RAM built from cells is sound, and the registers are at reset. -/
theorem resetMeetsInvariant : Obligations.ResetMeetsInvariant := fun _ cells =>
  inv_of_reset rfl rfl (ramSound_ofCells cells)

end Sys2Proof.Machine
end

section
/-! The registers' contents: what a write stores and what a read gives, and the statements about them settled. -/

namespace Sys2Proof.Machine

/-! ### Used bits -/

/-- The mask of the low `n` bits. -/
def lowMask (n : Nat) : Word := (BitVec.allOnes n).setWidth 32

theorem getElem_lowMask (n : Nat) {i : Nat} (hi : i < 32) : (lowMask n)[i] = decide (i < n) := by
  simp [lowMask]

/-- Storing the low `n` bits of a word and reading them zero-extended is masking it (R24). -/
theorem setWidth_setWidth_eq_and_lowMask (n : Nat) (v : Word) :
    (v.setWidth n).setWidth 32 = v &&& lowMask n := by
  ext i hi
  simp [getElem_lowMask, BitVec.getLsbD_eq_getElem hi, Bool.and_comm]

/-- A word is within the low `n` bits when every bit from `n` on is 0. -/
theorem and_not_lowMask_eq_zero {n : Nat} {x : Word} (h : ∀ i, n ≤ i → x.getLsbD i = false) :
    x &&& ~~~lowMask n = 0#32 := by
  ext i hi
  by_cases hn : i < n
  · simp [getElem_lowMask, hn]
  · have := h i (Nat.le_of_not_lt hn)
    rw [BitVec.getLsbD_eq_getElem hi] at this
    simp [this]

/-- A zero-extended field has no bit above its width (R24). -/
theorem setWidth_and_not_lowMask {n : Nat} (x : BitVec n) : x.setWidth 32 &&& ~~~lowMask n = 0#32 :=
  and_not_lowMask_eq_zero fun i hi => by simp [BitVec.getLsbD_of_ge x i hi]

/-! ### The fields of `STATUS` (R28) -/

/-- Which field each bit of `STATUS` belongs to. -/
theorem getLsbD_statusWord (s : State) (i : Nat) : s.statusWord.getLsbD i =
    if i = 0 then s.busy else if i = 1 then s.regs.done else if i = 2 then s.regs.accErr
    else if i = 3 then s.regs.clean else if i < 8 then s.regs.err.code.getLsbD (i - 4)
    else s.regs.unc.code.getLsbD (i - 8) := by
  match i with
  | 0 | 1 | 2 | 3 =>
    simp only [State.statusWord, BitVec.getLsbD_append]
    simp
  | i + 4 =>
    simp only [State.statusWord, BitVec.getLsbD_append]
    grind

theorem statusWord_err (s : State) : s.statusWord.extractLsb' 4 4 = s.regs.err.code := by
  ext i hi
  simp [BitVec.getElem_extractLsb', getLsbD_statusWord, Nat.add_comm 4 i, hi]

theorem statusWord_unc (s : State) : s.statusWord.extractLsb' 8 2 = s.regs.unc.code := by
  ext i hi
  simp [BitVec.getElem_extractLsb', getLsbD_statusWord, Nat.add_comm 8 i, hi]

/-- `STATUS` uses bits 9:0 only. -/
theorem getLsbD_statusWord_of_ge (s : State) {i : Nat} (hi : 10 ≤ i) : s.statusWord.getLsbD i = false := by
  rw [getLsbD_statusWord, if_neg (by omega), if_neg (by omega), if_neg (by omega), if_neg (by omega),
    if_neg (by omega), BitVec.getLsbD_of_ge _ _ (by omega)]

theorem statusWord_unused (s : State) : s.statusWord.extractLsb' 10 22 = 0#22 := by
  ext i hi
  simp [BitVec.getElem_extractLsb', getLsbD_statusWord_of_ge]

/-- Writing ones to `STATUS` clears `DONE` and `ACCERR` (R28). -/
theorem clearStatus_eq (g : Regs) (v : Word) :
    g.clearStatus v = { g with
      done := if v.getLsbD 1 then false else g.done
      accErr := if v.getLsbD 2 then false else g.accErr } := by
  have hclear : ∀ flag one : Bool, (flag && !one) = if one then false else flag := by decide
  rw [Regs.clearStatus, hclear, hclear]

/-! ### What each register stores and reads -/

/-- No register reads a bit outside its used bits (R23, R24). -/
theorem readReg_and_not_usedBits (s : State) (r : Reg) : s.readReg r &&& ~~~r.usedBits = 0#32 := by
  cases r with
  | status => exact and_not_lowMask_eq_zero (n := 10) fun i hi => getLsbD_statusWord_of_ge s hi
  | ctrl | opa | opb | res | lenA | lenB | lenR | eccLen | rsL | nroots | nerr | version | ecLevel | mask
  | mxVer | ndata | cwLen | fmtWord | xfRow | xfCol => exact setWidth_and_not_lowMask _
  | id | cmd | penN1 | penN2 | penN3 | penN4 | penTotal | pen | xfPx | xfPy | xfLo | xfHi =>
    simp [Reg.usedBits]

/-- A read/write register reads back the used bits of what was written (R24). -/
theorem readReg_writeReg_same (s : State) {r : Reg} (hr : r.plainRw = true) (v : Word) :
    (s.writeReg r v).readReg r = v &&& r.usedBits := by
  cases r with
  | opa | opb | lenA | lenB | eccLen | rsL | nroots | version | ecLevel | mask | cwLen | xfRow | xfCol =>
    exact setWidth_setWidth_eq_and_lowMask _ v
  | xfLo k =>
    simp only [State.writeReg, State.readReg, Reg.usedBits, Fin.getElem_fin, Vector.getElem_set_self]
    exact BitVec.extractLsb'_append_eq_right.trans BitVec.and_allOnes.symm
  | xfHi k =>
    simp only [State.writeReg, State.readReg, Reg.usedBits, Fin.getElem_fin, Vector.getElem_set_self]
    exact BitVec.extractLsb'_append_eq_left.trans BitVec.and_allOnes.symm
  | id | ctrl | status | cmd | res | lenR | nerr | mxVer | ndata | penN1 | penN2 | penN3 | penN4 | penTotal
  | fmtWord | pen | xfPx | xfPy => exact nomatch hr

/-- A write to a read-only register changes nothing (R23). -/
theorem writeReg_of_readOnly (s : State) {r : Reg} (hr : r.readOnly = true) (v : Word) : s.writeReg r v = s := by
  cases r with
  | id | res | lenR | nerr | mxVer | ndata | penN1 | penN2 | penN3 | penN4 | penTotal | fmtWord | pen
  | xfPx | xfPy => rfl
  | _ => exact nomatch hr

/-- A write to a read/write register issues no command. -/
theorem writeReg_pending_of_plainRw (s : State) {r : Reg} (hr : r.plainRw = true) (v : Word) :
    (s.writeReg r v).pending = s.pending := by
  cases r with
  | id | ctrl | status | cmd => exact nomatch hr
  | _ => rfl

/-- Replacing coefficient `k` of the transform keeps what a register reads, if a half of `k` that it names is kept. -/
theorem readReg_setCoef (s : State) (k : Fin 8) (x : BitVec 64) {r : Reg}
    (hlo : r = .xfLo k → x.extractLsb' 0 32 = s.readReg (.xfLo k))
    (hhi : r = .xfHi k → x.extractLsb' 32 32 = s.readReg (.xfHi k)) :
    State.readReg { s with regs := { s.regs with xfCoef := s.regs.xfCoef.set k.val x } } r = s.readReg r := by
  cases r with
  | xfLo j =>
    by_cases hj : k = j
    · subst hj
      simpa [State.readReg] using hlo rfl
    · have hne : k.val ≠ j.val := Fin.val_ne_of_ne hj
      simp [State.readReg, hne]
  | xfHi j =>
    by_cases hj : k = j
    · subst hj
      simpa [State.readReg] using hhi rfl
    · have hne : k.val ≠ j.val := Fin.val_ne_of_ne hj
      simp [State.readReg, hne]
  | _ => rfl

/-- A write to a read/write register leaves every other register as it was (R24). -/
theorem readReg_writeReg_of_ne (s : State) {r r' : Reg} (hr : r.plainRw = true) (hne : r' ≠ r) (v : Word) :
    (s.writeReg r v).readReg r' = s.readReg r' := by
  cases r with
  | opa | opb | lenA | lenB | eccLen | rsL | nroots | version | ecLevel | mask | cwLen | xfRow | xfCol =>
    cases r' <;> simp [State.writeReg, State.readReg, State.statusWord, State.busy] at hne ⊢
  | xfLo k =>
    exact readReg_setCoef s k _ (fun h => absurd h hne) (fun _ => BitVec.extractLsb'_append_eq_left)
  | xfHi k =>
    exact readReg_setCoef s k _ (fun _ => BitVec.extractLsb'_append_eq_right) (fun h => absurd h hne)
  | id | ctrl | status | cmd | res | lenR | nerr | mxVer | ndata | penN1 | penN2 | penN3 | penN4 | penTotal
  | fmtWord | pen | xfPx | xfPy => exact nomatch hr

/-- With the registers at reset and nothing pending, every register reads its value in the reset column (R60). -/
theorem readReg_of_reset {s : State} (hpending : s.pending = none) (hregs : s.regs = Regs.reset) (r : Reg) :
    s.readReg r = r.resetWord := by
  obtain ⟨cfg, regs, pending, mem, script, pos, readData, passed, turns⟩ := s
  subst hpending hregs
  cases r with
  | status =>
    simp [State.readReg, Reg.resetWord, State.statusWord, State.busy, Regs.reset, ErrCode.code, UncReason.code]
  | pen m | xfLo k | xfHi k => simp [State.readReg, Reg.resetWord, Regs.reset]
  | _ => rfl

/-! ### The obligations -/

/-- Settles O1: the registers by `readReg_of_reset`, RAM by `ofCells_eq_self`. -/
theorem resetRegisterValues : Obligations.ResetRegisterValues :=
  ⟨fun _ _ => ⟨rfl, readReg_of_reset rfl rfl⟩, fun _ => ⟨rfl, readReg_of_reset rfl rfl, rfl⟩,
    fun _ _ hwf hcells => ofCells_eq_self hwf hcells⟩

/-- Settles O12: on an idle block a bus access to a register is the register's own write or read. -/
theorem registerWritesStoreUsedBits : Obligations.RegisterWritesStoreUsedBits := by
  intro s hidle
  have hwrite (r : Reg) (v : Word) : s.busWrite .w32 r.addr v = s.writeReg r v :=
    busWrite_addr (writeAllowed_of_idle hidle _) v
  refine ⟨fun r v hr => ?_, fun r v hr => ?_, fun v => ?_, fun r => ?_, readReg_and_not_usedBits s⟩
  · rw [hwrite]
    exact ⟨readReg_writeReg_same s hr v, fun _ hne => readReg_writeReg_of_ne s hr hne v, writeReg_mem s r v,
      (writeReg_pending_of_plainRw s hr v).trans hidle⟩
  · rw [hwrite]
    exact writeReg_of_readOnly s hr v
  · rw [hwrite]
    rfl
  · exact busRead_addr (readAllowed_of_idle hidle _)

/-- Settles O13: the fields by the lemmas on `statusWord`, the write by `clearStatus_eq`. -/
theorem statusFieldsAndClearing : Obligations.StatusFieldsAndClearing := by
  intro s
  refine ⟨⟨getLsbD_statusWord s 0, getLsbD_statusWord s 1, getLsbD_statusWord s 2, getLsbD_statusWord s 3,
    statusWord_err s, statusWord_unc s, statusWord_unused s⟩, fun v => ?_⟩
  calc s.busWrite .w32 Reg.status.addr v
      = { s with regs := s.regs.clearStatus v } := busWrite_addr (writeAllowed_status s) v
    _ = _ := by rw [clearStatus_eq]

/-- Settles O14: a `CTRL` write is never blocked, and is the soft reset or a write of `IE`. -/
theorem controlWriteResetsOrStores : Obligations.ControlWriteResetsOrStores := by
  intro s v
  have hwrite : s.busWrite .w32 0x00004#18 v = s.writeReg .ctrl v := busWrite_addr (writeAllowed_ctrl s) v
  rw [hwrite]
  refine ⟨fun hv => ?_, fun hv => writeReg_ctrl_of_not_srst (Bool.eq_false_iff.1 hv), ?_, ?_⟩
  · rw [writeReg_ctrl_of_srst hv]
    exact ⟨rfl, readReg_of_reset rfl rfl⟩
  · simp [State.readReg]
  · ext i hi
    simp [State.readReg]

end Sys2Proof.Machine
end

section
/-! Accesses over the bus, of every width: what a read may do, which accesses are refused while busy or for their
address, and the wide access as a composition of byte accesses. -/

namespace Sys2Proof.Machine

/-! ### Reads (R81) -/

/-- A read that is no access error only gives the host its value. -/
theorem busRead_of_served {s : State} {w : BusWidth} {addr : BusAddr} {v : Word}
    (h : s.readValue w addr = (v, false)) : s.busRead w addr = { s with readData := v } := by
  rw [busRead_eq, h, Bool.or_false]

theorem busRead_of_error {s : State} {w : BusWidth} {addr : BusAddr} (h : s.readValue w addr = (0#32, true)) :
    s.busRead w addr = { s with readData := 0#32, regs := { s.regs with accErr := true } } := by
  rw [busRead_eq, h, Bool.or_true]

theorem readByte_congr {s t : State} (hmem : t.mem = s.mem) (a : Nat) : t.readByte a = s.readByte a := by
  unfold State.readByte State.moduleAt
  rw [hmem]

theorem readBytes_congr {s t : State} (hmem : t.mem = s.mem) (n a : Nat) : t.readBytes n a = s.readBytes n a := by
  induction n generalizing a with
  | zero => rfl
  | succ n ih => simp only [State.readBytes, readByte_congr hmem, ih]

theorem readReg_congr {s t : State} (hregs : t.regs = s.regs) (hpending : t.pending = s.pending) (r : Reg) :
    t.readReg r = s.readReg r := by
  cases r <;> simp only [State.readReg, State.statusWord, State.busy, hregs, hpending]

/-- What a read gives depends on RAM and `pending`, and on the registers only where it is served: a refused read
gives 0 whatever they hold. -/
theorem readValue_congr {s t : State} {w : BusWidth} {addr : BusAddr} (hmem : t.mem = s.mem)
    (hpending : t.pending = s.pending) (hregs : (s.readValue w addr).2 = false → t.regs = s.regs) :
    t.readValue w addr = s.readValue w addr := by
  have hallowed : readAllowed t addr = readAllowed s addr := by simp only [readAllowed, State.busy, hpending]
  unfold State.readValue at hregs ⊢
  rw [hallowed]
  split_ifs with hblocked hmisaligned hrange
  · rfl
  · rfl
  · rw [if_neg hblocked, if_neg hmisaligned, if_pos hrange] at hregs
    cases w with
    | w8 => rfl
    | w16 => rfl
    | w32 =>
      cases hreg : regAt addr.toNat with
      | none => rfl
      | some r =>
        rw [hreg] at hregs
        exact congrArg (·, false) (readReg_congr (hregs rfl) hpending r)
  · rw [readBytes_congr hmem]

/-- Settles O16: `busRead_eq`, and the second read finds by `readValue_congr` what the first one found. -/
theorem readsHaveNoSideEffects : Obligations.ReadsHaveNoSideEffects := by
  intro s w addr
  refine ⟨busRead_eq s w addr, ?_⟩
  have hrepeat : (s.busRead w addr).readValue w addr = s.readValue w addr := by
    apply readValue_congr
    · rw [busRead_eq]
    · rw [busRead_eq]
    · intro hserved
      rw [busRead_eq, hserved, Bool.or_false]
  rw [busRead_eq (s.busRead w addr), hrepeat, busRead_eq s, Bool.or_assoc, Bool.or_self]

/-! ### Refused accesses (R75, R76, R78, R79) -/

/-- An access of this width at this address is an access error, read or written: it reads 0 and changes nothing
but `ACCERR` (R81). -/
def Refused (s : State) (w : BusWidth) (addr : BusAddr) : Prop :=
  s.readValue w addr = (0#32, true) ∧ ∀ v, s.busWrite w addr v = s.accessError

theorem Refused.busRead {s : State} {w : BusWidth} {addr : BusAddr} (h : Refused s w addr) :
    s.busRead w addr = { s with readData := 0#32, regs := { s.regs with accErr := true } } :=
  busRead_of_error h.1

theorem Refused.busWrite {s : State} {w : BusWidth} {addr : BusAddr} (h : Refused s w addr) (v : Word) :
    s.busWrite w addr v = { s with regs := { s.regs with accErr := true } } := h.2 v

theorem refused_of_misaligned {w : BusWidth} {addr : BusAddr} (h : addr.toNat % w.bytes ≠ 0) (s : State) :
    Refused s w addr := by
  simp [Refused, State.readValue, State.busWrite, aligned, h]

/-- In the register range only a 32-bit access to a register's offset is served (R72, R76). -/
theorem refused_of_inRegRange {w : BusWidth} {addr : BusAddr} (hrange : addr.toNat < 0x1000)
    (h : w ≠ .w32 ∨ regAt addr.toNat = none) (s : State) : Refused s w addr := by
  have hrange : inRegRange addr = true := decide_eq_true hrange
  unfold Refused State.readValue State.busWrite
  simp only [hrange, if_true]
  cases w with
  | w8 => simp
  | w16 => simp
  | w32 =>
    have hnone : regAt addr.toNat = none := h.resolve_left (· rfl)
    simp [hnone]

/-! ### While busy (R80) -/

theorem readAllowed_of_busy {s : State} {w : Word} (h : s.pending = some w) {addr : BusAddr} :
    readAllowed s addr = true ↔ addr = Reg.id.addr ∨ addr = Reg.ctrl.addr ∨ addr = Reg.status.addr := by
  simp [readAllowed, State.busy, h, Reg.addr, Reg.offset, or_assoc]

theorem writeAllowed_of_busy {s : State} {w : Word} (h : s.pending = some w) {addr : BusAddr} :
    writeAllowed s addr = true ↔ addr = Reg.ctrl.addr ∨ addr = Reg.status.addr := by
  simp [writeAllowed, State.busy, h, Reg.addr, Reg.offset]

theorem readValue_of_blocked {s : State} {addr : BusAddr} (h : ¬readAllowed s addr = true) (w : BusWidth) :
    s.readValue w addr = (0#32, true) := by
  simp [State.readValue, h]

theorem busWrite_of_blocked {s : State} {addr : BusAddr} (h : ¬writeAllowed s addr = true) (w : BusWidth)
    (v : Word) : s.busWrite w addr v = s.accessError := by
  simp [State.busWrite, h]

/-- A narrow access is refused at a register that is served while busy. -/
theorem refused_of_narrow {w : BusWidth} (hw : w ≠ .w32) (r : Reg) (s : State) : Refused s w r.addr :=
  refused_of_inRegRange (r.addr_toNat.symm ▸ r.offset_lt) (.inl hw) s

/-- Settles O11: an access that is not blocked is one of the named registers; there a narrow one is refused. -/
theorem busyBlocksOtherAccesses : Obligations.BusyBlocksOtherAccesses := by
  intro s word hbusy
  refine ⟨fun r hr => busRead_addr ((readAllowed_of_busy hbusy).2 ?_),
    fun r v hr => busWrite_addr ((writeAllowed_of_busy hbusy).2 ?_) v,
    fun w addr h => busRead_of_error ?_, fun w addr v h => ?_⟩
  · obtain rfl | rfl | rfl := hr <;> simp
  · obtain rfl | rfl := hr <;> simp
  · by_cases hallowed : readAllowed s addr = true
    · have hreg := (readAllowed_of_busy hbusy).1 hallowed
      have hw : w ≠ .w32 := h.resolve_right (by tauto)
      obtain rfl | rfl | rfl := hreg <;> exact (refused_of_narrow hw _ s).1
    · exact readValue_of_blocked hallowed w
  · by_cases hallowed : writeAllowed s addr = true
    · have hreg := (writeAllowed_of_busy hbusy).1 hallowed
      have hw : w ≠ .w32 := h.resolve_right (by tauto)
      obtain rfl | rfl := hreg <;> exact (refused_of_narrow hw _ s).2 v
    · exact busWrite_of_blocked hallowed w v

/-! ### Byte by byte (R74) -/

/-- Outside the register range an aligned read that is not blocked is its byte reads. -/
theorem readValue_eq_readBytes {s : State} {w : BusWidth} {addr : BusAddr} (hallowed : readAllowed s addr = true)
    (halign : addr.toNat % w.bytes = 0) (hhigh : 0x1000 ≤ addr.toNat) :
    s.readValue w addr =
      (BitVec.ofNat 32 (s.readBytes w.bytes addr.toNat).1, (s.readBytes w.bytes addr.toNat).2) := by
  simp [State.readValue, hallowed, aligned, halign, inRegRange, Nat.not_lt.2 hhigh]

/-- Outside the register range an aligned write that is not blocked is its byte writes. -/
theorem busWrite_eq_writeBytes {s : State} {w : BusWidth} {addr : BusAddr} (hallowed : writeAllowed s addr = true)
    (halign : addr.toNat % w.bytes = 0) (hhigh : 0x1000 ≤ addr.toNat) (v : Word) :
    s.busWrite w addr v = s.writeBytes w.bytes addr.toNat v := by
  simp [State.busWrite, hallowed, aligned, halign, inRegRange, Nat.not_lt.2 hhigh]

@[simp] theorem writeByte_pending (s : State) (a : Nat) (v : Byte) : (s.writeByte a v).pending = s.pending := by
  unfold State.writeByte
  split <;> rfl

@[simp] theorem writeBytes_pending (s : State) (n a : Nat) (v : Word) :
    (s.writeBytes n a v).pending = s.pending := by
  induction n generalizing s a v with
  | zero => rfl
  | succ n ih => rw [State.writeBytes, ih, writeByte_pending]

theorem writeBytes_add (s : State) (m n a : Nat) (v : Word) :
    s.writeBytes (m + n) a v = (s.writeBytes m a v).writeBytes n (a + m) (v >>> (8 * m)) := by
  induction m generalizing s a v with
  | zero => simp [State.writeBytes]
  | succ m ih =>
    rw [Nat.add_right_comm, State.writeBytes, State.writeBytes, ih, ← BitVec.shiftRight_add, Nat.add_assoc a,
      Nat.add_comm 1 m, Nat.mul_succ, Nat.add_comm 8]

theorem readBytes_lt (s : State) (n a : Nat) : (s.readBytes n a).1 < 2 ^ (8 * n) := by
  induction n generalizing a with
  | zero => simp [State.readBytes]
  | succ n ih =>
    have hfirst := (s.readByte a).1.isLt
    have hrest := ih (a + 1)
    rw [Nat.mul_succ, Nat.pow_add]
    simp only [State.readBytes]
    omega

theorem readBytes_add (s : State) (m n a : Nat) :
    s.readBytes (m + n) a =
      ((s.readBytes m a).1 + 2 ^ (8 * m) * (s.readBytes n (a + m)).1,
        (s.readBytes m a).2 || (s.readBytes n (a + m)).2) := by
  induction m generalizing a with
  | zero => simp [State.readBytes]
  | succ m ih =>
    rw [Nat.add_right_comm, State.readBytes, State.readBytes, ih, Nat.add_assoc a, Nat.add_comm 1 m, Nat.mul_succ,
      Nat.pow_add]
    simp only [Bool.or_assoc, Prod.mk.injEq, and_true]
    ring

/-- Numbers that do not overlap are joined by `|||`. -/
theorem ofNat_add_two_pow_mul {x i : Nat} (hx : x < 2 ^ i) (y : Nat) :
    BitVec.ofNat 32 (x + 2 ^ i * y) = BitVec.ofNat 32 x ||| (BitVec.ofNat 32 y <<< i) := by
  rw [Nat.add_comm, Nat.two_pow_add_eq_or_of_lt hx, BitVec.ofNat_or, BitVec.or_comm, Nat.mul_comm]
  congr 1
  apply BitVec.eq_of_toNat_eq
  simp [Nat.shiftLeft_eq]

/-- The second half of an aligned access lies within the 18 address bits. -/
theorem toNat_add_half {w half : BusWidth} (hw : w.bytes = half.bytes + half.bytes) {addr : BusAddr}
    (halign : addr.toNat % w.bytes = 0) :
    (addr + BitVec.ofNat 18 half.bytes).toNat = addr.toNat + half.bytes ∧
      addr.toNat % half.bytes = 0 ∧ (addr.toNat + half.bytes) % half.bytes = 0 := by
  have := addr.isLt
  rw [BitVec.toNat_add, BitVec.toNat_ofNat]
  rw [hw] at halign
  cases half <;> cases w <;> simp only [BusWidth.bytes] at * <;> omega

section Halves
variable {s : State} {w half : BusWidth} {addr : BusAddr}

theorem busWrite_eq_halves (hw : w.bytes = half.bytes + half.bytes) (hidle : s.pending = none)
    (hhigh : 0x1000 ≤ addr.toNat) (halign : addr.toNat % w.bytes = 0) (v : Word) :
    s.busWrite w addr v =
      (s.busWrite half addr v).busWrite half (addr + BitVec.ofNat 18 half.bytes) (v >>> (8 * half.bytes)) := by
  obtain ⟨hsecond, halign₁, halign₂⟩ := toNat_add_half hw halign
  have hidle' : (s.writeBytes half.bytes addr.toNat v).pending = none := (writeBytes_pending ..).trans hidle
  rw [busWrite_eq_writeBytes (writeAllowed_of_idle hidle _) halign hhigh, hw, writeBytes_add,
    busWrite_eq_writeBytes (writeAllowed_of_idle hidle _) halign₁ hhigh,
    busWrite_eq_writeBytes (writeAllowed_of_idle hidle' _) (hsecond ▸ halign₂) (by omega), hsecond]

theorem readValue_eq_halves (hw : w.bytes = half.bytes + half.bytes) (hidle : s.pending = none)
    (hhigh : 0x1000 ≤ addr.toNat) (halign : addr.toNat % w.bytes = 0) :
    s.readValue w addr =
      ((s.readValue half addr).1 |||
          ((s.readValue half (addr + BitVec.ofNat 18 half.bytes)).1 <<< (8 * half.bytes)),
        (s.readValue half addr).2 || (s.readValue half (addr + BitVec.ofNat 18 half.bytes)).2) := by
  obtain ⟨hsecond, halign₁, halign₂⟩ := toNat_add_half hw halign
  rw [readValue_eq_readBytes (readAllowed_of_idle hidle _) halign hhigh, hw, readBytes_add,
    readValue_eq_readBytes (readAllowed_of_idle hidle _) halign₁ hhigh,
    readValue_eq_readBytes (readAllowed_of_idle hidle _) (hsecond ▸ halign₂) (by omega), hsecond,
    ofNat_add_two_pow_mul (readBytes_lt ..)]

end Halves

/-- Settles O20: an access is its two halves, for the widths 2 and 4. -/
theorem wideAccessesAreByteAccesses : Obligations.WideAccessesAreByteAccesses := by
  intro s addr v hidle hhigh
  exact ⟨fun halign => ⟨busWrite_eq_halves (w := .w16) (half := .w8) rfl hidle hhigh halign v,
      readValue_eq_halves (w := .w16) (half := .w8) rfl hidle hhigh halign⟩,
    fun halign => ⟨busWrite_eq_halves (w := .w32) (half := .w16) rfl hidle hhigh halign v,
      readValue_eq_halves (w := .w32) (half := .w16) rfl hidle hhigh halign⟩⟩

end Sys2Proof.Machine
end

section
/-! What one byte address names, in the terms of the address map of R71. -/

namespace Sys2Proof.Machine

/-! ### Targets by the ranges of R71 -/

@[simp] theorem inRanges_nil (a : Nat) : inRanges [] a = false := rfl

@[simp] theorem inRanges_cons (p : Nat × Nat) (ranges : List (Nat × Nat)) (a : Nat) :
    inRanges (p :: ranges) a = (decide (p.1 ≤ a) && decide (a ≤ p.2) || inRanges ranges a) := rfl

theorem inRanges_append (ranges ranges' : List (Nat × Nat)) (a : Nat) :
    inRanges (ranges ++ ranges') a = (inRanges ranges a || inRanges ranges' a) := List.any_append

/-- Ranges that start and end at word boundaries hold an aligned access with all its bytes or with none. -/
theorem inRanges_of_aligned {ranges : List (Nat × Nat)} (hwords : ∀ p ∈ ranges, p.1 % 4 = 0 ∧ p.2 % 4 = 3)
    {w : BusWidth} {a x : Nat} (halign : a % w.bytes = 0) (hlo : a ≤ x) (hhi : x < a + w.bytes) :
    inRanges ranges x = inRanges ranges a := by
  have hword : x / 4 = a / 4 := by
    cases w <;> simp only [BusWidth.bytes] at halign hhi <;> omega
  unfold inRanges
  rw [Bool.eq_iff_iff, List.any_eq_true, List.any_eq_true]
  refine exists_congr fun p => and_congr_right fun hp => ?_
  obtain ⟨hstart, hend⟩ := hwords p hp
  simp only [Bool.and_eq_true, decide_eq_true_eq]
  omega

theorem le_of_inRanges {ranges : List (Nat × Nat)} {lo a : Nat} (h : ∀ p ∈ ranges, lo ≤ p.1)
    (ha : inRanges ranges a = true) : lo ≤ a := by
  obtain ⟨p, hp, hin⟩ := List.any_eq_true.1 ha
  exact (h p hp).trans (of_decide_eq_true (Bool.and_eq_true_iff.1 hin).1)

/-- The buffers of the model lie at the ranges of R71. -/
theorem any_holds_eq_inRanges (a : Nat) : Buffer.all.any (fun b => b.holds a) = inRanges bufferRanges a := by
  rw [Bool.eq_iff_iff]
  simp [bufferRanges, Buffer.all, Buffer.holds_iff, Buffer.base, Buffer.size]
  omega

/-- A table byte stands exactly at the addresses of the tables' ranges. -/
theorem isSome_romByte (a : Nat) : (romByte a).isSome = inRanges tableRanges a := by
  rw [Bool.eq_iff_iff]
  unfold romByte
  split_ifs <;> simp [tableRanges] <;> omega

theorem byteTarget_of_buffer {a : Nat} (h : inRanges bufferRanges a = true) : byteTarget a = .buffer := by
  rw [byteTarget, any_holds_eq_inRanges, if_pos h]

/-- The tables lie apart from the buffers and below the views. -/
theorem tables_off_buffers_and_views {a : Nat} (h : inRanges tableRanges a = true) :
    inRanges bufferRanges a = false ∧ ¬(0x10000 ≤ a ∧ a < 0x20000) ∧ ¬(0x20000 ≤ a ∧ a < 0x30000) := by
  simp [tableRanges] at h
  rw [Bool.eq_false_iff]
  simp [bufferRanges]
  omega

theorem byteTarget_of_table {a : Nat} (h : inRanges tableRanges a = true) :
    byteTarget a = .rom (tableByte a) := by
  have hsome : (romByte a).isSome = true := (isSome_romByte a).trans h
  have hrom : romByte a = some (tableByte a) := by
    obtain ⟨v, hv⟩ := Option.isSome_iff_exists.1 hsome
    rw [tableByte, hv, Option.getD_some]
  obtain ⟨hbuffer, hraw, hcolor⟩ := tables_off_buffers_and_views h
  rw [byteTarget, any_holds_eq_inRanges, hbuffer, if_neg Bool.false_ne_true, if_neg hraw, if_neg hcolor, hrom]

theorem byteTarget_of_unmapped {a : Nat} (h : inRanges (bufferRanges ++ tableRanges ++ matrixRanges) a = false) :
    byteTarget a = .nothing := by
  rw [inRanges_append, inRanges_append, Bool.or_eq_false_iff, Bool.or_eq_false_iff] at h
  obtain ⟨⟨hbuffer, htable⟩, hmatrix⟩ := h
  have hrom : romByte a = none := by
    rw [← Option.isNone_iff_eq_none, ← Option.not_isSome, isSome_romByte, htable, Bool.not_false]
  obtain ⟨hraw, hcolor⟩ : ¬(0x10000 ≤ a ∧ a < 0x20000) ∧ ¬(0x20000 ≤ a ∧ a < 0x30000) := by
    simp [matrixRanges] at hmatrix
    omega
  rw [byteTarget, any_holds_eq_inRanges, hbuffer, if_neg Bool.false_ne_true, if_neg hraw, if_neg hcolor, hrom]

end Sys2Proof.Machine
end

section
/-! What accesses outside the register range do: one byte by its target, several bytes in turn, and the whole
access at unmapped addresses, in the tables and in the buffers. -/

namespace Sys2Proof.Machine

/-! ### One byte -/

theorem readByte_of_buffer {a : Nat} (h : byteTarget a = .buffer) (s : State) :
    s.readByte a = (s.mem.read a, false) := by rw [State.readByte, h]

theorem readByte_of_rom {a : Nat} {v : Byte} (h : byteTarget a = .rom v) (s : State) :
    s.readByte a = (v, false) := by rw [State.readByte, h]

theorem readByte_of_raw {a r c : Nat} (h : byteTarget a = .raw r c) (s : State) :
    s.readByte a = (moduleByte (s.moduleAt r c), false) := by rw [State.readByte, h]

theorem readByte_of_color {a r c : Nat} (h : byteTarget a = .color r c) (s : State) :
    s.readByte a = ((BitVec.ofBool (s.dark r c)).setWidth 8, false) := by rw [State.readByte, h, State.dark]

theorem readByte_of_nothing {a : Nat} (h : byteTarget a = .nothing) (s : State) :
    s.readByte a = (0#8, true) := by rw [State.readByte, h]

theorem writeByte_of_buffer {a : Nat} (h : byteTarget a = .buffer) (s : State) (v : Byte) :
    s.writeByte a v = { s with mem := s.mem.write a v } := by rw [State.writeByte, h]

theorem writeByte_of_raw {a r c : Nat} (h : byteTarget a = .raw r c) (s : State) (v : Byte) :
    s.writeByte a v = { s with mem := s.mem.write (moduleAddr r c) (moduleByte (v.setWidth 3)) } := by
  rw [State.writeByte, h]

theorem writeByte_of_color {a r c : Nat} (h : byteTarget a = .color r c) (s : State) (v : Byte) :
    s.writeByte a v = s.setColor r c (v.getLsbD 0) := by rw [State.writeByte, h]

/-- The byte takes no write: a table byte, or nothing that is backed (R77-R79). -/
def ByteTarget.readOnly (t : ByteTarget) : Prop := t = .nothing ∨ ∃ v, t = .rom v

theorem writeByte_of_readOnly {a : Nat} (h : (byteTarget a).readOnly) (s : State) (v : Byte) :
    s.writeByte a v = s.accessError := by
  obtain h | ⟨_, h⟩ := h <;> rw [State.writeByte, h]

/-! ### Several bytes -/

theorem readBytes_of_nothing (s : State) {n a : Nat} (hn : n ≠ 0)
    (h : ∀ x, a ≤ x → x < a + n → byteTarget x = .nothing) : s.readBytes n a = (0, true) := by
  induction n generalizing a with
  | zero => exact absurd rfl hn
  | succ n ih =>
    rw [State.readBytes, readByte_of_nothing (h a le_rfl (by omega))]
    cases n with
    | zero => rfl
    | succ n =>
      rw [ih (Nat.succ_ne_zero n) fun x hlo hhi => h x (by omega) (by omega)]
      rfl

theorem writeBytes_of_readOnly (s : State) {n a : Nat} (hn : n ≠ 0)
    (h : ∀ x, a ≤ x → x < a + n → (byteTarget x).readOnly) (v : Word) : s.writeBytes n a v = s.accessError := by
  induction n generalizing s a v with
  | zero => exact absurd rfl hn
  | succ n ih =>
    rw [State.writeBytes, writeByte_of_readOnly (h a le_rfl (by omega))]
    cases n with
    | zero => rfl
    | succ n =>
      rw [ih s.accessError (Nat.succ_ne_zero n) fun x hlo hhi => h x (by omega) (by omega), accessError_idem]

theorem readBytes_served (s : State) {n a : Nat} (h : ∀ x, a ≤ x → x < a + n → (s.readByte x).2 = false) :
    (s.readBytes n a).2 = false := by
  induction n generalizing a with
  | zero => rfl
  | succ n ih =>
    rw [State.readBytes, h a le_rfl (by omega), ih fun x hlo hhi => h x (by omega) (by omega), Bool.or_false]

/-- Writing in a buffer changes RAM only (R83). -/
theorem writeBytes_of_buffer (s : State) {n a : Nat} (h : ∀ x, a ≤ x → x < a + n → byteTarget x = .buffer)
    (v : Word) : s.writeBytes n a v = { s with mem := (s.writeBytes n a v).mem } := by
  induction n generalizing s a v with
  | zero => rfl
  | succ n ih =>
    rw [State.writeBytes, writeByte_of_buffer (h a le_rfl (by omega)),
      ih _ fun x hlo hhi => h x (by omega) (by omega)]

/-- The bytes of a word after its first one are the bytes of the word shifted by one byte. -/
theorem extractLsb'_shiftRight_eight (v : Word) (k : Nat) :
    (v >>> 8).extractLsb' (8 * k) 8 = v.extractLsb' (8 * (k + 1)) 8 := by
  ext i hi
  simp only [BitVec.getElem_extractLsb', BitVec.getLsbD_ushiftRight]
  congr 1
  omega

/-- A write in a buffer stores the bytes of the word little-endian and no other byte (R74). -/
theorem read_writeBytes_of_buffer {s : State} (hwf : s.mem.wf = true) {n a : Nat}
    (h : ∀ x, a ≤ x → x < a + n → byteTarget x = .buffer) (v : Word) (x : Nat) :
    (s.writeBytes n a v).mem.read x =
      if a ≤ x ∧ x < a + n then v.extractLsb' (8 * (x - a)) 8 else s.mem.read x := by
  induction n generalizing s a v with
  | zero => rw [if_neg (by omega)]; rfl
  | succ n ih =>
    rw [State.writeBytes, writeByte_of_buffer (h a le_rfl (by omega)),
      ih (wf_write hwf _ _) fun x hlo hhi => h x (by omega) (by omega), read_write hwf]
    by_cases hfirst : x = a
    · subst hfirst
      rw [if_neg (by omega), if_pos rfl, if_pos (by omega), Nat.sub_self, Nat.mul_zero,
        BitVec.setWidth_eq_extractLsb' (by decide)]
    · rw [if_neg hfirst]
      by_cases hin : a + 1 ≤ x ∧ x < a + 1 + n
      · rw [if_pos hin, if_pos (by omega), extractLsb'_shiftRight_eight]
        congr 2
        omega
      · rw [if_neg hin, if_neg (by omega)]

/-- Digit `k` in base 256 of what is read is the byte at the `k`-th address (R74). -/
theorem readBytes_digit (s : State) (n a k : Nat) :
    (s.readBytes n a).1 / 256 ^ k % 256 = if k < n then (s.readByte (a + k)).1.toNat else 0 := by
  induction n generalizing a k with
  | zero => simp [State.readBytes]
  | succ n ih =>
    have hfirst := (s.readByte a).1.isLt
    cases k with
    | zero =>
      simp only [State.readBytes, Nat.pow_zero, Nat.div_one, Nat.add_zero, if_pos (Nat.succ_pos n)]
      omega
    | succ k =>
      have hrest : ((s.readByte a).1.toNat + 256 * (s.readBytes n (a + 1)).1) / 256 = (s.readBytes n (a + 1)).1 := by
        omega
      rw [State.readBytes, Nat.pow_succ', ← Nat.div_div_eq_div_mul, hrest, ih, Nat.add_assoc, Nat.add_comm 1 k]
      simp

theorem extractLsb'_readBytes (s : State) {n : Nat} (hn : n ≤ 4) (a k : Nat) :
    (BitVec.ofNat 32 (s.readBytes n a).1).extractLsb' (8 * k) 8 =
      if k < n then (s.readByte (a + k)).1 else 0#8 := by
  have hlt : (s.readBytes n a).1 < 2 ^ 32 :=
    (readBytes_lt s n a).trans_le (Nat.pow_le_pow_right (by decide) (by omega))
  apply BitVec.eq_of_toNat_eq
  rw [BitVec.extractLsb'_toNat, BitVec.toNat_ofNat, Nat.mod_eq_of_lt hlt, Nat.shiftRight_eq_div_pow, Nat.pow_mul]
  rw [show 2 ^ 8 = 256 from rfl, readBytes_digit]
  split <;> rfl

/-- What is read is the low bytes of `v` when each byte read is the byte of `v`. -/
theorem readBytes_eq_mod (s : State) {n a : Nat} {v : Word}
    (h : ∀ k < n, (s.readByte (a + k)).1 = v.extractLsb' (8 * k) 8) :
    (s.readBytes n a).1 = v.toNat % 2 ^ (8 * n) := by
  induction n generalizing a v with
  | zero => simp [State.readBytes, Nat.mod_one]
  | succ n ih =>
    have hfirst : (s.readByte a).1.toNat = v.toNat % 256 := by
      rw [show s.readByte a = s.readByte (a + 0) from rfl, h 0 (Nat.succ_pos n)]
      simp
    have hrest : (s.readBytes n (a + 1)).1 = v.toNat / 256 % 2 ^ (8 * n) := by
      rw [ih (v := v >>> 8) fun k hk => ?_, BitVec.toNat_ushiftRight, Nat.shiftRight_eq_div_pow]
      rw [Nat.add_assoc, Nat.add_comm 1, h (k + 1) (Nat.succ_lt_succ hk), extractLsb'_shiftRight_eight]
    rw [State.readBytes, Nat.mul_succ, Nat.add_comm (8 * n), Nat.pow_add, Nat.mod_mul]
    simp only [hfirst, hrest]

/-- The low `i` bits of a word are the word masked. -/
theorem ofNat_mod_two_pow_eq_and (v : Word) (i : Nat) :
    BitVec.ofNat 32 (v.toNat % 2 ^ i) = v &&& BitVec.ofNat 32 (2 ^ i - 1) := by
  rw [← Nat.and_two_pow_sub_one_eq_mod, BitVec.ofNat_and, BitVec.ofNat_toNat, BitVec.setWidth_eq]

/-! ### Whole accesses -/

theorem BusWidth.bytes_ne_zero (w : BusWidth) : w.bytes ≠ 0 := by
  cases w <;> decide

theorem BusWidth.bytes_le_four (w : BusWidth) : w.bytes ≤ 4 := by
  cases w <;> decide

/-- An aligned access whose bytes name nothing is refused, blocked or not. -/
theorem refused_of_nothing {w : BusWidth} {addr : BusAddr} (halign : addr.toNat % w.bytes = 0)
    (hhigh : 0x1000 ≤ addr.toNat)
    (h : ∀ x, addr.toNat ≤ x → x < addr.toNat + w.bytes → byteTarget x = .nothing) (s : State) :
    Refused s w addr := by
  refine ⟨?_, fun v => ?_⟩
  · by_cases hallowed : readAllowed s addr = true
    · rw [readValue_eq_readBytes hallowed halign hhigh, readBytes_of_nothing s w.bytes_ne_zero h]
    · exact readValue_of_blocked hallowed w
  · by_cases hallowed : writeAllowed s addr = true
    · rw [busWrite_eq_writeBytes hallowed halign hhigh,
        writeBytes_of_readOnly s w.bytes_ne_zero fun x hlo hhi => .inl (h x hlo hhi)]
    · exact busWrite_of_blocked hallowed w v

/-- No register stands at an address that equals no offset of R21. -/
theorem regAt_eq_none {a : Nat} (h : Reg.all.any (fun r => r.offset == a) = false) : regAt a = none := by
  rw [regAt, List.find?_eq_none]
  exact List.any_eq_false.1 h

theorem refused_of_unmapped {w : BusWidth} {addr : BusAddr} (h : mappedAddr addr.toNat = false) (s : State) :
    Refused s w addr := by
  rw [mappedAddr, Bool.or_eq_false_iff] at h
  obtain ⟨hreg, hranges⟩ := h
  by_cases hrange : addr.toNat < 0x1000
  · exact refused_of_inRegRange hrange (.inr (regAt_eq_none hreg)) s
  by_cases halign : addr.toNat % w.bytes = 0
  · refine refused_of_nothing halign (Nat.le_of_not_lt hrange) (fun x hlo hhi => byteTarget_of_unmapped ?_) s
    rw [← hranges]
    exact inRanges_of_aligned (by decide) halign hlo hhi
  · exact refused_of_misaligned halign s

/-- Settles O17: each of the three kinds of address is refused, idle or busy. -/
theorem badAddressesAreAccessErrors : Obligations.BadAddressesAreAccessErrors := by
  intro s w addr v h
  have hrefused : Refused s w addr := by
    obtain halign | ⟨hrange, hw⟩ | hmap := h
    · exact refused_of_misaligned halign s
    · exact refused_of_inRegRange hrange (.inl hw) s
    · exact refused_of_unmapped hmap s
  exact ⟨hrefused.busRead, hrefused.busWrite v⟩

/-- Settles O18: every byte of the access is a table byte, which takes no write and reads as its constant. -/
theorem tablesAreReadOnly : Obligations.TablesAreReadOnly := by
  intro s w addr v hidle halign htable
  have hhigh : 0x1000 ≤ addr.toNat := le_of_inRanges (by decide) htable
  have htarget (x : Nat) (hlo : addr.toNat ≤ x) (hhi : x < addr.toNat + w.bytes) :
      byteTarget x = .rom (tableByte x) :=
    byteTarget_of_table ((inRanges_of_aligned (by decide) halign hlo hhi).trans htable)
  refine ⟨?_, BitVec.ofNat 32 (s.readBytes w.bytes addr.toNat).1, busRead_of_served ?_, fun k _ => ?_⟩
  · rw [busWrite_eq_writeBytes (writeAllowed_of_idle hidle _) halign hhigh,
      writeBytes_of_readOnly s w.bytes_ne_zero fun x hlo hhi => .inr ⟨_, htarget x hlo hhi⟩]
    rfl
  · rw [readValue_eq_readBytes (readAllowed_of_idle hidle _) halign hhigh,
      readBytes_served s fun x hlo hhi => by rw [readByte_of_rom (htarget x hlo hhi)]]
  · rw [extractLsb'_readBytes s w.bytes_le_four]
    split
    · rw [readByte_of_rom (htarget _ (by omega) (by omega))]
    · rfl

/-- Settles O19: every byte of the access is a buffer byte; what is read back is the low bytes of the word. -/
theorem bufferWritesReadBack : Obligations.BufferWritesReadBack := by
  intro s w addr v hwf hidle halign hbuffer
  have hhigh : 0x1000 ≤ addr.toNat := le_of_inRanges (by decide) hbuffer
  have htarget (x : Nat) (hlo : addr.toNat ≤ x) (hhi : x < addr.toNat + w.bytes) : byteTarget x = .buffer :=
    byteTarget_of_buffer ((inRanges_of_aligned (by decide) halign hlo hhi).trans hbuffer)
  have hread := read_writeBytes_of_buffer hwf htarget v
  have hstored : ∀ k < w.bytes, (s.writeBytes w.bytes addr.toNat v).mem.read (addr.toNat + k) =
      v.extractLsb' (8 * k) 8 := fun k hk => by
    rw [hread, if_pos (by omega), Nat.add_sub_cancel_left]
  refine ⟨s.writeBytes w.bytes addr.toNat v, busWrite_eq_writeBytes (writeAllowed_of_idle hidle _) halign hhigh v,
    writeBytes_of_buffer s htarget v, hstored, fun x hx => (hread x).trans (if_neg hx), busRead_of_served ?_⟩
  have hidle' : (s.writeBytes w.bytes addr.toNat v).pending = none := (writeBytes_pending ..).trans hidle
  rw [readValue_eq_readBytes (readAllowed_of_idle hidle' _) halign hhigh,
    readBytes_served _ fun x hlo hhi => by rw [readByte_of_buffer (htarget x hlo hhi)],
    readBytes_eq_mod _ fun k hk => by
      rw [readByte_of_buffer (htarget _ (by omega) (by omega))]
      exact hstored k hk,
    ofNat_mod_two_pow_eq_and]

end Sys2Proof.Machine
end

section
/-! The two views of the matrix, module by module. -/

namespace Sys2Proof.Machine

/-! ### Addresses of the views (R73) -/

/-- No buffer reaches into the views. -/
theorem not_inRanges_bufferRanges {a : Nat} (h : matrixBase ≤ a) : ¬inRanges bufferRanges a = true := by
  rw [matrixBase] at h
  simp [bufferRanges]
  omega

theorem rawAddr_toNat {r c : Nat} (hr : r < 256) (hc : c < 256) : (rawAddr r c).toNat = moduleAddr r c := by
  rw [rawAddr, BitVec.toNat_ofNat, moduleAddr, matrixBase]
  omega

theorem colorAddr_toNat {r c : Nat} (hr : r < 256) (hc : c < 256) :
    (colorAddr r c).toNat = 0x20000 + 256 * r + c := by
  rw [colorAddr, BitVec.toNat_ofNat]
  omega

theorem byteTarget_rawAddr {r c : Nat} (hr : r < 256) (hc : c < 256) :
    byteTarget (rawAddr r c).toNat = if r < dMax ∧ c < dMax then .raw r c else .nothing := by
  have hbase := matrixBase_le_moduleAddr r c
  have hrow : (moduleAddr r c - 0x10000) / 256 = r := moduleAddr_row hc
  have hcol : (moduleAddr r c - 0x10000) % 256 = c := moduleAddr_col hc
  rw [rawAddr_toNat hr hc, byteTarget, any_holds_eq_inRanges, if_neg (not_inRanges_bufferRanges hbase),
    if_pos (by rw [moduleAddr, matrixBase]; omega), hrow, hcol]

theorem byteTarget_colorAddr {r c : Nat} (hr : r < 256) (hc : c < 256) :
    byteTarget (colorAddr r c).toNat = if r < dMax ∧ c < dMax then .color r c else .nothing := by
  have hbase : matrixBase ≤ 0x20000 + 256 * r + c := by rw [matrixBase]; omega
  have hrow : (0x20000 + 256 * r + c - 0x20000) / 256 = r := by omega
  have hcol : (0x20000 + 256 * r + c - 0x20000) % 256 = c := by omega
  rw [colorAddr_toNat hr hc, byteTarget, any_holds_eq_inRanges, if_neg (not_inRanges_bufferRanges hbase),
    if_neg (by omega), if_pos (by omega), hrow, hcol]

/-! ### Byte accesses -/

theorem readValue_w8 {s : State} {addr : BusAddr} (hidle : s.pending = none) (hhigh : 0x1000 ≤ addr.toNat) :
    s.readValue .w8 addr = ((s.readByte addr.toNat).1.setWidth 32, (s.readByte addr.toNat).2) := by
  rw [readValue_eq_readBytes (readAllowed_of_idle hidle _) (Nat.mod_one _) hhigh]
  simp [BusWidth.bytes, State.readBytes, BitVec.ofNat_toNat]

theorem busWrite_w8 {s : State} {addr : BusAddr} (hidle : s.pending = none) (hhigh : 0x1000 ≤ addr.toNat)
    (v : Word) : s.busWrite .w8 addr v = s.writeByte addr.toNat (v.setWidth 8) :=
  busWrite_eq_writeBytes (writeAllowed_of_idle hidle _) (Nat.mod_one _) hhigh v

/-- A byte access to an address that names nothing is refused. -/
theorem refused_w8 {addr : BusAddr} (h : byteTarget addr.toNat = .nothing) (hhigh : 0x1000 ≤ addr.toNat) (s : State) :
    Refused s .w8 addr :=
  refused_of_nothing (w := .w8) (Nat.mod_one _) hhigh
    (fun _ hlo hhi => (Nat.le_antisymm hlo (Nat.le_of_lt_succ hhi)) ▸ h) s

/-- A module written in the raw view holds what was written (R73). -/
theorem moduleAt_writeRaw {s : State} (hwf : s.mem.wf = true) (r c : Nat) (m : BitVec 3) :
    ({ s with mem := s.mem.write (moduleAddr r c) (moduleByte m) } : State).moduleAt r c = m := by
  rw [State.moduleAt, read_write hwf, if_pos rfl, setWidth_moduleByte]

/-- Settles O21: a byte of a view is its module where the module is backed, and nothing elsewhere. -/
theorem matrixViews : Obligations.MatrixViews := by
  intro s r c v hwf hidle hr hc
  have hraw := byteTarget_rawAddr hr hc
  have hcolor := byteTarget_colorAddr hr hc
  have hrawHigh : 0x1000 ≤ (rawAddr r c).toNat := by rw [rawAddr_toNat hr hc, moduleAddr, matrixBase]; omega
  have hcolorHigh : 0x1000 ≤ (colorAddr r c).toNat := by rw [colorAddr_toNat hr hc]; omega
  refine ⟨fun hrIn hcIn => ?_, fun hout => ?_⟩
  · rw [if_pos ⟨hrIn, hcIn⟩] at hraw hcolor
    refine ⟨?_, ?_, ⟨_, (busWrite_w8 hidle hrawHigh v).trans (writeByte_of_raw hraw s _), rfl, ?_, ?_⟩,
      ⟨_, (busWrite_w8 hidle hcolorHigh v).trans (writeByte_of_color hcolor s _), rfl, ?_, ?_, ?_, ?_⟩⟩
    · rw [readValue_w8 hidle hrawHigh, readByte_of_raw hraw]
      simp [moduleByte]
    · rw [readValue_w8 hidle hcolorHigh, readByte_of_color hcolor]
      simp
    · rw [moduleAt_writeRaw hwf]
      simp
    · intro x hx
      exact (read_write hwf _ _ x).trans (if_neg (by omega))
    · simp [State.dark, moduleAt_setColor hwf, hc]
    · simp [moduleAt_setColor hwf, hc]
    · simp [moduleAt_setColor hwf, hc]
    · intro x hx
      exact (read_setColor hwf r c _ x).trans (if_neg (by omega))
  · have hunbacked : ¬(r < dMax ∧ c < dMax) := by rw [dMax]; omega
    rw [if_neg hunbacked] at hraw hcolor
    have hrawRefused := refused_w8 hraw hrawHigh s
    have hcolorRefused := refused_w8 hcolor hcolorHigh s
    exact ⟨hrawRefused.1, hcolorRefused.1, hrawRefused.busWrite v, hcolorRefused.busWrite v⟩

end Sys2Proof.Machine
end

section
/-! Command words and commands: decoding as the inverse of encoding, the opcode map and the assembler. -/

namespace Sys2Proof.Machine

/-! ### Words by their fields (R91) -/

theorem word_ext_fields {w w' : Word} (hrsv : rsvField w = rsvField w') (harg : argField w = argField w')
    (hopc : opcField w = opcField w') : w = w' := by
  have hbit {lo len : Nat} (h : w.extractLsb' lo len = w'.extractLsb' lo len) {k : Nat} (hk : k < len) :
      w.getLsbD (lo + k) = w'.getLsbD (lo + k) := by
    simpa [BitVec.getLsbD_extractLsb', hk] using congrArg (BitVec.getLsbD · k) h
  refine BitVec.eq_of_getLsbD_eq fun i hi => ?_
  by_cases h16 : 16 ≤ i
  · obtain ⟨k, rfl⟩ := Nat.exists_eq_add_of_le h16
    exact hbit hrsv (by omega)
  by_cases h8 : 8 ≤ i
  · obtain ⟨k, rfl⟩ := Nat.exists_eq_add_of_le h8
    exact hbit harg (by omega)
  · exact Nat.zero_add i ▸ hbit hopc (by omega)

/-! ### Plain commands and `MX_MASK` (R92, R100) -/

theorem mem_plainCommands_or_mxMask (i : Instr) : i ∈ plainCommands ∨ ∃ arg, i = .mxMask arg := by
  cases i with
  | mxMask arg => exact .inr ⟨arg, rfl⟩
  | _ => exact .inl (by decide)

/-- A plain command's word has its opcode alone. -/
theorem fields_encode_of_plain : ∀ i ∈ plainCommands,
    WellFormed i ∧ rsvField (encode i) = 0#16 ∧ argField (encode i) = 0#8 := by decide

theorem decode_encode_of_plain : ∀ i ∈ plainCommands, decode (encode i) = .ok i := by decide

theorem opcField_encode_mxMask : ∀ arg : BitVec 8, opcField (encode (.mxMask arg)) = 0x32#8 := by decide +kernel

theorem decode_encode_mxMask : ∀ arg : BitVec 8, maskArgOk arg = true →
    decode (encode (.mxMask arg)) = .ok (.mxMask arg) := by decide +kernel

/-- A legal argument is 0 on a plain command. -/
theorem argLegal_of_plain {i : Instr} (hi : i ∈ plainCommands) (arg : BitVec 8) : argLegal i arg = (arg == 0#8) := by
  cases i with
  | mxMask _ => simp [plainCommands] at hi
  | _ => rfl

/-! ### Decoding -/

/-- Only the opcode of `MX_MASK` passes the argument on. -/
theorem opcodeInstr_of_ne {opc : BitVec 8} (h : opc ≠ 0x32#8) (arg : BitVec 8) :
    opcodeInstr opc arg = opcodeInstr opc 0#8 := by
  simp only [opcodeInstr, if_neg h]

theorem plain_of_opcodeInstr : ∀ opc : BitVec 8, opc ≠ 0x32#8 → ∀ i ∈ opcodeInstr opc 0#8,
    i ∈ plainCommands ∧ opcField (encode i) = opc := by decide +kernel

/-- The opcode that selects a command stands in the command's word, and so does a legal argument. -/
theorem fields_encode_of_opcodeInstr {opc arg : BitVec 8} {i : Instr} (h : opcodeInstr opc arg = some i)
    (hlegal : argLegal i arg = true) : WellFormed i ∧ rsvField (encode i) = 0#16 ∧ argField (encode i) = arg ∧
      opcField (encode i) = opc := by
  by_cases hopc : opc = 0x32#8
  · subst hopc
    obtain rfl : Instr.mxMask arg = i := Option.some.inj h
    obtain ⟨hrsv, harg⟩ := Sys2Proof.Laws.EncodedFields.mask_fields arg
    exact ⟨hlegal, hrsv, harg, opcField_encode_mxMask arg⟩
  · rw [opcodeInstr_of_ne hopc] at h
    obtain ⟨hi, hcode⟩ := plain_of_opcodeInstr opc hopc i h
    obtain ⟨hwf, hrsv, harg⟩ := fields_encode_of_plain i hi
    rw [argLegal_of_plain hi, beq_iff_eq] at hlegal
    exact ⟨hwf, hrsv, harg.trans hlegal.symm, hcode⟩

/-- What a legal word is made of (R94, R95). -/
theorem decode_eq_ok {w : Word} {i : Instr} (h : decode w = .ok i) : rsvField w = 0#16 ∧
    opcodeInstr (opcField w) (argField w) = some i ∧ argLegal i (argField w) = true := by
  unfold decode at h
  split at h
  · exact nomatch h
  · next hrsv =>
    split at h
    · exact nomatch h
    · next hinstr =>
      split at h
      · next hlegal =>
        cases h
        exact ⟨not_not.1 hrsv, hinstr, hlegal⟩
      · exact nomatch h

/-- A word is legal exactly when it is the word of a well-formed command, the one it decodes to. -/
theorem decode_eq_ok_iff {w : Word} {i : Instr} : decode w = .ok i ↔ WellFormed i ∧ encode i = w := by
  constructor
  · intro h
    obtain ⟨hrsv, hinstr, hlegal⟩ := decode_eq_ok h
    obtain ⟨hwf, hrsv', harg, hopc⟩ := fields_encode_of_opcodeInstr hinstr hlegal
    exact ⟨hwf, word_ext_fields (hrsv'.trans hrsv.symm) harg hopc⟩
  · rintro ⟨hwf, rfl⟩
    obtain hi | ⟨arg, rfl⟩ := mem_plainCommands_or_mxMask i
    · exact decode_encode_of_plain i hi
    · exact decode_encode_mxMask arg hwf

/-- Settles O7: both directions of `decode_eq_ok_iff`. -/
theorem decodeInvertsEncode : Obligations.DecodeInvertsEncode :=
  ⟨fun _ hwf => decode_eq_ok_iff.2 ⟨hwf, rfl⟩, fun _ _ h => (decode_eq_ok_iff.1 h).2⟩

/-- Settles O8: the bytes are joined to a word, whose fields decode. -/
theorem writtenWordsDecode : Obligations.WrittenWordsDecode := by
  unfold Obligations.WrittenWordsDecode
  decide

/-! ### The opcode map (R94) -/

/-- The row of `MX_MASK`, whose mask leaves the index free. -/
def mxMaskRow : OpcodeRow := ⟨"MX_MASK", 0x00000032#32, 0xFFFFF8FF#32⟩

/-- The row of the opcode map that a command belongs to. -/
def rowOf : Instr → OpcodeRow
  | .mxMask _ => mxMaskRow
  | i => ⟨i.mnemonic, encode i, 0xFFFFFFFF#32⟩

theorem rowOf_of_plain {i : Instr} (hi : i ∈ plainCommands) : rowOf i = ⟨i.mnemonic, encode i, 0xFFFFFFFF#32⟩ := by
  cases i with
  | mxMask _ => simp [plainCommands] at hi
  | _ => rfl

@[simp] theorem rowOf_mnemonic (i : Instr) : (rowOf i).mnemonic = i.mnemonic := by
  cases i <;> rfl

theorem rowOf_mem_opcodeMap (i : Instr) : rowOf i ∈ opcodeMap := by
  have hplain : ∀ i ∈ plainCommands, rowOf i ∈ opcodeMap := by decide
  obtain hi | ⟨arg, rfl⟩ := mem_plainCommands_or_mxMask i
  · exact hplain i hi
  · exact (by decide : mxMaskRow ∈ opcodeMap)

/-- The map has no rows but those of the commands. -/
theorem eq_rowOf_of_mem : ∀ row ∈ opcodeMap, row = mxMaskRow ∨ ∃ i ∈ plainCommands, row = rowOf i := by decide

theorem fits_rowOf_plain {i : Instr} (hi : i ∈ plainCommands) {w : Word} :
    (rowOf i).fits w = true ↔ encode i = w := by
  rw [rowOf_of_plain hi, OpcodeRow.fits, beq_iff_eq, eq_comm]
  exact iff_of_eq (congrArg (encode i = ·) BitVec.and_allOnes)

theorem fits_encode_mxMask : ∀ arg : BitVec 8, maskArgOk arg = true →
    mxMaskRow.fits (encode (.mxMask arg)) = true := by decide +kernel

/-- A field that the mask leaves whole is the one of the pattern. -/
theorem extractLsb'_of_mask {w mask pattern : Word} (h : w &&& mask = pattern) {lo len : Nat}
    (hmask : mask.extractLsb' lo len = BitVec.allOnes len) : w.extractLsb' lo len = pattern.extractLsb' lo len := by
  rw [← h, BitVec.extractLsb'_and, hmask, BitVec.and_allOnes]

/-- `ARG[7:3]` is bits 15:11 of the word. -/
theorem extractLsb'_argField (w : Word) : (argField w).extractLsb' 3 5 = w.extractLsb' 11 5 := by
  ext i hi
  have hin : 3 + i < 8 := by omega
  simp [argField, BitVec.getElem_extractLsb', hin, ← Nat.add_assoc]

/-- A word that fits the row of `MX_MASK` has its opcode, 0 in the reserved field and a mask index. -/
theorem of_fits_mxMaskRow {w : Word} (h : mxMaskRow.fits w = true) :
    maskArgOk (argField w) = true ∧ encode (.mxMask (argField w)) = w := by
  have hmasked : w &&& mxMaskRow.mask = mxMaskRow.pattern := beq_iff_eq.1 h
  have hrsv : rsvField w = 0#16 := extractLsb'_of_mask hmasked (by decide)
  have hopc : opcField w = 0x32#8 := extractLsb'_of_mask hmasked (by decide)
  have hhigh : w.extractLsb' 11 5 = 0#5 := extractLsb'_of_mask hmasked (by decide)
  obtain ⟨hrsv', harg'⟩ := Sys2Proof.Laws.EncodedFields.mask_fields (argField w)
  refine ⟨?_, word_ext_fields (hrsv'.trans hrsv.symm) harg' ((opcField_encode_mxMask _).trans hopc.symm)⟩
  exact beq_iff_eq.2 ((extractLsb'_argField w).trans hhigh)

/-- A word fits a row of the map exactly when it is the word of a well-formed command of that row. -/
theorem fits_iff {row : OpcodeRow} (hrow : row ∈ opcodeMap) {w : Word} :
    row.fits w = true ↔ ∃ i, decode w = .ok i ∧ rowOf i = row := by
  simp only [decode_eq_ok_iff]
  constructor
  · intro hfits
    obtain rfl | ⟨i, hi, rfl⟩ := eq_rowOf_of_mem row hrow
    · exact ⟨.mxMask (argField w), of_fits_mxMaskRow hfits, rfl⟩
    · exact ⟨i, ⟨(fields_encode_of_plain i hi).1, (fits_rowOf_plain hi).1 hfits⟩, rfl⟩
  · rintro ⟨i, ⟨hwf, rfl⟩, rfl⟩
    obtain hi | ⟨arg, rfl⟩ := mem_plainCommands_or_mxMask i
    · exact (fits_rowOf_plain hi).2 rfl
    · exact fits_encode_mxMask arg hwf

/-- Settles O6: a fitting row is the row of the one command the word decodes to. -/
theorem legalWordsAreTheMap : Obligations.LegalWordsAreTheMap := by
  refine ⟨fun w => ⟨?_, ?_⟩, fun w row hrow row' hrow' hfits hfits' => ?_, fun w i hi => ⟨?_, ?_⟩⟩
  · rintro ⟨i, hi⟩
    exact ⟨rowOf i, rowOf_mem_opcodeMap i, (fits_iff (rowOf_mem_opcodeMap i)).2 ⟨i, hi, rfl⟩⟩
  · rintro ⟨row, hrow, hfits⟩
    obtain ⟨i, hi, -⟩ := (fits_iff hrow).1 hfits
    exact ⟨i, hi⟩
  · obtain ⟨i, hi, rfl⟩ := (fits_iff hrow).1 hfits
    obtain ⟨i', hi', rfl⟩ := (fits_iff hrow').1 hfits'
    obtain rfl : i = i' := Except.ok.inj (hi.symm.trans hi')
    rfl
  · exact (decode_eq_ok_iff.1 hi).1
  · intro row hrow hfits
    obtain ⟨i', hi', rfl⟩ := (fits_iff hrow).1 hfits
    obtain rfl : i = i' := Except.ok.inj (hi.symm.trans hi')
    exact rowOf_mnemonic i

/-! ### The assembler (R100) -/

/-- A name is compared by its capitals. -/
theorem sameMnemonic_of_capitals {name : String} {capitals : List Char} (h : name.toList.map Char.toUpper = capitals)
    (mnemonic : String) : sameMnemonic mnemonic name = (mnemonic.toList.map Char.toUpper == capitals) := by
  rw [sameMnemonic, h]

/-- Each plain command is the first, and so the only one, that its mnemonic names. -/
theorem find_mnemonic_of_plain : ∀ i ∈ plainCommands,
    plainCommands.find? (fun j => j.mnemonic.toList.map Char.toUpper == i.mnemonic.toList) = some i := by decide

theorem mnemonic_ne_mxMask_of_plain : ∀ i ∈ plainCommands,
    ("MX_MASK".toList.map Char.toUpper == i.mnemonic.toList) = false := by decide

theorem find_mnemonic_mxMask :
    plainCommands.find? (fun j => j.mnemonic.toList.map Char.toUpper == "MX_MASK".toList) = none := by decide

theorem encode_mxMask_ofNat : ∀ m : Fin 8, encode (.mxMask (BitVec.ofNat 8 m)) =
    0x00000032#32 ||| (BitVec.ofNat 32 m <<< 8) ∧ maskArgOk (BitVec.ofNat 8 m) = true := by decide

/-- Settles O9: `assemble` looks the capitals of the name up, and its word decodes by `decode_eq_ok_iff`. -/
theorem assembledWordsDecode : Obligations.AssembledWordsDecode := by
  refine ⟨fun i hi name hname => ⟨?_, decode_encode_of_plain i hi, fun m => ?_⟩, fun name hname => ?_⟩
  · simp only [assemble, sameMnemonic_of_capitals hname, find_mnemonic_of_plain i hi, Option.map_some]
  · simp only [assemble, sameMnemonic_of_capitals hname, mnemonic_ne_mxMask_of_plain i hi, Bool.false_and,
      Bool.false_eq_true, if_false]
  · have hsame : sameMnemonic "MX_MASK" name = true := (sameMnemonic_of_capitals hname _).trans (by decide)
    refine ⟨?_, fun m hm => ?_, fun m hm => ?_⟩
    · simp only [assemble, sameMnemonic_of_capitals hname, find_mnemonic_mxMask, Option.map_none]
    · obtain ⟨hword, hwf⟩ := encode_mxMask_ofNat ⟨m, Nat.lt_succ_of_le hm⟩
      rw [← hword]
      exact ⟨by simp [assemble, hsame, hm], decode_eq_ok_iff.2 ⟨hwf, rfl⟩⟩
    · simp [assemble, hsame, Nat.not_le.2 hm]

end Sys2Proof.Machine
end

section
/-! The polling loop of `WAIT` (30_encoding.md R102). -/

namespace Sys2Proof.Machine

/-- `BUSY` is bit 0 of `STATUS` (R28, R29). -/
theorem statusWord_and_one_eq_one_iff (s : State) : s.statusWord &&& 1#32 = 1#32 ↔ s.busy = true := by
  have hbusy : s.statusWord.getLsbD 0 = s.busy := getLsbD_statusWord s 0
  rw [← hbusy, BitVec.and_one_eq_setWidth_ofBool_getLsbD]
  cases s.statusWord.getLsbD 0 <;> decide

/-- A label that stands nowhere before names the place after what stands before. -/
theorem labelIndex_append {before rest : List Stmt} {target : Label} (h : .label target ∉ before) :
    labelIndex (before ++ .label target :: rest) target = before.length := by
  have hbefore : before.findIdx (fun stmt => stmt == .label target) = before.length := by
    rw [List.findIdx_eq_length]
    exact fun stmt hstmt => beq_eq_false_iff_ne.2 fun heq => h (heq ▸ hstmt)
  rw [labelIndex, List.findIdx_append, hbefore, if_neg (Nat.lt_irrefl _), List.findIdx_cons, beq_self_eq_true,
    cond_true, Nat.zero_add]

/-- A read of `STATUS` is served, idle or busy (R80). -/
theorem busRead_status (s : State) : s.busRead .w32 statusAddr = { s with readData := s.statusWord } := by
  have haddr : statusAddr = Reg.status.addr := by decide
  rw [haddr, busRead_addr (by simp [readAllowed, Reg.addr, Reg.offset]), State.readReg]

/-- At an `IF32` the host reads the address and goes on at the label or behind the statement (R101). -/
theorem hostTurn_if32 {s : State} {addr : BusAddr} {mask v : Word} {target : Label}
    (h : s.script[s.pos]? = some (.if32 addr mask v target)) :
    s.hostTurn = { s.busRead .w32 addr with
      pos := if (s.busRead .w32 addr).readData &&& mask = v then labelIndex s.script target else s.pos + 1 } := by
  rw [State.hostTurn, h]

/-- Settles O22: the statement is the `IF32` of the loop, its read gives `STATUS`, and its label stands right
before it. -/
theorem waitPollsBusy : Obligations.WaitPollsBusy := by
  intro s k before after hscript hfresh hpos
  have hloop : s.script =
      before ++ .label (.wait k) :: .if32 statusAddr 1#32 1#32 (.wait k) :: after := by
    rw [hscript, waitStmts, List.append_assoc]
    rfl
  have hstmt : s.script[s.pos]? = some (.if32 statusAddr 1#32 1#32 (.wait k)) := by
    rw [hloop, hpos, List.getElem?_append_right (Nat.le_add_right _ 1), Nat.add_sub_cancel_left]
    rfl
  have hlabel : labelIndex s.script (.wait k) = before.length := by
    rw [hloop]
    exact labelIndex_append hfresh
  rw [hostTurn_if32 hstmt, busRead_status, hlabel, hpos]
  simp only [statusWord_and_one_eq_one_iff, State.busy, State.readReg]

end Sys2Proof.Machine
end

section
/-! Two runs of a command side by side, in one relation: what the command writes (R99), and that what it writes
depends on its inputs only (R98). One run beside itself gives the frame. -/

namespace Sys2Proof.Machine

/-! ### Values kept by both runs, or written alike by both -/

/-- Two runs lead from `x` and `x'` to `y` and `y'`: both keep their value, or, as `p` allows, both write one value. -/
def KeptOrAlike {α : Type} (p : Prop) (x x' y y' : α) : Prop := (y = x ∧ y' = x') ∨ (p ∧ y' = y)

section
variable {α β : Type} {p q : Prop} {x x' y y' z z' : α}

theorem KeptOrAlike.kept : KeptOrAlike p x x' x x' := .inl ⟨rfl, rfl⟩

theorem KeptOrAlike.alike (hp : p) : KeptOrAlike p x x' y y := .inr ⟨hp, rfl⟩

theorem KeptOrAlike.trans (h : KeptOrAlike p x x' y y') (h' : KeptOrAlike p y y' z z') : KeptOrAlike p x x' z z' := by
  obtain ⟨rfl, rfl⟩ | halike := h'
  · exact h
  · exact .inr halike

theorem KeptOrAlike.mono (h : KeptOrAlike p x x' y y') (hpq : p → q) : KeptOrAlike q x x' y y' :=
  h.imp_right (And.imp_left hpq)

/-- What the runs agreed on before they agree on after. -/
theorem KeptOrAlike.agree (h : KeptOrAlike p x x' y y') (f : α → β) (hf : f x' = f x) : f y' = f y := by
  obtain ⟨rfl, rfl⟩ | ⟨-, rfl⟩ := h
  · exact hf
  · rfl

theorem KeptOrAlike.kept_of_not (h : KeptOrAlike p x x' y y') (hp : ¬p) : y = x :=
  h.elim And.left fun halike => absurd halike.1 hp

theorem KeptOrAlike.forget (h : KeptOrAlike p x x' y y') : (y = x ∧ y' = x') ∨ y' = y :=
  h.imp_right And.right

end

/-! ### The effect of a command's writes on two runs -/

/-- The command's row of R99 lists the RAM byte at `a` as written. -/
def WritesAt (i : Instr) (a : Nat) : Prop :=
  (∃ b ∈ bufWrites i, b.holds a = true) ∨ (writesMatrix i = true ∧ isModuleAddr a = true)

/-- From `s` and `s'`, whatever differs after the command's writes led to `t` and `t'` was written alike, where the
command's row of R99 allows it. The completion fields are no part of this. -/
structure SameEffect (i : Instr) (s s' t t' : State) : Prop where
  regs : ∀ r, r ≠ .status →
    KeptOrAlike (r ∈ regWrites i) (s.readReg r) (s'.readReg r) (t.readReg r) (t'.readReg r)
  accErr : t.regs.accErr = s.regs.accErr
  clean : KeptOrAlike (writesClean i = true) s.regs.clean s'.regs.clean t.regs.clean t'.regs.clean
  ram : ∀ a, KeptOrAlike (WritesAt i a) (s.mem.read a) (s'.mem.read a) (t.mem.read a) (t'.mem.read a)

section
variable {i : Instr} {s s' t t' u u' : State}

theorem SameEffect.refl : SameEffect i s s' s s' := ⟨fun _ _ => .kept, rfl, .kept, fun _ => .kept⟩

theorem SameEffect.trans (h : SameEffect i s s' t t') (h' : SameEffect i t t' u u') : SameEffect i s s' u u' :=
  ⟨fun r hr => (h.regs r hr).trans (h'.regs r hr), h'.accErr.trans h.accErr, h.clean.trans h'.clean,
    fun a => (h.ram a).trans (h'.ram a)⟩

/-- Writes to RAM have the same effect if every byte is kept or written alike. -/
theorem SameEffect.of_ram (hregs : t.regs = s.regs) (hregs' : t'.regs = s'.regs) (hpending : t.pending = s.pending)
    (hpending' : t'.pending = s'.pending)
    (hram : ∀ a, KeptOrAlike (WritesAt i a) (s.mem.read a) (s'.mem.read a) (t.mem.read a) (t'.mem.read a)) :
    SameEffect i s s' t t' := by
  refine ⟨fun r _ => .inl ⟨readReg_congr hregs hpending r, readReg_congr hregs' hpending' r⟩, ?_,
    .inl ⟨?_, ?_⟩, hram⟩
  · rw [hregs]
  · rw [hregs]
  · rw [hregs']

/-- Modules that agreed before agree after. -/
theorem SameEffect.moduleAt (h : SameEffect i s s' t t') {r c : Nat} (hmodule : s'.moduleAt r c = s.moduleAt r c) :
    t'.moduleAt r c = t.moduleAt r c :=
  (h.ram _).agree (fun v => v.setWidth 3) hmodule

theorem readReg_complete (s : State) (c : ErrCode) (u : UncReason) {r : Reg} (hr : r ≠ .status) :
    (s.complete c u).readReg r = s.readReg r := by
  cases r with
  | status => exact absurd rfl hr
  | _ => rfl

/-- Completion writes no field that the relation speaks of. -/
theorem SameEffect.complete (h : SameEffect i s s' t t') (c : ErrCode) (u : UncReason) :
    SameEffect i s s' (t.complete c u) (t'.complete c u) := by
  refine ⟨fun r hr => ?_, h.accErr, h.clean, h.ram⟩
  rw [readReg_complete t c u hr, readReg_complete t' c u hr]
  exact h.regs r hr

end

/-! ### Register writes

One value written to one field, or to one group of fields, by both runs: the registers that show it are alike, every
other register is kept. -/

section
variable {i : Instr} (s s' : State)

theorem sameEffect_setRes (hi : .res ∈ regWrites i) (v : Byte) : SameEffect i s s' (s.setRes v) (s'.setRes v) := by
  refine ⟨fun r hr => ?_, rfl, .kept, fun _ => .kept⟩
  cases r with
  | status => exact absurd rfl hr
  | res => exact .alike hi
  | _ => exact .kept

theorem sameEffect_setLenR (hi : .lenR ∈ regWrites i) (n : BitVec 10) : SameEffect i s s'
    { s with regs := { s.regs with lenR := n } } { s' with regs := { s'.regs with lenR := n } } := by
  refine ⟨fun r hr => ?_, rfl, .kept, fun _ => .kept⟩
  cases r with
  | status => exact absurd rfl hr
  | lenR => exact .alike hi
  | _ => exact .kept

theorem sameEffect_setClean (hi : writesClean i = true) (clean : Bool) : SameEffect i s s'
    { s with regs := { s.regs with clean := clean } } { s' with regs := { s'.regs with clean := clean } } := by
  refine ⟨fun r hr => ?_, rfl, .alike hi, fun _ => .kept⟩
  cases r with
  | status => exact absurd rfl hr
  | _ => exact .kept

theorem sameEffect_setRsL (hi : .rsL ∈ regWrites i) (l : BitVec 7) : SameEffect i s s'
    { s with regs := { s.regs with rsL := l } } { s' with regs := { s'.regs with rsL := l } } := by
  refine ⟨fun r hr => ?_, rfl, .kept, fun _ => .kept⟩
  cases r with
  | status => exact absurd rfl hr
  | rsL => exact .alike hi
  | _ => exact .kept

theorem sameEffect_setNroots (hi : .nroots ∈ regWrites i) (n : BitVec 9) : SameEffect i s s'
    { s with regs := { s.regs with nroots := n } } { s' with regs := { s'.regs with nroots := n } } := by
  refine ⟨fun r hr => ?_, rfl, .kept, fun _ => .kept⟩
  cases r with
  | status => exact absurd rfl hr
  | nroots => exact .alike hi
  | _ => exact .kept

theorem sameEffect_setNerr (hi : .nerr ∈ regWrites i) (n : BitVec 9) : SameEffect i s s'
    { s with regs := { s.regs with nerr := n } } { s' with regs := { s'.regs with nerr := n } } := by
  refine ⟨fun r hr => ?_, rfl, .kept, fun _ => .kept⟩
  cases r with
  | status => exact absurd rfl hr
  | nerr => exact .alike hi
  | _ => exact .kept

theorem sameEffect_setMatrix (hver : .mxVer ∈ regWrites i) (hdata : .ndata ∈ regWrites i) (v : BitVec 6)
    (n : BitVec 15) : SameEffect i s s'
    { s with regs := { s.regs with mxVer := v, ndata := n } }
    { s' with regs := { s'.regs with mxVer := v, ndata := n } } := by
  refine ⟨fun r hr => ?_, rfl, .kept, fun _ => .kept⟩
  cases r with
  | status => exact absurd rfl hr
  | mxVer => exact .alike hver
  | ndata => exact .alike hdata
  | _ => exact .kept

theorem sameEffect_setCwLen (hi : .cwLen ∈ regWrites i) (n : BitVec 12) : SameEffect i s s'
    { s with regs := { s.regs with cwLen := n } } { s' with regs := { s'.regs with cwLen := n } } := by
  refine ⟨fun r hr => ?_, rfl, .kept, fun _ => .kept⟩
  cases r with
  | status => exact absurd rfl hr
  | cwLen => exact .alike hi
  | _ => exact .kept

theorem sameEffect_setFmtWord (hi : .fmtWord ∈ regWrites i) (f : BitVec 15) : SameEffect i s s'
    { s with regs := { s.regs with fmtWord := f } } { s' with regs := { s'.regs with fmtWord := f } } := by
  refine ⟨fun r hr => ?_, rfl, .kept, fun _ => .kept⟩
  cases r with
  | status => exact absurd rfl hr
  | fmtWord => exact .alike hi
  | _ => exact .kept

theorem sameEffect_setMask (hi : .mask ∈ regWrites i) (m : BitVec 3) : SameEffect i s s'
    { s with regs := { s.regs with mask := m } } { s' with regs := { s'.regs with mask := m } } := by
  refine ⟨fun r hr => ?_, rfl, .kept, fun _ => .kept⟩
  cases r with
  | status => exact absurd rfl hr
  | mask => exact .alike hi
  | _ => exact .kept

theorem sameEffect_setPenalty (hi : ∀ r ∈ penaltyRegs, r ∈ regWrites i) (p : Penalty) :
    SameEffect i s s' (s.setPenalty p) (s'.setPenalty p) := by
  refine ⟨fun r hr => ?_, rfl, .kept, fun _ => .kept⟩
  cases r with
  | status => exact absurd rfl hr
  | penN1 | penN2 | penN3 | penN4 | penTotal => exact .alike (hi _ (by decide))
  | _ => exact .kept

theorem sameEffect_setPens (hi : ∀ m, .pen m ∈ regWrites i) (pens : List Penalty) :
    SameEffect i s s' (s.setPens pens) (s'.setPens pens) := by
  refine ⟨fun r hr => ?_, rfl, .kept, fun _ => .kept⟩
  cases r with
  | status => exact absurd rfl hr
  | pen m => exact .alike (hi m)
  | _ => exact .kept

theorem sameEffect_setPixel (hx : .xfPx ∈ regWrites i) (hy : .xfPy ∈ regWrites i) (px py : BitVec 32) :
    SameEffect i s s'
    { s with regs := { s.regs with xfPx := px, xfPy := py } }
    { s' with regs := { s'.regs with xfPx := px, xfPy := py } } := by
  refine ⟨fun r hr => ?_, rfl, .kept, fun _ => .kept⟩
  cases r with
  | status => exact absurd rfl hr
  | xfPx => exact .alike hx
  | xfPy => exact .alike hy
  | _ => exact .kept

end

/-! ### RAM writes -/

theorem sameEffect_clearMatrix {i : Instr} (hi : writesMatrix i = true) (s s' : State) :
    SameEffect i s s' s.clearMatrix s'.clearMatrix := by
  refine .of_ram rfl rfl rfl rfl fun a => ?_
  rw [read_clearMatrix, read_clearMatrix]
  split
  · next hmodule => exact .alike (.inr ⟨hi, hmodule⟩)
  · exact .kept

/-- Two states hold the same modules; of a module byte only bits 2:0 count (R52). -/
def SameModules (s s' : State) : Prop := ∀ r c, r < dMax → c < dMax → s'.moduleAt r c = s.moduleAt r c

theorem SameEffect.sameModules {i : Instr} {s s' t t' : State} (h : SameEffect i s s' t t') (hmod : SameModules s s') :
    SameModules t t' := fun r c hr hc => h.moduleAt (hmod r c hr hc)

section
variable {i : Instr} {s s' : State} (hwf : s.mem.wf = true) (hwf' : s'.mem.wf = true)
include hwf hwf'

/-- One byte list stored in a listed buffer. -/
theorem sameEffect_setBuf {b : Buffer} (hb : b ∈ bufWrites i) {bytes : List Byte} (hlen : bytes.length ≤ b.size) :
    SameEffect i s s' (s.setBuf b bytes) (s'.setBuf b bytes) := by
  refine .of_ram rfl rfl rfl rfl fun a => ?_
  rw [setBuf_mem, setBuf_mem, read_store hwf, read_store hwf']
  split
  · next hin => exact .alike (.inl ⟨b, hb, Buffer.holds_iff.2 ⟨hin.1, by omega⟩⟩)
  · exact .kept

/-- One polynomial result written to `R` and `LEN_R`. -/
theorem sameEffect_setResult (hb : .bufR ∈ bufWrites i) (hr : .lenR ∈ regWrites i) {bytes : List Byte}
    (hlen : bytes.length ≤ Buffer.bufR.size) : SameEffect i s s' (s.setResult bytes) (s'.setResult bytes) :=
  (sameEffect_setBuf hwf hwf' hb hlen).trans (sameEffect_setLenR _ _ hr (BitVec.ofNat 10 bytes.length))

/-- A module set to one color where the module agrees. -/
theorem sameEffect_setColor (hi : writesMatrix i = true) {r c : Nat} (hr : r < dMax) (hc : c < dMax)
    (hmodule : s'.moduleAt r c = s.moduleAt r c) (dark : Bool) :
    SameEffect i s s' (s.setColor r c dark) (s'.setColor r c dark) := by
  refine .of_ram rfl rfl rfl rfl fun a => ?_
  rw [read_setColor hwf, read_setColor hwf', hmodule]
  split
  · next ha => exact .alike (.inr ⟨hi, ha ▸ isModuleAddr_moduleAddr hr hc⟩)
  · exact .kept

/-- One list of modules painted on a matrix that agrees. -/
theorem sameEffect_paint (hi : writesMatrix i = true) (hmod : SameModules s s') {ps : List ((Nat × Nat) × Bool)}
    (hps : ∀ p ∈ ps, p.1.1 < dMax ∧ p.1.2 < dMax) : SameEffect i s s' (s.paint ps) (s'.paint ps) := by
  induction ps generalizing s s' with
  | nil => exact .refl
  | cons p ps ih =>
    obtain ⟨hr, hc⟩ := hps p List.mem_cons_self
    have hp := sameEffect_setColor hwf hwf' hi hr hc (hmod _ _ hr hc) p.2
    exact hp.trans (ih (wf_setColor hwf _ _ _) (wf_setColor hwf' _ _ _) (hp.sameModules hmod)
      fun q hq => hps q (List.mem_cons_of_mem p hq))

/-- One function mapped over the square of a matrix that agrees. -/
theorem sameEffect_mapModules (hi : writesMatrix i = true) (hmod : SameModules s s') {d : Nat} (hd : d ≤ dMax)
    (f : Nat → Nat → BitVec 3 → BitVec 3) : SameEffect i s s' (s.mapModules d f) (s'.mapModules d f) := by
  refine .of_ram rfl rfl rfl rfl fun a => ?_
  rw [read_mapModules hwf, read_mapModules hwf']
  split
  · next hin =>
    obtain ⟨hlo, hhi, hcol⟩ := hin
    have hmodule := hmod ((a - matrixBase) / 256) ((a - matrixBase) % 256) (by omega) (by omega)
    have haddr : moduleAddr ((a - matrixBase) / 256) ((a - matrixBase) % 256) = a := by
      unfold moduleAddr
      omega
    rw [State.moduleAt, State.moduleAt, haddr] at hmodule
    rw [hmodule]
    exact .alike (.inr ⟨hi, isModuleAddr_of_square hd hlo hhi hcol⟩)
  · exact .kept

/-- One list of corrections made to a block that agrees (R145). -/
theorem sameEffect_correct (hi : .bufA ∈ bufWrites i)
    (hblock : ∀ a, Buffer.bufA.holds a = true → s'.mem.read a = s.mem.read a) {n : Nat} (hn : n ≤ Buffer.bufA.size)
    (is : List Nat) (ys : List Byte) : SameEffect i s s' (s.correct n is ys) (s'.correct n is ys) := by
  induction is generalizing s s' ys with
  | nil => exact .refl
  | cons p is ih =>
    cases ys with
    | nil => exact .refl
    | cons y ys =>
      have hfirst : SameEffect i s s'
          { s with mem := s.mem.update (Buffer.bufA.base + (n - 1 - p)) 1 (fun _ old => old ^^^ y) }
          { s' with mem := s'.mem.update (Buffer.bufA.base + (n - 1 - p)) 1 (fun _ old => old ^^^ y) } := by
        refine .of_ram rfl rfl rfl rfl fun a => ?_
        rw [read_update _ _ _ _ hwf, read_update _ _ _ _ hwf']
        split
        · have hsize : Buffer.bufA.size = 256 := rfl
          have ha : Buffer.bufA.holds a = true := Buffer.holds_iff.2 ⟨by omega, by omega⟩
          rw [hblock a ha]
          exact .alike (.inl ⟨.bufA, hi, ha⟩)
        · exact .kept
      exact hfirst.trans (ih (wf_update _ _ _ hwf) (wf_update _ _ _ hwf')
        (fun a ha => (hfirst.ram a).agree id (hblock a ha)) ys)

end

end Sys2Proof.Machine
end

section
/-! What two states that agree on the buffers and modules read alike, and what a buffer reads after a store. -/

namespace Sys2Proof.Machine

/-! ### Buffers after a store -/

/-- The buffers lie apart (R71). -/
theorem Buffer.eq_of_holds {b b' : Buffer} {a : Nat} (h : b.holds a = true) (h' : b'.holds a = true) : b = b' := by
  have happart : ∀ b ∈ Buffer.all, ∀ b' ∈ Buffer.all,
      b = b' ∨ b.base + b.size ≤ b'.base ∨ b'.base + b'.size ≤ b.base := by decide
  have := Buffer.holds_iff.1 h
  have := Buffer.holds_iff.1 h'
  exact (happart b b.mem_all b' b'.mem_all).resolve_right (by omega)

theorem Buffer.holds_base_add {b : Buffer} {k : Nat} (hk : k < b.size) : b.holds (b.base + k) = true :=
  Buffer.holds_iff.2 ⟨Nat.le_add_right _ _, Nat.add_lt_add_left hk _⟩

theorem bufBytes_eq_map {s : State} (hwf : s.mem.wf = true) (b : Buffer) (n : Nat) :
    s.bufBytes b n = (List.range n).map (s.buf b) := bytes_eq_map hwf _ _

theorem bufBytes_congr {s s' : State} (hwf : s.mem.wf = true) (hwf' : s'.mem.wf = true) {b : Buffer} {n : Nat}
    (h : ∀ k < n, s'.buf b k = s.buf b k) : s'.bufBytes b n = s.bufBytes b n := by
  rw [bufBytes_eq_map hwf, bufBytes_eq_map hwf']
  exact List.map_congr_left fun k hk => h k (List.mem_range.1 hk)

/-- The first bytes of a buffer after a store are the first bytes stored. -/
theorem bufBytes_setBuf_self {s : State} (hwf : s.mem.wf = true) (b : Buffer) {bytes : List Byte} {n : Nat}
    (hn : n ≤ bytes.length) : (s.setBuf b bytes).bufBytes b n = bytes.take n := by
  rw [bufBytes_eq_map (wf_setBuf hwf b bytes)]
  refine List.ext_getElem (by simpa using hn) fun k hk _ => ?_
  have hk : k < n := by simpa using hk
  rw [List.getElem_map, List.getElem_range, List.getElem_take, State.buf, setBuf_mem, read_store hwf,
    if_pos (by omega), Nat.add_sub_cancel_left, List.getD_eq_getElem _ _ (by omega)]

/-- A store that fits its buffer leaves the other buffers as they were. -/
theorem bufBytes_setBuf_of_ne {s : State} (hwf : s.mem.wf = true) {b b' : Buffer} (hne : b' ≠ b) {bytes : List Byte}
    (hlen : bytes.length ≤ b.size) {n : Nat} (hn : n ≤ b'.size) :
    (s.setBuf b bytes).bufBytes b' n = s.bufBytes b' n := by
  refine bufBytes_congr hwf (wf_setBuf hwf b bytes) fun k hk => ?_
  have hk' : b'.holds (b'.base + k) = true := Buffer.holds_base_add (hk.trans_le hn)
  rw [State.buf, setBuf_mem, read_store hwf, if_neg, State.buf]
  exact fun hin => hne (Buffer.eq_of_holds hk' (Buffer.holds_iff.2 ⟨hin.1, by omega⟩))

/-! ### The square -/

theorem grid_congr {s s' : State} (hwf : s.mem.wf = true) (hwf' : s'.mem.wf = true) (hmod : SameModules s s')
    {d : Nat} (hd : d ≤ dMax) : s'.grid d = s.grid d := by
  refine List.map_congr_left fun r hr => ?_
  rw [moduleRow_eq hwf, moduleRow_eq hwf']
  exact List.map_congr_left fun c hc =>
    hmod r c ((List.mem_range.1 hr).trans_le hd) ((List.mem_range.1 hc).trans_le hd)

/-! ### Fields from what the registers read -/

theorem eq_of_setWidth_word {n : Nat} (hn : n ≤ 32) {x y : BitVec n} (h : x.setWidth 32 = y.setWidth 32) : x = y := by
  simpa [BitVec.setWidth_setWidth_of_le, hn] using congrArg (BitVec.setWidth n) h

/-- A coefficient is its two halves (R43). -/
theorem eq_of_halves {x y : BitVec 64} (hlo : x.extractLsb' 0 32 = y.extractLsb' 0 32)
    (hhi : x.extractLsb' 32 32 = y.extractLsb' 32 32) : x = y := by
  have happend (z : BitVec 64) : z.extractLsb' 32 32 ++ z.extractLsb' 0 32 = z := by
    rw [BitVec.extractLsb'_append_extractLsb'_eq_extractLsb' (by decide)]
    exact BitVec.extractLsb'_eq_self
  rw [← happend x, hlo, hhi, happend y]

end Sys2Proof.Machine
end

section
/-! Each command run from two states that agree on its inputs: it ends with the same outcome and the same effect. -/

namespace Sys2Proof.Machine

/-! ### Two runs and their ends -/

/-- Two states in canonical form, with a matrix that exists, that agree on a command's inputs. -/
structure TwoRuns (i : Instr) (s s' : State) : Prop extends SameInputs i s s' where
  canonical : s.mem.wf = true
  canonical' : s'.mem.wf = true
  version : s.regs.mxVer.toNat ≤ 40

/-- Two results complete with one outcome after writes of the same effect. -/
def EndAlike (i : Instr) (s s' : State) (r r' : Result) : Prop :=
  ∃ t t' c u, SameEffect i s s' t t' ∧ r = .next (t.complete c u) ∧ r' = .next (t'.complete c u)

section
variable {i : Instr} {s s' t t' : State}

theorem SameEffect.succeed (h : SameEffect i s s' t t') : EndAlike i s s' (succeed t) (succeed t') :=
  ⟨t, t', .ok, .none, h, rfl, rfl⟩

theorem SameEffect.raiseUncorr (h : SameEffect i s s' t t') (u : UncReason) :
    EndAlike i s s' (raiseUncorr t u) (raiseUncorr t' u) := ⟨t, t', .eUncorr, u, h, rfl, rfl⟩

/-- A command that fails before it writes. -/
theorem endAlike_raise (c : ErrCode) : EndAlike i s s' (raise s c) (raise s' c) := ⟨s, s', c, .none, .refl, rfl, rfl⟩

/-! ### What the two states read alike -/

theorem TwoRuns.opa (h : TwoRuns i s s') (hr : .opa ∈ regReads i) : s'.regs.opa = s.regs.opa :=
  eq_of_setWidth_word (by decide) (h.regs .opa hr)

theorem TwoRuns.opb (h : TwoRuns i s s') (hr : .opb ∈ regReads i) : s'.regs.opb = s.regs.opb :=
  eq_of_setWidth_word (by decide) (h.regs .opb hr)

theorem TwoRuns.la (h : TwoRuns i s s') (hr : .lenA ∈ regReads i) : s'.la = s.la :=
  congrArg BitVec.toNat (eq_of_setWidth_word (by decide) (h.regs .lenA hr))

theorem TwoRuns.lb (h : TwoRuns i s s') (hr : .lenB ∈ regReads i) : s'.lb = s.lb :=
  congrArg BitVec.toNat (eq_of_setWidth_word (by decide) (h.regs .lenB hr))

theorem TwoRuns.ecc (h : TwoRuns i s s') (hr : .eccLen ∈ regReads i) : s'.ecc = s.ecc :=
  congrArg BitVec.toNat (eq_of_setWidth_word (by decide) (h.regs .eccLen hr))

theorem TwoRuns.rsL (h : TwoRuns i s s') (hr : .rsL ∈ regReads i) : s'.regs.rsL = s.regs.rsL :=
  eq_of_setWidth_word (by decide) (h.regs .rsL hr)

theorem TwoRuns.nroots (h : TwoRuns i s s') (hr : .nroots ∈ regReads i) : s'.regs.nroots = s.regs.nroots :=
  eq_of_setWidth_word (by decide) (h.regs .nroots hr)

theorem TwoRuns.mxVer (h : TwoRuns i s s') (hr : .mxVer ∈ regReads i) : s'.regs.mxVer = s.regs.mxVer :=
  eq_of_setWidth_word (by decide) (h.regs .mxVer hr)

theorem TwoRuns.bufBytes (h : TwoRuns i s s') {b : Buffer} (hb : b ∈ bufReads i) {n : Nat} (hn : n ≤ b.size) :
    s'.bufBytes b n = s.bufBytes b n :=
  bufBytes_congr h.canonical h.canonical' fun k hk => h.buffers b hb k (hk.trans_le hn)

/-- Every byte of a buffer that is read. -/
theorem TwoRuns.read (h : TwoRuns i s s') {b : Buffer} (hb : b ∈ bufReads i) {a : Nat} (ha : b.holds a = true) :
    s'.mem.read a = s.mem.read a := by
  obtain ⟨hlo, hhi⟩ := Buffer.holds_iff.1 ha
  obtain ⟨k, rfl⟩ := Nat.exists_eq_add_of_le hlo
  exact h.buffers b hb k (by omega)

theorem TwoRuns.opA (h : TwoRuns i s s') (hr : .lenA ∈ regReads i) (hb : .bufA ∈ bufReads i) (hn : s.la ≤ 256) :
    s'.opA = s.opA := by
  rw [State.opA, h.la hr]
  exact h.bufBytes hb hn

theorem TwoRuns.opB (h : TwoRuns i s s') (hr : .lenB ∈ regReads i) (hb : .bufB ∈ bufReads i) (hn : s.lb ≤ 256) :
    s'.opB = s.opB := by
  rw [State.opB, h.lb hr]
  exact h.bufBytes hb hn

theorem TwoRuns.noMatrix (h : TwoRuns i s s') (hr : .mxVer ∈ regReads i) : s'.noMatrix = s.noMatrix := by
  rw [State.noMatrix, h.mxVer hr, State.noMatrix]

theorem TwoRuns.matrixVersion (h : TwoRuns i s s') (hr : .mxVer ∈ regReads i) : s'.matrixVersion = s.matrixVersion :=
  congrArg BitVec.toNat (h.mxVer hr)

theorem TwoRuns.dim (h : TwoRuns i s s') (hr : .mxVer ∈ regReads i) : s'.dim = s.dim :=
  congrArg dimension (h.matrixVersion hr)

theorem TwoRuns.dim_le (h : TwoRuns i s s') : s.dim ≤ dMax := dimension_le_dMax h.version

theorem TwoRuns.grid (h : TwoRuns i s s') (hi : readsMatrix i = true) : s'.grid s.dim = s.grid s.dim :=
  grid_congr h.canonical h.canonical' (h.matrix hi) h.dim_le

end

/-! ### Control and GF commands -/

section
variable {s s' : State}

theorem nop_endAlike : EndAlike .nop s s' (execNop s) (execNop s') := SameEffect.refl.succeed

theorem TwoRuns.gfMul_endAlike (h : TwoRuns .gfMul s s') : EndAlike .gfMul s s' (execGfMul s) (execGfMul s') := by
  rw [execGfMul, execGfMul, h.opa (by decide), h.opb (by decide)]
  exact (sameEffect_setRes s s' (by decide) _).succeed

theorem TwoRuns.gfDiv_endAlike (h : TwoRuns .gfDiv s s') : EndAlike .gfDiv s s' (execGfDiv s) (execGfDiv s') := by
  rw [execGfDiv, execGfDiv, h.opa (by decide), h.opb (by decide)]
  split
  · exact endAlike_raise _
  · exact (sameEffect_setRes s s' (by decide) _).succeed

theorem length_polyMul_le {a b : List Byte} (ha : 1 ≤ a.length ∧ a.length ≤ 256) (hb : 1 ≤ b.length ∧ b.length ≤ 256) :
    (polyMul a b).length ≤ Buffer.bufR.size := by
  have hlen := length_polyMul a b (List.ne_nil_of_length_pos ha.1) (List.ne_nil_of_length_pos hb.1)
  have hsize : Buffer.bufR.size = 512 := rfl
  omega

theorem TwoRuns.polyMul_endAlike (h : TwoRuns .polyMul s s') :
    EndAlike .polyMul s s' (execPolyMul s) (execPolyMul s') := by
  rw [execPolyMul, execPolyMul, h.la (by decide), h.lb (by decide)]
  split
  · exact endAlike_raise _
  · next hlens =>
    obtain ⟨hla, hlb⟩ := polyLens_le hlens
    rw [h.opA (by decide) (by decide) hla.2, h.opB (by decide) (by decide) hlb.2]
    have hlen := length_polyMul_le ((length_opA s).symm ▸ hla) ((length_opB s).symm ▸ hlb)
    exact (sameEffect_setResult h.canonical h.canonical' (by decide) (by decide) hlen).succeed

theorem TwoRuns.polyDiv_endAlike (h : TwoRuns .polyDiv s s') :
    EndAlike .polyDiv s s' (execPolyDiv s) (execPolyDiv s') := by
  have hlead : s'.buf .bufB 0 = s.buf .bufB 0 := h.buffers .bufB (by decide) 0 (by decide)
  rw [execPolyDiv, execPolyDiv, h.la (by decide), h.lb (by decide), hlead]
  split
  · exact endAlike_raise _
  · next hlens =>
    obtain ⟨hla, hlb⟩ := polyLens_le hlens
    rw [h.opA (by decide) (by decide) hla.2, h.opB (by decide) (by decide) hlb.2]
    have hlen : (polyDivResult s.opA s.opB).length ≤ Buffer.bufR.size := by
      have hsize : Buffer.bufR.size = 512 := rfl
      rw [length_polyDivResult, length_opA, length_opB]
      omega
    split
    · exact endAlike_raise _
    · exact (sameEffect_setResult h.canonical h.canonical' (by decide) (by decide) hlen).succeed

/-! ### Reed-Solomon commands -/

theorem TwoRuns.rsEncode_endAlike (h : TwoRuns .rsEncode s s') :
    EndAlike .rsEncode s s' (execRsEncode s) (execRsEncode s') := by
  rw [execRsEncode, execRsEncode, h.la (by decide), h.ecc (by decide)]
  split
  · exact endAlike_raise _
  · next hecc =>
    split
    · exact endAlike_raise _
    · next hlens =>
      have hla : s.la ≤ 256 := by
        simp only [dataLenOk, Bool.not_eq_true', Bool.not_eq_false, Bool.and_eq_true, decide_eq_true_eq] at hlens
        omega
      have hlen : (rsEcc s.ecc s.opA).length ≤ Buffer.bufR.size := by
        rw [length_rsEcc]
        exact (ecc_le hecc).trans (by decide)
      rw [h.opA (by decide) (by decide) hla]
      exact (sameEffect_setResult h.canonical h.canonical' (by decide) (by decide) hlen).succeed

end

/-! ### What the stages of the decoder leave for the next one -/

section
variable {s : State}

theorem length_berlekampMassey_le (syn : List Byte) {e : Nat} (he : e ≤ 68) :
    (berlekampMassey syn e).c.length ≤ Buffer.sigma.size := by
  have hsize : Buffer.sigma.size = 128 := rfl
  rw [length_berlekampMassey]
  omega

theorem length_evaluator_le (sigma syn : List Byte) {e : Nat} (he : e ≤ 68) :
    (evaluator sigma syn e).length ≤ Buffer.omega.size := by
  rw [length_evaluator]
  exact he.trans (by decide)

theorem length_chienRoots_map_le (hn : s.la ≤ 255) :
    ((chienRoots s.sigmaOp s.la).map (BitVec.ofNat 8)).length ≤ Buffer.errpos.size := by
  rw [List.length_map]
  exact (length_chienRoots _ _).trans (hn.trans (by decide))

theorem bufBytes_syndromeBody_syn (hwf : s.mem.wf = true) :
    s.syndromeBody.bufBytes .syn s.ecc = syndromes s.opA s.ecc :=
  (bufBytes_setBuf_self hwf .syn (length_syndromes _ _).ge).trans (List.take_of_length_le (length_syndromes _ _).le)

theorem wf_syndromeBody (hwf : s.mem.wf = true) : s.syndromeBody.mem.wf = true := wf_setBuf hwf _ _

theorem wf_bmBody (hwf : s.mem.wf = true) : s.bmBody.mem.wf = true := wf_setBuf (wf_setBuf hwf _ _) _ _

theorem wf_chienBody (hwf : s.mem.wf = true) : s.chienBody.mem.wf = true := wf_setBuf hwf _ _

theorem bufBytes_bmBody_omega (hwf : s.mem.wf = true) : s.bmBody.bufBytes .omega s.ecc =
    evaluator (berlekampMassey (s.bufBytes .syn s.ecc) s.ecc).c (s.bufBytes .syn s.ecc) s.ecc :=
  (bufBytes_setBuf_self (wf_setBuf hwf _ _) .omega (length_evaluator _ _ _).ge).trans
    (List.take_of_length_le (length_evaluator _ _ _).le)

theorem bufBytes_bmBody_sigma (hwf : s.mem.wf = true) (he : s.ecc ≤ 68) {n : Nat} (hn : n ≤ s.ecc + 1) :
    s.bmBody.bufBytes .sigma n = (berlekampMassey (s.bufBytes .syn s.ecc) s.ecc).c.take n := by
  have hsize : Buffer.sigma.size = 128 := rfl
  exact (bufBytes_setBuf_of_ne (wf_setBuf hwf _ _) (by decide) (length_evaluator_le _ _ he) (by omega)).trans
    (bufBytes_setBuf_self hwf .sigma (by rw [length_berlekampMassey]; exact hn))

theorem bufBytes_chienBody_of_ne (hwf : s.mem.wf = true) (hn : s.la ≤ 255) {b : Buffer} (hb : b ≠ .errpos) {n : Nat}
    (hsize : n ≤ b.size) : s.chienBody.bufBytes b n = s.bufBytes b n :=
  bufBytes_setBuf_of_ne hwf hb (length_chienRoots_map_le hn) hsize

/-- The count of roots of a block of at most 255 bytes fits `NROOTS` (R143). -/
theorem chienBody_nroots (hn : s.la ≤ 255) : s.chienBody.regs.nroots.toNat = (chienRoots s.sigmaOp s.la).length := by
  have hlen := length_chienRoots s.sigmaOp s.la
  exact (BitVec.toNat_ofNat _ 9).trans (Nat.mod_eq_of_lt (by omega))

/-- The positions the search leaves are the roots (R143). -/
theorem chienBody_errorPositions (hwf : s.mem.wf = true) (hn : s.la ≤ 255) :
    s.chienBody.errorPositions = chienRoots s.sigmaOp s.la := by
  have hbytes : s.chienBody.bufBytes .errpos (chienRoots s.sigmaOp s.la).length =
      (chienRoots s.sigmaOp s.la).map (BitVec.ofNat 8) :=
    (bufBytes_setBuf_self hwf .errpos (by rw [List.length_map])).trans (List.take_of_length_le (by rw [List.length_map]))
  rw [State.errorPositions, chienBody_nroots hn, hbytes, List.map_map]
  refine (List.map_congr_left (g := id) fun p hp => ?_).trans (List.map_id _)
  have := lt_of_mem_chienRoots hp
  exact (BitVec.toNat_ofNat p 8).trans (Nat.mod_eq_of_lt (by omega))

end

/-! ### The four stages side by side, from what each reads -/

section
variable {i : Instr} {s s' : State} (hwf : s.mem.wf = true) (hwf' : s'.mem.wf = true)
include hwf hwf'

theorem sameEffect_syndromeBody (hb : .syn ∈ bufWrites i) (hi : writesClean i = true) (hecc : s'.ecc = s.ecc)
    (hblock : s'.opA = s.opA) (he : s.ecc ≤ 68) : SameEffect i s s' s.syndromeBody s'.syndromeBody := by
  have hlen : (syndromes s.opA s.ecc).length ≤ Buffer.syn.size := by
    rw [length_syndromes]
    exact he.trans (by decide)
  rw [State.syndromeBody, State.syndromeBody, hblock, hecc]
  exact (sameEffect_setBuf hwf hwf' hb hlen).trans (sameEffect_setClean _ _ hi _)

theorem sameEffect_bmBody (hsigma : .sigma ∈ bufWrites i) (homega : .omega ∈ bufWrites i) (hi : .rsL ∈ regWrites i)
    (hecc : s'.ecc = s.ecc) (hsyn : s'.bufBytes .syn s.ecc = s.bufBytes .syn s.ecc) (he : s.ecc ≤ 68) :
    SameEffect i s s' s.bmBody s'.bmBody := by
  rw [State.bmBody, State.bmBody, hecc, hsyn]
  exact ((sameEffect_setBuf hwf hwf' hsigma (length_berlekampMassey_le _ he)).trans
    (sameEffect_setBuf (wf_setBuf hwf _ _) (wf_setBuf hwf' _ _) homega (length_evaluator_le _ _ he))).trans
    (sameEffect_setRsL _ _ hi _)

omit hwf hwf' in
theorem bmBody_rsL_congr (hecc : s'.ecc = s.ecc) (hsyn : s'.bufBytes .syn s.ecc = s.bufBytes .syn s.ecc) :
    s'.bmBody.regs.rsL = s.bmBody.regs.rsL := by
  rw [State.bmBody, State.bmBody, hecc, hsyn]

omit hwf hwf' in
theorem degreeTestFails_bmBody (hecc : s'.ecc = s.ecc) (hsyn : s'.bufBytes .syn s.ecc = s.bufBytes .syn s.ecc) :
    degreeTestFails s'.bmBody = degreeTestFails s.bmBody := by
  have hecc' : s'.bmBody.ecc = s.bmBody.ecc := hecc
  rw [degreeTestFails, degreeTestFails, bmBody_rsL_congr hecc hsyn, hecc']

/-- Where the degree test holds, `SIGMA[0..L]` lies within what Massey's algorithm wrote (R139, R140). -/
theorem sigmaOp_bmBody_congr (hecc : s'.ecc = s.ecc) (hsyn : s'.bufBytes .syn s.ecc = s.bufBytes .syn s.ecc)
    (he : s.ecc ≤ 68) (hdegree : ¬degreeTestFails s.bmBody = true) : s'.bmBody.sigmaOp = s.bmBody.sigmaOp := by
  have hn : s.bmBody.regs.rsL.toNat + 1 ≤ s.ecc + 1 := by
    have hecc' : s.bmBody.ecc = s.ecc := rfl
    simp only [degreeTestFails, decide_eq_true_eq, hecc'] at hdegree
    omega
  rw [State.sigmaOp, State.sigmaOp, bmBody_rsL_congr hecc hsyn, bufBytes_bmBody_sigma hwf he hn,
    bufBytes_bmBody_sigma hwf' (hecc.trans_le he) (hecc.symm ▸ hn), hecc, hsyn]

theorem bufBytes_bmBody_omega_congr (hecc : s'.ecc = s.ecc)
    (hsyn : s'.bufBytes .syn s.ecc = s.bufBytes .syn s.ecc) :
    s'.bmBody.bufBytes .omega s.ecc = s.bmBody.bufBytes .omega s.ecc := by
  have homega := bufBytes_bmBody_omega hwf'
  rw [hecc, hsyn] at homega
  rw [homega, bufBytes_bmBody_omega hwf]

theorem sameEffect_chienBody (hb : .errpos ∈ bufWrites i) (hi : .nroots ∈ regWrites i) (hla : s'.la = s.la)
    (hsigma : s'.sigmaOp = s.sigmaOp) (hn : s.la ≤ 255) : SameEffect i s s' s.chienBody s'.chienBody := by
  rw [State.chienBody, State.chienBody, hsigma, hla]
  exact (sameEffect_setBuf hwf hwf' hb (length_chienRoots_map_le hn)).trans (sameEffect_setNroots _ _ hi _)

omit hwf hwf' in
theorem countTestFails_chienBody (hla : s'.la = s.la) (hsigma : s'.sigmaOp = s.sigmaOp)
    (hrsL : s'.regs.rsL = s.regs.rsL) : countTestFails s'.chienBody = countTestFails s.chienBody := by
  have hnroots : s'.chienBody.regs.nroots = s.chienBody.regs.nroots := by
    rw [State.chienBody, State.chienBody, hsigma, hla]
  have hrsL' : s'.chienBody.regs.rsL = s.chienBody.regs.rsL := hrsL
  rw [countTestFails, countTestFails, hnroots, hrsL']

/-- The Forney body fails in both runs or corrects in both (R146). -/
theorem forneyBody_alike (hb : .bufA ∈ bufWrites i) (hi : .nerr ∈ regWrites i) (hla : s'.la = s.la)
    (hsigma : s'.sigmaOp = s.sigmaOp) (homega : s'.bufBytes .omega s'.ecc = s.bufBytes .omega s.ecc)
    (hnroots : s'.regs.nroots = s.regs.nroots) (hpositions : s'.errorPositions = s.errorPositions)
    (hblock : ∀ a, Buffer.bufA.holds a = true → s'.mem.read a = s.mem.read a) (hn : s.la ≤ 255) :
    (s.forneyBody = none ∧ s'.forneyBody = none) ∨
      ∃ t t', s.forneyBody = some t ∧ s'.forneyBody = some t' ∧ SameEffect i s s' t t' := by
  rw [State.forneyBody, State.forneyBody, hsigma, homega, hpositions, hla, hnroots]
  cases forneyValues s.sigmaOp (s.bufBytes .omega s.ecc) s.errorPositions with
  | none => exact .inl ⟨rfl, rfl⟩
  | some ys =>
    have hcorrect := sameEffect_correct hwf hwf' hb hblock (hn.trans (by decide)) s.errorPositions ys
    exact .inr ⟨_, _, rfl, rfl, hcorrect.trans (sameEffect_setNerr _ _ hi _)⟩

end

/-! ### The stages as commands -/

section
variable {s s' : State}

theorem TwoRuns.rsSyndrome_endAlike (h : TwoRuns .rsSyndrome s s') :
    EndAlike .rsSyndrome s s' (execRsSyndrome s) (execRsSyndrome s') := by
  have hecc := h.ecc (by decide)
  rw [execRsSyndrome, execRsSyndrome, h.la (by decide), hecc]
  split
  · exact endAlike_raise _
  · next hvalid =>
    split
    · exact endAlike_raise _
    · next hlens =>
      obtain ⟨-, hn⟩ := blockLenOk_iff.1 (by simpa using hlens)
      have hblock := h.opA (by decide) (by decide) (by omega)
      exact (sameEffect_syndromeBody h.canonical h.canonical' (by decide) rfl hecc hblock (ecc_le hvalid)).succeed

theorem TwoRuns.rsBm_endAlike (h : TwoRuns .rsBm s s') : EndAlike .rsBm s s' (execRsBm s) (execRsBm s') := by
  have hecc := h.ecc (by decide)
  rw [execRsBm, execRsBm, hecc]
  split
  · exact endAlike_raise _
  · next hvalid =>
    have he := ecc_le hvalid
    have hsyn : s'.bufBytes .syn s.ecc = s.bufBytes .syn s.ecc := h.bufBytes (by decide) (he.trans (by decide))
    have heffect : SameEffect .rsBm s s' s.bmBody s'.bmBody :=
      sameEffect_bmBody h.canonical h.canonical' (by decide) (by decide) (by decide) hecc hsyn he
    have htest : degreeTestFails s'.bmBody = degreeTestFails s.bmBody := degreeTestFails_bmBody hecc hsyn
    dsimp only
    rw [htest]
    split
    · exact heffect.raiseUncorr _
    · exact heffect.succeed

theorem TwoRuns.sigmaOp {i : Instr} (h : TwoRuns i s s') (hr : .rsL ∈ regReads i) (hb : .sigma ∈ bufReads i) :
    s'.sigmaOp = s.sigmaOp := by
  have hsize : Buffer.sigma.size = 128 := rfl
  have hlt : s.regs.rsL.toNat < 2 ^ 7 := s.regs.rsL.isLt
  rw [State.sigmaOp, h.rsL hr]
  exact h.bufBytes hb (by omega)

theorem TwoRuns.rsChien_endAlike (h : TwoRuns .rsChien s s') :
    EndAlike .rsChien s s' (execRsChien s) (execRsChien s') := by
  have hla := h.la (by decide)
  have hrsL := h.rsL (by decide)
  have hsigma := h.sigmaOp (by decide) (by decide)
  rw [execRsChien, execRsChien, hla, hrsL]
  split
  · exact endAlike_raise _
  · next hlens =>
    simp only [Bool.not_eq_true', Bool.not_eq_false, Bool.and_eq_true, decide_eq_true_eq] at hlens
    obtain ⟨⟨-, hn⟩, -⟩ := hlens
    have heffect : SameEffect .rsChien s s' s.chienBody s'.chienBody :=
      sameEffect_chienBody h.canonical h.canonical' (by decide) (by decide) hla hsigma hn
    dsimp only
    rw [countTestFails_chienBody hla hsigma hrsL]
    split
    · exact heffect.raiseUncorr _
    · exact heffect.succeed

theorem TwoRuns.rsForney_endAlike (h : TwoRuns .rsForney s s') :
    EndAlike .rsForney s s' (execRsForney s) (execRsForney s') := by
  have hla := h.la (by decide)
  have hecc := h.ecc (by decide)
  have hrsL := h.rsL (by decide)
  have hnroots := h.nroots (by decide)
  rw [execRsForney, execRsForney, hla, hecc, hrsL, hnroots]
  split
  · exact endAlike_raise _
  · next hvalid =>
    split
    · exact endAlike_raise _
    · next hlens =>
      simp only [Bool.not_eq_true', Bool.not_eq_false, Bool.and_eq_true, decide_eq_true_eq, blockLenOk_iff] at hlens
      obtain ⟨⟨⟨-, hn⟩, -⟩, hcount⟩ := hlens
      have hpositions : s'.errorPositions = s.errorPositions := by
        rw [State.errorPositions, State.errorPositions, hnroots,
          h.bufBytes (b := .errpos) (by decide) (hcount.trans (by decide))]
      have homega : s'.bufBytes .omega s'.ecc = s.bufBytes .omega s.ecc := by
        rw [hecc]
        exact h.bufBytes (by decide) ((ecc_le hvalid).trans (by decide))
      rw [hpositions]
      split
      · exact endAlike_raise _
      · obtain ⟨hnone, hnone'⟩ | ⟨t, t', ht, ht', heffect⟩ :=
          forneyBody_alike (i := .rsForney) h.canonical h.canonical' (by decide) (by decide) hla
            (h.sigmaOp (by decide) (by decide)) homega hnroots hpositions
            (fun _ ha => h.read (b := .bufA) (by decide) ha) hn
        · rw [hnone, hnone']
          exact SameEffect.refl.raiseUncorr _
        · rw [ht, ht']
          exact heffect.succeed

/-! ### The whole decoder -/

/-- The clean path sets the three counts to 0 (R148). -/
theorem sameEffect_cleanResult (s s' : State) : SameEffect .rsDecode s s' s.cleanResult s'.cleanResult :=
  ((sameEffect_setRsL s s' (by decide) 0#7).trans (sameEffect_setNroots _ _ (by decide) 0#9)).trans
    (sameEffect_setNerr _ _ (by decide) 0#9)

/-- After the search, the Forney body finds what the search and the stages before it left. -/
theorem forneyBody_chienBody_alike {i : Instr} (hwf : s.mem.wf = true) (hwf' : s'.mem.wf = true)
    (hb : .bufA ∈ bufWrites i) (hi : .nerr ∈ regWrites i) (hla : s'.la = s.la) (hn : s.la ≤ 255)
    (hecc : s'.ecc = s.ecc) (he : s.ecc ≤ 68) (hrsL : s'.regs.rsL = s.regs.rsL) (hsigma : s'.sigmaOp = s.sigmaOp)
    (homega : s'.bufBytes .omega s.ecc = s.bufBytes .omega s.ecc)
    (hblock : ∀ a, Buffer.bufA.holds a = true → s'.chienBody.mem.read a = s.chienBody.mem.read a) :
    (s.chienBody.forneyBody = none ∧ s'.chienBody.forneyBody = none) ∨
      ∃ t t', s.chienBody.forneyBody = some t ∧ s'.chienBody.forneyBody = some t' ∧
        SameEffect i s.chienBody s'.chienBody t t' := by
  have hn' : s'.la ≤ 255 := hla.trans_le hn
  have hsigma' : s'.chienBody.sigmaOp = s.chienBody.sigmaOp := by
    have hlt : s.regs.rsL.toNat < 2 ^ 7 := s.regs.rsL.isLt
    have hsize : s.regs.rsL.toNat + 1 ≤ Buffer.sigma.size := hlt
    have hkeep : s.chienBody.sigmaOp = s.sigmaOp := bufBytes_chienBody_of_ne hwf hn (by decide) hsize
    have hkeep' : s'.chienBody.sigmaOp = s'.sigmaOp :=
      bufBytes_chienBody_of_ne hwf' hn' (by decide) (hrsL.symm ▸ hsize)
    rw [hkeep, hkeep', hsigma]
  have homega' : s'.chienBody.bufBytes .omega s'.ecc = s.chienBody.bufBytes .omega s.ecc := by
    have hsize : s.ecc ≤ Buffer.omega.size := he.trans (by decide)
    rw [hecc, bufBytes_chienBody_of_ne hwf hn (by decide) hsize, bufBytes_chienBody_of_ne hwf' hn' (by decide) hsize,
      homega]
  have hnroots : s'.chienBody.regs.nroots = s.chienBody.regs.nroots := by
    rw [State.chienBody, State.chienBody, hsigma, hla]
  have hpositions : s'.chienBody.errorPositions = s.chienBody.errorPositions := by
    rw [chienBody_errorPositions hwf hn, chienBody_errorPositions hwf' hn', hsigma, hla]
  exact forneyBody_alike (wf_chienBody hwf) (wf_chienBody hwf') hb hi hla hsigma' homega' hnroots hpositions hblock hn

/-- Each stage reads what the stages before it wrote alike, or the inputs. -/
theorem TwoRuns.rsDecode_endAlike (h : TwoRuns .rsDecode s s') :
    EndAlike .rsDecode s s' (execRsDecode s) (execRsDecode s') := by
  have hla := h.la (by decide)
  have hecc := h.ecc (by decide)
  have hwf₁ := wf_syndromeBody h.canonical
  have hwf₁' := wf_syndromeBody h.canonical'
  have hwf₂ := wf_bmBody hwf₁
  have hwf₂' := wf_bmBody hwf₁'
  rw [execRsDecode, execRsDecode, hla, hecc]
  split
  · exact endAlike_raise _
  next hvalid =>
  split
  · exact endAlike_raise _
  next hlens =>
  have he := ecc_le hvalid
  obtain ⟨-, hn⟩ := blockLenOk_iff.1 (by simpa using hlens)
  have hblock := h.opA (by decide) (by decide) (by omega)
  have h₁ : SameEffect .rsDecode s s' s.syndromeBody s'.syndromeBody :=
    sameEffect_syndromeBody h.canonical h.canonical' (by decide) rfl hecc hblock he
  have hclean : s'.syndromeBody.regs.clean = s.syndromeBody.regs.clean := by
    rw [State.syndromeBody, State.syndromeBody, hblock, hecc]
  dsimp only
  rw [hclean]
  split
  · exact (h₁.trans (sameEffect_cleanResult _ _)).succeed
  have hsyn : s'.syndromeBody.bufBytes .syn s.ecc = s.syndromeBody.bufBytes .syn s.ecc := by
    have hsyn' := bufBytes_syndromeBody_syn h.canonical'
    rw [hecc, hblock] at hsyn'
    rw [hsyn', bufBytes_syndromeBody_syn h.canonical]
  have h₂ : SameEffect .rsDecode s s' s.syndromeBody.bmBody s'.syndromeBody.bmBody :=
    h₁.trans (sameEffect_bmBody hwf₁ hwf₁' (by decide) (by decide) (by decide) hecc hsyn he)
  rw [degreeTestFails_bmBody (s := s.syndromeBody) (s' := s'.syndromeBody) hecc hsyn]
  split
  · exact h₂.raiseUncorr _
  next hdegree =>
  have hrsL := bmBody_rsL_congr (s := s.syndromeBody) (s' := s'.syndromeBody) hecc hsyn
  have hsigma : s'.syndromeBody.bmBody.sigmaOp = s.syndromeBody.bmBody.sigmaOp :=
    sigmaOp_bmBody_congr hwf₁ hwf₁' hecc hsyn he hdegree
  have homega : s'.syndromeBody.bmBody.bufBytes .omega s.ecc = s.syndromeBody.bmBody.bufBytes .omega s.ecc :=
    bufBytes_bmBody_omega_congr hwf₁ hwf₁' hecc hsyn
  have h₃ : SameEffect .rsDecode s s' s.syndromeBody.bmBody.chienBody s'.syndromeBody.bmBody.chienBody :=
    h₂.trans (sameEffect_chienBody hwf₂ hwf₂' (by decide) (by decide) hla hsigma hn)
  rw [countTestFails_chienBody (s := s.syndromeBody.bmBody) (s' := s'.syndromeBody.bmBody) hla hsigma hrsL]
  split
  · exact h₃.raiseUncorr _
  have hblock₃ : ∀ a, Buffer.bufA.holds a = true → s'.syndromeBody.bmBody.chienBody.mem.read a =
      s.syndromeBody.bmBody.chienBody.mem.read a :=
    fun a ha => (h₃.ram a).agree id (h.read (b := .bufA) (by decide) ha)
  obtain ⟨hnone, hnone'⟩ | ⟨t, t', ht, ht', h₄⟩ :=
    forneyBody_chienBody_alike (i := .rsDecode) hwf₂ hwf₂' (by decide) (by decide) hla hn hecc he hrsL hsigma homega
      hblock₃
  · rw [hnone, hnone']
    exact h₃.raiseUncorr _
  · rw [ht, ht']
    exact (h₃.trans h₄).succeed

end

end Sys2Proof.Machine
end

section
/-! The matrix commands and the transform run from two states, and the two statements about the tables of R98 and R99. -/

namespace Sys2Proof.Machine

section
variable {s s' : State}

/-! ### Base matrix -/

/-- The base matrix is built over a cleared matrix, so it needs no agreement (R162-R169). -/
theorem sameEffect_buildBase (hwf : s.mem.wf = true) (hwf' : s'.mem.wf = true) {i : Instr}
    (hi : writesMatrix i = true) {v : Nat} (hv : v ≤ 40) :
    SameEffect i s s' (s.buildBase v) (s'.buildBase v) ∧ SameModules (s.buildBase v) (s'.buildBase v) := by
  have hcleared : SameModules s.clearMatrix s'.clearMatrix := fun r c hr hc => by
    have hmodule := isModuleAddr_moduleAddr hr hc
    rw [State.moduleAt, State.moduleAt, read_clearMatrix, read_clearMatrix, if_pos hmodule, if_pos hmodule]
  have hbuild := sameEffect_mapModules (wf_clearMatrix hwf) (wf_clearMatrix hwf') hi hcleared (dimension_le_dMax hv)
    (fun r c _ => baseModule v (alignCentres v) r c)
  exact ⟨(sameEffect_clearMatrix hi s s').trans hbuild, hbuild.sameModules hcleared⟩

theorem wf_buildBase (hwf : s.mem.wf = true) (v : Nat) : (s.buildBase v).mem.wf = true := by
  rw [State.buildBase]
  exact wf_mapModules (wf_clearMatrix hwf) _ _

theorem TwoRuns.mxBase_endAlike (h : TwoRuns .mxBase s s') : EndAlike .mxBase s s' (execMxBase s) (execMxBase s') := by
  have hversion : s'.regs.version = s.regs.version := eq_of_setWidth_word (by decide) (h.regs .version (by decide))
  rw [execMxBase, execMxBase, hversion]
  dsimp only
  split
  · exact endAlike_raise _
  · next hver =>
    have hv : s.regs.version.toNat ≤ 40 := by omega
    obtain ⟨hbuild, hmodules⟩ := sameEffect_buildBase (i := .mxBase) h.canonical h.canonical' rfl hv
    rw [grid_congr (wf_buildBase h.canonical _) (wf_buildBase h.canonical' _) hmodules (dimension_le_dMax hv)]
    exact (hbuild.trans (sameEffect_setMatrix _ _ (by decide) (by decide) _ _)).succeed

/-! ### Placement and extraction -/

theorem TwoRuns.order {i : Instr} (h : TwoRuns i s s') (hr : .mxVer ∈ regReads i) (hi : readsMatrix i = true) :
    s'.order = s.order := by
  rw [State.order, State.order, h.dim hr, h.grid hi]

theorem TwoRuns.mxPlace_endAlike (h : TwoRuns .mxPlace s s') :
    EndAlike .mxPlace s s' (execMxPlace s) (execMxPlace s') := by
  have hcwLen : s'.regs.cwLen = s.regs.cwLen := eq_of_setWidth_word (by decide) (h.regs .cwLen (by decide))
  have hcw : s'.bufBytes .cw s.regs.cwLen.toNat = s.bufBytes .cw s.regs.cwLen.toNat :=
    h.bufBytes (by decide) s.regs.cwLen.isLt.le
  rw [execMxPlace, execMxPlace, h.noMatrix (by decide), h.order (by decide) rfl, hcwLen]
  dsimp only
  rw [hcw]
  split
  · exact endAlike_raise _
  · split
    · exact endAlike_raise _
    · refine (sameEffect_paint h.canonical h.canonical' rfl (h.matrix rfl) fun p hp => ?_).succeed
      obtain ⟨k, hk, rfl⟩ := List.mem_mapIdx.1 hp
      obtain ⟨hrow, hcol⟩ := mem_placementOrder (List.getElem_mem hk)
      exact ⟨hrow.trans_le h.dim_le, hcol.trans_le h.dim_le⟩

theorem TwoRuns.mxExtract_endAlike (h : TwoRuns .mxExtract s s') :
    EndAlike .mxExtract s s' (execMxExtract s) (execMxExtract s') := by
  rw [execMxExtract, execMxExtract, h.noMatrix (by decide), h.dim (by decide), h.grid rfl]
  split
  · exact endAlike_raise _
  · have hlen : (packBytes ((placementOrder s.dim (s.grid s.dim)).length / 8)
        ((placementOrder s.dim (s.grid s.dim)).map fun p => colorOf (gridAt (s.grid s.dim) p.1 p.2))).length ≤
        Buffer.cw.size := by
      rw [length_packBytes]
      exact length_placementOrder_div_le h.dim_le _
    exact ((sameEffect_setBuf h.canonical h.canonical' (by decide) hlen).trans
      (sameEffect_setCwLen _ _ (by decide) _)).succeed

/-! ### Masks and penalties -/

theorem TwoRuns.sameEffect_applyMask {i : Instr} (h : TwoRuns i s s') (hr : .mxVer ∈ regReads i)
    (hread : readsMatrix i = true) (hwrite : writesMatrix i = true) (m : Nat) :
    SameEffect i s s' (s.applyMask m) (s'.applyMask m) := by
  rw [State.applyMask, State.applyMask, h.dim hr]
  exact sameEffect_mapModules h.canonical h.canonical' hwrite (h.matrix hread) h.dim_le _

theorem TwoRuns.mxMask_endAlike {arg : BitVec 8} (h : TwoRuns (.mxMask arg) s s') :
    EndAlike (.mxMask arg) s s' (execMxMask arg s) (execMxMask arg s') := by
  have hver : .mxVer ∈ regReads (.mxMask arg) := List.mem_singleton_self _
  rw [execMxMask, execMxMask, h.noMatrix hver]
  split
  · exact endAlike_raise _
  · split
    · exact endAlike_raise _
    · exact (h.sameEffect_applyMask hver rfl rfl _).succeed

theorem TwoRuns.mxPenalty_endAlike (h : TwoRuns .mxPenalty s s') :
    EndAlike .mxPenalty s s' (execMxPenalty s) (execMxPenalty s') := by
  rw [execMxPenalty, execMxPenalty, h.noMatrix (by decide), h.param, h.dim (by decide), h.grid rfl]
  split
  · exact endAlike_raise _
  · exact (sameEffect_setPenalty s s' (by decide) _).succeed

theorem TwoRuns.mxSelect_endAlike (h : TwoRuns .mxSelect s s') :
    EndAlike .mxSelect s s' (execMxSelect s) (execMxSelect s') := by
  rw [execMxSelect, execMxSelect, h.noMatrix (by decide), h.param, h.dim (by decide), h.grid rfl]
  split
  · exact endAlike_raise _
  · exact ((((h.sameEffect_applyMask (by decide) rfl rfl _).trans (sameEffect_setPens _ _ (by decide) _)).trans
      (sameEffect_setPenalty _ _ (by decide) _)).trans (sameEffect_setMask _ _ (by decide) _)).succeed

/-! ### Stamping -/

theorem TwoRuns.mxStamp_endAlike (h : TwoRuns .mxStamp s s') :
    EndAlike .mxStamp s s' (execMxStamp s) (execMxStamp s') := by
  have hlevel : s'.regs.ecLevel = s.regs.ecLevel := eq_of_setWidth_word (by decide) (h.regs .ecLevel (by decide))
  have hmask : s'.regs.mask = s.regs.mask := eq_of_setWidth_word (by decide) (h.regs .mask (by decide))
  rw [execMxStamp, execMxStamp, h.noMatrix (by decide), hlevel, hmask, h.dim (by decide),
    h.matrixVersion (by decide)]
  split
  · exact endAlike_raise _
  · have hstamps : ∀ p ∈ formatStamps s.dim (formatWord s.regs.ecLevel s.regs.mask) ++ versionStamps s.matrixVersion,
        p.1.1 < dMax ∧ p.1.2 < dMax := fun p hp => by
      have hin : p.1.1 < s.dim ∧ p.1.2 < s.dim :=
        (List.mem_append.1 hp).elim (mem_formatStamps (Nat.le_add_right _ _)) mem_versionStamps
      exact ⟨hin.1.trans_le h.dim_le, hin.2.trans_le h.dim_le⟩
    exact ((sameEffect_paint h.canonical h.canonical' rfl (h.matrix rfl) hstamps).trans
      (sameEffect_setFmtWord _ _ (by decide) _)).succeed

/-! ### The transform -/

theorem TwoRuns.coef (h : TwoRuns .xfMap s s') (k : Fin 8) : s'.coef k = s.coef k := by
  have hlo : s'.readReg (.xfLo k) = s.readReg (.xfLo k) := h.regs _ (by simp [regReads, coefRegs])
  have hhi : s'.readReg (.xfHi k) = s.readReg (.xfHi k) := h.regs _ (by simp [regReads, coefRegs])
  exact congrArg BitVec.toInt (eq_of_halves hlo hhi)

theorem TwoRuns.xfMap_endAlike (h : TwoRuns .xfMap s s') : EndAlike .xfMap s s' (execXfMap s) (execXfMap s') := by
  have hrow : s'.regs.xfRow = s.regs.xfRow := eq_of_setWidth_word (by decide) (h.regs .xfRow (by decide))
  have hcol : s'.regs.xfCol = s.regs.xfCol := eq_of_setWidth_word (by decide) (h.regs .xfCol (by decide))
  have hx : s'.xfX = s.xfX := by simp only [State.xfX, State.xfColumn, State.xfRowIndex, h.coef, hrow, hcol]
  have hy : s'.xfY = s.xfY := by simp only [State.xfY, State.xfColumn, State.xfRowIndex, h.coef, hrow, hcol]
  have hw : s'.xfW = s.xfW := by simp only [State.xfW, State.xfColumn, State.xfRowIndex, h.coef, hrow, hcol]
  rw [execXfMap, execXfMap, hx, hy, hw]
  split
  · exact endAlike_raise _
  · dsimp only
    split
    · exact endAlike_raise _
    · exact (sameEffect_setPixel s s' (by decide) (by decide) _ _).succeed

end

/-! ### Every command -/

theorem TwoRuns.exec_endAlike {i : Instr} {s s' : State} (h : TwoRuns i s s') :
    EndAlike i s s' (exec i s) (exec i s') := by
  cases i with
  | nop => exact nop_endAlike
  | gfMul => exact h.gfMul_endAlike
  | gfDiv => exact h.gfDiv_endAlike
  | polyMul => exact h.polyMul_endAlike
  | polyDiv => exact h.polyDiv_endAlike
  | rsEncode => exact h.rsEncode_endAlike
  | rsSyndrome => exact h.rsSyndrome_endAlike
  | rsBm => exact h.rsBm_endAlike
  | rsChien => exact h.rsChien_endAlike
  | rsForney => exact h.rsForney_endAlike
  | rsDecode => exact h.rsDecode_endAlike
  | mxBase => exact h.mxBase_endAlike
  | mxPlace => exact h.mxPlace_endAlike
  | mxMask arg => exact h.mxMask_endAlike
  | mxPenalty => exact h.mxPenalty_endAlike
  | mxSelect => exact h.mxSelect_endAlike
  | mxStamp => exact h.mxStamp_endAlike
  | mxExtract => exact h.mxExtract_endAlike
  | xfMap => exact h.xfMap_endAlike

/-- The two ends of two runs: one outcome, and the same effect. -/
theorem TwoRuns.ends {i : Instr} {s s' t t' : State} (h : TwoRuns i s s') (ht : exec i s = .next t)
    (ht' : exec i s' = .next t') :
    SameEffect i s s' t t' ∧ t'.regs.err = t.regs.err ∧ t'.regs.unc = t.regs.unc := by
  obtain ⟨u, u', c, reason, heffect, hu, hu'⟩ := h.exec_endAlike
  cases hu.symm.trans ht
  cases hu'.symm.trans ht'
  exact ⟨heffect.complete c reason, rfl, rfl⟩

theorem twoRuns_self {s : State} (hwf : s.mem.wf = true) (hversion : s.regs.mxVer.toNat ≤ 40) (i : Instr) :
    TwoRuns i s s :=
  ⟨⟨rfl, fun _ _ => rfl, fun _ _ _ _ => rfl, fun _ _ _ _ _ => rfl⟩, hwf, hwf, hversion⟩

/-! ### The tables of R98 and R99 -/

theorem not_writesAt_of_buffer {i : Instr} {b : Buffer} (hb : b ∉ bufWrites i) {a : Nat} (ha : b.holds a = true) :
    ¬WritesAt i a := by
  rintro (⟨b', hb', ha'⟩ | ⟨-, hmodule⟩)
  · exact hb (Buffer.eq_of_holds ha ha' ▸ hb')
  · exact Buffer.not_isModuleAddr_of_holds ha hmodule

theorem not_writesAt_of_module {i : Instr} (hi : writesMatrix i = false) {a : Nat} (ha : isModuleAddr a = true) :
    ¬WritesAt i a := by
  rintro (⟨b, -, hb⟩ | ⟨hwrites, -⟩)
  · exact Buffer.not_isModuleAddr_of_holds hb ha
  · exact Bool.false_ne_true (hi.symm.trans hwrites)

/-- Settles O26: a run beside itself; what its row does not list cannot have been written, so it was kept. -/
theorem commandsWriteOnlyTheirRow : Obligations.CommandsWriteOnlyTheirRow := by
  intro i s t hwf hversion ht
  obtain ⟨heffect, -, -⟩ := (twoRuns_self hwf hversion i).ends ht ht
  refine ⟨fun r hr hrow => (heffect.regs r hr).kept_of_not hrow, heffect.accErr,
    fun hclean => heffect.clean.kept_of_not (Bool.eq_false_iff.1 hclean),
    fun b hb k hk => (heffect.ram _).kept_of_not (not_writesAt_of_buffer hb (Buffer.holds_base_add hk)),
    fun hi r c hr hc => ?_⟩
  have hkept := (heffect.ram _).kept_of_not (not_writesAt_of_module hi (isModuleAddr_moduleAddr hr hc))
  rw [State.moduleAt, hkept, State.moduleAt]

/-- Settles O27: by `TwoRuns.ends`, forgetting where the row allows the writes. -/
theorem commandsReadOnlyTheirRow : Obligations.CommandsReadOnlyTheirRow := by
  intro i s s' t t' hwf hwf' hversion _ hinputs ht ht'
  have hruns : TwoRuns i s s' := ⟨hinputs, hwf, hwf', hversion⟩
  obtain ⟨heffect, herr, hunc⟩ := hruns.ends ht ht'
  exact ⟨herr, hunc, heffect.clean.forget, fun r hr => (heffect.regs r hr).forget, fun a => (heffect.ram a).forget⟩

end Sys2Proof.Machine
end

section
/-! The engine's turn, command by word: which word it performs, and what it does with a word that is no command. -/

namespace Sys2Proof.Machine

/-! ### Turns and pending words (R105) -/

theorem perform_of_decode {w : Word} {i : Instr} (h : decode w = .ok i) (s : State) : perform w s = exec i s := by
  unfold perform
  rw [h]

/-- With no turn prescribed the engine moves while a command is pending. -/
theorem step_of_no_turns {s : State} {w : Word} (hturns : s.turns = []) (hpending : s.pending = some w) :
    step s = perform w s := by
  unfold step
  simp only [hturns, hpending]

theorem step_of_engine_turn {s : State} {rest : List Turn} (h : s.turns = .engine :: rest) :
    step s = engineTurn { s with turns := rest } := by
  unfold step
  rw [h]

/-! ### Words as bytes (R74, R90) -/

/-- A word is made of its own bytes, in bus order. -/
theorem wordOfBytes_extractLsb' (w : Word) : wordOfBytes (w.extractLsb' 0 8) (w.extractLsb' 8 8)
    (w.extractLsb' 16 8) (w.extractLsb' 24 8) = w := by
  unfold wordOfBytes
  rw [BitVec.extractLsb'_append_extractLsb'_eq_extractLsb' (by decide : 24 = 16 + 8),
    BitVec.extractLsb'_append_extractLsb'_eq_extractLsb' (by decide : 16 = 8 + 8),
    BitVec.extractLsb'_append_extractLsb'_eq_extractLsb' (by decide : 8 = 0 + 8)]
  exact BitVec.extractLsb'_eq_self

theorem decodeBytes_bytesOfWord (w : Word) : decodeBytes (bytesOfWord w) = (decode w).map (·, []) := by
  simp only [bytesOfWord, decodeBytes, wordOfBytes_extractLsb']
  cases decode w with
  | ok i => rfl
  | error e => rfl

theorem decode_of_decodeTableWord {nbits w : Nat} {i : Instr} (h : decodeTableWord nbits w = some i) :
    decode (BitVec.ofNat 32 (w % 2 ^ nbits)) = .ok i := by
  simp only [decodeTableWord, decodeBytes_bytesOfWord] at h
  cases hdecode : decode (BitVec.ofNat 32 (w % 2 ^ nbits)) with
  | ok j =>
    simp only [hdecode, Except.map, Option.ite_none_right_eq_some, Option.some.injEq] at h
    rw [h.2]
  | error e => simp [hdecode, Except.map] at h

/-- Settles O4: the engine's turn performs the pending word, which is the word `withFetchWord` put there. -/
theorem stepRunsDecodedCommand : Obligations.StepRunsDecodedCommand := by
  refine ⟨fun s w i hpending hdecode => ⟨fun hturns => ?_, fun rest hturns => ?_⟩, fun s nbits w i _ htable => ?_⟩
  · rw [step_of_no_turns hturns hpending, perform_of_decode hdecode]
  · calc step s
        = engineTurn { s with turns := rest } := step_of_engine_turn hturns
      _ = perform w { s with turns := rest } := engineTurn_some hpending
      _ = exec i { s with turns := rest } := perform_of_decode hdecode _
  · calc step (s.withFetchWord nbits w)
        = engineTurn (s.accept (BitVec.ofNat 32 (w % 2 ^ nbits))) := step_of_engine_turn rfl
      _ = perform (BitVec.ofNat 32 (w % 2 ^ nbits)) (s.accept _) := engineTurn_some (accept_pending s _)
      _ = exec i (s.accept _) := perform_of_decode (decode_of_decodeTableWord htable) _

/-! ### Words that are no commands (R109) -/

/-- Settles O5: a word that fits no row decodes to no command, and `perform_cases` leaves `EILLEGAL`. -/
theorem illegalWordEndsEillegal : Obligations.IllegalWordEndsEillegal := by
  intro s w hfits
  have hperform : perform w s = .next (s.endedWith .eIllegal .none) := by
    obtain ⟨i, hi, -⟩ | ⟨_, -, hillegal⟩ := perform_cases w s
    · obtain ⟨row, hrow, hfit⟩ := (legalWordsAreTheMap.1 w).1 ⟨i, hi⟩
      exact absurd hfit (Bool.eq_false_iff.1 (hfits row hrow))
    · exact hillegal
  exact ⟨hperform, fun hpending => (engineTurn_some hpending).trans hperform⟩

/-! ### Acceptance (R106) -/

/-- Settles O10: an idle block performs the write to `CMD`; a busy one blocks it, by `busyBlocksOtherAccesses`. -/
theorem commandWordAcceptance : Obligations.CommandWordAcceptance := by
  refine ⟨fun s w hidle => ?_, fun s w w' hbusy => ?_⟩
  · exact busWrite_addr (r := .cmd) (writeAllowed_of_idle hidle _) w
  · obtain ⟨-, -, -, hblocked⟩ := busyBlocksOtherAccesses s w' hbusy
    exact hblocked .w32 0x0000C#18 w (.inr (by decide))

/-! ### `NOP` (R110) -/

/-- Settles O29: `NOP` completes at once, and `STATUS` then has its `DONE` bit alone. -/
theorem nopCompletes : Obligations.NopCompletes := by
  refine fun s => ⟨rfl, fun haccErr hclean => ?_⟩
  simp [State.readReg, State.statusWord, State.busy, State.endedWith, Regs.completed, ErrCode.code, UncReason.code,
    haccErr, hclean]

end Sys2Proof.Machine
end

section
/-! Every command completes: it writes registers and RAM only, and then completes with an outcome of its table. -/

namespace Sys2Proof.Machine

/-! ### What a command writes before it completes -/

/-- From `s` to `t` only registers and RAM changed. -/
def OnlyRegsAndRam (s t : State) : Prop := ∃ g m, t = { s with regs := g, mem := m }

theorem OnlyRegsAndRam.refl (s : State) : OnlyRegsAndRam s s := ⟨_, _, rfl⟩

theorem OnlyRegsAndRam.trans {s t u : State} (h : OnlyRegsAndRam s t) (h' : OnlyRegsAndRam t u) :
    OnlyRegsAndRam s u := by
  obtain ⟨_, _, rfl⟩ := h
  obtain ⟨g, m, rfl⟩ := h'
  exact ⟨g, m, rfl⟩

theorem OnlyRegsAndRam.setRegs {s t : State} (h : OnlyRegsAndRam s t) (g : Regs) :
    OnlyRegsAndRam s { t with regs := g } :=
  h.trans ⟨_, _, rfl⟩

theorem onlyRegsAndRam_paint (s : State) (ps : List ((Nat × Nat) × Bool)) : OnlyRegsAndRam s (s.paint ps) := by
  induction ps generalizing s with
  | nil => exact .refl s
  | cons p ps ih => exact .trans ⟨_, _, rfl⟩ (ih (s.setColor p.1.1 p.1.2 p.2))

theorem onlyRegsAndRam_correct (s : State) (n : Nat) (is : List Nat) (ys : List Byte) :
    OnlyRegsAndRam s (s.correct n is ys) := by
  induction is generalizing s ys with
  | nil => exact .refl s
  | cons i is ih =>
    cases ys with
    | nil => exact .refl s
    | cons y ys => exact .trans ⟨_, _, rfl⟩ (ih _ ys)

theorem onlyRegsAndRam_syndromeBody (s : State) : OnlyRegsAndRam s s.syndromeBody := ⟨_, _, rfl⟩

theorem onlyRegsAndRam_bmBody (s : State) : OnlyRegsAndRam s s.bmBody := ⟨_, _, rfl⟩

theorem onlyRegsAndRam_chienBody (s : State) : OnlyRegsAndRam s s.chienBody := ⟨_, _, rfl⟩

theorem onlyRegsAndRam_forneyBody {s t : State} (h : s.forneyBody = some t) : OnlyRegsAndRam s t := by
  obtain ⟨ys, rfl⟩ := forneyBody_eq_some h
  exact (onlyRegsAndRam_correct s _ _ ys).setRegs _

/-! ### How a command ends -/

/-- The result is a completion with an outcome of the command's table, after writes to registers and RAM only. -/
def Completes (i : Instr) (s : State) (r : Result) : Prop :=
  ∃ t c u, OnlyRegsAndRam s t ∧ (c, u) ∈ outcomesOf i ∧ r = .next (t.complete c u)

/-- Success heads the list of every command (R212). -/
theorem ok_mem_outcomesOf (i : Instr) : (.ok, .none) ∈ outcomesOf i := by
  cases i <;> exact List.mem_cons_self

section
variable {i : Instr} {s t : State}

theorem OnlyRegsAndRam.succeed (h : OnlyRegsAndRam s t) : Completes i s (succeed t) :=
  ⟨t, .ok, .none, h, ok_mem_outcomesOf i, rfl⟩

theorem OnlyRegsAndRam.raiseUncorr (h : OnlyRegsAndRam s t) {u : UncReason}
    (hu : (.eUncorr, u) ∈ outcomesOf i) : Completes i s (raiseUncorr t u) :=
  ⟨t, .eUncorr, u, h, hu, rfl⟩

/-- A command that fails before it writes. -/
theorem completes_raise {c : ErrCode} (hc : (c, .none) ∈ outcomesOf i) : Completes i s (raise s c) :=
  ⟨s, c, .none, .refl s, hc, rfl⟩

theorem completes_ite {p : Prop} [Decidable p] {r r' : Result} (h : Completes i s r) (h' : Completes i s r') :
    Completes i s (if p then r else r') := by
  split
  · exact h
  · exact h'

/-- A check made before the first write: the command raises its code, or goes on (R213). -/
theorem completes_guard {p : Prop} [Decidable p] {c : ErrCode} {r : Result} (hc : (c, .none) ∈ outcomesOf i)
    (h : Completes i s r) : Completes i s (if p then raise s c else r) :=
  completes_ite (completes_raise hc) h

/-- The Forney stage corrects, or finds a position where the derivative vanishes (R146). -/
theorem completes_forney (h : OnlyRegsAndRam s t) (hu : (.eUncorr, .derivative) ∈ outcomesOf i) :
    Completes i s (match t.forneyBody with
      | none => raiseUncorr t .derivative
      | some u => succeed u) := by
  split
  · exact h.raiseUncorr hu
  · next hbody => exact (h.trans (onlyRegsAndRam_forneyBody hbody)).succeed

end

/-! ### The commands -/

section
variable (s : State)

theorem execGfDiv_completes : Completes .gfDiv s (execGfDiv s) :=
  completes_guard (by decide) (OnlyRegsAndRam.succeed ⟨_, _, rfl⟩)

theorem execPolyMul_completes : Completes .polyMul s (execPolyMul s) :=
  completes_guard (by decide) (OnlyRegsAndRam.succeed ⟨_, _, rfl⟩)

theorem execPolyDiv_completes : Completes .polyDiv s (execPolyDiv s) :=
  completes_guard (by decide) (completes_guard (by decide) (OnlyRegsAndRam.succeed ⟨_, _, rfl⟩))

theorem execRsEncode_completes : Completes .rsEncode s (execRsEncode s) :=
  completes_guard (by decide) (completes_guard (by decide) (OnlyRegsAndRam.succeed ⟨_, _, rfl⟩))

theorem execRsSyndrome_completes : Completes .rsSyndrome s (execRsSyndrome s) :=
  completes_guard (by decide) (completes_guard (by decide) (onlyRegsAndRam_syndromeBody s).succeed)

theorem execRsBm_completes : Completes .rsBm s (execRsBm s) :=
  have hbm := onlyRegsAndRam_bmBody s
  completes_guard (by decide) (completes_ite (hbm.raiseUncorr (by decide)) hbm.succeed)

theorem execRsChien_completes : Completes .rsChien s (execRsChien s) :=
  have hchien := onlyRegsAndRam_chienBody s
  completes_guard (by decide) (completes_ite (hchien.raiseUncorr (by decide)) hchien.succeed)

theorem execRsForney_completes : Completes .rsForney s (execRsForney s) :=
  completes_guard (by decide) (completes_guard (by decide) (completes_guard (by decide)
    (completes_forney (.refl s) (by decide))))

/-- Each stage that fails keeps the writes of the stages before it (R214). -/
theorem execRsDecode_completes : Completes .rsDecode s (execRsDecode s) :=
  have h1 := onlyRegsAndRam_syndromeBody s
  have h2 := h1.trans (onlyRegsAndRam_bmBody _)
  have h3 := h2.trans (onlyRegsAndRam_chienBody _)
  completes_guard (by decide) (completes_guard (by decide) (completes_ite (h1.setRegs _).succeed
    (completes_ite (h2.raiseUncorr (by decide)) (completes_ite (h3.raiseUncorr (by decide))
      (completes_forney h3 (by decide))))))

theorem execMxBase_completes : Completes .mxBase s (execMxBase s) :=
  completes_guard (by decide) (OnlyRegsAndRam.succeed ⟨_, _, rfl⟩)

theorem execMxPlace_completes : Completes .mxPlace s (execMxPlace s) :=
  completes_guard (by decide) (completes_guard (by decide) (onlyRegsAndRam_paint s _).succeed)

/-- On a mask index the check of the argument passes (R92). -/
theorem execMxMask_completes {arg : BitVec 8} (harg : maskArgOk arg = true) :
    Completes (.mxMask arg) s (execMxMask arg s) := by
  unfold execMxMask
  rw [if_neg (by simp [harg])]
  exact completes_guard (by simp [outcomesOf]) (OnlyRegsAndRam.succeed ⟨_, _, rfl⟩)

theorem execMxPenalty_completes : Completes .mxPenalty s (execMxPenalty s) :=
  completes_guard (by decide) (OnlyRegsAndRam.succeed ⟨_, _, rfl⟩)

theorem execMxSelect_completes : Completes .mxSelect s (execMxSelect s) :=
  have hwrites (m : Nat) (pens : List Penalty) (p : Penalty) :
      OnlyRegsAndRam s (((s.applyMask m).setPens pens).setPenalty p) := ⟨_, _, rfl⟩
  completes_guard (by decide) ((hwrites _ _ _).setRegs _).succeed

theorem execMxStamp_completes : Completes .mxStamp s (execMxStamp s) :=
  completes_guard (by decide) ((onlyRegsAndRam_paint s _).setRegs _).succeed

theorem execMxExtract_completes : Completes .mxExtract s (execMxExtract s) :=
  completes_guard (by decide) (OnlyRegsAndRam.succeed ⟨_, _, rfl⟩)

theorem execXfMap_completes : Completes .xfMap s (execXfMap s) :=
  completes_guard (by decide) (completes_guard (by decide) (OnlyRegsAndRam.succeed ⟨_, _, rfl⟩))

theorem exec_completes {i : Instr} (hwf : WellFormed i) : Completes i s (exec i s) := by
  cases i with
  | nop => exact (OnlyRegsAndRam.refl s).succeed
  | gfMul => exact OnlyRegsAndRam.succeed ⟨_, _, rfl⟩
  | gfDiv => exact execGfDiv_completes s
  | polyMul => exact execPolyMul_completes s
  | polyDiv => exact execPolyDiv_completes s
  | rsEncode => exact execRsEncode_completes s
  | rsSyndrome => exact execRsSyndrome_completes s
  | rsBm => exact execRsBm_completes s
  | rsChien => exact execRsChien_completes s
  | rsForney => exact execRsForney_completes s
  | rsDecode => exact execRsDecode_completes s
  | mxBase => exact execMxBase_completes s
  | mxPlace => exact execMxPlace_completes s
  | mxMask arg => exact execMxMask_completes s hwf
  | mxPenalty => exact execMxPenalty_completes s
  | mxSelect => exact execMxSelect_completes s
  | mxStamp => exact execMxStamp_completes s
  | mxExtract => exact execMxExtract_completes s
  | xfMap => exact execXfMap_completes s

end

/-- Settles O24: `exec_completes`, the completion written out. -/
theorem everyCommandCompletes : Obligations.EveryCommandCompletes := by
  intro i s hwf
  obtain ⟨_, c, u, ⟨g, m, rfl⟩, houtcome, hexec⟩ := exec_completes s hwf
  exact ⟨_, hexec, rfl, rfl, houtcome, rfl⟩

end Sys2Proof.Machine
end

section
/-! GF(256) as a field: multiplication by α is additive over `⊕`, so every product is, and the other identities of
R126 are sums of logarithms. A product is then fixed by the products of the eight powers of x, and so agrees with the
carry-less product of R127. -/

namespace Sys2Proof.Machine

/-! ### Sums (`⊕`) -/

theorem gfSum_append (xs ys : List Byte) : gfSum (xs ++ ys) = gfSum xs ^^^ gfSum ys := by
  induction xs with
  | nil => simp [gfSum]
  | cons x xs ih => simp [gfSum, ih, BitVec.xor_assoc]

@[simp] theorem gfSumRange_zero (f : Nat → Byte) : gfSumRange 0 f = 0#8 := rfl

theorem gfSumRange_succ (n : Nat) (f : Nat → Byte) : gfSumRange (n + 1) f = gfSumRange n f ^^^ f n := by
  simp [gfSumRange, List.range_succ, gfSum_append, gfSum]

theorem gfSumRange_succ_left (n : Nat) (f : Nat → Byte) :
    gfSumRange (n + 1) f = f 0 ^^^ gfSumRange n (fun i => f (i + 1)) := by
  simp [gfSumRange, List.range_succ_eq_map, gfSum, Function.comp_def]

theorem gfSumRange_congr {n : Nat} {f g : Nat → Byte} (h : ∀ i < n, f i = g i) : gfSumRange n f = gfSumRange n g :=
  congrArg gfSum (List.map_congr_left fun i hi => h i (List.mem_range.1 hi))

theorem gfSumRange_eq_zero {n : Nat} {f : Nat → Byte} (h : ∀ i < n, f i = 0#8) : gfSumRange n f = 0#8 := by
  induction n with
  | zero => rfl
  | succ n ih => rw [gfSumRange_succ, ih fun i hi => h i (by omega), h n (by omega), BitVec.xor_self]

/-! ### Maps that are additive over `⊕` -/

/-- The map sends `⊕` to `⊕`. -/
def XorAdditive (f : Byte → Byte) : Prop := ∀ x y, f (x ^^^ y) = f x ^^^ f y

theorem XorAdditive.map_zero {f : Byte → Byte} (hf : XorAdditive f) : f 0#8 = 0#8 := by
  simpa using hf 0#8 0#8

theorem XorAdditive.map_gfSumRange {f : Byte → Byte} (hf : XorAdditive f) (n : Nat) (t : Nat → Byte) :
    f (gfSumRange n t) = gfSumRange n (fun k => f (t k)) := by
  induction n with
  | zero => exact hf.map_zero
  | succ n ih => rw [gfSumRange_succ, gfSumRange_succ, hf, ih]

/-- A byte is the sum of the powers of x that its bits name (R115). -/
theorem eq_gfSumRange_bits :
    ∀ x : Byte, x = gfSumRange 8 (fun k => if x.getLsbD k then 1#8 <<< k else 0#8) := by decide +kernel

/-- Two additive maps are equal if they agree on the eight powers of x. -/
theorem XorAdditive.eq_of_powers {f g : Byte → Byte} (hf : XorAdditive f) (hg : XorAdditive g)
    (h : ∀ k < 8, f (1#8 <<< k) = g (1#8 <<< k)) (x : Byte) : f x = g x := by
  rw [eq_gfSumRange_bits x, hf.map_gfSumRange, hg.map_gfSumRange]
  refine gfSumRange_congr fun k hk => ?_
  split
  · exact h k hk
  · exact hf.map_zero.trans hg.map_zero.symm

/-! ### Multiplication by powers of α -/

theorem xorAdditive_alphaStep : XorAdditive alphaStep := by
  intro x y
  simp only [alphaStep, BitVec.getLsbD_xor, BitVec.shiftLeft_xor_distrib]
  generalize x <<< 1 = u, y <<< 1 = v
  cases x.getLsbD 7 <;> cases y.getLsbD 7
  · rfl
  · exact BitVec.xor_assoc ..
  · change u ^^^ v ^^^ 0x1D#8 = u ^^^ 0x1D#8 ^^^ v
    ac_rfl
  · calc u ^^^ v
        = u ^^^ v ^^^ (0x1D#8 ^^^ 0x1D#8) := by rw [BitVec.xor_self, BitVec.xor_zero]
      _ = u ^^^ 0x1D#8 ^^^ (v ^^^ 0x1D#8) := by ac_rfl

theorem xorAdditive_iterate_alphaStep (n : Nat) : XorAdditive (alphaStep^[n]) := by
  induction n with
  | zero => exact fun _ _ => rfl
  | succ n ih =>
    intro x y
    rw [Function.iterate_succ_apply', Function.iterate_succ_apply', Function.iterate_succ_apply', ih,
      xorAdditive_alphaStep]

theorem gfExp_add (i j : Nat) : gfExp (i + j) = alphaStep^[i] (gfExp j) := by
  induction i with
  | zero => rw [Nat.zero_add, Function.iterate_zero_apply]
  | succ i ih => rw [Nat.add_right_comm, gfExp_succ, ih, Function.iterate_succ_apply']

theorem gfExp_congr {i j : Nat} (h : i % 255 = j % 255) : gfExp i = gfExp j := by
  rw [← gfExp_mod i, h, gfExp_mod]

@[simp] theorem gfLog_gfExp_mod (i : Nat) : gfLog (gfExp i) = i % 255 := by
  rw [← gfExp_mod]
  exact gfLog_gfExp ⟨i % 255, Nat.mod_lt _ (by decide)⟩

theorem gfExp_ne_zero (i : Nat) : gfExp i ≠ 0#8 := by
  have hsmall : ∀ i : Fin 255, gfExp i.val ≠ 0#8 := by decide +kernel
  rw [← gfExp_mod]
  exact hsmall ⟨i % 255, Nat.mod_lt _ (by decide)⟩

theorem gfMul_gfExp_gfExp (i j : Nat) : gfMul (gfExp i) (gfExp j) = gfExp (i + j) := by
  rw [gfMul_of_ne (gfExp_ne_zero i) (gfExp_ne_zero j), gfLog_gfExp_mod, gfLog_gfExp_mod]
  exact gfExp_congr (Nat.add_mod i j 255).symm

/-- A product by `α^i` is `i` multiplications by α. -/
theorem gfMul_gfExp (i : Nat) (b : Byte) : gfMul (gfExp i) b = alphaStep^[i] b := by
  by_cases hb : b = 0#8
  · rw [hb, gfMul_zero_right, (xorAdditive_iterate_alphaStep i).map_zero]
  · rw [← gfExp_gfLog b hb, gfMul_gfExp_gfExp, gfExp_add]

/-! ### The identities of the field (R126) -/

theorem gfMul_xor_right (a b c : Byte) : gfMul a (b ^^^ c) = gfMul a b ^^^ gfMul a c := by
  by_cases ha : a = 0#8
  · simp [ha]
  · rw [← gfExp_gfLog a ha]
    simp only [gfMul_gfExp, xorAdditive_iterate_alphaStep (gfLog a) b c]

theorem gfMul_xor_left (a b c : Byte) : gfMul (a ^^^ b) c = gfMul a c ^^^ gfMul b c := by
  simp only [gfMul_comm _ c, gfMul_xor_right]

theorem gfMul_ne_zero {a b : Byte} (ha : a ≠ 0#8) (hb : b ≠ 0#8) : gfMul a b ≠ 0#8 := by
  rw [gfMul_of_ne ha hb]
  exact gfExp_ne_zero _

theorem gfMul_assoc (a b c : Byte) : gfMul (gfMul a b) c = gfMul a (gfMul b c) := by
  by_cases ha : a = 0#8
  · simp [ha]
  by_cases hb : b = 0#8
  · simp [hb]
  by_cases hc : c = 0#8
  · simp [hc]
  rw [← gfExp_gfLog a ha, ← gfExp_gfLog b hb, ← gfExp_gfLog c hc]
  simp only [gfMul_gfExp_gfExp, Nat.add_assoc]

@[simp] theorem gfMul_one_right (a : Byte) : gfMul a 1#8 = a := by
  rw [gfMul_comm, ← gfExp_zero, gfMul_gfExp, Function.iterate_zero_apply]

/-- The quotient multiplies back to the dividend (R119). -/
theorem gfMul_gfDiv_cancel (a : Byte) {b : Byte} (hb : b ≠ 0#8) : gfMul (gfDiv a b) b = a := by
  by_cases ha : a = 0#8
  · simp [ha]
  · have hlog := gfLog_le b
    calc gfMul (gfDiv a b) b
        = gfMul (gfExp (gfLog a + 255 - gfLog b)) (gfExp (gfLog b)) := by rw [gfDiv_of_ne ha, gfExp_gfLog b hb]
      _ = gfExp (gfLog a) := by rw [gfMul_gfExp_gfExp]; exact gfExp_congr (by omega)
      _ = a := gfExp_gfLog a ha

/-- A non-zero factor cancels: the difference of two equal products is a product that is zero. -/
theorem gfMul_right_cancel {a a' b : Byte} (hb : b ≠ 0#8) (h : gfMul a b = gfMul a' b) : a = a' := by
  have hzero : gfMul (a ^^^ a') b = 0#8 := by rw [gfMul_xor_left, h, BitVec.xor_self]
  exact BitVec.xor_eq_zero_iff.1 (not_not.1 fun hne => gfMul_ne_zero hne hb hzero)

theorem gfDiv_gfMul_cancel (a : Byte) {b : Byte} (hb : b ≠ 0#8) : gfDiv (gfMul a b) b = a :=
  gfMul_right_cancel hb (gfMul_gfDiv_cancel _ hb)

theorem gfDiv_self {a : Byte} (ha : a ≠ 0#8) : gfDiv a a = 1#8 :=
  gfMul_right_cancel ha (by rw [gfMul_gfDiv_cancel _ ha, gfMul_comm, gfMul_one_right])

/-- Settles O33: each identity is the lemma of its name; `EXP` is periodic, so its index may be taken mod 255. -/
theorem fieldLaws : Obligations.FieldLaws :=
  ⟨fun a _ _ hb => gfDiv_gfMul_cancel a hb, gfExp_gfLog, fun i j => (gfMul_gfExp_gfExp i j).trans (gfExp_mod _).symm,
    gfMul_comm, gfMul_assoc, gfMul_xor_right, gfMul_one_right, fun _ ha => gfDiv_self ha⟩

/-! ### The carry-less product (R127) -/

/-- A term added for either of two bits, and twice for both, is added for their sum. -/
theorem if_xor_eq_xor_if (p q : Bool) (u v t : Nat) :
    (if (p ^^ q) = true then u ^^^ v ^^^ t else u ^^^ v) =
      (if p = true then u ^^^ t else u) ^^^ (if q = true then v ^^^ t else v) := by
  cases p <;> cases q
  · rfl
  · exact Nat.xor_assoc ..
  · exact Nat.xor_right_comm ..
  · calc u ^^^ v
        = u ^^^ v ^^^ (t ^^^ t) := by rw [Nat.xor_self, Nat.xor_zero]
      _ = u ^^^ t ^^^ (v ^^^ t) := by ac_rfl

/-- Reduction modulo a polynomial over GF(2) is additive. -/
theorem bchReduce_xor (g deg k u v : Nat) :
    bchReduce g deg k (u ^^^ v) = bchReduce g deg k u ^^^ bchReduce g deg k v := by
  induction k generalizing u v with
  | zero => rfl
  | succ k ih =>
    rw [bchReduce, bchReduce, bchReduce, ← ih, Nat.testBit_xor, if_xor_eq_xor_if]

/-- One step of the carry-less product: add the first factor shifted to bit `k` of the second one. -/
def addShifted (a b : Byte) (acc k : Nat) : Nat := if b.getLsbD k then acc ^^^ (a.toNat <<< k) else acc

theorem carrylessProduct_eq_foldl (a b : Byte) : carrylessProduct a b = (List.range 8).foldl (addShifted a b) 0 := rfl

theorem addShifted_xor_left (a a' b : Byte) (u v k : Nat) :
    addShifted (a ^^^ a') b (u ^^^ v) k = addShifted a b u k ^^^ addShifted a' b v k := by
  unfold addShifted
  split
  · rw [BitVec.toNat_xor, Nat.shiftLeft_xor_distrib]; ac_rfl
  · rfl

theorem addShifted_xor_right (a b b' : Byte) (u v k : Nat) :
    addShifted a (b ^^^ b') (u ^^^ v) k = addShifted a b u k ^^^ addShifted a b' v k := by
  unfold addShifted
  rw [BitVec.getLsbD_xor]
  exact if_xor_eq_xor_if ..

theorem carrylessProduct_xor_left (a a' b : Byte) :
    carrylessProduct (a ^^^ a') b = carrylessProduct a b ^^^ carrylessProduct a' b := by
  have hsum := List.foldl_hom₂ (List.range 8) HXor.hXor _ _ _ 0 0 fun u v k =>
    (addShifted_xor_left a a' b u v k).symm
  simpa only [carrylessProduct_eq_foldl, Nat.xor_self] using hsum

theorem carrylessProduct_xor_right (a b b' : Byte) :
    carrylessProduct a (b ^^^ b') = carrylessProduct a b ^^^ carrylessProduct a b' := by
  have hsum := List.foldl_hom₂ (List.range 8) HXor.hXor _ _ _ 0 0 fun u v k =>
    (addShifted_xor_right a b b' u v k).symm
  simpa only [carrylessProduct_eq_foldl, Nat.xor_self] using hsum

theorem xorAdditive_reducedProduct_left (b : Byte) : XorAdditive (reducedProduct · b) := fun a a' => by
  simp only [reducedProduct, carrylessProduct_xor_left, bchReduce_xor, BitVec.ofNat_xor]

theorem xorAdditive_reducedProduct_right (a : Byte) : XorAdditive (reducedProduct a) := fun b b' => by
  simp only [reducedProduct, carrylessProduct_xor_right, bchReduce_xor, BitVec.ofNat_xor]

/-- Both products are additive in each factor, so they agree if they do on the powers of x (R127). -/
theorem reducedProduct_eq_gfMul (a b : Byte) : reducedProduct a b = gfMul a b := by
  have hpowers : ∀ i < 8, ∀ j < 8,
      reducedProduct (1#8 <<< i) (1#8 <<< j) = gfMul (1#8 <<< i) (1#8 <<< j) := by decide
  refine (xorAdditive_reducedProduct_right a).eq_of_powers (gfMul_xor_right a) (fun j hj => ?_) b
  exact (xorAdditive_reducedProduct_left (1#8 <<< j)).eq_of_powers (g := (gfMul · (1#8 <<< j)))
    (fun a a' => gfMul_xor_left a a' _) (fun i hi => hpowers i hi j hj) a

end Sys2Proof.Machine
end

section
/-! The scalar GF commands, and the tables `EXP` and `LOG` as the bus reads them. -/

namespace Sys2Proof.Machine

/-! ### The scalar commands (R120, R121) -/

/-- Settles O30: `RES` is the table product, which is the reduced carry-less product. -/
theorem gfMulResult : Obligations.GfMulResult := by
  intro s
  rw [reducedProduct_eq_gfMul]
  rfl

/-- Settles O31: the table quotient multiplies back to `OPA`, and a non-zero `OPB` cancels from two products. -/
theorem gfDivResult : Obligations.GfDivResult := by
  refine fun s => ⟨fun hb => ?_, fun hb => if_pos hb⟩
  simp only [reducedProduct_eq_gfMul]
  have hquotient := gfMul_gfDiv_cancel s.regs.opa hb
  exact ⟨gfDiv s.regs.opa s.regs.opb, hquotient,
    fun q' hq' => gfMul_right_cancel hb (hq'.trans hquotient.symm), if_neg hb⟩

/-! ### The tables on the bus (R116, R117) -/

theorem tableByte_exp {addr i : Nat} (haddr : addr = 0x02000 + i) (hi : i < 512) : tableByte addr = gfExp i := by
  rw [haddr, tableByte, romByte, if_pos (by omega), Option.getD_some, Nat.add_sub_cancel_left]

theorem tableByte_log (a : Byte) : tableByte (0x02200 + a.toNat) = BitVec.ofNat 8 (gfLog a) := by
  have ha := a.isLt
  rw [tableByte, romByte, if_neg (by omega), if_pos (by omega), Option.getD_some, Nat.add_sub_cancel_left,
    BitVec.ofNat_toNat, BitVec.setWidth_eq]

/-- R116 writes the reduction on the nine bits of the shifted byte. -/
theorem alphaStep_eq_nineBits : ∀ v : Byte, alphaStep v =
    (if v.getLsbD 7 then (v.setWidth 9 <<< 1) ^^^ 0x11D#9 else v.setWidth 9 <<< 1).setWidth 8 := by decide +kernel

/-- Settles O32: a table address reads as `gfExp` or `gfLog`, which follow the rules of R116 and R117. -/
theorem expAndLogTables : Obligations.ExpAndLogTables := by
  have hexp {i : Nat} (hi : i < 512) : tableByte (0x02000 + i) = gfExp i := tableByte_exp rfl hi
  refine ⟨(tableByte_exp rfl (by decide)).trans gfExp_zero, fun i hi => ?_, fun i hi => ?_, fun i hi => ?_, ?_⟩
  · rw [hexp (by omega), tableByte_exp (i := i + 1) (by omega) (by omega), gfExp_succ, alphaStep_eq_nineBits]
  · rw [hexp (by omega), tableByte_exp (i := i + 255) (by omega) (by omega), gfExp_congr (Nat.add_mod_right i 255)]
  · rw [hexp (by omega), tableByte_log, gfLog_gfExp_mod, Nat.mod_eq_of_lt hi]
  · have hzero : gfLog 0#8 = 0 := by decide
    simpa [hzero] using tableByte_log 0#8

end Sys2Proof.Machine
end

section
/-! Polynomials over the field, coefficient by coefficient: the product is the convolution of R123, the long division
of R124 multiplies back, and what the two commands leave in `R`. -/

namespace Sys2Proof.Machine

/-! ### Convolutions -/

/-- The convolution depends only on the coefficients the lengths cover. -/
theorem convolution_congr {la lb : Nat} {f f' g g' : Nat → Byte} (hf : ∀ i < la, f i = f' i)
    (hg : ∀ j < lb, g j = g' j) (k : Nat) : convolution la lb f g k = convolution la lb f' g' k := by
  refine gfSumRange_congr fun i hi => ?_
  split
  · next hin => rw [hf i hi, hg _ hin.2]
  · rfl

/-- The coefficient of lowest index set apart. -/
theorem convolution_succ_zero {la lb : Nat} (hlb : 0 < lb) (f g : Nat → Byte) :
    convolution (la + 1) lb f g 0 = gfMul (f 0) (g 0) := by
  rw [convolution, gfSumRange_succ_left, gfSumRange_eq_zero fun i _ => if_neg (by omega), if_pos ⟨le_rfl, hlb⟩,
    BitVec.xor_zero]

theorem convolution_succ_succ {lb : Nat} {g : Nat → Byte} (hg : ∀ j, lb ≤ j → g j = 0#8) (la : Nat)
    (f : Nat → Byte) (k : Nat) : convolution (la + 1) lb f g (k + 1) =
      gfMul (f 0) (g (k + 1)) ^^^ convolution la lb (fun i => f (i + 1)) g k := by
  rw [convolution, gfSumRange_succ_left]
  congr 1
  · split
    · rfl
    · rw [hg (k + 1) (by omega), gfMul_zero_right]
  · exact gfSumRange_congr fun i _ => by simp

/-! ### Coefficients of lists -/

theorem getD_map_gfMul (x : Byte) (ys : List Byte) (k : Nat) :
    (ys.map (gfMul x)).getD k 0#8 = gfMul x (ys.getD k 0#8) := by
  rw [← gfMul_zero_right x, List.getD_map, gfMul_zero_right]

theorem getD_addOnto {xs ys : List Byte} (hlen : xs.length ≤ ys.length) (k : Nat) :
    (addOnto xs ys).getD k 0#8 = xs.getD k 0#8 ^^^ ys.getD k 0#8 := by
  induction xs generalizing ys k with
  | nil => simp [addOnto]
  | cons x xs ih =>
    cases ys with
    | nil => simp at hlen
    | cons y ys =>
      cases k with
      | zero => rfl
      | succ k => exact ih (Nat.le_of_succ_le_succ hlen) k

/-! ### The product (R123) -/

theorem length_le_polyMul (xs ys : List Byte) : ys.length ≤ (polyMul xs ys).length + 1 := by
  induction xs with
  | nil => simp only [polyMul, List.length_replicate]; omega
  | cons x xs ih => simp only [polyMul, length_addOnto, List.length_cons]; omega

/-- The coefficients of the product are the convolution. -/
theorem getD_polyMul (xs : List Byte) {ys : List Byte} (hys : 0 < ys.length) (k : Nat) :
    (polyMul xs ys).getD k 0#8 =
      convolution xs.length ys.length (xs.getD · 0#8) (ys.getD · 0#8) k := by
  induction xs generalizing k with
  | nil => simp [polyMul, convolution]
  | cons x xs ih =>
    rw [polyMul, getD_addOnto (by simpa using length_le_polyMul xs ys), getD_map_gfMul, List.length_cons]
    cases k with
    | zero => simp [convolution_succ_zero hys]
    | succ k =>
      rw [convolution_succ_succ (fun j => List.getD_eq_default _ _), List.getD_cons_succ, ih]
      rfl

/-! ### Long division (R124) -/

/-- What the division loop leaves: the quotient digits, then the working copy. -/
def divisionDigits (divisor : List Byte) (lq : Nat) (work : List Byte) : List Byte :=
  (polyDivLoop divisor lq work).1 ++ (polyDivLoop divisor lq work).2

theorem divisionDigits_zero (divisor work : List Byte) : divisionDigits divisor 0 work = work := rfl

theorem divisionDigits_succ (d : Byte) (ds : List Byte) (lq : Nat) (w : Byte) (work : List Byte) :
    divisionDigits (d :: ds) (lq + 1) (w :: work) =
      gfDiv w d :: divisionDigits (d :: ds) lq (addOnto (ds.map (gfMul (gfDiv w d))) work) := rfl

/-- The division identity: the working copy is the product of the quotient digits and the divisor, plus the
remainder that stands after the digits. -/
theorem getD_work_eq_convolution {divisor : List Byte} (hlead : divisor.getD 0 0#8 ≠ 0#8) (lq : Nat)
    {work : List Byte} (hlen : work.length + 1 = lq + divisor.length) (k : Nat) :
    work.getD k 0#8 =
      convolution lq divisor.length ((divisionDigits divisor lq work).getD · 0#8) (divisor.getD · 0#8) k ^^^
        (if k < lq then 0#8 else (divisionDigits divisor lq work).getD k 0#8) := by
  obtain _ | ⟨d, ds⟩ := divisor
  · exact absurd rfl hlead
  induction lq generalizing work k with
  | zero => simp [convolution, divisionDigits_zero]
  | succ lq ih =>
    cases work with
    | nil => simp only [List.length_cons, List.length_nil] at hlen; omega
    | cons w work =>
      rw [divisionDigits_succ]
      cases k with
      | zero =>
        rw [convolution_succ_zero (by simp), if_pos (Nat.succ_pos _), BitVec.xor_zero]
        exact (gfMul_gfDiv_cancel w hlead).symm
      | succ k =>
        have hlen' : work.length = lq + ds.length := by simp only [List.length_cons] at hlen; omega
        have hnext := ih (work := addOnto (ds.map (gfMul (gfDiv w d))) work)
          k (by rw [length_addOnto, hlen', List.length_cons, Nat.add_assoc])
        rw [getD_addOnto (by rw [List.length_map]; omega), getD_map_gfMul] at hnext
        rw [convolution_succ_succ (fun j => List.getD_eq_default _ _)]
        simp only [List.getD_cons_succ, List.getD_cons_zero, Nat.add_lt_add_iff_right, BitVec.xor_assoc]
        rw [← hnext, ← BitVec.xor_assoc, BitVec.xor_self, BitVec.zero_xor]

/-- The quotient and the remainder of `POLY_DIV` multiply back to the dividend. -/
theorem getD_dividend_eq_convolution {dividend divisor : List Byte} (hle : divisor.length ≤ dividend.length)
    (hlead : divisor.getD 0 0#8 ≠ 0#8) (k : Nat) :
    dividend.getD k 0#8 =
      convolution (dividend.length - divisor.length + 1) divisor.length
          ((polyDivResult dividend divisor).getD · 0#8) (divisor.getD · 0#8) k ^^^
        (if k < dividend.length - divisor.length + 1 then 0#8 else (polyDivResult dividend divisor).getD k 0#8) := by
  have hresult : polyDivResult dividend divisor =
      divisionDigits divisor (dividend.length - divisor.length + 1) dividend := if_pos hle
  rw [hresult]
  exact getD_work_eq_convolution hlead _ (by omega) k

/-- A dividend shorter than the divisor is the remainder, after leading zeros. -/
theorem getD_polyDivResult_of_lt {dividend divisor : List Byte} (hlt : dividend.length < divisor.length) (k : Nat) :
    (polyDivResult dividend divisor).getD k 0#8 =
      if k < divisor.length - 1 - dividend.length then 0#8
      else dividend.getD (k - (divisor.length - 1 - dividend.length)) 0#8 := by
  have hresult : polyDivResult dividend divisor =
      List.replicate (divisor.length - 1 - dividend.length) 0#8 ++ dividend := if_neg (Nat.not_le.2 hlt)
  rw [hresult]
  split
  · next hk => rw [List.getD_append _ _ _ _ (by simpa using hk), List.getD_replicate _ hk]
  · next hk => rw [List.getD_append_right _ _ _ _ (by simpa using hk), List.length_replicate]

/-! ### Buffers after a store -/

theorem buf_setBuf_self {s : State} (hwf : s.mem.wf = true) (b : Buffer) {bytes : List Byte} {k : Nat}
    (hk : k < bytes.length) : (s.setBuf b bytes).buf b k = bytes.getD k 0#8 := by
  rw [State.buf, setBuf_mem, read_store hwf, if_pos (by omega), Nat.add_sub_cancel_left]

theorem sameRamOutside_setBuf {s : State} (hwf : s.mem.wf = true) (b : Buffer) (bytes : List Byte) :
    SameRamOutside b.base bytes.length s (s.setBuf b bytes) := fun a ha => by
  rw [setBuf_mem, read_store hwf, if_neg ha]

theorem getD_opA {s : State} (hwf : s.mem.wf = true) {k : Nat} (hk : k < s.la) : s.opA.getD k 0#8 = s.buf .bufA k :=
  getD_bytes hwf _ _ _ hk

theorem getD_opB {s : State} (hwf : s.mem.wf = true) {k : Nat} (hk : k < s.lb) : s.opB.getD k 0#8 = s.buf .bufB k :=
  getD_bytes hwf _ _ _ hk

/-! ### The polynomial commands -/

/-- A command that ends by writing a polynomial result: its coefficients, its length, and nothing else. -/
theorem succeed_setResult {s : State} (hwf : s.mem.wf = true) (bytes : List Byte) :
    ∃ t, succeed (s.setResult bytes) = .next t ∧
      Ended s t (({ s.regs with lenR := BitVec.ofNat 10 bytes.length } : Regs).completed .ok .none) ∧
      (∀ k < bytes.length, t.buf .bufR k = bytes.getD k 0#8) ∧
      SameRamOutside Buffer.bufR.base bytes.length s t :=
  ⟨_, rfl, rfl, fun _ hk => buf_setBuf_self hwf .bufR hk, sameRamOutside_setBuf hwf .bufR bytes⟩

/-- The length check of the polynomial commands (R122). -/
theorem polyLens_iff {s : State} : (!polyLenOk s.la || !polyLenOk s.lb) = true ↔
    ¬(1 ≤ s.la ∧ s.la ≤ 256 ∧ 1 ≤ s.lb ∧ s.lb ≤ 256) := by
  rw [← Bool.not_and, Bool.not_eq_true', Bool.eq_false_iff, ne_eq, Bool.and_eq_true, polyLenOk_iff, polyLenOk_iff,
    and_assoc]

/-- Settles O34: the coefficients stored are those of `polyMul`, which `getD_polyMul` says are the convolution. -/
theorem polyMulIsConvolution : Obligations.PolyMulIsConvolution := by
  refine fun s hwf => ⟨fun hlens => ?_, fun hlens => if_pos (polyLens_iff.2 hlens)⟩
  have hexec : exec .polyMul s = succeed (s.setResult (polyMul s.opA s.opB)) :=
    if_neg fun h => polyLens_iff.1 h hlens
  have hlen := length_polyMul s.opA s.opB (List.ne_nil_of_length_pos (by rw [length_opA]; omega))
    (List.ne_nil_of_length_pos (by rw [length_opB]; omega))
  rw [length_opA, length_opB] at hlen
  obtain ⟨t, ht, hended, hbuf, hram⟩ := succeed_setResult hwf (polyMul s.opA s.opB)
  rw [hlen] at hended hbuf hram
  refine ⟨t, hexec.trans ht, hended, fun k hk => ?_, hram⟩
  rw [hbuf k hk, getD_polyMul _ (by rw [length_opB]; omega), length_opA, length_opB]
  exact convolution_congr (fun i hi => getD_opA hwf hi) (fun j hj => getD_opB hwf hj) k

/-- Settles O35: the bytes stored are those of `polyDivResult`, which multiply back to the dividend, or are the
dividend after leading zeros where it is the shorter. -/
theorem polyDivIsLongDivision : Obligations.PolyDivIsLongDivision := by
  intro s hwf
  have hchecked (hlens : 1 ≤ s.la ∧ s.la ≤ 256 ∧ 1 ≤ s.lb ∧ s.lb ≤ 256) : exec .polyDiv s =
      if s.buf .bufB 0 = 0#8 then raise s .eDivZero else succeed (s.setResult (polyDivResult s.opA s.opB)) :=
    if_neg fun h => polyLens_iff.1 h hlens
  refine ⟨fun hlens hlead => ?_, fun hlens => if_pos (polyLens_iff.2 hlens), fun hlens hlead => ?_⟩
  · obtain ⟨t, ht, hended, hbuf, hram⟩ := succeed_setResult hwf (polyDivResult s.opA s.opB)
    have hexec : exec .polyDiv s = .next t := by rw [hchecked hlens, if_neg hlead, ht]
    rw [length_polyDivResult, length_opA, length_opB] at hended hbuf hram
    refine ⟨fun hle => ?_, fun hlt => ?_⟩
    · rw [Nat.max_eq_left (by omega)] at hended hbuf hram
      refine ⟨t, hexec, hended, fun k hk => ?_, hram⟩
      have hdivision := getD_dividend_eq_convolution (dividend := s.opA) (divisor := s.opB) (by simpa using hle)
        (by rwa [getD_opB hwf (by omega)]) k
      rw [length_opA, length_opB, getD_opA hwf hk, ← hbuf k hk] at hdivision
      rw [hdivision, convolution_congr (fun i hi => (hbuf i (by omega)).symm) (fun j hj => getD_opB hwf hj)]
    · rw [Nat.max_eq_right (by omega)] at hended hbuf hram
      refine ⟨t, hexec, hended, fun k hk => ?_, hram⟩
      rw [hbuf k hk, getD_polyDivResult_of_lt (by simpa using hlt), length_opA, length_opB]
      split
      · rfl
      · exact getD_opA hwf (by omega)
  · rw [hchecked hlens, if_pos hlead]
    rfl

end Sys2Proof.Machine
end

section
/-! GF(256) as a field of Mathlib: a map of the bytes to a field that turns `⊕` and `⊗` into its sum and product, so
that facts about polynomials over a field speak of the codec. -/

namespace Sys2Proof.Machine

open Finset

/-! ### Bytes as elements of a field -/

/-- The map sends the bytes with `⊕` and `⊗` one-to-one onto a field. -/
structure FieldModel {F : Type} [Field F] (φ : Byte → F) : Prop where
  map_xor : ∀ a b, φ (a ^^^ b) = φ a + φ b
  map_mul : ∀ a b, φ (gfMul a b) = φ a * φ b
  map_one : φ 1#8 = 1
  injective : Function.Injective φ
  surjective : Function.Surjective φ

/-- The inverse of a byte, with the value 0 at 0. -/
def gfInv (a : Byte) : Byte := if a = 0#8 then 0#8 else gfDiv 1#8 a

theorem gfInv_zero : gfInv 0#8 = 0#8 := rfl

theorem gfMul_gfInv {a : Byte} (ha : a ≠ 0#8) : gfMul a (gfInv a) = 1#8 := by
  rw [gfInv, if_neg ha, gfMul_comm, gfMul_gfDiv_cancel _ ha]

/-- The bytes as a type of their own, without the arithmetic that bit vectors already have. -/
structure GfElement where
  byte : Byte

/-- The field of R115. -/
abbrev gfField : Field GfElement :=
  @Field.ofMinimalAxioms GfElement ⟨fun a b => ⟨a.byte ^^^ b.byte⟩⟩ ⟨fun a b => ⟨gfMul a.byte b.byte⟩⟩ ⟨id⟩
    ⟨fun a => ⟨gfInv a.byte⟩⟩ ⟨⟨0#8⟩⟩ ⟨⟨1#8⟩⟩
    (fun _ _ _ => congrArg GfElement.mk (BitVec.xor_assoc ..))
    (fun _ => congrArg GfElement.mk BitVec.zero_xor)
    (fun _ => congrArg GfElement.mk BitVec.xor_self)
    (fun _ _ _ => congrArg GfElement.mk (gfMul_assoc ..))
    (fun _ _ => congrArg GfElement.mk (gfMul_comm ..))
    (fun _ => congrArg GfElement.mk ((gfMul_comm ..).trans (gfMul_one_right _)))
    (fun _ ha => congrArg GfElement.mk (gfMul_gfInv fun h => ha (congrArg GfElement.mk h)))
    (congrArg GfElement.mk gfInv_zero)
    (fun _ _ _ => congrArg GfElement.mk (gfMul_xor_right ..))
    ⟨⟨0#8⟩, ⟨1#8⟩, fun h => absurd (congrArg GfElement.byte h) (by decide)⟩

theorem exists_fieldModel : ∃ (F : Type) (_ : Field F) (φ : Byte → F), FieldModel φ :=
  ⟨GfElement, gfField, GfElement.mk,
    @FieldModel.mk _ gfField _ (fun _ _ => rfl) (fun _ _ => rfl) rfl (fun _ _ h => congrArg GfElement.byte h)
      fun a => ⟨a.byte, rfl⟩⟩

section
variable {F : Type} [Field F] {φ : Byte → F} (h : FieldModel φ)
include h

namespace FieldModel

theorem map_zero : φ 0#8 = 0 := by
  have hsum := h.map_xor 0#8 0#8
  rw [BitVec.xor_self] at hsum
  exact left_eq_add.1 hsum

theorem map_eq_zero {a : Byte} : φ a = 0 ↔ a = 0#8 := by
  rw [← h.map_zero]
  exact h.injective.eq_iff

/-- The field has characteristic 2 (R115). -/
theorem charTwo : CharP F 2 := by
  refine CharTwo.of_one_ne_zero_of_two_eq_zero one_ne_zero ?_
  rw [← one_add_one_eq_two, ← h.map_one, ← h.map_xor, BitVec.xor_self, h.map_zero]

theorem add_self (x : F) : x + x = 0 :=
  have := h.charTwo
  CharTwo.add_self_eq_zero x

theorem neg_eq (x : F) : -x = x := neg_eq_of_add_eq_zero_left (h.add_self x)

theorem map_sum (n : Nat) (f : Nat → Byte) : φ (gfSumRange n f) = ∑ k ∈ range n, φ (f k) := by
  induction n with
  | zero => exact h.map_zero
  | succ n ih => rw [gfSumRange_succ, h.map_xor, ih, sum_range_succ]

theorem map_pow (z : Byte) (k : Nat) : φ (gfPow z k) = φ z ^ k := by
  induction k with
  | zero => rw [gfPow, h.map_one, pow_zero]
  | succ k ih => rw [gfPow, h.map_mul, ih, pow_succ]

theorem map_div (a : Byte) {b : Byte} (hb : b ≠ 0#8) : φ (gfDiv a b) = φ a / φ b := by
  rw [eq_div_iff (mt h.map_eq_zero.1 hb), ← h.map_mul, gfMul_gfDiv_cancel a hb]

/-! ### Powers of α -/

theorem map_gfExp (i : Nat) : φ (gfExp i) = φ (gfExp 1) ^ i := by
  induction i with
  | zero => rw [gfExp_zero, h.map_one, pow_zero]
  | succ i ih => rw [← gfMul_gfExp_gfExp, h.map_mul, ih, pow_succ]

theorem map_gfExp_ne_zero (i : Nat) : φ (gfExp i) ≠ 0 := mt h.map_eq_zero.1 (gfExp_ne_zero i)

theorem map_gfExp_mul (i j : Nat) : φ (gfExp (i * j)) = φ (gfExp i) ^ j := by
  rw [h.map_gfExp, pow_mul, ← h.map_gfExp]

theorem map_gfExp_injOn : Set.InjOn (fun i => φ (gfExp i)) {i | i < 255} := fun i hi j hj hij => by
  have hlog := congrArg gfLog (h.injective hij)
  rw [gfLog_gfExp_mod, gfLog_gfExp_mod] at hlog
  rwa [Nat.mod_eq_of_lt hi, Nat.mod_eq_of_lt hj] at hlog

theorem map_inversePower {i : Nat} (hi : i ≤ 255) : φ (inversePower i) = (φ (gfExp i))⁻¹ := by
  refine eq_inv_of_mul_eq_one_left ?_
  rw [← h.map_mul, inversePower, gfExp_mod, gfMul_gfExp_gfExp, Nat.sub_add_cancel hi, ← h.map_one, ← gfExp_zero]
  exact congrArg φ (gfExp_congr rfl)

end FieldModel

end

end Sys2Proof.Machine
end

section
/-! Polynomials with the coefficients of an array: values, products and the generators of R131, and the encoder as a
division by a generator. -/

namespace Sys2Proof.Machine

open Finset Polynomial

/-! ### The polynomial of an array -/

section
variable {F : Type} [Field F] (φ : Byte → F)

/-- The polynomial with the coefficients `f 0 .. f (n-1)`, ascending. -/
noncomputable def coefPoly (n : Nat) (f : Nat → Byte) : F[X] := ∑ k ∈ range n, C (φ (f k)) * X ^ k

theorem coeff_coefPoly (n : Nat) (f : Nat → Byte) (k : Nat) :
    (coefPoly φ n f).coeff k = if k < n then φ (f k) else 0 := by
  simp [coefPoly]

theorem eval_coefPoly (n : Nat) (f : Nat → Byte) (x : F) :
    (coefPoly φ n f).eval x = ∑ k ∈ range n, φ (f k) * x ^ k := by
  simp [coefPoly, eval_finsetSum]

theorem natDegree_coefPoly_le (n : Nat) (f : Nat → Byte) : (coefPoly φ (n + 1) f).natDegree ≤ n :=
  natDegree_le_iff_coeff_eq_zero.2 fun k hk => by rw [coeff_coefPoly, if_neg (by omega)]

theorem coefPoly_congr {n : Nat} {f g : Nat → Byte} (hfg : ∀ k < n, f k = g k) : coefPoly φ n f = coefPoly φ n g :=
  sum_congr rfl fun k hk => by rw [hfg k (mem_range.1 hk)]

/-- An array read from its end has the value of the array read from its start, at the inverse (R132). -/
theorem sum_descending (n : Nat) (f : Nat → Byte) {x : F} (hx : x ≠ 0) :
    ∑ i ∈ range n, φ (f (n - 1 - i)) * x ^ i = x ^ (n - 1) * (coefPoly φ n f).eval x⁻¹ := by
  rw [eval_coefPoly, mul_sum, ← sum_range_reflect]
  refine sum_congr rfl fun k hk => ?_
  have hk := mem_range.1 hk
  rw [show n - 1 - (n - 1 - k) = k by omega, pow_sub₀ x hx (by omega), inv_pow]
  ring

variable {φ} (h : FieldModel φ)
include h

namespace FieldModel

theorem map_valueAt (n : Nat) (f : Nat → Byte) (z : Byte) :
    φ (valueAt n f z) = (coefPoly φ n f).eval (φ z) := by
  simp only [valueAt, h.map_sum, h.map_mul, h.map_pow, eval_coefPoly]

/-- `S_j` is the value of the block at `α^j` (R135). -/
theorem map_syndromeOf (n : Nat) (f : Nat → Byte) (j : Nat) :
    φ (syndromeOf n f j) = φ (gfExp j) ^ (n - 1) * (coefPoly φ n f).eval (φ (gfExp j))⁻¹ := by
  rw [← sum_descending φ n f (h.map_gfExp_ne_zero j), syndromeOf, h.map_sum]
  refine sum_congr rfl fun i _ => ?_
  rw [h.map_mul, gfExp_mod, Nat.mul_comm, h.map_gfExp_mul]

/-- The convolution of two arrays is the product of their polynomials (R123). -/
theorem coefPoly_convolution (la lb : Nat) (f g : Nat → Byte) :
    coefPoly φ (la + lb) (convolution la (lb + 1) f g) = coefPoly φ la f * coefPoly φ (lb + 1) g := by
  ext k
  have hproduct : (coefPoly φ la f * coefPoly φ (lb + 1) g).coeff k =
      ∑ i ∈ range la, if i ≤ k ∧ k - i < lb + 1 then φ (f i) * φ (g (k - i)) else 0 := by
    rw [coefPoly, sum_mul, finsetSum_coeff]
    refine sum_congr rfl fun i _ => ?_
    rw [mul_assoc, coeff_C_mul, coeff_X_pow_mul', coeff_coefPoly]
    by_cases hi : i ≤ k <;> simp [hi]
  rw [hproduct, coeff_coefPoly]
  split
  · rw [convolution, h.map_sum]
    refine sum_congr rfl fun i _ => ?_
    split
    · exact h.map_mul ..
    · exact h.map_zero
  · exact (sum_eq_zero fun i hi => if_neg (by have := mem_range.1 hi; omega)).symm

/-! ### The generators (R131) -/

theorem coefPoly_genPoly (e : Nat) :
    coefPoly φ (e + 1) ((genPoly e).getD · 0#8) = ∏ j ∈ range e, (1 + C (φ (gfExp j)) * X) := by
  induction e with
  | zero => simp [coefPoly, genPoly, h.map_one]
  | succ e ih =>
    have hfactor : coefPoly φ 2 ([1#8, gfExp e].getD · 0#8) = 1 + C (φ (gfExp e)) * X := by
      simp [coefPoly, sum_range_succ, h.map_one]
    rw [prod_range_succ, ← ih, ← hfactor, ← h.coefPoly_convolution]
    refine coefPoly_congr φ fun k _ => ?_
    rw [genPoly, getD_polyMul _ (by simp), length_genPoly]
    rfl

/-- A generator vanishes at `α^0 .. α^(e-1)`: read from its start, at their inverses. -/
theorem eval_genPoly {e j : Nat} (hj : j < e) :
    (coefPoly φ (e + 1) ((genPoly e).getD · 0#8)).eval (φ (gfExp j))⁻¹ = 0 := by
  rw [h.coefPoly_genPoly, eval_prod]
  refine prod_eq_zero (mem_range.2 hj) ?_
  rw [eval_add, eval_one, eval_mul, eval_C, eval_X, mul_inv_cancel₀ (h.map_gfExp_ne_zero j), h.add_self]

end FieldModel

end

theorem head_genPoly (e : Nat) : (genPoly e).getD 0 0#8 = 1#8 := by
  induction e with
  | zero => rfl
  | succ e ih =>
    rw [genPoly, getD_polyMul _ (by simp), length_genPoly, convolution_succ_zero (by simp), ih]
    exact gfMul_one_right 1#8

theorem genPoly_eq_cons (e : Nat) : genPoly e = 1#8 :: (genPoly e).tail := by
  have hhead := head_genPoly e
  have hlen := length_genPoly e
  cases hgen : genPoly e with
  | nil => simp [hgen] at hlen
  | cons x xs =>
    rw [hgen] at hhead
    exact congrArg (· :: xs) hhead

theorem lt_of_mem_genset {e : Nat} (he : e ∈ genset) : e < 69 := by
  have hall : ∀ e ∈ genset, e < 69 := by decide
  exact hall e he

/-- The `GEN` table, one row of 128 bytes for each length (R56). -/
theorem tableByte_gen {e j : Nat} (he : e < 69) (hj : j < 128) :
    tableByte (0x03000 + 128 * e + j) = if e ∈ genset ∧ j ≤ e then (genPoly e).getD j 0#8 else 0#8 := by
  rw [tableByte, romByte, if_neg (by omega), if_neg (by omega), if_pos (by omega), Option.getD_some, genByte,
    show (0x03000 + 128 * e + j - 0x03000) / 128 = e by omega,
    show (0x03000 + 128 * e + j - 0x03000) % 128 = j by omega]
  simp

theorem tableByte_gen_of_le {e j : Nat} (he : e ∈ genset) (hj : j ≤ e) :
    tableByte (0x03000 + 128 * e + j) = (genPoly e).getD j 0#8 := by
  have := lt_of_mem_genset he
  rw [tableByte_gen (by omega) (by omega), if_pos ⟨he, hj⟩]

/-- Settles O36: in the field of R115 the generator is the product of its linear factors. -/
theorem generatorPolynomials : Obligations.GeneratorPolynomials := by
  obtain ⟨F, _, φ, h⟩ := exists_fieldModel
  refine ⟨fun e he => ⟨?_, fun j hj => ?_, fun j hej hj => ?_⟩, fun e he hnot j hj => ?_⟩
  · exact (tableByte_gen_of_le he (Nat.zero_le e)).trans (head_genPoly e)
  · rw [← h.map_eq_zero, h.map_valueAt, eval_coefPoly]
    calc ∑ k ∈ range (e + 1), φ (tableByte (0x03000 + 128 * e + (e - k))) * φ (gfExp j) ^ k
        = ∑ k ∈ range (e + 1), φ ((genPoly e).getD (e + 1 - 1 - k) 0#8) * φ (gfExp j) ^ k :=
          sum_congr rfl fun k _ => by rw [tableByte_gen_of_le he (Nat.sub_le e k), Nat.add_sub_cancel]
      _ = 0 := by
          rw [sum_descending φ (e + 1) ((genPoly e).getD · 0#8) (h.map_gfExp_ne_zero j), h.eval_genPoly hj, mul_zero]
  · rw [tableByte_gen (lt_of_mem_genset he) hj, if_neg (by omega)]
  · rw [tableByte_gen he hj, if_neg (hnot ·.1)]

/-! ### The encoder -/

theorem addOnto_map_gfMul_zero (xs ys : List Byte) : addOnto (xs.map (gfMul 0#8)) ys = ys := by
  induction xs generalizing ys with
  | nil => rfl
  | cons x xs ih =>
    cases ys with
    | nil => rfl
    | cons y ys => simp [addOnto, ih]

theorem gfDiv_one_right (a : Byte) : gfDiv a 1#8 = a := by
  simpa using gfMul_gfDiv_cancel a (by decide : (1#8 : Byte) ≠ 0#8)

/-- The encoder's loop is the division loop for a monic divisor, whose quotient digits it drops (R134). -/
theorem encodeLoop_eq (gtail : List Byte) (k : Nat) (work : List Byte) :
    encodeLoop gtail k work = (polyDivLoop (1#8 :: gtail) k work).2 := by
  induction k generalizing work with
  | zero => rfl
  | succ k ih =>
    cases work with
    | nil => rfl
    | cons q work =>
      simp only [encodeLoop, polyDivLoop, List.headD_cons, List.tail_cons, gfDiv_one_right, ih]
      split
      · next hq => rw [hq, addOnto_map_gfMul_zero]
      · rfl

/-- The digits of the division of the data and e zeros by the generator. -/
def encodeDigits (e : Nat) (data : List Byte) : List Byte :=
  divisionDigits (genPoly e) data.length (data ++ List.replicate e 0#8)

/-- The remainder digits are the ECC. -/
theorem getD_encodeDigits (e : Nat) (data : List Byte) {p : Nat} (hp : data.length ≤ p) :
    (encodeDigits e data).getD p 0#8 = (rsEcc e data).getD (p - data.length) 0#8 := by
  have hrem : (polyDivLoop (genPoly e) data.length (data ++ List.replicate e 0#8)).2 = rsEcc e data := by
    rw [rsEcc, encodeLoop_eq, ← genPoly_eq_cons]
  have hlen := length_polyDivLoop (genPoly e) data.length (data ++ List.replicate e 0#8)
  rw [hrem, length_rsEcc, List.length_append, List.length_replicate, Nat.add_right_cancel_iff] at hlen
  rw [encodeDigits, divisionDigits, hrem, List.getD_append_right _ _ _ _ (by omega), hlen]

/-- The data and e zeros are a multiple of the generator, plus the ECC (R133). -/
theorem getD_data_eq_convolution (e : Nat) (data : List Byte) (p : Nat) :
    (data ++ List.replicate e 0#8).getD p 0#8 =
      convolution data.length (e + 1) ((encodeDigits e data).getD · 0#8) ((genPoly e).getD · 0#8) p ^^^
        (if p < data.length then 0#8 else (rsEcc e data).getD (p - data.length) 0#8) := by
  have hdivision := getD_work_eq_convolution (divisor := genPoly e) (by rw [head_genPoly]; decide) data.length
    (work := data ++ List.replicate e 0#8) (by simp; omega) p
  rw [length_genPoly] at hdivision
  rw [hdivision]
  congr 1
  split
  · rfl
  · exact getD_encodeDigits e data (by omega)

theorem not_eccValid_iff {e : Nat} : (!eccValid e) = true ↔ e ∉ genset := by simp [eccValid]

theorem eccCheck_passes {e : Nat} (he : e ∈ genset) : ¬(!eccValid e) = true := mt not_eccValid_iff.1 (not_not.2 he)

theorem not_dataLenOk_iff {k e : Nat} : (!dataLenOk k e) = true ↔ ¬(1 ≤ k ∧ k + e ≤ 255) := by
  rw [Bool.not_eq_true', Bool.eq_false_iff, ne_eq, dataLenOk, Bool.and_eq_true, decide_eq_true_eq, decide_eq_true_eq]

theorem exec_rsEncode {s : State} (he : s.ecc ∈ genset) (hk : 1 ≤ s.la) (hn : s.la + s.ecc ≤ 255) :
    exec .rsEncode s = succeed (s.setResult (rsEcc s.ecc s.opA)) :=
  (if_neg (eccCheck_passes he)).trans (if_neg (mt not_dataLenOk_iff.1 (not_not.2 ⟨hk, hn⟩)))

/-- Settles O37: the division identity for the generator of the table, with the digits dropped as quotient. -/
theorem rsEncodeIsRemainder : Obligations.RsEncodeIsRemainder := by
  refine fun s hwf => ⟨fun he hk hn => ?_, fun he => if_pos (not_eccValid_iff.2 he), fun he hlen => ?_⟩
  · obtain ⟨t, ht, hended, hbuf, hram⟩ := succeed_setResult hwf (rsEcc s.ecc s.opA)
    rw [length_rsEcc] at hended hbuf hram
    refine ⟨t, ((encodeDigits s.ecc s.opA).getD · 0#8), (exec_rsEncode he hk hn).trans ht, hended, fun p hp => ?_, hram⟩
    have hdivision := getD_data_eq_convolution s.ecc s.opA p
    rw [length_opA] at hdivision
    have hgen := fun (f : Nat → Byte) => convolution_congr (fun i (_ : i < s.la) => rfl (a := f i))
      (fun j hj => tableByte_gen_of_le he (Nat.le_of_lt_succ hj)) p
    rw [hgen]
    split
    · next hlt =>
      rw [List.getD_append _ _ _ _ (by simpa using hlt), getD_opA hwf hlt, if_pos hlt] at hdivision
      exact hdivision
    · next hge =>
      rw [List.getD_append_right _ _ _ _ (by simpa using hge), List.getD_replicate _ (by simp; omega), if_neg hge]
        at hdivision
      rw [hbuf _ (by omega)]
      exact hdivision
  · exact (if_neg (eccCheck_passes he)).trans (if_pos (not_dataLenOk_iff.2 hlen))

/-- Settles O38: by `rsEncodeIsRemainder` the block is a multiple of the generator, which vanishes at the powers of α
that the syndromes are taken at. -/
theorem encodedBlockIsClean : Obligations.EncodedBlockIsClean := by
  intro s t hwf he hk hn ht j hj
  obtain ⟨F, _, φ, h⟩ := exists_fieldModel
  obtain ⟨t', quot, ht', -, hdivision, hram⟩ := (rsEncodeIsRemainder s hwf).1 he hk hn
  obtain rfl : t' = t := Host.Outcome.next.inj (ht'.symm.trans ht)
  have hblock : ∀ p < s.la + s.ecc, (if p < s.la then t'.buf .bufA p else t'.buf .bufR (p - s.la)) =
      convolution s.la (s.ecc + 1) quot ((genPoly s.ecc).getD · 0#8) p := fun p hp => by
    have hp' := hdivision p hp
    rw [convolution_congr (fun i _ => rfl) (fun j hj => tableByte_gen_of_le he (Nat.le_of_lt_succ hj))] at hp'
    split
    · next hlt =>
      have hkeep : t'.buf .bufA p = s.buf .bufA p := hram _ (by simp only [Buffer.base]; omega)
      rw [if_pos hlt, if_pos hlt, BitVec.xor_zero] at hp'
      rw [hkeep, hp']
    · next hge =>
      rw [if_neg hge, if_neg hge] at hp'
      exact (BitVec.xor_eq_zero_iff.1 hp'.symm).symm
  rw [← h.map_eq_zero, h.map_syndromeOf, coefPoly_congr φ hblock,
    h.coefPoly_convolution, eval_mul, h.eval_genPoly hj, mul_zero, mul_zero]

end Sys2Proof.Machine
end

section
/-! Syndromes, and Massey's algorithm on lists as the loop of R138. -/

namespace Sys2Proof.Machine

/-! ### Syndromes (R135, R137) -/

theorem gfSum_mapIdx (f : Nat → Byte → Byte) (xs : List Byte) :
    gfSum (xs.mapIdx f) = gfSumRange xs.length (fun i => f i (xs.getD i 0#8)) := by
  refine congrArg gfSum (List.ext_getElem (by simp) fun i hi _ => ?_)
  rw [List.length_mapIdx] at hi
  simp [hi]

theorem syndrome_opA {s : State} (hwf : s.mem.wf = true) (j : Nat) :
    syndrome s.opA j = syndromeOf s.la (s.buf .bufA) j := by
  rw [syndrome, gfSum_mapIdx, List.length_reverse, length_opA]
  refine gfSumRange_congr fun i hi => ?_
  rw [← getD_opA hwf (by omega), List.getD_eq_getElem?_getD, List.getElem?_reverse (by simpa using hi), length_opA,
    ← List.getD_eq_getElem?_getD]

theorem getD_syndromes {s : State} (hwf : s.mem.wf = true) {j : Nat} (hj : j < s.ecc) :
    (syndromes s.opA s.ecc).getD j 0#8 = syndromeOf s.la (s.buf .bufA) j := by
  rw [List.getD_eq_getElem _ _ (by simpa using hj)]
  simpa [syndromes] using syndrome_opA hwf j

theorem allZero_iff (xs : List Byte) : allZero xs = true ↔ ∀ j < xs.length, xs.getD j 0#8 = 0#8 := by
  simp only [allZero, List.all_eq_true, beq_iff_eq, List.forall_mem_iff_getElem]
  exact forall₂_congr fun j hj => by rw [List.getD_eq_getElem _ _ hj]

/-- What the first stage writes: the syndromes (R137). -/
theorem syndromeBody_syn {s : State} (hwf : s.mem.wf = true) {j : Nat} (hj : j < s.ecc) :
    s.syndromeBody.buf .syn j = syndromeOf s.la (s.buf .bufA) j :=
  (buf_setBuf_self hwf .syn (by simpa using hj)).trans (getD_syndromes hwf hj)

theorem syndromeBody_clean {s : State} (hwf : s.mem.wf = true) :
    s.syndromeBody.regs.clean = true ↔ ∀ j < s.ecc, syndromeOf s.la (s.buf .bufA) j = 0#8 := by
  refine (allZero_iff _).trans ?_
  rw [length_syndromes]
  exact forall₂_congr fun j hj => by rw [getD_syndromes hwf hj]

theorem sameRamOutside_syndromeBody {s : State} (hwf : s.mem.wf = true) :
    SameRamOutside Buffer.syn.base s.ecc s s.syndromeBody := by
  have hram := sameRamOutside_setBuf hwf .syn (syndromes s.opA s.ecc)
  rwa [length_syndromes] at hram

theorem not_blockLenOk_iff {n e : Nat} : (!blockLenOk n e) = true ↔ ¬(e + 1 ≤ n ∧ n ≤ 255) := by
  rw [Bool.not_eq_true', Bool.eq_false_iff, ne_eq, blockLenOk_iff]

theorem exec_rsSyndrome {s : State} (he : s.ecc ∈ genset) (hlo : s.ecc + 1 ≤ s.la) (hn : s.la ≤ 255) :
    exec .rsSyndrome s = .next (s.syndromeBody.complete .ok .none) :=
  (if_neg (eccCheck_passes he)).trans (if_neg (mt not_blockLenOk_iff.1 (not_not.2 ⟨hlo, hn⟩)))

/-- Settles O39: the body of the first stage, completed. -/
theorem rsSyndromeResult : Obligations.RsSyndromeResult := by
  refine fun s hwf => ⟨fun he hlo hn => ?_, fun he => if_pos (not_eccValid_iff.2 he), fun he hlen => ?_⟩
  · refine ⟨_, exec_rsSyndrome he hlo hn, rfl, fun j hj => syndromeBody_syn hwf hj, ?_,
      sameRamOutside_syndromeBody hwf⟩
    exact (syndromeBody_clean hwf).trans (forall₂_congr fun j hj => by rw [← syndromeBody_syn hwf hj]; rfl)
  · exact (if_neg (eccCheck_passes he)).trans (if_pos (not_blockLenOk_iff.2 hlen))

/-! ### The rounds of R138 -/

section
variable {syn : Nat → Byte} {r : Nat} {v : BmTrace}

theorem BmTrace.round_of_gap_eq_zero (hd : v.gap syn r = 0#8) : v.round syn r = { v with m := v.m + 1 } := if_pos hd

theorem BmTrace.round_of_lengthens (hd : v.gap syn r ≠ 0#8) (hl : 2 * v.l ≤ r) : v.round syn r =
    { c := v.updated (v.gap syn r), p := v.c, l := r + 1 - v.l, m := 1, b := v.gap syn r } :=
  (if_neg hd).trans (if_pos hl)

theorem BmTrace.round_of_keeps (hd : v.gap syn r ≠ 0#8) (hl : ¬2 * v.l ≤ r) :
    v.round syn r = { v with c := v.updated (v.gap syn r), m := v.m + 1 } :=
  (if_neg hd).trans (if_neg hl)

/-- What holds of the trace after each of the three kinds of rounds holds of it after every round. -/
theorem bmTrace_induction {P : Nat → BmTrace → Prop} (hinit : P 0 (bmTrace syn 0))
    (hzero : ∀ r v, P r v → v.gap syn r = 0#8 → P (r + 1) { v with m := v.m + 1 })
    (hlengthens : ∀ r v, P r v → v.gap syn r ≠ 0#8 → 2 * v.l ≤ r → P (r + 1)
      { c := v.updated (v.gap syn r), p := v.c, l := r + 1 - v.l, m := 1, b := v.gap syn r })
    (hkeeps : ∀ r v, P r v → v.gap syn r ≠ 0#8 → ¬2 * v.l ≤ r →
      P (r + 1) { v with c := v.updated (v.gap syn r), m := v.m + 1 }) (r : Nat) : P r (bmTrace syn r) := by
  induction r with
  | zero => exact hinit
  | succ r ih =>
    rw [bmTrace]
    by_cases hd : (bmTrace syn r).gap syn r = 0#8
    · rw [BmTrace.round_of_gap_eq_zero hd]
      exact hzero r _ ih hd
    by_cases hl : 2 * (bmTrace syn r).l ≤ r
    · rw [BmTrace.round_of_lengthens hd hl]
      exact hlengthens r _ ih hd hl
    · rw [BmTrace.round_of_keeps hd hl]
      exact hkeeps r _ ih hd hl

end

theorem bmTrace_l_le (syn : Nat → Byte) (r : Nat) : (bmTrace syn r).l ≤ r :=
  bmTrace_induction (P := fun r v => v.l ≤ r) le_rfl (fun _ _ hl _ => Nat.le_succ_of_le hl)
    (fun _ _ _ _ _ => Nat.sub_le _ _) (fun _ _ hl _ _ => Nat.le_succ_of_le hl) r

/-! ### The lists of the model against the arrays of R138 -/

/-- The lists hold entries `0 .. e` of the arrays, and the numbers are the same. -/
structure BmState.Holds (e : Nat) (v : BmState) (w : BmTrace) : Prop where
  length_c : v.c.length = e + 1
  length_p : v.p.length = e + 1
  c : ∀ k ≤ e, v.c.getD k 0#8 = w.c k
  p : ∀ k ≤ e, v.p.getD k 0#8 = w.p k
  l : v.l = w.l
  m : v.m = w.m
  b : v.b = w.b

theorem bmInit_holds (syn : Nat → Byte) (e : Nat) : (bmInit e).Holds e (bmTrace syn 0) := by
  have hstart : ∀ k ≤ e, (1#8 :: List.replicate e 0#8).getD k 0#8 = if k = 0 then 1#8 else 0#8 := by
    rintro (_ | k) hk
    · rfl
    · rw [List.getD_cons_succ, List.getD_replicate _ (by omega)]
      rfl
  exact ⟨by simp [bmInit], by simp [bmInit], hstart, hstart, rfl, rfl, rfl⟩

namespace BmState.Holds

variable {e r : Nat} {v : BmState} {w : BmTrace} (h : v.Holds e w)
include h

/-- The discrepancy reads entries `1 .. L` of `C`, which the list holds. -/
theorem discrepancy {syn : List Byte} {synAt : Nat → Byte} (hsyn : ∀ k < e, syn.getD k 0#8 = synAt k) (hr : r < e)
    (hl : w.l ≤ r) : Machine.discrepancy syn v r = w.gap synAt r := by
  rw [Machine.discrepancy, BmTrace.gap, hsyn r hr, h.l]
  congr 1
  refine gfSumRange_congr fun k hk => ?_
  rw [h.c _ (by omega), hsyn _ (by omega)]

theorem bmUpdate (d : Byte) {k : Nat} (hk : k ≤ e) : (Machine.bmUpdate v d).getD k 0#8 = w.updated d k := by
  have hc := h.length_c
  have hp := h.length_p
  rw [Machine.bmUpdate, BmTrace.updated, ← h.m, ← h.b, ← h.c k hk, List.getD_eq_getElem _ _ (by simp; omega),
    List.getElem_zipWith, List.getElem_append]
  rw [List.getD_eq_getElem _ _ (by omega)]
  by_cases hm : v.m ≤ k
  · simp only [List.length_replicate, Nat.not_lt.2 hm, if_pos hm, dif_neg, not_false_eq_true, List.getElem_map]
    rw [← h.p _ (by omega), List.getD_eq_getElem _ _ (by omega)]
  · simp [Nat.lt_of_not_le hm, hm]

/-- A round of the model is a round of R138. -/
theorem bmRound {syn : List Byte} {synAt : Nat → Byte} (hsyn : ∀ k < e, syn.getD k 0#8 = synAt k) (hr : r < e)
    (hl : w.l ≤ r) : (Machine.bmRound syn v r).Holds e (w.round synAt r) := by
  obtain ⟨hlen_c, hlen_p⟩ := length_bmRound syn v r (h.length_p.trans h.length_c.symm)
  rw [h.length_c] at hlen_c hlen_p
  have hgap := h.discrepancy hsyn hr hl
  have hupdate := fun k (hk : k ≤ e) => h.bmUpdate (w.gap synAt r) hk
  rw [Machine.bmRound] at hlen_c hlen_p ⊢
  simp only [hgap, h.l] at hlen_c hlen_p ⊢
  by_cases hd : w.gap synAt r = 0#8
  · rw [w.round_of_gap_eq_zero hd, if_pos hd]
    exact ⟨h.length_c, h.length_p, h.c, h.p, rfl, congrArg (· + 1) h.m, h.b⟩
  rw [if_neg hd] at hlen_c hlen_p ⊢
  by_cases hshort : 2 * w.l ≤ r
  · rw [w.round_of_lengthens hd hshort, if_pos hshort]
    rw [if_pos hshort] at hlen_c hlen_p
    exact ⟨hlen_c, hlen_p, hupdate, h.c, rfl, rfl, rfl⟩
  · rw [w.round_of_keeps hd hshort, if_neg hshort]
    rw [if_neg hshort] at hlen_c hlen_p
    exact ⟨hlen_c, hlen_p, hupdate, h.p, rfl, congrArg (· + 1) h.m, h.b⟩

end BmState.Holds

/-- Massey's algorithm of the model ends with the variables of R138. -/
theorem berlekampMassey_holds {syn : List Byte} {synAt : Nat → Byte} {e : Nat}
    (hsyn : ∀ k < e, syn.getD k 0#8 = synAt k) : (berlekampMassey syn e).Holds e (bmTrace synAt e) := by
  suffices hrounds : ∀ r ≤ e, ((List.range r).foldl (bmRound syn) (bmInit e)).Holds e (bmTrace synAt r) from
    hrounds e le_rfl
  intro r hr
  induction r with
  | zero => exact bmInit_holds synAt e
  | succ r ih =>
    rw [List.range_succ, List.foldl_append]
    exact (ih (by omega)).bmRound hsyn hr (bmTrace_l_le synAt r)

/-! ### The second stage (R140) -/

section
variable {s : State} (hwf : s.mem.wf = true)
include hwf

theorem getD_bufBytes (b : Buffer) {n k : Nat} (hk : k < n) : (s.bufBytes b n).getD k 0#8 = s.buf b k :=
  getD_bytes hwf _ _ _ hk

theorem berlekampMassey_syn_holds :
    (berlekampMassey (s.bufBytes .syn s.ecc) s.ecc).Holds s.ecc (bmTrace (s.buf .syn) s.ecc) :=
  berlekampMassey_holds fun _ hk => getD_bufBytes hwf .syn hk

theorem bmBody_rsL (he : s.ecc ≤ 68) : s.bmBody.regs.rsL.toNat = (bmTrace (s.buf .syn) s.ecc).l := by
  have hl := bmTrace_l_le (s.buf .syn) s.ecc
  have hlist := (berlekampMassey_syn_holds hwf).l
  refine (BitVec.toNat_ofNat _ 7).trans ?_
  rw [hlist, Nat.mod_eq_of_lt (by omega)]

theorem bmBody_sigma (he : s.ecc ≤ 68) {k : Nat} (hk : k ≤ s.ecc) :
    s.bmBody.buf .sigma k = (bmTrace (s.buf .syn) s.ecc).c k := by
  rw [← getD_bufBytes (wf_bmBody hwf) .sigma (Nat.lt_succ_of_le hk), bufBytes_bmBody_sigma hwf he le_rfl,
    List.take_of_length_le (length_berlekampMassey _ _).le]
  exact (berlekampMassey_syn_holds hwf).c k hk

theorem bmBody_omega (he : s.ecc ≤ 68) {k : Nat} (hk : k < s.ecc) : s.bmBody.buf .omega k =
    gfSumRange (k + 1) (fun i => gfMul (s.bmBody.buf .sigma i) (s.buf .syn (k - i))) := by
  rw [← getD_bufBytes (wf_bmBody hwf) .omega hk, bufBytes_bmBody_omega hwf,
    List.getD_eq_getElem _ _ (by simpa using hk)]
  simp only [evaluator, List.getElem_map, List.getElem_range]
  refine gfSumRange_congr fun i hi => ?_
  rw [bmBody_sigma hwf he (by omega), getD_bufBytes hwf .syn (by omega),
    (berlekampMassey_syn_holds hwf).c i (by omega)]

theorem read_bmBody {a : Nat} (hsigma : ¬(Buffer.sigma.base ≤ a ∧ a ≤ Buffer.sigma.base + s.ecc))
    (homega : ¬(Buffer.omega.base ≤ a ∧ a < Buffer.omega.base + s.ecc)) : s.bmBody.mem.read a = s.mem.read a := by
  refine (sameRamOutside_setBuf (wf_setBuf hwf _ _) .omega _ a ?_).trans (sameRamOutside_setBuf hwf .sigma _ a ?_)
  · rwa [length_evaluator]
  · rw [length_berlekampMassey]
    omega

theorem degreeTestFails_iff (he : s.ecc ≤ 68) :
    degreeTestFails s.bmBody = true ↔ s.ecc < 2 * (bmTrace (s.buf .syn) s.ecc).l := by
  rw [← bmBody_rsL hwf he]
  exact decide_eq_true_iff

end

theorem le_of_mem_genset {e : Nat} (he : e ∈ genset) : e ≤ 68 := Nat.le_of_lt_succ (lt_of_mem_genset he)

theorem exec_rsBm {s : State} (he : s.ecc ∈ genset) : exec .rsBm s =
    if degreeTestFails s.bmBody then .next (s.bmBody.complete .eUncorr .degree)
    else .next (s.bmBody.complete .ok .none) :=
  if_neg (eccCheck_passes he)

/-- The second stage ends after its writes, by the degree test with success or with `EUNCORR` (R140). -/
theorem exec_rsBm_eq_next {s : State} (he : s.ecc ∈ genset) :
    ∃ c u, exec .rsBm s = .next (s.bmBody.complete c u) ∧
      (degreeTestFails s.bmBody = true → c = .eUncorr ∧ u = .degree) ∧
      (degreeTestFails s.bmBody = false → c = .ok ∧ u = .none) := by
  rw [exec_rsBm he]
  cases degreeTestFails s.bmBody
  · exact ⟨.ok, .none, rfl, nofun, fun _ => ⟨rfl, rfl⟩⟩
  · exact ⟨.eUncorr, .degree, rfl, fun _ => ⟨rfl, rfl⟩, nofun⟩

/-- Settles O40: the body of the second stage, whose lists hold the arrays of R138, completed by the degree test. -/
theorem rsBmResult : Obligations.RsBmResult := by
  refine fun s hwf => ⟨fun he => ?_, fun he => if_pos (not_eccValid_iff.2 he)⟩
  have he68 := le_of_mem_genset he
  have hregs : s.bmBody.regs = { s.regs with rsL := BitVec.ofNat 7 (bmTrace (s.buf .syn) s.ecc).l } := by
    rw [← (berlekampMassey_syn_holds hwf).l]
    rfl
  have hended (c : ErrCode) (u : UncReason) : Ended s (s.bmBody.complete c u) (({ s.regs with
      rsL := BitVec.ofNat 7 (bmTrace (s.buf .syn) s.ecc).l } : Regs).completed c u) := by
    rw [← hregs]
    rfl
  obtain ⟨c, u, hexec, hfails, hpasses⟩ := exec_rsBm_eq_next he
  refine ⟨_, hexec, bmTrace_l_le _ _, fun hle => ?_, fun hlt => ?_, fun k hk => bmBody_sigma hwf he68 hk,
    fun k hk => bmBody_omega hwf he68 hk, fun a hsigma homega => read_bmBody hwf hsigma homega⟩
  · obtain ⟨rfl, rfl⟩ := hpasses (Bool.eq_false_iff.2 (mt (degreeTestFails_iff hwf he68).1 (Nat.not_lt.2 hle)))
    exact hended _ _
  · obtain ⟨rfl, rfl⟩ := hfails ((degreeTestFails_iff hwf he68).2 hlt)
    exact hended _ _

end Sys2Proof.Machine
end

section
/-! Massey's theorem: after every round of R138 the connection polynomial generates the syndromes read so far, and no
shorter one does. Sequences are power series over the field, and a recurrence of length l is a product with the
syndromes whose coefficients vanish from l on. -/

namespace Sys2Proof.Machine

open Finset PowerSeries

/-! ### Recurrences -/

section
variable {F : Type} [Field F] {S A B : F⟦X⟧} {l r : Nat}

/-- The series has degree at most l, and its product with the syndromes vanishes at indices l .. r-1. -/
structure Recurrence (S A : F⟦X⟧) (l r : Nat) : Prop where
  degree : ∀ k, l < k → coeff k A = 0
  vanishes : ∀ i, l ≤ i → i < r → coeff i (A * S) = 0

namespace Recurrence

theorem mono (h : Recurrence S A l r) {l' : Nat} (hl : l ≤ l') : Recurrence S A l' r :=
  ⟨fun k hk => h.degree k (by omega), fun i hi => h.vanishes i (by omega)⟩

theorem add_smul (hA : Recurrence S A l r) (hB : Recurrence S B l r) (c : F) : Recurrence S (A + c • B) l r where
  degree k hk := by simp [hA.degree k hk, hB.degree k hk]
  vanishes i hi hr := by simp [add_mul, hA.vanishes i hi hr, hB.vanishes i hi hr]

theorem X_mul (h : Recurrence S A l r) : Recurrence S (X * A) (l + 1) (r + 1) where
  degree k hk := by
    obtain ⟨k, rfl⟩ := Nat.exists_eq_add_of_lt (Nat.zero_lt_of_lt hk)
    rw [Nat.zero_add, coeff_succ_X_mul, h.degree k (by omega)]
  vanishes i hi hr := by
    obtain ⟨i, rfl⟩ := Nat.exists_eq_add_of_le' (Nat.one_le_of_lt hi)
    rw [mul_assoc, coeff_succ_X_mul, h.vanishes i (by omega) (by omega)]

theorem succ (h : Recurrence S A l r) (hr : l ≤ r → coeff r (A * S) = 0) : Recurrence S A l (r + 1) where
  degree := h.degree
  vanishes i hi hir := by
    obtain hlt | rfl := Nat.lt_succ_iff_lt_or_eq.1 hir
    · exact h.vanishes i hi hlt
    · exact hr hi

/-- A coefficient of a product whose factors have degree at most l and vanish at indices l' .. r-1. -/
theorem coeff_mul_eq {D : F⟦X⟧} {l' : Nat} (hdegree : ∀ k, l < k → coeff k A = 0)
    (hvanishes : ∀ i, l' ≤ i → i < r → coeff i D = 0) (hsum : l + l' ≤ r) :
    coeff r (A * D) = coeff 0 A * coeff r D := by
  rw [coeff_mul, Nat.sum_antidiagonal_eq_sum_range_succ fun i j => coeff i A * coeff j D, sum_eq_single 0]
  · rw [Nat.sub_zero]
  · intro i hi hne
    have hi := mem_range.1 hi
    by_cases hil : l < i
    · rw [hdegree i hil, zero_mul]
    · rw [hvanishes _ (by omega) (by omega), mul_zero]
  · intro h0
    simp at h0

/-- Massey's bound: a recurrence for one more syndrome than another one, which fails there, is longer by what the
other one is shorter than the syndromes. -/
theorem lt_add_of_gap (h : Recurrence S A l r) (hgap : coeff r (A * S) ≠ 0) {l' : Nat}
    (h' : Recurrence S B l' (r + 1)) (hB : coeff 0 B = 1) : r < l + l' := by
  by_contra hle
  have hAB : coeff r (B * (A * S)) = coeff 0 B * coeff r (A * S) :=
    coeff_mul_eq h'.degree h.vanishes (by omega)
  have hBA : coeff r (A * (B * S)) = coeff 0 A * coeff r (B * S) :=
    coeff_mul_eq h.degree (fun i hi hr => h'.vanishes i hi (by omega)) (by omega)
  rw [h'.vanishes r (by omega) (by omega), mul_zero] at hBA
  rw [mul_left_comm, hBA, hB, one_mul] at hAB
  exact hgap hAB.symm

end Recurrence

end

/-! ### Arrays as series -/

section
variable {F : Type} [Field F] (φ : Byte → F)

/-- The series of an array. -/
def seriesOf (f : Nat → Byte) : F⟦X⟧ := PowerSeries.mk fun k => φ (f k)

theorem coeff_seriesOf (f : Nat → Byte) (k : Nat) : coeff k (seriesOf φ f) = φ (f k) := coeff_mk _ _

/-- The array of a connection polynomial of length l: its entries past l are not read. -/
def cutAt (l : Nat) (f : Nat → Byte) (k : Nat) : Byte := if k ≤ l then f k else 0#8

theorem cutAt_eq_self {l : Nat} {f : Nat → Byte} (hf : ∀ k, l < k → f k = 0#8) : cutAt l f = f := by
  funext k
  rw [cutAt]
  split
  · rfl
  · exact (hf k (by omega)).symm

variable {φ} (h : FieldModel φ)
include h

namespace FieldModel

/-- The discrepancy sum of a connection polynomial of length l is a coefficient of the product. -/
theorem coeff_cutAt_mul {l i : Nat} (hi : l ≤ i) (c syn : Nat → Byte) :
    coeff i (seriesOf φ (cutAt l c) * seriesOf φ syn) =
      φ (gfSumRange (l + 1) (fun k => gfMul (c k) (syn (i - k)))) := by
  rw [coeff_mul, Nat.sum_antidiagonal_eq_sum_range_succ
    fun k j => coeff k (seriesOf φ (cutAt l c)) * coeff j (seriesOf φ syn), h.map_sum]
  refine (sum_subset (range_mono (by omega)) fun k _ hk => ?_).symm.trans (sum_congr rfl fun k hk => ?_)
  · rw [mem_range, Nat.not_lt] at hk
    rw [coeff_seriesOf, cutAt, if_neg (by omega), h.map_zero, zero_mul]
  · have hk := mem_range.1 hk
    rw [coeff_seriesOf, coeff_seriesOf, cutAt, if_pos (by omega), h.map_mul]

theorem generates_iff {e l : Nat} {c syn : Nat → Byte} :
    generates e l c syn ↔ c 0 = 1#8 ∧ Recurrence (seriesOf φ syn) (seriesOf φ (cutAt l c)) l e := by
  refine and_congr_right fun _ => ⟨fun hgen => ⟨fun k hk => ?_, fun i hi hie => ?_⟩, fun hrec r hlr hre => ?_⟩
  · rw [coeff_seriesOf, cutAt, if_neg (by omega), h.map_zero]
  · rw [h.coeff_cutAt_mul hi, hgen i hi hie, h.map_zero]
  · rw [← h.map_eq_zero, ← h.coeff_cutAt_mul hlr, hrec.vanishes r hlr hre]

/-- The update of R138 as a sum of series. -/
theorem seriesOf_updated (v : BmTrace) (d : Byte) :
    seriesOf φ (v.updated d) = seriesOf φ v.c + φ (gfDiv d v.b) • (X ^ v.m * seriesOf φ v.p) := by
  ext k
  rw [map_add, map_smul, coeff_X_pow_mul', coeff_seriesOf, coeff_seriesOf, coeff_seriesOf, BmTrace.updated]
  split
  · rw [h.map_xor, h.map_mul, smul_eq_mul]
  · rw [smul_zero, add_zero]

end FieldModel

end

/-! ### What every round keeps -/

/-- After r rounds: `C` is a recurrence of length l for the first r syndromes, the shifted `P` one of length r+1-l that
fails at the next syndrome by b once the length has changed, and no recurrence is shorter than `C`. -/
structure MasseyInv {F : Type} [Field F] (φ : Byte → F) (syn : Nat → Byte) (r : Nat) (v : BmTrace) : Prop where
  m_pos : 1 ≤ v.m
  l_le : v.l ≤ r
  b_ne : v.b ≠ 0#8
  head : v.c 0 = 1#8
  current : Recurrence (seriesOf φ syn) (seriesOf φ v.c) v.l r
  previous : Recurrence (seriesOf φ syn) (X ^ v.m * seriesOf φ v.p) (r + 1 - v.l) r
  previousGap : 0 < v.l → coeff r (X ^ v.m * seriesOf φ v.p * seriesOf φ syn) = φ v.b
  shortest : ∀ l coef, generates r l coef syn → v.l ≤ l

theorem bmTrace_zero_c {syn : Nat → Byte} {k : Nat} (hk : 0 < k) : (bmTrace syn 0).c k = 0#8 := if_neg hk.ne'

theorem bmTrace_zero_p {syn : Nat → Byte} {k : Nat} (hk : 0 < k) : (bmTrace syn 0).p k = 0#8 := if_neg hk.ne'

theorem bmTrace_zero_m (syn : Nat → Byte) : (bmTrace syn 0).m = 1 := rfl

theorem generates_of_succ {r l : Nat} {coef syn : Nat → Byte} (hgen : generates (r + 1) l coef syn) :
    generates r l coef syn := ⟨hgen.1, fun i hi hir => hgen.2 i hi (by omega)⟩

namespace MasseyInv

variable {F : Type} [Field F] {φ : Byte → F} {syn : Nat → Byte} {r : Nat} {v : BmTrace}

section
variable (hv : MasseyInv φ syn r v)
include hv

/-- The shift of the previous polynomial grows by one. -/
theorem previous_succ : Recurrence (seriesOf φ syn) (X ^ (v.m + 1) * seriesOf φ v.p) (r + 1 + 1 - v.l) (r + 1) := by
  have hl := hv.l_le
  rw [pow_succ', mul_assoc, show r + 1 + 1 - v.l = r + 1 - v.l + 1 by omega]
  exact hv.previous.X_mul

theorem previousGap_succ (hl : 0 < v.l) :
    coeff (r + 1) (X ^ (v.m + 1) * seriesOf φ v.p * seriesOf φ syn) = φ v.b := by
  rw [pow_succ', mul_assoc, mul_assoc, coeff_succ_X_mul, ← mul_assoc, hv.previousGap hl]

theorem shortest_succ {l : Nat} {coef : Nat → Byte} (hgen : generates (r + 1) l coef syn) : v.l ≤ l :=
  hv.shortest l coef (generates_of_succ hgen)

theorem head_updated (d : Byte) : v.updated d 0 = 1#8 := by
  have hm := hv.m_pos
  rw [BmTrace.updated, if_neg (by omega), hv.head]

end

variable (h : FieldModel φ)
include h

theorem init : MasseyInv φ syn 0 (bmTrace syn 0) where
  m_pos := le_rfl
  l_le := le_rfl
  b_ne := (by decide : (1#8 : Byte) ≠ 0#8)
  head := rfl
  current := ⟨fun k (hk : 0 < k) => by
    rw [coeff_seriesOf, bmTrace_zero_c hk, h.map_zero], fun _ _ hi => absurd hi (by omega)⟩
  previous := ⟨fun k (hk : 1 < k) => by
    obtain ⟨k, rfl⟩ := Nat.exists_eq_add_of_le' hk.le
    rw [bmTrace_zero_m, pow_one, coeff_succ_X_mul, coeff_seriesOf, bmTrace_zero_p (Nat.lt_of_succ_lt_succ hk),
      h.map_zero],
    fun _ _ hi => absurd hi (by omega)⟩
  previousGap h0 := absurd h0 (Nat.lt_irrefl 0)
  shortest _ _ _ := Nat.zero_le _

variable (hv : MasseyInv φ syn r v)
include hv

/-- The discrepancy is the coefficient at which the current recurrence may fail. -/
theorem coeff_gap : coeff r (seriesOf φ v.c * seriesOf φ syn) = φ (v.gap syn r) := by
  have hcut : cutAt v.l v.c = v.c := cutAt_eq_self fun k hk => by
    rw [← h.map_eq_zero, ← coeff_seriesOf φ, hv.current.degree k hk]
  have hcoeff := h.coeff_cutAt_mul hv.l_le v.c syn
  rw [hcut, gfSumRange_succ_left, hv.head, gfMul_comm, gfMul_one_right] at hcoeff
  exact hcoeff

/-- The update cancels the discrepancy. -/
theorem updated (l : Nat) (hl : v.l ≤ l) (hl' : r + 1 - v.l ≤ l) :
    Recurrence (seriesOf φ syn) (seriesOf φ (v.updated (v.gap syn r))) l (r + 1) := by
  rw [h.seriesOf_updated]
  refine ((hv.current.mono hl).add_smul (hv.previous.mono hl') _).succ fun hlr => ?_
  rw [add_mul, smul_mul_assoc, map_add, map_smul, coeff_gap h hv, hv.previousGap (by omega), smul_eq_mul,
    ← h.map_mul, gfMul_gfDiv_cancel _ hv.b_ne, h.add_self]

theorem of_gap_eq_zero (hd : v.gap syn r = 0#8) : MasseyInv φ syn (r + 1) { v with m := v.m + 1 } where
  m_pos := Nat.le_add_left 1 _
  l_le := Nat.le_succ_of_le hv.l_le
  b_ne := hv.b_ne
  head := hv.head
  current := hv.current.succ fun _ => by rw [coeff_gap h hv, hd, h.map_zero]
  previous := hv.previous_succ
  previousGap := hv.previousGap_succ
  shortest _ _ := hv.shortest_succ

theorem of_keeps (hl : ¬2 * v.l ≤ r) :
    MasseyInv φ syn (r + 1) { v with c := v.updated (v.gap syn r), m := v.m + 1 } where
  m_pos := Nat.le_add_left 1 _
  l_le := Nat.le_succ_of_le hv.l_le
  b_ne := hv.b_ne
  head := hv.head_updated _
  current := updated h hv v.l le_rfl (by omega)
  previous := hv.previous_succ
  previousGap := hv.previousGap_succ
  shortest _ _ := hv.shortest_succ

theorem of_lengthens (hd : v.gap syn r ≠ 0#8) (hl : 2 * v.l ≤ r) : MasseyInv φ syn (r + 1)
    { c := v.updated (v.gap syn r), p := v.c, l := r + 1 - v.l, m := 1, b := v.gap syn r } where
  m_pos := le_rfl
  l_le := Nat.sub_le _ _
  b_ne := hd
  head := hv.head_updated _
  current := updated h hv (r + 1 - v.l) (by omega) le_rfl
  previous := by
    simp only [pow_one]
    rw [show r + 1 + 1 - (r + 1 - v.l) = v.l + 1 by omega]
    exact hv.current.X_mul
  previousGap _ := by
    rw [pow_one, mul_assoc, coeff_succ_X_mul, coeff_gap h hv]
  shortest l coef hgen := by
    obtain ⟨hone, hrec⟩ := h.generates_iff.1 hgen
    have hgap : coeff r (seriesOf φ v.c * seriesOf φ syn) ≠ 0 := by
      rw [coeff_gap h hv]
      exact mt h.map_eq_zero.1 hd
    have hhead : coeff 0 (seriesOf φ (cutAt l coef)) = 1 := by
      rw [coeff_seriesOf, cutAt, if_pos (Nat.zero_le l), hone, h.map_one]
    have hbound := hv.current.lt_add_of_gap hgap hrec hhead
    show r + 1 - v.l ≤ l
    omega

end MasseyInv

theorem massey {F : Type} [Field F] {φ : Byte → F} (h : FieldModel φ) (syn : Nat → Byte) (r : Nat) :
    MasseyInv φ syn r (bmTrace syn r) :=
  bmTrace_induction (P := MasseyInv φ syn) (.init h) (fun _ _ hv hd => hv.of_gap_eq_zero h hd)
    (fun _ _ hv hd hl => hv.of_lengthens h hd hl) (fun _ _ hv _ hl => hv.of_keeps h hl) r

/-! ### The locator of R138 -/

theorem bmTrace_head (syn : Nat → Byte) (e : Nat) : (bmTrace syn e).c 0 = 1#8 := by
  obtain ⟨F, _, φ, h⟩ := exists_fieldModel
  exact (massey h syn e).head

/-- σ has degree at most L (R138). -/
theorem bmTrace_eq_zero_of_lt (syn : Nat → Byte) {e k : Nat} (hk : (bmTrace syn e).l < k) :
    (bmTrace syn e).c k = 0#8 := by
  obtain ⟨F, _, φ, h⟩ := exists_fieldModel
  rw [← h.map_eq_zero, ← coeff_seriesOf φ, (massey h syn e).current.degree k hk]

theorem bmTrace_generates (syn : Nat → Byte) (e : Nat) : generates e (bmTrace syn e).l (bmTrace syn e).c syn := by
  obtain ⟨F, _, φ, h⟩ := exists_fieldModel
  refine h.generates_iff.2 ⟨bmTrace_head syn e, ?_⟩
  rw [cutAt_eq_self fun k hk => bmTrace_eq_zero_of_lt syn hk]
  exact (massey h syn e).current

theorem bmTrace_shortest {syn coef : Nat → Byte} {e l : Nat} (hgen : generates e l coef syn) :
    (bmTrace syn e).l ≤ l := by
  obtain ⟨F, _, φ, h⟩ := exists_fieldModel
  exact (massey h syn e).shortest l coef hgen

theorem generates_congr {e l : Nat} {c c' syn : Nat → Byte} (hc : ∀ k ≤ l, c' k = c k)
    (hgen : generates e l c syn) : generates e l c' syn := by
  refine ⟨(hc 0 (Nat.zero_le l)).trans hgen.1, fun r hlr hre => ?_⟩
  rw [← hgen.2 r hlr hre]
  exact gfSumRange_congr fun k hk => by rw [hc k (by omega)]

/-- Settles O41: `SIGMA` and `RS_L` are the locator of R138, of which Massey's theorem says all three parts. -/
theorem rsBmFindsShortestRecurrence : Obligations.RsBmFindsShortestRecurrence := by
  intro s t hwf he ht
  have he68 := le_of_mem_genset he
  have hl := bmTrace_l_le (s.buf .syn) s.ecc
  obtain ⟨c, u, hexec, -⟩ := exec_rsBm_eq_next he
  obtain rfl := Host.Outcome.next.inj (hexec.symm.trans ht)
  have hrsL : (s.bmBody.complete c u).regs.rsL.toNat = (bmTrace (s.buf .syn) s.ecc).l := bmBody_rsL hwf he68
  rw [hrsL]
  refine ⟨generates_congr (fun k hk => bmBody_sigma hwf he68 (by omega)) (bmTrace_generates _ _),
    fun k hlk hke => ?_, fun l coef => bmTrace_shortest⟩
  exact (bmBody_sigma hwf he68 hke).trans (bmTrace_eq_zero_of_lt _ hlk)

end Sys2Proof.Machine
end

section
/-! The Chien search and the Forney correction by the formulas of R141 and R144, and `RS_DECODE` as its four stages. -/

namespace Sys2Proof.Machine

/-! ### Values of lists (R141, R144) -/

theorem evalFrom_eq (z zk : Byte) (cs : List Byte) : evalFrom z zk cs =
    gfSumRange cs.length (fun k => gfMul (cs.getD k 0#8) (gfMul zk (gfPow z k))) := by
  induction cs generalizing zk with
  | nil => rfl
  | cons c cs ih =>
    rw [evalFrom, ih, List.length_cons, gfSumRange_succ_left, gfPow, gfMul_one_right, List.getD_cons_zero]
    congr 1
    refine gfSumRange_congr fun k _ => ?_
    rw [List.getD_cons_succ, gfPow, gfMul_assoc, gfMul_comm z]

theorem evalAsc_eq_valueAt {cs : List Byte} {f : Nat → Byte} (hf : ∀ k < cs.length, cs.getD k 0#8 = f k) (z : Byte) :
    evalAsc cs z = valueAt cs.length f z := by
  rw [evalAsc, evalFrom_eq]
  refine gfSumRange_congr fun k hk => ?_
  rw [hf k hk, gfMul_comm 1#8, gfMul_one_right]

section
variable {s : State} (hwf : s.mem.wf = true)
include hwf

theorem evalAsc_bufBytes (b : Buffer) (n : Nat) (z : Byte) : evalAsc (s.bufBytes b n) z = valueAt n (s.buf b) z := by
  rw [evalAsc_eq_valueAt (f := s.buf b) fun k hk => getD_bufBytes hwf b (by simpa using hk), length_bufBytes]

/-- The search finds the root positions of R141. -/
theorem chienRoots_sigmaOp : chienRoots s.sigmaOp s.la = rootPositions s.la s.regs.rsL.toNat (s.buf .sigma) :=
  List.filter_congr fun i _ => by rw [State.sigmaOp, evalAsc_bufBytes hwf]; rfl

theorem evalAsc_derivative (z : Byte) :
    evalAsc (derivative s.sigmaOp) z = sigmaPrime s.regs.rsL.toNat (s.buf .sigma) z := by
  have hlen : (derivative s.sigmaOp).length = s.regs.rsL.toNat := by simp [derivative, State.sigmaOp]
  have hcoef : ∀ k < (derivative s.sigmaOp).length, (derivative s.sigmaOp).getD k 0#8 =
      if k % 2 = 0 then s.buf .sigma (k + 1) else 0#8 := fun k hk => by
    rw [hlen] at hk
    rw [← getD_bufBytes hwf .sigma (Nat.succ_lt_succ hk), List.getD_eq_getElem _ _ (by rwa [hlen]),
      List.getD_eq_getElem _ _ (by simpa using hk)]
    simp [derivative, State.sigmaOp]
  rw [evalAsc_eq_valueAt hcoef, hlen]
  refine gfSumRange_congr fun k _ => ?_
  dsimp only
  split
  · rfl
  · exact gfMul_zero_left _

end

/-! ### The third stage (R143) -/

section
variable {s : State} (hwf : s.mem.wf = true)
include hwf

theorem chienBody_nroots_eq (hn : s.la ≤ 255) :
    s.chienBody.regs.nroots.toNat = (rootPositions s.la s.regs.rsL.toNat (s.buf .sigma)).length := by
  rw [chienBody_nroots hn, chienRoots_sigmaOp hwf]

theorem chienBody_errpos (hn : s.la ≤ 255) {k i : Nat}
    (hk : (rootPositions s.la s.regs.rsL.toNat (s.buf .sigma))[k]? = some i) :
    (s.chienBody.buf .errpos k).toNat = i := by
  rw [← chienRoots_sigmaOp hwf] at hk
  obtain ⟨hlt, hget⟩ := List.getElem?_eq_some_iff.1 hk
  have hi := lt_of_mem_chienRoots (List.mem_of_getElem? hk)
  have hbuf : s.chienBody.buf .errpos k = BitVec.ofNat 8 i := by
    refine (buf_setBuf_self hwf .errpos (by simpa using hlt)).trans ?_
    rw [List.getD_eq_getElem _ _ (by simpa using hlt), List.getElem_map, hget]
  rw [hbuf, BitVec.toNat_ofNat, Nat.mod_eq_of_lt (by omega)]

theorem sameRamOutside_chienBody :
    SameRamOutside Buffer.errpos.base (rootPositions s.la s.regs.rsL.toNat (s.buf .sigma)).length s s.chienBody := by
  have hram := sameRamOutside_setBuf hwf .errpos ((chienRoots s.sigmaOp s.la).map (BitVec.ofNat 8))
  rw [← chienRoots_sigmaOp hwf]
  rwa [List.length_map] at hram

theorem countTestFails_iff (hn : s.la ≤ 255) : countTestFails s.chienBody = true ↔
    (rootPositions s.la s.regs.rsL.toNat (s.buf .sigma)).length ≠ s.regs.rsL.toNat := by
  rw [← chienBody_nroots_eq hwf hn]
  exact bne_iff_ne

end

theorem chienChecks_iff {s : State} :
    (!(decide (1 ≤ s.la) && decide (s.la ≤ 255) && decide (s.regs.rsL.toNat ≤ 68))) = true ↔
      ¬(1 ≤ s.la ∧ s.la ≤ 255 ∧ s.regs.rsL.toNat ≤ 68) := by
  rw [Bool.not_eq_true', Bool.eq_false_iff, ne_eq, Bool.and_eq_true, Bool.and_eq_true, decide_eq_true_eq,
    decide_eq_true_eq, decide_eq_true_eq, and_assoc]

/-- The third stage ends after its writes, by the count test with success or with `EUNCORR` (R143). -/
theorem exec_rsChien_eq_next {s : State} (hlo : 1 ≤ s.la) (hn : s.la ≤ 255) (hl : s.regs.rsL.toNat ≤ 68) :
    ∃ c u, exec .rsChien s = .next (s.chienBody.complete c u) ∧
      (countTestFails s.chienBody = true → c = .eUncorr ∧ u = .rootCount) ∧
      (countTestFails s.chienBody = false → c = .ok ∧ u = .none) := by
  have hexec : exec .rsChien s = if countTestFails s.chienBody then .next (s.chienBody.complete .eUncorr .rootCount)
      else .next (s.chienBody.complete .ok .none) := if_neg (mt chienChecks_iff.1 (not_not.2 ⟨hlo, hn, hl⟩))
  rw [hexec]
  cases countTestFails s.chienBody
  · exact ⟨.ok, .none, rfl, nofun, fun _ => ⟨rfl, rfl⟩⟩
  · exact ⟨.eUncorr, .rootCount, rfl, fun _ => ⟨rfl, rfl⟩, nofun⟩

/-- Settles O42: the body of the third stage, completed by the count test. -/
theorem rsChienResult : Obligations.RsChienResult := by
  refine fun s hwf => ⟨fun hlo hn hl => ?_, fun hchecks => if_pos (chienChecks_iff.2 hchecks)⟩
  have hended (c : ErrCode) (u : UncReason) : Ended s (s.chienBody.complete c u) (Regs.completed { s.regs with
      nroots := BitVec.ofNat 9 (rootPositions s.la s.regs.rsL.toNat (s.buf .sigma)).length } c u) := by
    rw [← chienRoots_sigmaOp hwf]
    rfl
  obtain ⟨c, u, hexec, hfails, hpasses⟩ := exec_rsChien_eq_next hlo hn hl
  refine ⟨_, _, rfl, hexec, fun heq => ?_, fun hne => ?_, fun k i hk => chienBody_errpos hwf hn hk,
    sameRamOutside_chienBody hwf⟩
  · obtain ⟨rfl, rfl⟩ := hpasses (Bool.eq_false_iff.2 (mt (countTestFails_iff hwf hn).1 (not_not.2 heq)))
    exact hended _ _
  · obtain ⟨rfl, rfl⟩ := hfails ((countTestFails_iff hwf hn).2 hne)
    exact hended _ _

/-! ### The fourth stage (R146) -/

theorem forneyValues_of_forall {sigma omega : List Byte} {is : List Nat} {v : Nat → Byte}
    (hv : ∀ i ∈ is, forneyValue sigma omega i = some (v i)) : forneyValues sigma omega is = some (is.map v) := by
  induction is with
  | nil => rfl
  | cons i is ih =>
    obtain ⟨hi, his⟩ := List.forall_mem_cons.1 hv
    rw [forneyValues, hi, ih his, List.map_cons]

theorem forneyValues_of_exists {sigma omega : List Byte} {is : List Nat}
    (hv : ∃ i ∈ is, forneyValue sigma omega i = none) : forneyValues sigma omega is = none := by
  induction is with
  | nil => simp at hv
  | cons i is ih =>
    rw [forneyValues]
    obtain hi | his := (List.exists_mem_cons_iff _ _ _).1 hv
    · rw [hi]
    · rw [ih his]
      cases forneyValue sigma omega i <;> rfl

/-- Every byte after the corrections: the values of the positions that name it are added. -/
theorem read_correct {s : State} (hwf : s.mem.wf = true) (n : Nat) (is : List Nat) (v : Nat → Byte) (a : Nat) :
    (s.correct n is (is.map v)).mem.read a =
      s.mem.read a ^^^ gfSum (is.map fun i => if Buffer.bufA.base + (n - 1 - i) = a then v i else 0#8) := by
  induction is generalizing s with
  | nil => exact BitVec.xor_zero.symm
  | cons i is ih =>
    rw [List.map_cons, State.correct, ih (wf_update _ _ _ hwf), read_update _ _ _ _ hwf, List.map_cons, gfSum,
      ← BitVec.xor_assoc]
    congr 1
    by_cases ha : Buffer.bufA.base + (n - 1 - i) = a
    · rw [if_pos (by omega), if_pos ha]
    · rw [if_neg (by omega), if_neg ha, BitVec.xor_zero]

/-- `Y_i` for the registers and buffers of a state (R144). -/
def State.errorValue (s : State) (i : Nat) : Byte :=
  Machine.errorValue s.ecc s.regs.rsL.toNat (s.buf .sigma) (s.buf .omega) i

/-- `σ′(α^(-i))` for the registers and buffers of a state (R144). -/
def State.sigmaPrime (s : State) (i : Nat) : Byte :=
  Machine.sigmaPrime s.regs.rsL.toNat (s.buf .sigma) (inversePower i)

section
variable {s : State} (hwf : s.mem.wf = true)
include hwf

theorem forneyValue_eq (i : Nat) : forneyValue s.sigmaOp (s.bufBytes .omega s.ecc) i =
    if s.sigmaPrime i = 0#8 then none else some (s.errorValue i) := by
  simp only [forneyValue, evalAsc_derivative hwf, evalAsc_bufBytes hwf]
  rfl

theorem errorPositions_eq :
    s.errorPositions = (List.range s.regs.nroots.toNat).map (fun k => (s.buf .errpos k).toNat) := by
  rw [State.errorPositions, bufBytes_eq_map hwf, List.map_map]
  rfl

theorem forall_mem_errorPositions {p : Nat → Prop} :
    (∀ i ∈ s.errorPositions, p i) ↔ ∀ k < s.regs.nroots.toNat, p (s.buf .errpos k).toNat := by
  simp [errorPositions_eq hwf]

/-- What the fourth stage leaves where `σ′` vanishes at no position. -/
theorem forneyBody_of_forall (hprime : ∀ i ∈ s.errorPositions, s.sigmaPrime i ≠ 0#8) : s.forneyBody =
    some { s.correct s.la s.errorPositions (s.errorPositions.map s.errorValue) with
      regs := { s.regs with nerr := s.regs.nroots } } := by
  have hvalues := forneyValues_of_forall (sigma := s.sigmaOp) (omega := s.bufBytes .omega s.ecc)
    fun i hi => (forneyValue_eq hwf i).trans (if_neg (hprime i hi))
  rw [State.forneyBody, hvalues]
  simp only [correct_regs]

theorem forneyBody_of_exists (hprime : ∃ i ∈ s.errorPositions, s.sigmaPrime i = 0#8) : s.forneyBody = none := by
  obtain ⟨i, hi, hzero⟩ := hprime
  rw [State.forneyBody, forneyValues_of_exists ⟨i, hi, (forneyValue_eq hwf i).trans (if_pos hzero)⟩]

end

theorem forneyChecks_iff {s : State} :
    (!(blockLenOk s.la s.ecc && decide (s.regs.rsL.toNat ≤ 68) && decide (s.regs.nroots.toNat ≤ 255))) = true ↔
      ¬((s.ecc + 1 ≤ s.la ∧ s.la ≤ 255) ∧ s.regs.rsL.toNat ≤ 68 ∧ s.regs.nroots.toNat ≤ 255) := by
  rw [Bool.not_eq_true', Bool.eq_false_iff, ne_eq, Bool.and_eq_true, Bool.and_eq_true, blockLenOk_iff,
    decide_eq_true_eq, decide_eq_true_eq, and_assoc]

theorem any_outside_iff {s : State} :
    s.errorPositions.any (fun i => decide (s.la ≤ i)) = true ↔ ¬∀ i ∈ s.errorPositions, i < s.la := by
  simp

/-- How the fourth stage ends: with the corrections, or where `σ′` vanishes at a position (R146). -/
def State.forneyEnd (s : State) : Result :=
  match s.forneyBody with
  | none => raiseUncorr s .derivative
  | some t => succeed t

theorem forneyEnd_of_none {s : State} (hbody : s.forneyBody = none) : s.forneyEnd = raiseUncorr s .derivative := by
  rw [State.forneyEnd, hbody]

theorem forneyEnd_of_some {s t : State} (hbody : s.forneyBody = some t) : s.forneyEnd = succeed t := by
  rw [State.forneyEnd, hbody]

/-- The fourth stage past its checks. -/
theorem exec_rsForney {s : State} (he : s.ecc ∈ genset) (hlo : s.ecc + 1 ≤ s.la) (hn : s.la ≤ 255)
    (hl : s.regs.rsL.toNat ≤ 68) (hc : s.regs.nroots.toNat ≤ 255) (hpos : ∀ i ∈ s.errorPositions, i < s.la) :
    exec .rsForney s = s.forneyEnd :=
  (if_neg (eccCheck_passes he)).trans
    ((if_neg (mt forneyChecks_iff.1 (not_not.2 ⟨⟨hlo, hn⟩, hl, hc⟩))).trans
      (if_neg (mt any_outside_iff.1 (not_not.2 hpos))))

theorem exec_rsForney_eLen {s : State} (hwf : s.mem.wf = true) (he : s.ecc ∈ genset)
    (hlen : ¬(s.ecc + 1 ≤ s.la ∧ s.la ≤ 255 ∧ s.regs.rsL.toNat ≤ 68 ∧ s.regs.nroots.toNat ≤ 255 ∧
      ∀ k < s.regs.nroots.toNat, (s.buf .errpos k).toNat < s.la)) :
    exec .rsForney s = .next (s.endedWith .eLen .none) := by
  refine (if_neg (eccCheck_passes he)).trans ?_
  by_cases hchecks : (s.ecc + 1 ≤ s.la ∧ s.la ≤ 255) ∧ s.regs.rsL.toNat ≤ 68 ∧ s.regs.nroots.toNat ≤ 255
  · obtain ⟨⟨hlo, hn⟩, hl, hc⟩ := hchecks
    refine (if_neg (mt forneyChecks_iff.1 (not_not.2 ⟨⟨hlo, hn⟩, hl, hc⟩))).trans (if_pos (any_outside_iff.2 ?_))
    exact fun hpos => hlen ⟨hlo, hn, hl, hc, (forall_mem_errorPositions hwf).1 hpos⟩
  · exact if_pos (forneyChecks_iff.2 hchecks)

/-- Settles O43: the body of the fourth stage, completed, or `EUNCORR` where it has no value for a position. -/
theorem rsForneyResult : Obligations.RsForneyResult := by
  refine fun s hwf => ⟨fun he hlo hn hl hc hpos => ?_, fun he => if_pos (not_eccValid_iff.2 he),
    fun he hlen => exec_rsForney_eLen hwf he hlen⟩
  rw [exec_rsForney he hlo hn hl hc ((forall_mem_errorPositions hwf).2 hpos)]
  refine ⟨fun hprime => ?_, fun ⟨k, hk, hzero⟩ => ?_⟩
  · rw [forneyEnd_of_some (forneyBody_of_forall hwf ((forall_mem_errorPositions hwf).2 hprime))]
    have hread := read_correct hwf s.la s.errorPositions s.errorValue
    refine ⟨_, rfl, ?_, fun p hp => (hread _).trans ?_, fun a ha => (hread a).trans ?_⟩
    · simp only [Ended, State.complete, Regs.completed, correct_cfg, correct_script, correct_pos, correct_readData,
        correct_passed, correct_turns]
    · rw [errorPositions_eq hwf, List.map_map]
      simp only [Function.comp_def, Nat.add_right_inj]
      rfl
    · rw [errorPositions_eq hwf, List.map_map]
      have hzero : gfSumRange s.regs.nroots.toNat (fun k =>
          if Buffer.bufA.base + (s.la - 1 - (s.buf .errpos k).toNat) = a then
            s.errorValue (s.buf .errpos k).toNat else 0#8) = 0#8 :=
        gfSumRange_eq_zero fun k _ => if_neg (by omega)
      exact (congrArg (s.mem.read a ^^^ ·) hzero).trans BitVec.xor_zero
  · have hmem : (s.buf .errpos k).toNat ∈ s.errorPositions := by
      rw [errorPositions_eq hwf]
      exact List.mem_map_of_mem (List.mem_range.2 hk)
    rw [forneyEnd_of_none (forneyBody_of_exists hwf ⟨_, hmem, hzero⟩)]
    rfl

/-! ### The four stages in order (R147, R148) -/

/-- `RS_DECODE` past its checks. -/
theorem exec_rsDecode {s : State} (he : s.ecc ∈ genset) (hlo : s.ecc + 1 ≤ s.la) (hn : s.la ≤ 255) :
    exec .rsDecode s =
      if s.syndromeBody.regs.clean then succeed s.syndromeBody.cleanResult
      else if degreeTestFails s.syndromeBody.bmBody then raiseUncorr s.syndromeBody.bmBody .degree
      else if countTestFails s.syndromeBody.bmBody.chienBody then
        raiseUncorr s.syndromeBody.bmBody.chienBody .rootCount
      else s.syndromeBody.bmBody.chienBody.forneyEnd :=
  (if_neg (eccCheck_passes he)).trans (if_neg (mt not_blockLenOk_iff.1 (not_not.2 ⟨hlo, hn⟩)))

theorem correct_complete (s : State) (c : ErrCode) (u : UncReason) (n : Nat) (is : List Nat) (ys : List Byte) :
    (s.complete c u).correct n is ys = (s.correct n is ys).complete c u := by
  induction is generalizing s ys with
  | nil => rfl
  | cons i is ih =>
    cases ys with
    | nil => rfl
    | cons y ys =>
      rw [State.correct, State.correct]
      exact ih { s with mem := s.mem.update (Buffer.bufA.base + (n - 1 - i)) 1 (fun _ old => old ^^^ y) } ys

/-- The fourth stage reads nothing that a completion sets. -/
theorem forneyBody_complete (s : State) (c : ErrCode) (u : UncReason) :
    (s.complete c u).forneyBody = s.forneyBody.map (·.complete c u) := by
  have hvalues : forneyValues (s.complete c u).sigmaOp ((s.complete c u).bufBytes .omega (s.complete c u).ecc)
      (s.complete c u).errorPositions = forneyValues s.sigmaOp (s.bufBytes .omega s.ecc) s.errorPositions := rfl
  rw [State.forneyBody, State.forneyBody, hvalues]
  cases forneyValues s.sigmaOp (s.bufBytes .omega s.ecc) s.errorPositions with
  | none => rfl
  | some ys =>
    have hcorrect := correct_complete s c u s.la s.errorPositions ys
    exact congrArg (fun t : State => some { t with regs := { t.regs with nerr := s.regs.nroots } }) hcorrect

theorem rsL_le_of_degreeTest {s : State} (he : s.ecc ≤ 68) (htest : degreeTestFails s = false) :
    s.regs.rsL.toNat ≤ 34 := by
  have hle := of_decide_eq_false htest
  omega

/-- After the third stage the checks of the fourth pass, and it ends by its body (R148). -/
theorem exec_rsForney_chienBody {s : State} (hwf : s.mem.wf = true) (he : s.ecc ∈ genset) (hlo : s.ecc + 1 ≤ s.la)
    (hn : s.la ≤ 255) (hl : s.regs.rsL.toNat ≤ 68) :
    exec .rsForney (s.chienBody.complete .ok .none) = s.chienBody.forneyEnd := by
  have hpositions : ∀ i ∈ (s.chienBody.complete .ok .none).errorPositions, i < s.la := fun i hi => by
    have hroots : (s.chienBody.complete .ok .none).errorPositions = chienRoots s.sigmaOp s.la :=
      chienBody_errorPositions hwf hn
    rw [hroots] at hi
    exact lt_of_mem_chienRoots hi
  rw [exec_rsForney (s := s.chienBody.complete .ok .none) he hlo hn hl ((chienBody_nroots_le s).trans hn) hpositions,
    State.forneyEnd, State.forneyEnd, forneyBody_complete]
  cases s.chienBody.forneyBody <;> rfl

/-- Settles O44: each stage is its body completed, and the bodies read nothing that a completion sets. -/
theorem decodeIsTheFourStages : Obligations.DecodeIsTheFourStages := by
  refine fun s hwf => ⟨fun he hlo hn => ?_, fun he => if_pos (not_eccValid_iff.2 he), fun he hlen =>
    (if_neg (eccCheck_passes he)).trans (if_pos (not_blockLenOk_iff.2 hlen))⟩
  rw [exec_rsDecode he hlo hn]
  refine ⟨_, exec_rsSyndrome he hlo hn, fun hclean => if_pos hclean, fun hdirty => ?_⟩
  have hdirty : ¬s.syndromeBody.regs.clean = true := Bool.eq_false_iff.1 hdirty
  rw [if_neg hdirty]
  obtain ⟨c₂, u₂, hexec₂, hfails₂, hpasses₂⟩ := exec_rsBm_eq_next (s := s.syndromeBody.complete .ok .none) he
  refine ⟨_, hexec₂, ?_⟩
  cases hdegree : degreeTestFails s.syndromeBody.bmBody with
  | true =>
    obtain ⟨rfl, rfl⟩ := hfails₂ hdegree
    exact ⟨fun _ => rfl, nofun⟩
  | false =>
    obtain ⟨rfl, rfl⟩ := hpasses₂ hdegree
    refine ⟨nofun, fun _ => ?_⟩
    have hwf₂ := wf_bmBody (wf_syndromeBody hwf)
    have hl : s.syndromeBody.bmBody.regs.rsL.toNat ≤ 68 :=
      (rsL_le_of_degreeTest (s := s.syndromeBody.bmBody) (le_of_mem_genset he) hdegree).trans (by decide)
    obtain ⟨c₃, u₃, hexec₃, hfails₃, hpasses₃⟩ :=
      exec_rsChien_eq_next (s := (s.syndromeBody.complete .ok .none).bmBody.complete .ok .none)
        (Nat.one_le_of_lt hlo) hn hl
    refine ⟨_, hexec₃, ?_⟩
    cases hcount : countTestFails s.syndromeBody.bmBody.chienBody with
    | true =>
      obtain ⟨rfl, rfl⟩ := hfails₃ hcount
      exact ⟨fun _ => rfl, nofun⟩
    | false =>
      obtain ⟨rfl, rfl⟩ := hpasses₃ hcount
      exact ⟨nofun, fun _ => (exec_rsForney_chienBody (s := s.syndromeBody.bmBody) hwf₂ he hlo hn hl).symm⟩

end Sys2Proof.Machine
end

section
/-! Decoding over any field: power sums of few points have one shortest recurrence, whose roots are the inverses of the
points, and the weights of the points are the quotients of Forney's formula. -/

namespace Sys2Proof.Machine

open Finset Polynomial

section
variable {F : Type} [Field F]

/-! ### Simple roots -/

/-- A polynomial with as many roots as its degree allows has simple roots. -/
theorem eval_derivative_ne_zero_of_card {p : F[X]} (hp : p ≠ 0) {l : Nat} (hdegree : p.natDegree ≤ l) {R : Finset F}
    (hroots : ∀ z ∈ R, p.eval z = 0) (hcard : l ≤ R.card) {z : F} (hz : z ∈ R) : p.derivative.eval z ≠ 0 := by
  classical
  intro hderivative
  have hsub : R.val ≤ p.roots := (Multiset.le_iff_subset R.nodup).2 fun z hz => (mem_roots hp).2 (hroots z hz)
  have hall : R.val = p.roots := Multiset.eq_of_le_of_card_le hsub ((card_roots' p).trans (hdegree.trans hcard))
  have hsimple : p.roots.count z ≤ 1 := Multiset.nodup_iff_count_le_one.1 (hall ▸ R.nodup) z
  rw [count_roots] at hsimple
  exact hsimple.not_gt ((one_lt_rootMultiplicity_iff_isRoot hp).2 ⟨hroots z hz, hderivative⟩)

/-! ### Power sums -/

variable {I : Finset Nat} {x Y : Nat → F}

/-- Weights whose power sums vanish up to the number of points are zero. -/
theorem weights_eq_zero (hinj : Set.InjOn x I) (hsums : ∀ j < I.card, ∑ i ∈ I, Y i * x i ^ j = 0) {a : Nat}
    (ha : a ∈ I) : Y a = 0 := by
  classical
  have hdegree : (Lagrange.basis I x a).natDegree < I.card := by
    rw [natDegree_lt_iff_degree_lt (Lagrange.basis_ne_zero hinj ha), Lagrange.degree_basis hinj ha, Nat.cast_lt]
    exact Nat.sub_lt (card_pos.2 ⟨a, ha⟩) Nat.one_pos
  calc Y a = ∑ i ∈ I, Y i * (Lagrange.basis I x a).eval (x i) := by
        rw [sum_eq_single_of_mem a ha fun i hi hia => by rw [Lagrange.eval_basis_of_ne hia.symm hi, mul_zero],
          Lagrange.eval_basis_self hinj ha, mul_one]
    _ = ∑ j ∈ range I.card, (Lagrange.basis I x a).coeff j * ∑ i ∈ I, Y i * x i ^ j := by
        simp only [eval_eq_sum_range' hdegree, mul_sum]
        rw [sum_comm]
        exact sum_congr rfl fun j _ => sum_congr rfl fun i _ => by ring
    _ = 0 := sum_eq_zero fun j hj => by rw [hsums j (mem_range.1 hj), mul_zero]

/-- A connection polynomial applied to power sums: each point contributes its value at the inverse. -/
theorem sum_coeff_mul_powerSum (hx : ∀ i ∈ I, x i ≠ 0) {p : F[X]} {l r : Nat} (hdegree : p.natDegree ≤ l)
    (hr : l ≤ r) : ∑ k ∈ range (l + 1), p.coeff k * ∑ i ∈ I, Y i * x i ^ (r - k) =
      ∑ i ∈ I, Y i * x i ^ r * p.eval (x i)⁻¹ := by
  simp only [eval_eq_sum_range' (Nat.lt_succ_of_le hdegree), mul_sum]
  rw [sum_comm]
  refine sum_congr rfl fun i hi => sum_congr rfl fun k hk => ?_
  have hk := mem_range.1 hk
  rw [pow_sub₀ _ (hx i hi) (by omega), inv_pow]
  ring

/-- The product of `1 - x_i z` over the points. -/
noncomputable def locator (I : Finset Nat) (x : Nat → F) : F[X] := ∏ i ∈ I, (1 - C (x i) * X)

theorem natDegree_locator_le : (locator I x).natDegree ≤ I.card := by
  refine (natDegree_prod_le I _).trans ((sum_le_card_nsmul I _ 1 fun i _ => ?_).trans_eq (by simp))
  exact (natDegree_sub_le _ _).trans (by simpa using (natDegree_C_mul_le (x i) X).trans natDegree_X_le)

theorem coeff_zero_locator : (locator I x).coeff 0 = 1 := by
  simp [locator, coeff_zero_eq_eval_zero, eval_prod]

theorem eval_locator (hx : ∀ i ∈ I, x i ≠ 0) {i : Nat} (hi : i ∈ I) : (locator I x).eval (x i)⁻¹ = 0 := by
  rw [locator, eval_prod]
  exact prod_eq_zero hi (by simp [hx i hi])

/-- A recurrence of the power sums that is not longer than their number of points, over twice as many sums, vanishes
at the inverse of every point. -/
theorem eval_inv_eq_zero_of_recurrence (hinj : Set.InjOn x I) (hx : ∀ i ∈ I, x i ≠ 0) (hY : ∀ i ∈ I, Y i ≠ 0)
    {p : F[X]} {l e : Nat} (hdegree : p.natDegree ≤ l) (hle : l + I.card ≤ e)
    (hrec : ∀ r, l ≤ r → r < e → ∑ k ∈ range (l + 1), p.coeff k * ∑ i ∈ I, Y i * x i ^ (r - k) = 0)
    {i : Nat} (hi : i ∈ I) : p.eval (x i)⁻¹ = 0 := by
  have hweights : Y i * x i ^ l * p.eval (x i)⁻¹ = 0 :=
    weights_eq_zero (Y := fun i => Y i * x i ^ l * p.eval (x i)⁻¹) hinj (fun j hj => by
      rw [← hrec (l + j) (by omega) (by omega), sum_coeff_mul_powerSum hx hdegree (by omega)]
      exact sum_congr rfl fun i _ => by rw [pow_add]; ring) hi
  exact (mul_eq_zero.1 hweights).resolve_left (mul_ne_zero (hY i hi) (pow_ne_zero l (hx i hi)))

/-! ### Forney's formula -/

/-- The quotient of σ by `1 - x z`, where that divides it: the first e coefficients of σ times the powers of x. -/
noncomputable def rootQuotient (σ : F[X]) (e : Nat) (x : F) : F[X] :=
  ∑ k ∈ range e, C (∑ j ∈ range (k + 1), σ.coeff j * x ^ (k - j)) * X ^ k

/-- Up to index e the product with `1 - x z` is σ, and what is left over stands at index e. -/
theorem mul_rootQuotient_add (σ : F[X]) (e : Nat) (x : F) : (1 - C x * X) * rootQuotient σ e x +
    C (∑ j ∈ range e, σ.coeff j * x ^ (e - j)) * X ^ e = ∑ k ∈ range e, C (σ.coeff k) * X ^ k := by
  induction e with
  | zero => simp [rootQuotient]
  | succ e ih =>
    have hshift : ∑ j ∈ range (e + 1), σ.coeff j * x ^ (e + 1 - j) =
        x * ∑ j ∈ range (e + 1), σ.coeff j * x ^ (e - j) := by
      rw [mul_sum]
      refine sum_congr rfl fun j hj => ?_
      rw [Nat.succ_sub (Nat.le_of_lt_succ (mem_range.1 hj)), pow_succ]
      ring
    have hlast : ∑ j ∈ range (e + 1), σ.coeff j * x ^ (e - j) =
        (∑ j ∈ range e, σ.coeff j * x ^ (e - j)) + σ.coeff e := by
      rw [sum_range_succ, Nat.sub_self, pow_zero, mul_one]
    have hquotient : rootQuotient σ (e + 1) x = rootQuotient σ e x +
        C (∑ j ∈ range (e + 1), σ.coeff j * x ^ (e - j)) * X ^ e := sum_range_succ _ e
    rw [sum_range_succ (fun k => C (σ.coeff k) * X ^ k), ← ih, hquotient, hshift, hlast]
    simp only [C_mul, C_add]
    ring

theorem mul_rootQuotient {σ : F[X]} {e : Nat} {x : F} (hx : x ≠ 0) (hdegree : σ.natDegree ≤ e)
    (hroot : σ.eval x⁻¹ = 0) : (1 - C x * X) * rootQuotient σ e x = σ := by
  have hrest : ∑ j ∈ range e, σ.coeff j * x ^ (e - j) = -σ.coeff e := by
    have hsum : ∑ j ∈ range (e + 1), σ.coeff j * x ^ (e - j) = 0 := by
      calc ∑ j ∈ range (e + 1), σ.coeff j * x ^ (e - j)
          = x ^ e * σ.eval x⁻¹ := by
            rw [eval_eq_sum_range' (Nat.lt_succ_of_le hdegree), mul_sum]
            refine sum_congr rfl fun j hj => ?_
            rw [pow_sub₀ x hx (Nat.le_of_lt_succ (mem_range.1 hj)), inv_pow]
            ring
        _ = 0 := by rw [hroot, mul_zero]
    rw [sum_range_succ, Nat.sub_self, pow_zero, mul_one] at hsum
    exact eq_neg_of_add_eq_zero_left hsum
  have hproduct := mul_rootQuotient_add σ e x
  rw [hrest, C_neg, neg_mul, ← sub_eq_add_neg, sub_eq_iff_eq_add, ← sum_range_succ] at hproduct
  rw [hproduct]
  exact (σ.as_sum_range_C_mul_X_pow' (Nat.lt_succ_of_le hdegree)).symm

/-- At its own root the quotient is the derivative, but for the factor. -/
theorem eval_derivative_eq_rootQuotient {σ : F[X]} {e : Nat} {x : F} (hx : x ≠ 0) (hdegree : σ.natDegree ≤ e)
    (hroot : σ.eval x⁻¹ = 0) : σ.derivative.eval x⁻¹ = -(x * (rootQuotient σ e x).eval x⁻¹) := by
  conv_lhs => rw [← mul_rootQuotient hx hdegree hroot]
  simp [hx]

theorem eval_rootQuotient_of_ne {σ : F[X]} {e : Nat} {x z : F} (hx : x ≠ 0) (hdegree : σ.natDegree ≤ e)
    (hroot : σ.eval x⁻¹ = 0) (hz : σ.eval z = 0) (hne : z ≠ x⁻¹) : (rootQuotient σ e x).eval z = 0 := by
  rw [← mul_rootQuotient hx hdegree hroot, eval_mul] at hz
  refine (mul_eq_zero.1 hz).resolve_left fun hfactor => hne (eq_inv_of_mul_eq_one_right ?_)
  have hone : 1 - x * z = 0 := by simpa using hfactor
  exact (sub_eq_zero.1 hone).symm

/-- The evaluator of R139 for power sums. -/
noncomputable def evaluatorOf (σ : F[X]) (e : Nat) (S : Nat → F) : F[X] :=
  ∑ k ∈ range e, C (∑ j ∈ range (k + 1), σ.coeff j * S (k - j)) * X ^ k

theorem evaluatorOf_powerSum (σ : F[X]) (e : Nat) (I : Finset Nat) (x Y : Nat → F) :
    evaluatorOf σ e (fun j => ∑ i ∈ I, Y i * x i ^ j) = ∑ i ∈ I, C (Y i) * rootQuotient σ e (x i) := by
  simp only [rootQuotient, mul_sum]
  rw [sum_comm]
  refine sum_congr rfl fun k _ => ?_
  simp only [← mul_assoc, ← C_mul, ← sum_mul, ← map_sum, mul_sum]
  rw [sum_comm]
  congr 2
  exact sum_congr rfl fun i _ => sum_congr rfl fun j _ => by ring

/-- Forney's formula: the weight of a point is the point times the evaluator over the derivative, negated. -/
theorem weight_eq_forney (hinj : Set.InjOn x I) (hx : ∀ i ∈ I, x i ≠ 0) {σ : F[X]} {e : Nat}
    (hdegree : σ.natDegree ≤ e) (hroots : ∀ i ∈ I, σ.eval (x i)⁻¹ = 0) {a : Nat} (ha : a ∈ I)
    (hsimple : σ.derivative.eval (x a)⁻¹ ≠ 0) :
    Y a = -(x a * ((evaluatorOf σ e (fun j => ∑ i ∈ I, Y i * x i ^ j)).eval (x a)⁻¹ /
      σ.derivative.eval (x a)⁻¹)) := by
  have heval : (evaluatorOf σ e (fun j => ∑ i ∈ I, Y i * x i ^ j)).eval (x a)⁻¹ =
      Y a * (rootQuotient σ e (x a)).eval (x a)⁻¹ := by
    rw [evaluatorOf_powerSum, eval_finsetSum, sum_eq_single_of_mem a ha, eval_mul, eval_C]
    intro i hi hia
    have hne : (x a)⁻¹ ≠ (x i)⁻¹ := fun h => hia (hinj hi ha (inv_injective h).symm)
    rw [eval_mul, eval_rootQuotient_of_ne (hx i hi) hdegree (hroots i hi) (hroots a ha) hne, mul_zero]
  have hderivative := eval_derivative_eq_rootQuotient (hx a ha) hdegree (hroots a ha)
  rw [heval, ← mul_div_assoc, eq_comm, neg_eq_iff_eq_neg, div_eq_iff hsimple, hderivative]
  ring

end

end Sys2Proof.Machine
end

section
/-! The error locator: the σ and L of R138 for the syndromes of an error pattern, the positions and values they give,
and the simple roots of a σ that passes the root count (R142, R148, R149). -/

namespace Sys2Proof.Machine

open Finset Polynomial

/-! ### Roots of an array (R141, R142) -/

section
variable {F : Type} [Field F] {φ : Byte → F}

/-- The inverses of the points at the root positions. -/
noncomputable def rootSet (φ : Byte → F) (n l : Nat) (f : Nat → Byte) : Finset F :=
  have := Classical.decEq F
  (rootPositions n l f).toFinset.image fun i => (φ (gfExp i))⁻¹

theorem mem_rootSet_of_mem {n l i : Nat} {f : Nat → Byte} (hi : i ∈ rootPositions n l f) :
    (φ (gfExp i))⁻¹ ∈ rootSet φ n l f := by
  classical
  exact mem_image_of_mem _ (List.mem_toFinset.2 hi)

variable (h : FieldModel φ)
include h

namespace FieldModel

/-- `σ′` of R144 is the derivative: in characteristic 2 the even terms vanish. -/
theorem map_sigmaPrime (l : Nat) (f : Nat → Byte) (z : Byte) :
    φ (sigmaPrime l f z) = (coefPoly φ (l + 1) f).derivative.eval (φ z) := by
  have := h.charTwo
  have hterm (k : Nat) : (C (φ (f k)) * X ^ k : F[X]).derivative.eval (φ z) = φ (f k) * k * φ z ^ (k - 1) := by
    rw [derivative_C_mul_X_pow, eval_mul, eval_C, eval_pow, eval_X]
  rw [coefPoly, derivative_sum, eval_finsetSum, sum_range_succ', hterm, sigmaPrime, h.map_sum, Nat.cast_zero, mul_zero,
    zero_mul, add_zero]
  refine sum_congr rfl fun k _ => ?_
  rw [hterm, CharTwo.natCast_eq_ite]
  obtain heven | hodd := Nat.even_or_odd k
  · rw [if_pos (Nat.even_iff.1 heven), if_neg (by simpa [Nat.even_add_one] using heven), h.map_mul, h.map_pow, mul_one,
      Nat.add_sub_cancel]
  · rw [if_neg (by have := Nat.odd_iff.1 hodd; omega), if_pos (by simpa [Nat.even_add_one] using hodd), h.map_zero,
      mul_zero, zero_mul]

theorem mem_rootPositions {n l : Nat} (hn : n ≤ 255) {f : Nat → Byte} {i : Nat} : i ∈ rootPositions n l f ↔
    i < n ∧ (coefPoly φ (l + 1) f).eval (φ (gfExp i))⁻¹ = 0 := by
  rw [rootPositions, List.mem_filter, List.mem_range, beq_iff_eq, ← h.map_eq_zero, h.map_valueAt]
  exact and_congr_right fun hi => by rw [h.map_inversePower (by omega)]

theorem coefPoly_ne_zero {l : Nat} {f : Nat → Byte} (hf : f 0 = 1#8) : coefPoly φ (l + 1) f ≠ 0 := by
  intro hzero
  have hcoeff := coeff_coefPoly φ (l + 1) f 0
  rw [hzero, coeff_zero, if_pos (Nat.succ_pos l), hf, h.map_one] at hcoeff
  exact zero_ne_one hcoeff

end FieldModel

theorem eval_of_mem_rootSet {n l : Nat} (hn : n ≤ 255) {f : Nat → Byte} {z : F} (hz : z ∈ rootSet φ n l f) :
    (coefPoly φ (l + 1) f).eval z = 0 := by
  classical
  obtain ⟨i, hi, rfl⟩ := mem_image.1 hz
  exact ((h.mem_rootPositions hn).1 (List.mem_toFinset.1 hi)).2

theorem card_rootSet {n l : Nat} (hn : n ≤ 255) {f : Nat → Byte} :
    (rootSet φ n l f).card = (rootPositions n l f).length := by
  classical
  have hnodup : (rootPositions n l f).Nodup := List.nodup_range.filter _
  rw [rootSet, card_image_of_injOn, List.toFinset_card_of_nodup hnodup]
  intro i hi j hj hij
  have hlt : ∀ i ∈ ((rootPositions n l f).toFinset : Set Nat), i < 255 := fun i hi => by
    have := ((h.mem_rootPositions hn).1 (List.mem_toFinset.1 hi)).1
    omega
  exact h.map_gfExp_injOn (hlt i hi) (hlt j hj) (inv_injective hij)

end

/-- A σ with constant term 1 has at most L root positions (R142). -/
theorem length_rootPositions_le {n l : Nat} (hn : n ≤ 255) {f : Nat → Byte} (hf : f 0 = 1#8) :
    (rootPositions n l f).length ≤ l := by
  obtain ⟨F, _, φ, h⟩ := exists_fieldModel
  have hsub : (rootSet φ n l f).val ≤ (coefPoly φ (l + 1) f).roots :=
    (Multiset.le_iff_subset (rootSet φ n l f).nodup).2 fun z hz =>
      (mem_roots (h.coefPoly_ne_zero hf)).2 (eval_of_mem_rootSet h hn hz)
  calc (rootPositions n l f).length = (rootSet φ n l f).card := (card_rootSet h hn).symm
    _ ≤ (coefPoly φ (l + 1) f).roots.card := Multiset.card_le_card hsub
    _ ≤ l := (card_roots' _).trans (natDegree_coefPoly_le φ l f)

/-- A σ with constant term 1 that passes the root count has simple roots, where `σ′` does not vanish (R148). -/
theorem sigmaPrime_ne_zero {n l : Nat} (hn : n ≤ 255) {f : Nat → Byte} (hf : f 0 = 1#8)
    (hcount : (rootPositions n l f).length = l) {i : Nat} (hi : i ∈ rootPositions n l f) :
    sigmaPrime l f (inversePower i) ≠ 0#8 := by
  obtain ⟨F, _, φ, h⟩ := exists_fieldModel
  have hlt := ((h.mem_rootPositions hn).1 hi).1
  rw [ne_eq, ← h.map_eq_zero, h.map_sigmaPrime, h.map_inversePower (by omega)]
  exact eval_derivative_ne_zero_of_card (h.coefPoly_ne_zero hf) (natDegree_coefPoly_le φ l f)
    (fun z hz => eval_of_mem_rootSet h hn hz) (by rw [card_rootSet h hn, hcount]) (mem_rootSet_of_mem hi)

/-! ### Error patterns -/

/-- The positions with a non-zero error value, ascending. -/
def errorsOf (n : Nat) (y : Nat → Byte) : List Nat := (List.range n).filter (fun i => y i != 0#8)

theorem mem_errorsOf {n : Nat} {y : Nat → Byte} {i : Nat} : i ∈ errorsOf n y ↔ i < n ∧ y i ≠ 0#8 := by
  simp [errorsOf]

/-- The syndromes are those of an error pattern, with at most half of e errors in a block of at most 255 codewords. -/
structure ErrorPattern (n e : Nat) (y syn : Nat → Byte) : Prop where
  n_le : n ≤ 255
  few : 2 * (errorsOf n y).length ≤ e
  syndromes : ∀ j < e, syn j = gfSumRange n (fun i => gfMul (y i) (gfExp (i * j)))

namespace ErrorPattern

variable {n e : Nat} {y syn : Nat → Byte} (hp : ErrorPattern n e y syn)

section
variable {F : Type} [Field F] {φ : Byte → F} (h : FieldModel φ)

/-- The error positions as a set. -/
def positions (n : Nat) (y : Nat → Byte) : Finset Nat := (errorsOf n y).toFinset

theorem mem_positions {i : Nat} : i ∈ positions n y ↔ i < n ∧ y i ≠ 0#8 := by
  rw [positions, List.mem_toFinset, mem_errorsOf]

theorem card_positions : (positions n y).card = (errorsOf n y).length :=
  List.toFinset_card_of_nodup (List.nodup_range.filter _)

include h

theorem injOn_points (hn : n ≤ 255) : Set.InjOn (fun i => φ (gfExp i)) (positions n y) :=
  h.map_gfExp_injOn.mono fun i hi => by
    have hi : i < n := (mem_positions.1 hi).1
    exact hi.trans_le hn

omit hp in
theorem points_ne_zero : ∀ i ∈ positions n y, φ (gfExp i) ≠ 0 := fun i _ => h.map_gfExp_ne_zero i

include hp

/-- The syndromes are power sums over the error positions (R135). -/
theorem map_syndrome {j : Nat} (hj : j < e) :
    φ (syn j) = ∑ i ∈ positions n y, φ (y i) * φ (gfExp i) ^ j := by
  rw [hp.syndromes j hj, h.map_sum]
  refine (sum_subset (fun i hi => mem_range.2 (mem_positions.1 hi).1) fun i hi hnot => ?_).symm.trans
    (sum_congr rfl fun i _ => ?_)
  · have hy : y i = 0#8 := by_contra fun hy => hnot (mem_positions.2 ⟨mem_range.1 hi, hy⟩)
    rw [hy, gfMul_zero_left, h.map_zero]
  · rw [h.map_mul, h.map_gfExp_mul]

/-- A recurrence sum of the syndromes as one of power sums. -/
theorem map_recurrenceSum {l r : Nat} (hlr : l ≤ r) (hre : r < e) (c : Nat → Byte) (p : F[X])
    (hc : ∀ k ≤ l, p.coeff k = φ (c k)) : φ (gfSumRange (l + 1) (fun k => gfMul (c k) (syn (r - k)))) =
      ∑ k ∈ range (l + 1), p.coeff k * ∑ i ∈ positions n y, φ (y i) * φ (gfExp i) ^ (r - k) := by
  rw [h.map_sum]
  refine sum_congr rfl fun k hk => ?_
  rw [h.map_mul, hp.map_syndrome h (by omega), hc k (Nat.le_of_lt_succ (mem_range.1 hk))]

end

include hp

/-- The product of the factors of the error positions generates the syndromes, so L is at most their number. -/
theorem l_le : (bmTrace syn e).l ≤ (errorsOf n y).length := by
  obtain ⟨F, _, φ, h⟩ := exists_fieldModel
  rw [← card_positions]
  choose coef hcoef using fun k => h.surjective ((locator (positions n y) fun i => φ (gfExp i)).coeff k)
  refine bmTrace_shortest (coef := coef) ⟨h.injective ?_, fun r hlr hre => ?_⟩
  · rw [hcoef, coeff_zero_locator, h.map_one]
  · rw [← h.map_eq_zero, hp.map_recurrenceSum h hlr hre _ _ fun k _ => (hcoef k).symm,
      sum_coeff_mul_powerSum (points_ne_zero h) natDegree_locator_le hlr]
    exact sum_eq_zero fun i hi => by rw [eval_locator (points_ne_zero h) hi, mul_zero]

/-- σ vanishes at the inverse of every error position. -/
theorem eval_locator {F : Type} [Field F] {φ : Byte → F} (h : FieldModel φ) {i : Nat} (hi : i ∈ positions n y) :
    (coefPoly φ ((bmTrace syn e).l + 1) (bmTrace syn e).c).eval (φ (gfExp i))⁻¹ = 0 := by
  have hl := hp.l_le
  have hfew := hp.few
  refine eval_inv_eq_zero_of_recurrence (x := fun i => φ (gfExp i)) (Y := fun i => φ (y i)) (e := e)
    (injOn_points h hp.n_le) (points_ne_zero h) (fun i hi => mt h.map_eq_zero.1 (mem_positions.1 hi).2)
    (natDegree_coefPoly_le φ _ _) (by rw [card_positions]; omega) (fun r hlr hre => ?_) hi
  rw [← hp.map_recurrenceSum h hlr hre (bmTrace syn e).c _ fun k hk => by
    rw [coeff_coefPoly, if_pos (Nat.lt_succ_of_le hk)], (bmTrace_generates syn e).2 r hlr hre, h.map_zero]

/-- The search finds the error positions: each is a root, and there are no more than L roots. -/
theorem rootPositions_eq : rootPositions n (bmTrace syn e).l (bmTrace syn e).c = errorsOf n y := by
  obtain ⟨F, _, φ, h⟩ := exists_fieldModel
  have hfilter : errorsOf n y =
      (rootPositions n (bmTrace syn e).l (bmTrace syn e).c).filter (fun i => y i != 0#8) := by
    rw [errorsOf, rootPositions, List.filter_filter]
    refine List.filter_congr fun i hi => ?_
    by_cases hy : y i = 0#8
    · simp [hy]
    · have hi := List.mem_range.1 hi
      have hroot := (h.mem_rootPositions hp.n_le).2 ⟨hi, hp.eval_locator h (mem_positions.2 ⟨hi, hy⟩)⟩
      simp [beq_iff_eq.1 (List.mem_filter.1 hroot).2]
  have hlength := (length_rootPositions_le (l := (bmTrace syn e).l) hp.n_le (bmTrace_head syn e)).trans hp.l_le
  rw [hfilter]
  refine (List.filter_sublist.eq_of_length_le ?_).symm
  rwa [← hfilter]

theorem l_eq : (bmTrace syn e).l = (errorsOf n y).length :=
  hp.l_le.antisymm (hp.rootPositions_eq ▸ length_rootPositions_le hp.n_le (bmTrace_head syn e))

/-- The values of R144 are the error values. -/
theorem errorValue_eq {omega : Nat → Byte} (homega : ∀ k < e, omega k =
    gfSumRange (k + 1) (fun j => gfMul ((bmTrace syn e).c j) (syn (k - j)))) {i : Nat} (hi : i ∈ errorsOf n y) :
    errorValue e (bmTrace syn e).l (bmTrace syn e).c omega i = y i := by
  obtain ⟨F, _, φ, h⟩ := exists_fieldModel
  have hlt := (mem_errorsOf.1 hi).1
  have hn := hp.n_le
  have hposition : i ∈ positions n y := List.mem_toFinset.2 hi
  have hprime : sigmaPrime (bmTrace syn e).l (bmTrace syn e).c (inversePower i) ≠ 0#8 :=
    sigmaPrime_ne_zero hn (bmTrace_head syn e) (by rw [hp.rootPositions_eq, hp.l_eq]) (hp.rootPositions_eq ▸ hi)
  have hcoeff (k : Nat) : (coefPoly φ ((bmTrace syn e).l + 1) (bmTrace syn e).c).coeff k = φ ((bmTrace syn e).c k) := by
    rw [coeff_coefPoly]
    split
    · rfl
    · rw [bmTrace_eq_zero_of_lt syn (by omega), h.map_zero]
  have hevaluator : coefPoly φ e omega = evaluatorOf (coefPoly φ ((bmTrace syn e).l + 1) (bmTrace syn e).c) e
      (fun j => ∑ i ∈ positions n y, φ (y i) * φ (gfExp i) ^ j) :=
    sum_congr rfl fun k hk => by
      have hk := mem_range.1 hk
      rw [homega k hk, hp.map_recurrenceSum h le_rfl hk _ _ fun j _ => hcoeff j]
  have hforney := weight_eq_forney (Y := fun i => φ (y i)) (injOn_points h hn) (points_ne_zero h)
    ((natDegree_coefPoly_le φ _ _).trans (bmTrace_l_le syn e)) (fun i hi => hp.eval_locator h hi) hposition (by
      rw [← h.map_inversePower (by omega), ← h.map_sigmaPrime]
      exact mt h.map_eq_zero.1 hprime)
  rw [h.neg_eq, ← hevaluator, ← h.map_inversePower (by omega), ← h.map_sigmaPrime, ← h.map_valueAt,
    ← h.map_div _ hprime, ← h.map_mul] at hforney
  exact (h.injective hforney).symm

/-- Zero syndromes are those of no error. -/
theorem errorsOf_eq_nil (hzero : ∀ j < e, syn j = 0#8) : errorsOf n y = [] := by
  have hgen : generates e 0 (fun _ => 1#8) syn := ⟨rfl, fun r _ hr => by simp [gfSumRange_succ, hzero r hr]⟩
  have hle := bmTrace_shortest hgen
  rw [hp.l_eq] at hle
  exact List.length_eq_zero_iff.1 (Nat.le_zero.1 hle)

end ErrorPattern

end Sys2Proof.Machine
end

section
/-! Whole-block decoding: what each stage leaves for the next, which ends a decode has, and that a failed decode keeps
the block. -/

namespace Sys2Proof.Machine

/-! ### Buffers the stages leave alone -/

section
variable {s : State} (hwf : s.mem.wf = true)
include hwf

/-- A store that fits its buffer leaves the bytes of the other buffers as they were. -/
theorem buf_setBuf_of_ne {b b' : Buffer} (hne : b' ≠ b) {bytes : List Byte} (hlen : bytes.length ≤ b.size) {k : Nat}
    (hk : k < b'.size) : (s.setBuf b bytes).buf b' k = s.buf b' k := by
  rw [← getD_bufBytes (wf_setBuf hwf b bytes) b' (Nat.lt_succ_self k), bufBytes_setBuf_of_ne hwf hne hlen hk,
    getD_bufBytes hwf b' (Nat.lt_succ_self k)]

theorem buf_syndromeBody_of_ne (he : s.ecc ≤ 68) {b : Buffer} (hb : b ≠ .syn) {k : Nat} (hk : k < b.size) :
    s.syndromeBody.buf b k = s.buf b k :=
  buf_setBuf_of_ne hwf hb (by rw [length_syndromes]; exact he.trans (by decide)) hk

theorem buf_bmBody_of_ne (he : s.ecc ≤ 68) {b : Buffer} (hsigma : b ≠ .sigma) (homega : b ≠ .omega) {k : Nat}
    (hk : k < b.size) : s.bmBody.buf b k = s.buf b k :=
  (buf_setBuf_of_ne (wf_setBuf hwf _ _) homega (length_evaluator_le _ _ he) hk).trans
    (buf_setBuf_of_ne hwf hsigma (length_berlekampMassey_le _ he) hk)

theorem buf_chienBody_of_ne (hn : s.la ≤ 255) {b : Buffer} (hb : b ≠ .errpos) {k : Nat} (hk : k < b.size) :
    s.chienBody.buf b k = s.buf b k :=
  buf_setBuf_of_ne hwf hb (length_chienRoots_map_le hn) hk

/-- The corrections leave every buffer but `A` alone. -/
theorem buf_correct_of_ne {n : Nat} (hlo : 1 ≤ n) (hn : n ≤ 255) (is : List Nat) (v : Nat → Byte) {b : Buffer}
    (hb : b ≠ .bufA) {k : Nat} (hk : k < b.size) : (s.correct n is (is.map v)).buf b k = s.buf b k := by
  have hzero : gfSum (is.map fun i =>
      if Buffer.bufA.base + (n - 1 - i) = b.base + k then v i else 0#8) = 0#8 := by
    induction is with
    | nil => rfl
    | cons i is ih =>
      rw [List.map_cons, gfSum, ih, if_neg, BitVec.xor_self]
      intro heq
      have hsize : n - 1 - i < Buffer.bufA.size := by simp only [Buffer.size]; omega
      exact hb (Buffer.eq_of_holds (heq ▸ Buffer.holds_base_add hk) (Buffer.holds_base_add hsize))
  rw [State.buf, read_correct hwf, hzero, BitVec.xor_zero, State.buf]

end

/-! ### The stages one after another -/

/-- The state after the first two stages. -/
def State.located (s : State) : State := s.syndromeBody.bmBody

/-- The state after the first three stages. -/
def State.searched (s : State) : State := s.located.chienBody

/-- The state the four stages leave, before the completion. -/
def State.corrected (s : State) : State :=
  { s.searched.correct s.la s.searched.errorPositions (s.searched.errorPositions.map s.searched.errorValue) with
    regs := { s.searched.regs with nerr := s.searched.regs.nroots } }

/-- The syndromes the first stage leaves. -/
def State.syndromeAt (s : State) : Nat → Byte := s.syndromeBody.buf .syn

section
variable {s : State} (hwf : s.mem.wf = true) (he : s.ecc ≤ 68) (hn : s.la ≤ 255)

theorem wf_located (hwf : s.mem.wf = true) : s.located.mem.wf = true := wf_bmBody (wf_syndromeBody hwf)

theorem wf_searched (hwf : s.mem.wf = true) : s.searched.mem.wf = true := wf_chienBody (wf_located hwf)

include hwf he

theorem located_rsL : s.located.regs.rsL.toNat = (bmTrace s.syndromeAt s.ecc).l :=
  bmBody_rsL (wf_syndromeBody hwf) he

theorem located_sigma {k : Nat} (hk : k ≤ s.ecc) : s.located.buf .sigma k = (bmTrace s.syndromeAt s.ecc).c k :=
  bmBody_sigma (wf_syndromeBody hwf) he hk

theorem located_omega {k : Nat} (hk : k < s.ecc) : s.located.buf .omega k =
    gfSumRange (k + 1) (fun j => gfMul ((bmTrace s.syndromeAt s.ecc).c j) (s.syndromeAt (k - j))) := by
  refine (bmBody_omega (wf_syndromeBody hwf) he hk).trans (gfSumRange_congr fun j hj => ?_)
  have hsigma : s.located.buf .sigma j = (bmTrace s.syndromeAt s.ecc).c j := located_sigma hwf he (by omega)
  exact congrArg (gfMul · _) hsigma

theorem buf_located_of_ne {b : Buffer} (hsyn : b ≠ .syn) (hsigma : b ≠ .sigma) (homega : b ≠ .omega) {k : Nat}
    (hk : k < b.size) : s.located.buf b k = s.buf b k :=
  (buf_bmBody_of_ne (wf_syndromeBody hwf) he hsigma homega hk).trans (buf_syndromeBody_of_ne hwf he hsyn hk)

theorem located_syn {j : Nat} (hj : j < s.ecc) : s.located.buf .syn j = s.syndromeAt j :=
  buf_bmBody_of_ne (wf_syndromeBody hwf) he (by decide) (by decide) (by simp only [Buffer.size]; omega)

/-- The search takes the roots of the locator of R138. -/
theorem rootPositions_located : rootPositions s.la s.located.regs.rsL.toNat (s.located.buf .sigma) =
    rootPositions s.la (bmTrace s.syndromeAt s.ecc).l (bmTrace s.syndromeAt s.ecc).c := by
  rw [located_rsL hwf he]
  refine List.filter_congr fun i _ => congrArg (· == 0#8) (gfSumRange_congr fun k hk => ?_)
  have hl := bmTrace_l_le s.syndromeAt s.ecc
  rw [located_sigma hwf he (by omega)]

theorem degreeTestFails_located :
    degreeTestFails s.located = true ↔ s.ecc < 2 * (bmTrace s.syndromeAt s.ecc).l :=
  degreeTestFails_iff (wf_syndromeBody hwf) he

include hn

theorem countTestFails_searched : countTestFails s.searched = true ↔
    (rootPositions s.la (bmTrace s.syndromeAt s.ecc).l (bmTrace s.syndromeAt s.ecc).c).length ≠
      (bmTrace s.syndromeAt s.ecc).l := by
  rw [← rootPositions_located hwf he, ← located_rsL hwf he]
  exact countTestFails_iff (wf_located hwf) hn

omit he in
theorem buf_searched_of_ne {b : Buffer} (hb : b ≠ .errpos) {k : Nat} (hk : k < b.size) :
    s.searched.buf b k = s.located.buf b k :=
  buf_chienBody_of_ne (wf_located hwf) hn hb hk

/-- The positions the fourth stage reads are the roots. -/
theorem errorPositions_searched : s.searched.errorPositions =
    rootPositions s.la (bmTrace s.syndromeAt s.ecc).l (bmTrace s.syndromeAt s.ecc).c := by
  rw [← rootPositions_located hwf he]
  exact (chienBody_errorPositions (wf_located hwf) hn).trans (chienRoots_sigmaOp (wf_located hwf))

theorem sigma_searched {k : Nat} (hk : k ≤ s.ecc) : s.searched.buf .sigma k = (bmTrace s.syndromeAt s.ecc).c k :=
  (buf_searched_of_ne hwf hn (by decide) (by simp only [Buffer.size]; omega)).trans (located_sigma hwf he hk)

theorem omega_searched {k : Nat} (hk : k < s.ecc) : s.searched.buf .omega k = s.located.buf .omega k :=
  buf_searched_of_ne hwf hn (by decide) (by simp only [Buffer.size]; omega)

theorem sigmaPrime_searched (i : Nat) : s.searched.sigmaPrime i =
    sigmaPrime (bmTrace s.syndromeAt s.ecc).l (bmTrace s.syndromeAt s.ecc).c (inversePower i) := by
  have hrsL : s.searched.regs.rsL.toNat = (bmTrace s.syndromeAt s.ecc).l := located_rsL hwf he
  have hl := bmTrace_l_le s.syndromeAt s.ecc
  rw [State.sigmaPrime, hrsL]
  exact gfSumRange_congr fun k hk => by rw [sigma_searched hwf he hn (by omega)]

theorem errorValue_searched (i : Nat) : s.searched.errorValue i =
    errorValue s.ecc (bmTrace s.syndromeAt s.ecc).l (bmTrace s.syndromeAt s.ecc).c (s.located.buf .omega) i := by
  have hprime := sigmaPrime_searched hwf he hn i
  have hvalue : valueAt s.ecc (s.searched.buf .omega) (inversePower i) =
      valueAt s.ecc (s.located.buf .omega) (inversePower i) :=
    gfSumRange_congr fun k hk => by rw [omega_searched hwf he hn hk]
  rw [State.sigmaPrime] at hprime
  rw [State.errorValue, errorValue, errorValue, hprime]
  exact congrArg (fun v => gfMul (gfExp i) (gfDiv v _)) hvalue

/-- Where the root count holds, the fourth stage finds a value for every position (R148). -/
theorem forneyBody_searched (hcount : countTestFails s.searched = false) :
    s.searched.forneyBody = some s.corrected := by
  have hlength := not_not.1 (mt (countTestFails_searched hwf he hn).2 (Bool.eq_false_iff.1 hcount))
  refine forneyBody_of_forall (wf_searched hwf) fun i hi => ?_
  rw [errorPositions_searched hwf he hn] at hi
  rw [sigmaPrime_searched hwf he hn]
  exact sigmaPrime_ne_zero hn (bmTrace_head _ _) hlength hi

end

/-! ### How a decode ends -/

/-- `RS_DECODE` past its checks: the fourth stage does not fail (R148). -/
theorem exec_rsDecode_eq {s : State} (hwf : s.mem.wf = true) (he : s.ecc ∈ genset) (hlo : s.ecc + 1 ≤ s.la)
    (hn : s.la ≤ 255) : exec .rsDecode s =
      if s.syndromeBody.regs.clean = true then succeed s.syndromeBody.cleanResult
      else if degreeTestFails s.located = true then raiseUncorr s.located .degree
      else if countTestFails s.searched = true then raiseUncorr s.searched .rootCount
      else succeed s.corrected := by
  refine (exec_rsDecode he hlo hn).trans (if_congr Iff.rfl rfl (if_congr Iff.rfl rfl ?_))
  by_cases hcount : countTestFails s.searched = true
  · exact (if_pos hcount).trans (if_pos hcount).symm
  · refine (if_neg hcount).trans (Eq.trans ?_ (if_neg hcount).symm)
    exact forneyEnd_of_some (forneyBody_searched hwf (le_of_mem_genset he) hn (Bool.eq_false_iff.2 hcount))

/-- Settles O45: the ends of a decode, none of which is a failure of the fourth stage, and those that fail come before
the first write to `A` and `NERR`. -/
theorem failedDecodeKeepsBlock : Obligations.FailedDecodeKeepsBlock := by
  intro s t hwf ht
  by_cases he : s.ecc ∈ genset
  · by_cases hlen : s.ecc + 1 ≤ s.la ∧ s.la ≤ 255
    · obtain ⟨hlo, hn⟩ := hlen
      have he68 := le_of_mem_genset he
      rw [exec_rsDecode_eq hwf he hlo hn] at ht
      have hlocated (k : Nat) (hk : k < Buffer.bufA.size) : s.located.buf .bufA k = s.buf .bufA k :=
        buf_located_of_ne hwf he68 (by decide) (by decide) (by decide) hk
      split at ht
      · obtain rfl := Host.Outcome.next.inj ht
        exact ⟨nofun, fun hok => absurd rfl hok⟩
      split at ht
      · obtain rfl := Host.Outcome.next.inj ht
        exact ⟨nofun, fun _ => ⟨rfl, hlocated⟩⟩
      split at ht
      · obtain rfl := Host.Outcome.next.inj ht
        exact ⟨nofun, fun _ => ⟨rfl, fun k hk => (buf_searched_of_ne hwf hn (by decide) hk).trans (hlocated k hk)⟩⟩
      · obtain rfl := Host.Outcome.next.inj ht
        exact ⟨nofun, fun hok => absurd rfl hok⟩
    · obtain rfl := Host.Outcome.next.inj (((decodeIsTheFourStages s hwf).2.2 he hlen).symm.trans ht)
      exact ⟨nofun, fun _ => ⟨rfl, fun _ _ => rfl⟩⟩
  · obtain rfl := Host.Outcome.next.inj (((decodeIsTheFourStages s hwf).2.1 he).symm.trans ht)
    exact ⟨nofun, fun _ => ⟨rfl, fun _ _ => rfl⟩⟩

end Sys2Proof.Machine
end

section
/-! The guarantee of R149: the block is restored, and what one error leaves in the buffers. -/

namespace Sys2Proof.Machine

/-! ### Sums of error values -/

theorem gfSumRange_xor (n : Nat) (f g : Nat → Byte) :
    gfSumRange n f ^^^ gfSumRange n g = gfSumRange n (fun i => f i ^^^ g i) := by
  induction n with
  | zero => exact BitVec.xor_self
  | succ n ih =>
    rw [gfSumRange_succ, gfSumRange_succ, gfSumRange_succ, ← ih]
    ac_rfl

/-- A sum with one term that may be non-zero. -/
theorem gfSumRange_single {n i : Nat} (hi : i < n) {f : Nat → Byte} (hf : ∀ k < n, k ≠ i → f k = 0#8) :
    gfSumRange n f = f i := by
  induction n with
  | zero => omega
  | succ n ih =>
    rw [gfSumRange_succ]
    obtain hlt | rfl := Nat.lt_succ_iff_lt_or_eq.1 hi
    · rw [ih hlt fun k hk => hf k (by omega), hf n (by omega) (by omega), BitVec.xor_zero]
    · rw [gfSumRange_eq_zero fun k hk => hf k (by omega) (by omega), BitVec.zero_xor]

theorem gfSum_map_filter (n : Nat) (p : Nat → Bool) (g : Nat → Byte) :
    gfSum (((List.range n).filter p).map g) = gfSumRange n (fun i => if p i then g i else 0#8) := by
  induction n with
  | zero => rfl
  | succ n ih =>
    rw [List.range_succ, List.filter_append, List.map_append, gfSum_append, ih, gfSumRange_succ]
    cases hp : p n <;> simp [hp, gfSum]

/-- Of the errors only the one at position n-1-p names byte p. -/
theorem gfSum_errorsOf {n p : Nat} (hp : p < n) (y : Nat → Byte) :
    gfSum ((errorsOf n y).map fun i => if n - 1 - i = p then y i else 0#8) = y (n - 1 - p) := by
  rw [errorsOf, gfSum_map_filter, gfSumRange_single (i := n - 1 - p) (by omega) fun k hk hne => by
    rw [if_neg (show ¬n - 1 - k = p by omega), ite_self], if_pos (show n - 1 - (n - 1 - p) = p by omega)]
  by_cases hzero : y (n - 1 - p) = 0#8 <;> simp [hzero]

theorem countP_range_reflect (n : Nat) (q : Nat → Bool) :
    (List.range n).countP (fun i => q (n - 1 - i)) = (List.range n).countP q := by
  have hreverse : (List.range n).reverse = (List.range n).map (n - 1 - ·) := by
    rw [List.range_eq_range', List.reverse_range', List.range_eq_range', Nat.zero_add]
  rw [← List.countP_reverse (l := List.range n) (p := q), hreverse, List.countP_map]
  rfl

/-! ### A changed block -/

/-- The error value at position i of the block that a state holds in `A` (R132). -/
def State.errorOf (s : State) (block : Nat → Byte) (i : Nat) : Byte :=
  block (s.la - 1 - i) ^^^ s.buf .bufA (s.la - 1 - i)

theorem xor_errorOf (s : State) (block : Nat → Byte) {p : Nat} (hp : p < s.la) :
    s.buf .bufA p ^^^ s.errorOf block (s.la - 1 - p) = block p := by
  rw [State.errorOf, show s.la - 1 - (s.la - 1 - p) = p by omega, BitVec.xor_comm, BitVec.xor_assoc, BitVec.xor_self,
    BitVec.xor_zero]

theorem length_errorsOf_errorOf (s : State) (block : Nat → Byte) : (errorsOf s.la (s.errorOf block)).length =
    (List.range s.la).countP (fun p => s.buf .bufA p != block p) := by
  rw [errorsOf, ← List.countP_eq_length_filter]
  refine (List.countP_congr fun i _ => ?_).trans (countP_range_reflect s.la fun p => s.buf .bufA p != block p)
  rw [bne_iff_ne, bne_iff_ne, State.errorOf, ne_eq, BitVec.xor_eq_zero_iff, eq_comm]

/-- The block of a state differs from a block with zero syndromes by an error pattern: `y i` at position i. -/
theorem errorPattern_of_block {s : State} (hwf : s.mem.wf = true) (hn : s.la ≤ 255) {block y : Nat → Byte}
    (hclean : ∀ j < s.ecc, syndromeOf s.la block j = 0#8)
    (hy : ∀ i < s.la, s.buf .bufA (s.la - 1 - i) = block (s.la - 1 - i) ^^^ y i)
    (hfew : 2 * (errorsOf s.la y).length ≤ s.ecc) : ErrorPattern s.la s.ecc y s.syndromeAt where
  n_le := hn
  few := hfew
  syndromes j hj := by
    have hsum : s.syndromeAt j = syndromeOf s.la block j ^^^
        gfSumRange s.la (fun i => gfMul (y i) (gfExp (i * j))) := by
      rw [State.syndromeAt, syndromeBody_syn hwf hj, syndromeOf, syndromeOf, gfSumRange_xor]
      exact gfSumRange_congr fun i hi => by rw [hy i hi, gfMul_xor_left, gfExp_mod]
    rw [hsum, hclean j hj, BitVec.zero_xor]

namespace ErrorPattern

variable {s : State} {y : Nat → Byte} (hp : ErrorPattern s.la s.ecc y s.syndromeAt) (hwf : s.mem.wf = true)
  (he : s.ecc ∈ genset) (hlo : s.ecc + 1 ≤ s.la)
include hp hwf

/-- A clean block has no errors. -/
theorem errorsOf_eq_nil_of_clean (hclean : s.syndromeBody.regs.clean = true) : errorsOf s.la y = [] :=
  hp.errorsOf_eq_nil fun j hj =>
    (syndromeBody_syn hwf hj).trans ((syndromeBody_clean hwf).1 hclean j hj)

include he hlo in
/-- A block with errors passes both tests, and the decode ends with success. -/
theorem exec_rsDecode (hdirty : ¬s.syndromeBody.regs.clean = true) :
    exec .rsDecode s = .next (s.corrected.complete .ok .none) := by
  have he68 := le_of_mem_genset he
  have hl := hp.l_eq
  have hfew := hp.few
  have hdegree : ¬degreeTestFails s.located = true := mt (degreeTestFails_located hwf he68).1 (by omega)
  have hcount : ¬countTestFails s.searched = true := mt (countTestFails_searched hwf he68 hp.n_le).1 (by
    rw [hp.rootPositions_eq, hl]
    exact not_not.2 rfl)
  rw [exec_rsDecode_eq hwf he hlo hp.n_le, if_neg hdirty, if_neg hdegree, if_neg hcount]
  rfl

include he

theorem errorPositions_searched : s.searched.errorPositions = errorsOf s.la y :=
  (Machine.errorPositions_searched hwf (le_of_mem_genset he) hp.n_le).trans hp.rootPositions_eq

theorem searched_nroots : s.searched.regs.nroots = BitVec.ofNat 9 (errorsOf s.la y).length := by
  have hroots : chienRoots s.located.sigmaOp s.located.la = errorsOf s.la y :=
    (chienRoots_sigmaOp (wf_located hwf)).trans
      ((rootPositions_located hwf (le_of_mem_genset he)).trans hp.rootPositions_eq)
  exact congrArg (fun l : List Nat => BitVec.ofNat 9 l.length) hroots

theorem searched_rsL : s.searched.regs.rsL = BitVec.ofNat 7 (errorsOf s.la y).length := by
  rw [← hp.l_eq]
  exact BitVec.eq_of_toNat_eq ((located_rsL hwf (le_of_mem_genset he)).trans (by
    have hl := bmTrace_l_le s.syndromeAt s.ecc
    have he68 := le_of_mem_genset he
    rw [BitVec.toNat_ofNat, Nat.mod_eq_of_lt (by omega)]))

/-- The values the fourth stage adds are the error values (R144). -/
theorem errorValue_searched {i : Nat} (hi : i ∈ errorsOf s.la y) : s.searched.errorValue i = y i :=
  (Machine.errorValue_searched hwf (le_of_mem_genset he) hp.n_le i).trans
    (hp.errorValue_eq (fun _ hk => located_omega hwf (le_of_mem_genset he) hk) hi)

/-- The decode adds to every byte of the block the error value of its position. -/
theorem corrected_bufA {p : Nat} (hpos : p < s.la) :
    s.corrected.buf .bufA p = s.buf .bufA p ^^^ y (s.la - 1 - p) := by
  have he68 := le_of_mem_genset he
  have hn := hp.n_le
  have hsize : p < Buffer.bufA.size := by simp only [Buffer.size]; omega
  have hkeep : s.searched.buf .bufA p = s.buf .bufA p :=
    (buf_searched_of_ne hwf hn (by decide) hsize).trans
      (buf_located_of_ne hwf he68 (by decide) (by decide) (by decide) hsize)
  have hvalues : gfSum (s.searched.errorPositions.map fun i =>
      if Buffer.bufA.base + (s.la - 1 - i) = Buffer.bufA.base + p then s.searched.errorValue i else 0#8) =
      y (s.la - 1 - p) := by
    rw [hp.errorPositions_searched hwf he, ← gfSum_errorsOf hpos y]
    exact congrArg gfSum (List.map_congr_left fun i hi =>
      if_congr Nat.add_left_cancel_iff (hp.errorValue_searched hwf he hi) rfl)
  exact (read_correct (wf_searched hwf) s.la s.searched.errorPositions s.searched.errorValue _).trans
    (congrArg₂ (· ^^^ ·) hkeep hvalues)

end ErrorPattern

/-- Settles O47: a clean block has no errors, and any other is corrected by `ErrorPattern.corrected_bufA`. -/
theorem decodeCorrectsHalfOfEcc : Obligations.DecodeCorrectsHalfOfEcc := by
  intro s block hwf he hlo hn hclean hfew
  have he68 := le_of_mem_genset he
  rw [← length_errorsOf_errorOf] at hfew ⊢
  have hp : ErrorPattern s.la s.ecc (s.errorOf block) s.syndromeAt :=
    errorPattern_of_block hwf hn hclean
      (fun i _ => by rw [State.errorOf, ← BitVec.xor_assoc, BitVec.xor_self, BitVec.zero_xor]) hfew
  by_cases hdirty : s.syndromeBody.regs.clean = true
  · have hnil := hp.errorsOf_eq_nil_of_clean hwf hdirty
    refine ⟨s.syndromeBody.cleanResult.complete .ok .none,
      (exec_rsDecode_eq hwf he hlo hn).trans (if_pos hdirty), rfl, fun p hpos => ?_, by rw [hnil]; rfl⟩
    have hkeep : s.syndromeBody.buf .bufA p = s.buf .bufA p :=
      buf_syndromeBody_of_ne hwf he68 (by decide) (by simp only [Buffer.size]; omega)
    have hzero : s.errorOf block (s.la - 1 - p) = 0#8 := by
      by_contra hne
      have hmem : s.la - 1 - p ∈ errorsOf s.la (s.errorOf block) := mem_errorsOf.2 ⟨by omega, hne⟩
      rw [hnil] at hmem
      exact nomatch hmem
    have hblock := xor_errorOf s block hpos
    rw [hzero, BitVec.xor_zero] at hblock
    exact hkeep.trans hblock
  · refine ⟨_, hp.exec_rsDecode hwf he hlo hdirty, rfl, fun p hpos => ?_, ?_⟩
    · exact (hp.corrected_bufA hwf he hpos).trans (xor_errorOf s block hpos)
    · refine (congrArg BitVec.toNat (hp.searched_nroots hwf he)).trans ?_
      rw [BitVec.toNat_ofNat, Nat.mod_eq_of_lt (by omega)]

end Sys2Proof.Machine
end

section
/-! One wrong codeword: what the four stages leave in the registers and the buffers (R137, R140). -/

namespace Sys2Proof.Machine

/-! ### The state after a decode that corrects -/

theorem ended_corrected (s : State) : Ended s (s.corrected.complete .ok .none) (({ s.regs with
    clean := s.syndromeBody.regs.clean, rsL := s.searched.regs.rsL, nroots := s.searched.regs.nroots,
    nerr := s.searched.regs.nroots } : Regs).completed .ok .none) := by
  simp only [Ended, State.complete, State.corrected, correct_cfg, correct_script, correct_pos, correct_readData,
    correct_passed, correct_turns]
  rfl

theorem buf_corrected_of_ne {s : State} (hwf : s.mem.wf = true) (hlo : 1 ≤ s.la) (hn : s.la ≤ 255) {b : Buffer}
    (hb : b ≠ .bufA) {k : Nat} (hk : k < b.size) : s.corrected.buf b k = s.searched.buf b k :=
  buf_correct_of_ne (wf_searched hwf) hlo hn _ _ hb hk

/-! ### One error -/

/-- The error pattern with the value y at position i. -/
def oneError (i : Nat) (y : Byte) (k : Nat) : Byte := if k = i then y else 0#8

theorem errorsOf_oneError {n i : Nat} (hi : i < n) {y : Byte} (hy : y ≠ 0#8) : errorsOf n (oneError i y) = [i] := by
  have hfilter : errorsOf n (oneError i y) = (List.range n).filter (· == i) :=
    List.filter_congr fun k _ => by by_cases hk : k = i <;> simp [oneError, hk, hy]
  rw [hfilter, List.filter_beq, List.count_eq_one_of_mem List.nodup_range (List.mem_range.2 hi), List.replicate_one]

section
variable {n e i : Nat} {y : Byte} {syn : Nat → Byte} (hp : ErrorPattern n e (oneError i y) syn) (hi : i < n)
  (hy : y ≠ 0#8)
include hp hi

/-- `S_j = y ⊗ α^(i j)` (R137). -/
theorem ErrorPattern.syndrome_oneError {j : Nat} (hj : j < e) : syn j = gfMul y (gfExp (i * j)) := by
  rw [hp.syndromes j hj, gfSumRange_single hi fun k _ hne => by rw [oneError, if_neg hne, gfMul_zero_left], oneError,
    if_pos rfl]

include hy

theorem ErrorPattern.l_oneError : (bmTrace syn e).l = 1 := by
  rw [hp.l_eq, errorsOf_oneError hi hy, List.length_singleton]

/-- `σ = 1 ⊕ α^i x` (R140): its degree is at most 1, and it vanishes at `α^(-i)`. -/
theorem ErrorPattern.locator_oneError (k : Nat) :
    (bmTrace syn e).c k = if k = 0 then 1#8 else if k = 1 then gfExp i else 0#8 := by
  have hl := hp.l_oneError hi hy
  obtain _ | _ | k := k
  · exact bmTrace_head syn e
  · have hroot : i ∈ rootPositions n (bmTrace syn e).l (bmTrace syn e).c := by
      rw [hp.rootPositions_eq, errorsOf_oneError hi hy]
      exact List.mem_singleton.2 rfl
    have hn := hp.n_le
    have hinverse : gfMul (gfExp i) (inversePower i) = 1#8 := by
      rw [inversePower, gfExp_mod, gfMul_gfExp_gfExp, show i + (255 - i) = 255 by omega]
      exact gfExp_zero
    have hvalue : valueAt 2 (bmTrace syn e).c (inversePower i) = 0#8 := by
      have hbeq := (List.mem_filter.1 hroot).2
      rw [hl] at hbeq
      exact beq_iff_eq.1 hbeq
    have hsum : valueAt 2 (bmTrace syn e).c (inversePower i) =
        1#8 ^^^ gfMul ((bmTrace syn e).c 1) (inversePower i) := by
      rw [valueAt, gfSumRange_succ, gfSumRange_succ, gfSumRange_zero, BitVec.zero_xor, bmTrace_head, gfPow,
        gfMul_one_right, gfPow, gfPow, gfMul_comm 1#8, gfMul_one_right]
    rw [hsum, BitVec.xor_eq_zero_iff] at hvalue
    exact gfMul_right_cancel (gfExp_ne_zero _) (hvalue.symm.trans hinverse.symm)
  · rw [bmTrace_eq_zero_of_lt syn (by omega), if_neg (by omega), if_neg (by omega)]

/-- `ω = y` (R140): the two terms of every other coefficient are equal. -/
theorem ErrorPattern.evaluator_oneError {k : Nat} (hk : k < e) :
    gfSumRange (k + 1) (fun j => gfMul ((bmTrace syn e).c j) (syn (k - j))) = if k = 0 then y else 0#8 := by
  have hhead : gfMul ((bmTrace syn e).c 0) (syn (k - 0)) = gfMul y (gfExp (i * k)) := by
    rw [bmTrace_head, gfMul_comm, gfMul_one_right, Nat.sub_zero, hp.syndrome_oneError hi hk]
  rw [gfSumRange_succ_left, hhead]
  obtain _ | k := k
  · rw [gfSumRange_zero, Nat.mul_zero, gfExp_zero, gfMul_one_right, BitVec.xor_zero, if_pos rfl]
  · rw [gfSumRange_single (Nat.succ_pos k) fun j _ hj => by
      rw [hp.locator_oneError hi hy, if_neg (by omega), if_neg (by omega), gfMul_zero_left],
      hp.locator_oneError hi hy, Nat.zero_add, Nat.add_sub_cancel, hp.syndrome_oneError hi (by omega),
      if_neg Nat.one_ne_zero, if_pos rfl, if_neg (Nat.succ_ne_zero k), gfMul_comm (gfExp i), gfMul_assoc,
      gfMul_gfExp_gfExp, Nat.mul_succ, BitVec.xor_self]

end

/-- Settles O46: the block is one with the error pattern `oneError`, whose locator and evaluator are those named. -/
theorem decodeCorrectsOneCodeword : Obligations.DecodeCorrectsOneCodeword := by
  intro s block i y hwf he hlo hn hi hy hclean hblock
  have he68 := le_of_mem_genset he
  have htwo : 2 ≤ s.ecc := by
    have hall : ∀ e ∈ genset, 2 ≤ e := by decide
    exact hall _ he
  have hp : ErrorPattern s.la s.ecc (oneError i y) s.syndromeAt :=
    errorPattern_of_block hwf hn hclean (fun k hk => by
      rw [hblock _ (by omega), oneError]
      by_cases hki : k = i
      · rw [if_pos (by rw [hki]), if_pos hki]
      · rw [if_neg (by omega), if_neg hki, BitVec.xor_zero])
      (by rw [errorsOf_oneError hi hy]; exact htwo)
  have herrors := errorsOf_oneError hi hy
  have hdirty : ¬s.syndromeBody.regs.clean = true := fun hclean => by
    have hnil := hp.errorsOf_eq_nil_of_clean hwf hclean
    rw [herrors] at hnil
    exact nomatch hnil
  have hbuf (b : Buffer) (hb : b ≠ .bufA) {k : Nat} (hk : k < b.size) : s.corrected.buf b k = s.searched.buf b k :=
    buf_corrected_of_ne hwf (Nat.one_le_of_lt hlo) hn hb hk
  have hsize : Buffer.syn.size = 128 ∧ Buffer.sigma.size = 128 ∧ Buffer.omega.size = 128 := ⟨rfl, rfl, rfl⟩
  refine ⟨_, hp.exec_rsDecode hwf he hlo hdirty, ?_, fun p hpos => ?_, fun j hj => ?_, fun k hk => ?_, fun k hk => ?_,
    ?_⟩
  · have hended := ended_corrected s
    rwa [Bool.eq_false_iff.2 hdirty, hp.searched_rsL hwf he, hp.searched_nroots hwf he, herrors] at hended
  · refine (hp.corrected_bufA hwf he hpos).trans ?_
    rw [hblock p hpos, oneError]
    by_cases hpi : p = s.la - 1 - i
    · rw [if_pos hpi, if_pos (by omega), BitVec.xor_assoc, BitVec.xor_self, BitVec.xor_zero]
    · rw [if_neg hpi, if_neg (by omega), BitVec.xor_zero]
  · refine (hbuf .syn (by decide) (by omega)).trans ?_
    rw [buf_searched_of_ne hwf hn (by decide) (by omega), located_syn hwf he68 hj, hp.syndrome_oneError hi hj]
  · refine (hbuf .sigma (by decide) (by omega)).trans ?_
    rw [sigma_searched hwf he68 hn hk, hp.locator_oneError hi hy]
  · refine (hbuf .omega (by decide) (by omega)).trans ?_
    rw [omega_searched hwf he68 hn hk, located_omega hwf he68 hk, hp.evaluator_oneError hi hy hk]
  · have hroots := hp.errorPositions_searched hwf he
    rw [herrors, errorPositions_eq (wf_searched hwf), hp.searched_nroots hwf he, herrors] at hroots
    have hfirst : (s.searched.buf .errpos 0).toNat = i := by simpa using hroots
    exact (congrArg BitVec.toNat (hbuf .errpos (by decide) (by decide))).trans hfirst

end Sys2Proof.Machine
end

section
/-! Modules under the matrix commands: the guard that a matrix is held, painting a list of modules, and the frame in
which only the colors of data modules change. -/

namespace Sys2Proof.Machine

/-! ### The guard of R41 -/

theorem noMatrix_iff {s : State} : s.noMatrix = true ↔ s.matrixVersion = 0 := by
  rw [State.noMatrix, State.matrixVersion, beq_iff_eq, ← BitVec.toNat_inj]
  rfl

theorem ite_noMatrix_of_zero {s : State} (h : s.matrixVersion = 0) (r : Result) :
    (if s.noMatrix then raise s .eSeq else r) = .next (s.endedWith .eSeq .none) :=
  if_pos (noMatrix_iff.2 h)

theorem ite_noMatrix_of_pos {s : State} (h : 1 ≤ s.matrixVersion) (r : Result) :
    (if s.noMatrix then raise s .eSeq else r) = r :=
  if_neg fun hno => by have := noMatrix_iff.1 hno; omega

theorem dim_le_dMax {s : State} (h : s.matrixVersion ≤ 40) : s.dim ≤ dMax := dimension_le_dMax h

theorem lt_256_of_lt_dMax {i : Nat} (h : i < dMax) : i < 256 := h.trans (by decide)

/-- An address of the square is that of the module whose row and column it encodes (R73). -/
theorem moduleAddr_div_mod {a : Nat} (h : matrixBase ≤ a) :
    moduleAddr ((a - matrixBase) / 256) ((a - matrixBase) % 256) = a := by
  unfold moduleAddr
  omega

/-! ### Painting modules -/

section Paint
variable {s : State} (hwf : s.mem.wf = true) {ps : List ((Nat × Nat) × Bool)} {r c : Nat}

theorem paint_eq (s : State) (ps : List ((Nat × Nat) × Bool)) : s.paint ps = { s with mem := (s.paint ps).mem } := by
  obtain ⟨g, m, h⟩ := onlyRegsAndRam_paint s ps
  have hg : g = s.regs := by rw [← paint_regs s ps, h]
  rw [h, hg]

theorem ended_paint (s : State) (ps : List ((Nat × Nat) × Bool)) :
    Ended s ((s.paint ps).complete .ok .none) (s.regs.completed .ok .none) := by
  rw [paint_eq]
  rfl

include hwf

theorem moduleAt_paint_of_not_mem (hps : ∀ p ∈ ps, p.1.2 < 256) (hc : c < 256) (hnot : ∀ p ∈ ps, p.1 ≠ (r, c)) :
    (s.paint ps).moduleAt r c = s.moduleAt r c := by
  rw [State.moduleAt, read_paint_of_not_mem hwf, State.moduleAt]
  intro p hp haddr
  obtain ⟨hr, hcol⟩ := moduleAddr_inj hc (hps p hp) haddr
  exact hnot p hp (Prod.ext hr.symm hcol.symm)

theorem dark_setColor {r' c' : Nat} (hc : c < 256) (hc' : c' < 256) (dark : Bool) :
    (s.setColor r c dark).dark r' c' = if r' = r ∧ c' = c then dark else s.dark r' c' := by
  rw [State.dark, moduleAt_setColor hwf _ _ _ _ hc hc']
  split
  · exact colorOf_withColor _ _
  · rfl

theorem sameFlags_setColor (hc : c < 256) (dark : Bool) : SameFlags s (s.setColor r c dark) := by
  intro r' c' _ hc'
  rw [moduleAt_setColor hwf _ _ _ _ hc (lt_256_of_lt_dMax hc')]
  split
  · next h => rw [h.1, h.2, nonData_withColor, isFixed_withColor]; exact ⟨rfl, rfl⟩
  · exact ⟨rfl, rfl⟩

theorem sameFlags_paint (hps : ∀ p ∈ ps, p.1.2 < 256) : SameFlags s (s.paint ps) := by
  induction ps generalizing s with
  | nil => exact fun _ _ _ _ => ⟨rfl, rfl⟩
  | cons p ps ih =>
    intro r c hr hc
    have htail := ih (wf_setColor hwf p.1.1 p.1.2 p.2) (fun q hq => hps q (List.mem_cons_of_mem p hq)) r c hr hc
    have hhead := sameFlags_setColor hwf (r := p.1.1) (hps p List.mem_cons_self) p.2 r c hr hc
    exact ⟨htail.1.trans hhead.1, htail.2.trans hhead.2⟩

/-- A module that is painted, each time with one color, has that color. -/
theorem dark_paint (hps : ∀ p ∈ ps, p.1.2 < 256) (hc : c < 256) {dark : Bool}
    (hcolor : ∀ p ∈ ps, p.1 = (r, c) → p.2 = dark) (hmem : s.dark r c = dark ∨ ∃ p ∈ ps, p.1 = (r, c)) :
    (s.paint ps).dark r c = dark := by
  induction ps generalizing s with
  | nil => exact hmem.resolve_right (by simp)
  | cons p ps ih =>
    refine ih (wf_setColor hwf p.1.1 p.1.2 p.2) (fun q hq => hps q (List.mem_cons_of_mem p hq))
      (fun q hq => hcolor q (List.mem_cons_of_mem p hq)) ?_
    rw [dark_setColor hwf (hps p List.mem_cons_self) hc]
    by_cases hp : p.1 = (r, c)
    · rw [hp, if_pos ⟨rfl, rfl⟩]
      exact .inl (hcolor p List.mem_cons_self hp)
    · rw [if_neg fun h => hp (Prod.ext h.1.symm h.2.symm)]
      refine hmem.imp_right fun ⟨q, hq, hqp⟩ => ⟨q, (List.mem_cons.1 hq).resolve_left fun h => hp ?_, hqp⟩
      rw [← h, hqp]

end Paint

/-! ### Only the colors of data modules -/

theorem isData_iff {s : State} {r c : Nat} :
    s.isData r c = true ↔ r < s.dim ∧ c < s.dim ∧ nonData (s.moduleAt r c) = false := by
  simp [State.isData, and_assoc]

/-- Painting data modules of the symbol changes no other module and no flag (R198). -/
theorem onlyDataColors_paint {s : State} (hwf : s.mem.wf = true) (hver : s.matrixVersion ≤ 40)
    {ps : List ((Nat × Nat) × Bool)} (hps : ∀ p ∈ ps, s.isData p.1.1 p.1.2 = true) : OnlyDataColors s (s.paint ps) := by
  have hcol : ∀ p ∈ ps, p.1.2 < 256 := fun p hp =>
    lt_256_of_lt_dMax ((isData_iff.1 (hps p hp)).2.1.trans_le (dim_le_dMax hver))
  refine ⟨fun a ha => ?_, sameFlags_paint hwf hcol, fun r c _ hc hdata => ?_⟩
  · refine read_paint_of_not_mem hwf ps a fun p hp hpa => ha ?_
    obtain ⟨hr, hc, -⟩ := isData_iff.1 (hps p hp)
    exact ⟨_, _, hr, hc, hpa⟩
  · refine moduleAt_paint_of_not_mem hwf hcol (lt_256_of_lt_dMax hc) fun p hp hpos => ?_
    have := hps p hp
    rw [hpos, hdata] at this
    exact Bool.false_ne_true this

/-! ### Masks (R177, R179) -/

theorem maskModule_of_nonData {old : BitVec 3} (h : nonData old = true) (m r c : Nat) :
    maskModule m r c old = old := by
  simp [maskModule, h]

theorem colorOf_maskModule {old : BitVec 3} (h : nonData old = false) (m r c : Nat) :
    colorOf (maskModule m r c old) = xor (colorOf old) (maskHits m r c) := by
  cases hhits : maskHits m r c <;> simp [maskModule, h, hhits]

/-- A mask undoes itself on every module (R179). -/
theorem maskModule_maskModule (m r c : Nat) (old : BitVec 3) : maskModule m r c (maskModule m r c old) = old := by
  have hbits : ∀ (hits : Bool) (old : BitVec 3), (!nonData old && hits) = true →
      withColor (withColor old (!colorOf old)) (!colorOf (withColor old (!colorOf old))) = old := by decide
  unfold maskModule
  split
  · next h => rw [nonData_withColor, if_pos h, hbits _ old h]
  · rfl

theorem wf_applyMask {s : State} (hwf : s.mem.wf = true) (m : Nat) : (s.applyMask m).mem.wf = true :=
  wf_mapModules hwf _ _

theorem moduleAt_applyMask {s : State} (hwf : s.mem.wf = true) (m : Nat) {r c : Nat} (hr : r < s.dim) (hc : c < s.dim)
    (hver : s.matrixVersion ≤ 40) : (s.applyMask m).moduleAt r c = maskModule m r c (s.moduleAt r c) := by
  rw [State.applyMask, moduleAt_mapModules hwf _ _ _ _ (lt_256_of_lt_dMax (hc.trans_le (dim_le_dMax hver))),
    if_pos ⟨hr, hc⟩]

theorem onlyDataColors_applyMask {s : State} (hwf : s.mem.wf = true) (m : Nat) : OnlyDataColors s (s.applyMask m) := by
  refine ⟨fun a ha => ?_, fun r c _ hc => ?_, fun r c _ hc hdata => ?_⟩
  · rw [State.applyMask, read_mapModules hwf, if_neg]
    rintro ⟨hlo, hhi, hcol⟩
    exact ha ⟨_, _, by omega, hcol, (moduleAddr_div_mod hlo).symm⟩
  · rw [State.applyMask, moduleAt_mapModules hwf _ _ _ _ (lt_256_of_lt_dMax hc)]
    split
    · exact ⟨nonData_maskModule _ _ _ _, isFixed_maskModule _ _ _ _⟩
    · exact ⟨rfl, rfl⟩
  · rw [State.applyMask, moduleAt_mapModules hwf _ _ _ _ (lt_256_of_lt_dMax hc)]
    split
    · next hin =>
      refine maskModule_of_nonData (Bool.not_eq_false _ ▸ fun hnon => ?_) _ _ _
      exact Bool.false_ne_true (hdata.symm.trans (isData_iff.2 ⟨hin.1, hin.2, hnon⟩))
    · rfl

theorem exec_mxMask {s : State} {arg : BitVec 8} (harg : maskArgOk arg = true) (hver : 1 ≤ s.matrixVersion) :
    exec (.mxMask arg) s = succeed (s.applyMask (maskIndex arg)) := by
  rw [exec, execMxMask, if_neg (by simp [harg]), ite_noMatrix_of_pos hver]

theorem maskArg_ofNat {m : Nat} (hm : m ≤ 7) :
    maskArgOk (BitVec.ofNat 8 m) = true ∧ maskIndex (BitVec.ofNat 8 m) = m := by
  have hall : ∀ m < 8, maskArgOk (BitVec.ofNat 8 m) = true ∧ maskIndex (BitVec.ofNat 8 m) = m := by decide
  exact hall m (Nat.lt_succ_of_le hm)

/-- Settles O54: the command maps `maskModule` over the square, which inverts where the predicate holds. -/
theorem mxMaskResult : Obligations.MxMaskResult := by
  intro s m hwf hver hm
  obtain ⟨harg, hindex⟩ := maskArg_ofNat hm
  refine ⟨fun hpos => ⟨(s.applyMask m).complete .ok .none, ?_, rfl, fun r c hdata => ?_,
    onlyDataColors_applyMask hwf m⟩, fun hzero => ?_⟩
  · rw [exec_mxMask harg hpos, hindex]
    rfl
  · obtain ⟨hr, hc, hnon⟩ := isData_iff.1 hdata
    calc colorOf ((s.applyMask m).moduleAt r c)
        = colorOf (maskModule m r c (s.moduleAt r c)) := by rw [moduleAt_applyMask hwf m hr hc hver]
      _ = xor (s.dark r c) (maskHits m r c) := colorOf_maskModule hnon m r c
  · rw [exec, execMxMask, if_neg (by simp [harg])]
    exact ite_noMatrix_of_zero hzero _

theorem moduleByte_setWidth {v : Byte} (hv : v.toNat < 8) : moduleByte (v.setWidth 3) = v := by
  apply BitVec.eq_of_toNat_eq
  simp [moduleByte, Nat.mod_eq_of_lt hv, Nat.mod_eq_of_lt v.isLt]

/-- A module byte of sound RAM is its three stored bits (R52). -/
theorem RamSound.moduleByte_read {m : Memory} (h : RamSound m) {a : Nat} (ha : isModuleAddr a = true) :
    moduleByte ((m.read a).setWidth 3) = m.read a := by
  by_cases hv : m.read a = Memory.unlisted
  · rw [hv]
    rfl
  · exact moduleByte_setWidth ((h.bytes a hv).2 ha)

/-- Applying one mask twice gives back RAM that is sound (R179). -/
theorem applyMask_applyMask_mem {s : State} (hram : RamSound s.mem) (hver : s.matrixVersion ≤ 40) (m : Nat) :
    ((s.applyMask m).applyMask m).mem = s.mem := by
  have hwf := hram.canonical
  refine eq_of_read (wf_applyMask (wf_applyMask hwf m) m) hwf fun a => ?_
  have hdim : (s.applyMask m).dim = s.dim := rfl
  rw [State.applyMask, hdim, read_mapModules (wf_applyMask hwf m), State.applyMask, read_mapModules hwf]
  split
  · next hin =>
    obtain ⟨hlo, hhi, hcol⟩ := hin
    rw [setWidth_moduleByte, maskModule_maskModule,
      hram.moduleByte_read (isModuleAddr_of_square (dim_le_dMax hver) hlo hhi hcol)]
  · rfl

/-- Settles O55: the second mask undoes the first on every module, and the invariant leaves no other bits there. -/
theorem maskTwiceIsIdentity : Obligations.MaskTwiceIsIdentity := by
  intro s t u arg hinv harg hver ht hu
  cases (exec_mxMask harg hver).symm.trans ht
  cases (exec_mxMask (s := (s.applyMask (maskIndex arg)).complete .ok .none) harg hver).symm.trans hu
  exact ⟨applyMask_applyMask_mem hinv.ram hinv.version (maskIndex arg), rfl⟩

end Sys2Proof.Machine
end

section
/-! The serpentine order (R172): which modules its strips hold, and in which order. -/

namespace Sys2Proof.Machine

/-! ### The modules of a strip and of the strips -/

theorem mem_strip_iff {d right : Nat} {upward : Bool} {r c : Nat} :
    (r, c) ∈ strip d right upward ↔ r < d ∧ (c = right ∨ c = right - 1) := by
  cases upward <;> simp [strip, ← and_or_left]

/-- The columns below `w` but column 6 are whole strips (R172). -/
def WholeStrips (w : Nat) : Prop := (w ≤ 6 ∧ w % 2 = 0) ∨ (7 ≤ w ∧ w % 2 = 1)

/-- What the next strip of `strips` leaves to its left is whole strips again. -/
theorem WholeStrips.next {w col : Nat} (hw : WholeStrips w) (hpos : ¬w - 1 < 1)
    (hcol : (if w - 1 = 6 then 5 else w - 1) = col) :
    WholeStrips (col - 1) ∧ col - 1 < w ∧ ∀ c, c < w ∧ c ≠ 6 ↔ (c = col ∨ c = col - 1) ∨ c < col - 1 ∧ c ≠ 6 := by
  unfold WholeStrips at *
  split at hcol <;> exact ⟨by omega, by omega, fun c => by omega⟩

theorem mem_strips_iff {d fuel w : Nat} {upward : Bool} {r c : Nat} (hw : WholeStrips w) (hfuel : w ≤ fuel) :
    (r, c) ∈ strips d fuel (w - 1) upward ↔ r < d ∧ c < w ∧ c ≠ 6 := by
  induction fuel generalizing w upward with
  | zero => simp [strips]; omega
  | succ fuel ih =>
    rw [strips]
    split
    · next hstop =>
      unfold WholeStrips at hw
      simp
      omega
    · next hpos =>
      dsimp only
      generalize hcol : (if w - 1 = 6 then 5 else w - 1) = col
      obtain ⟨hnext, hlt, hcols⟩ := hw.next hpos hcol
      rw [List.mem_append, mem_strip_iff, show col - 2 = col - 1 - 1 by omega, ih hnext (by omega), hcols]
      tauto

/-! ### The order of the modules -/

theorem comesBefore_ne {d : Nat} {p q : Nat × Nat} (h : comesBefore d p q) : p ≠ q := by
  rintro rfl
  unfold comesBefore at h
  split at h <;> omega

theorem pairwise_strip {d col : Nat} {upward : Bool} (hcol : 1 ≤ col) (hstrip : stripOf d (col - 1) = stripOf d col)
    (hup : upward = true ↔ stripOf d col % 2 = 0) : (strip d col upward).Pairwise (comesBefore d) := by
  have hrow : ∀ r, [(r, col), (r, col - 1)].Pairwise (comesBefore d) := fun r =>
    List.pairwise_pair.2 (.inr ⟨hstrip.symm, .inr ⟨rfl, Nat.sub_lt hcol Nat.one_pos⟩⟩)
  have hrows : ∀ r r', (if stripOf d col % 2 = 0 then r' < r else r < r') →
      ∀ p ∈ [(r, col), (r, col - 1)], ∀ q ∈ [(r', col), (r', col - 1)], comesBefore d p q := by
    intro r r' h p hp q hq
    have hp2 : p.1 = r ∧ stripOf d p.2 = stripOf d col := by
      rcases List.mem_pair.1 hp with rfl | rfl
      · exact ⟨rfl, rfl⟩
      · exact ⟨rfl, hstrip⟩
    have hq2 : q.1 = r' ∧ stripOf d q.2 = stripOf d col := by
      rcases List.mem_pair.1 hq with rfl | rfl
      · exact ⟨rfl, rfl⟩
      · exact ⟨rfl, hstrip⟩
    refine .inr ⟨hp2.2.trans hq2.2.symm, .inl ?_⟩
    rw [hp2.1, hp2.2, hq2.1]
    exact h
  rw [strip, List.pairwise_flatMap]
  refine ⟨fun r _ => hrow r, ?_⟩
  cases upward with
  | true =>
    rw [if_pos rfl, List.pairwise_reverse]
    exact List.pairwise_lt_range.imp fun h => hrows _ _ (by rwa [if_pos (hup.1 rfl)])
  | false =>
    rw [if_neg Bool.false_ne_true]
    exact List.pairwise_lt_range.imp fun h => hrows _ _ (by rwa [if_neg fun h => Bool.false_ne_true (hup.2 h)])

/-- In a square of odd dimension the strips, alternately upward and downward, are in serpentine order. -/
theorem pairwise_strips {d fuel w : Nat} {upward : Bool} (hd : d % 2 = 1) (hwd : w ≤ d) (hw : WholeStrips w)
    (hfuel : w ≤ fuel) (hup : ¬w - 1 < 1 → (upward = true ↔ stripOf d (if w - 1 = 6 then 5 else w - 1) % 2 = 0)) :
    (strips d fuel (w - 1) upward).Pairwise (comesBefore d) := by
  induction fuel generalizing w upward with
  | zero => exact .nil
  | succ fuel ih =>
    rw [strips]
    split
    · exact .nil
    · next hpos =>
      have hup := hup hpos
      dsimp only
      generalize hcol : (if w - 1 = 6 then 5 else w - 1) = col at hup
      obtain ⟨hnext, hlt, -⟩ := hw.next hpos hcol
      have hcolumn : 1 ≤ col ∧ col < w ∧ (6 < col ∧ col % 2 = 0 ∨ col < 6 ∧ col % 2 = 1) := by
        unfold WholeStrips at hw
        split at hcol <;> omega
      rw [show col - 2 = col - 1 - 1 by omega]
      refine List.pairwise_append.2 ⟨pairwise_strip (by omega) ?_ hup, ih (by omega) hnext (by omega) fun hrest => ?_,
        fun p hp q hq => .inl ?_⟩
      · unfold stripOf
        split_ifs <;> omega
      · rw [Bool.not_eq_true', ← Bool.not_eq_true, hup]
        unfold stripOf
        split_ifs <;> omega
      · obtain ⟨-, hpc⟩ := mem_strip_iff.1 hp
        obtain ⟨-, hqc, hq6⟩ := (mem_strips_iff hnext (by omega)).1 hq
        unfold stripOf
        split_ifs <;> omega

/-! ### The order of a matrix -/

theorem wholeStrips_dim (s : State) : WholeStrips s.dim := by
  unfold WholeStrips State.dim dimension
  omega

theorem mem_order_iff {s : State} (hwf : s.mem.wf = true) {r c : Nat} :
    (r, c) ∈ s.order ↔ s.isData r c = true ∧ c ≠ 6 := by
  rw [State.order, placementOrder, List.mem_filter, serpentine, mem_strips_iff (wholeStrips_dim s) le_rfl, isData_iff]
  constructor
  · rintro ⟨⟨hr, hc, hne⟩, hdata⟩
    rw [gridAt_grid hwf _ _ _ hr hc] at hdata
    exact ⟨⟨hr, hc, by simpa using hdata⟩, hne⟩
  · rintro ⟨⟨hr, hc, hdata⟩, hne⟩
    exact ⟨⟨hr, hc, hne⟩, by rw [gridAt_grid hwf _ _ _ hr hc, hdata]; rfl⟩

theorem pairwise_order (s : State) : s.order.Pairwise (comesBefore s.dim) := by
  refine List.Pairwise.filter _ (pairwise_strips ?_ le_rfl (wholeStrips_dim s) le_rfl fun _ => ?_)
  · unfold State.dim dimension
    omega
  · have hd : 17 ≤ s.dim := Nat.le_add_right _ _
    rw [if_neg (by omega), stripOf, if_pos (by omega), Nat.sub_self]
    simp

theorem nodup_order (s : State) : s.order.Nodup := (pairwise_order s).imp comesBefore_ne

/-- Settles O50: the strips hold each column but column 6 once, and are in serpentine order. -/
theorem orderIsSerpentine : Obligations.OrderIsSerpentine := fun s hwf _ _ =>
  ⟨fun _ _ => mem_order_iff hwf, pairwise_order s⟩

theorem isData_of_mem_order {s : State} (hwf : s.mem.wf = true) {p : Nat × Nat} (hp : p ∈ s.order) :
    s.isData p.1 p.2 = true := ((mem_order_iff hwf).1 hp).1

theorem length_order_le {s : State} (hver : s.matrixVersion ≤ 40) : s.order.length ≤ 31329 :=
  (length_placementOrder_le _ _).trans (Nat.mul_le_mul (dim_le_dMax hver) (dim_le_dMax hver))

/-- The order of a matrix reads the flags only, so what keeps them keeps the order. -/
theorem order_congr {s t : State} (hwf : s.mem.wf = true) (hwf' : t.mem.wf = true) (hver : s.matrixVersion ≤ 40)
    (hmx : t.regs.mxVer = s.regs.mxVer) (hflags : SameFlags s t) : t.order = s.order := by
  have hdim : t.dim = s.dim := by rw [State.dim, State.matrixVersion, hmx]; rfl
  rw [State.order, State.order, placementOrder, placementOrder, hdim]
  refine List.filter_congr fun ⟨r, c⟩ hp => ?_
  obtain ⟨hr, hc, -⟩ := (mem_strips_iff (wholeStrips_dim s) le_rfl).1 hp
  have hd := dim_le_dMax hver
  rw [gridAt_grid hwf _ _ _ hr hc, gridAt_grid hwf' _ _ _ hr hc,
    (hflags r c (hr.trans_le hd) (hc.trans_le hd)).1]

end Sys2Proof.Machine
end

section
/-! Placing and extracting the codeword stream (R173-R175, R195, R196). -/

namespace Sys2Proof.Machine

/-! ### Placement -/

/-- What `MX_PLACE` paints: each module of `ORDER` with its bit of the stream (R173, R174). -/
def State.placement (s : State) : List ((Nat × Nat) × Bool) :=
  s.order.mapIdx fun b p => (p, placedBit (s.bufBytes .cw s.regs.cwLen.toNat) s.regs.cwLen.toNat b)

theorem exec_mxPlace {s : State} (hver : 1 ≤ s.matrixVersion) (hcap : 8 * s.regs.cwLen.toNat ≤ s.order.length) :
    exec .mxPlace s = succeed (s.paint s.placement) := by
  rw [exec, execMxPlace, ite_noMatrix_of_pos hver]
  exact if_neg (Nat.not_lt.2 hcap)

theorem exec_mxPlace_eCap {s : State} (hver : 1 ≤ s.matrixVersion) (hcap : s.order.length < 8 * s.regs.cwLen.toNat) :
    exec .mxPlace s = .next (s.endedWith .eCap .none) := by
  rw [exec, execMxPlace, ite_noMatrix_of_pos hver]
  exact if_pos hcap

section
variable {s : State} (hwf : s.mem.wf = true)
include hwf

theorem isData_of_mem_placement {p : (Nat × Nat) × Bool} (hp : p ∈ s.placement) : s.isData p.1.1 p.1.2 = true := by
  obtain ⟨k, hk, rfl⟩ := List.mem_mapIdx.1 hp
  exact isData_of_mem_order hwf (List.getElem_mem hk)

theorem placedBit_bufBytes (q b : Nat) : placedBit (s.bufBytes .cw q) q b =
    if b < 8 * q then (s.buf .cw (b / 8)).getLsbD (7 - b % 8) else false := by
  unfold placedBit
  split
  · next hb => rw [getD_bufBytes hwf .cw (by omega), decide_eq_true hb, Bool.true_and]
  · next hb => rw [decide_eq_false hb, Bool.false_and]

theorem onlyDataColors_placement (hver : s.matrixVersion ≤ 40) : OnlyDataColors s (s.paint s.placement) :=
  onlyDataColors_paint hwf hver fun _ hp => isData_of_mem_placement hwf hp

/-- The b-th module of `ORDER` carries the b-th bit of the stream: it stands in `ORDER` only once. -/
theorem dark_placement (hver : s.matrixVersion ≤ 40) {b r c : Nat} (hb : s.order[b]? = some (r, c)) :
    (s.paint s.placement).dark r c =
      if b < 8 * s.regs.cwLen.toNat then (s.buf .cw (b / 8)).getLsbD (7 - b % 8) else false := by
  obtain ⟨hlt, hpos⟩ := List.getElem?_eq_some_iff.1 hb
  have hcol : ∀ {r c}, s.isData r c = true → c < 256 := fun hdata =>
    lt_256_of_lt_dMax ((isData_iff.1 hdata).2.1.trans_le (dim_le_dMax hver))
  rw [← placedBit_bufBytes hwf]
  refine dark_paint hwf (fun p hp => hcol (isData_of_mem_placement hwf hp))
    (hcol (isData_of_mem_order hwf (List.mem_of_getElem? hb))) (fun p hp hp1 => ?_)
    (.inr ⟨_, List.mem_mapIdx.2 ⟨b, hlt, rfl⟩, hpos⟩)
  obtain ⟨k, hk, rfl⟩ := List.mem_mapIdx.1 hp
  exact congrArg (placedBit _ _) ((nodup_order s).getElem_inj_iff.1 (hp1.trans hpos.symm))

/-- Modules outside `ORDER`, column 6 among them, are not painted. -/
theorem moduleAt_placement_of_not_mem (hver : s.matrixVersion ≤ 40) {r c : Nat} (hc : c < dMax)
    (hnot : (r, c) ∉ s.order) : (s.paint s.placement).moduleAt r c = s.moduleAt r c := by
  refine moduleAt_paint_of_not_mem hwf (fun p hp => lt_256_of_lt_dMax ?_) (lt_256_of_lt_dMax hc) fun p hp hpos => hnot ?_
  · exact (isData_iff.1 (isData_of_mem_placement hwf hp)).2.1.trans_le (dim_le_dMax hver)
  · obtain ⟨k, hk, rfl⟩ := List.mem_mapIdx.1 hp
    exact hpos ▸ List.getElem_mem hk

end

/-- Settles O51: each module of `ORDER` is painted once, with its bit of the stream. -/
theorem mxPlaceResult : Obligations.MxPlaceResult := fun s hwf hver =>
  ⟨fun hpos hcap => ⟨_, exec_mxPlace hpos hcap, ended_paint s s.placement, fun _ _ _ hb => dark_placement hwf hver hb,
      fun _ _ _ hc hnot => moduleAt_placement_of_not_mem hwf hver hc hnot, onlyDataColors_placement hwf hver⟩,
    fun hzero => ite_noMatrix_of_zero hzero _, exec_mxPlace_eCap⟩

/-! ### Bytes from bits (R173) -/

theorem testBit_foldl_bits (bits : List Bool) (i : Nat) :
    (bits.foldl (fun acc (bit : Bool) => 2 * acc + bit.toNat) 0).testBit i = bits.reverse.getD i false := by
  induction bits using List.reverseRecOn generalizing i with
  | nil => simp
  | append_singleton bits x ih =>
    rw [List.foldl_append, List.reverse_append]
    cases i with
    | zero => cases x <;> simp [Nat.testBit_zero]
    | succ i => cases x <;> simpa [Nat.testBit_succ, Nat.mul_add_div] using ih i

/-- The first bit of eight is the most significant. -/
theorem getLsbD_byteOfBits {bits : List Bool} (hlen : bits.length = 8) {b : Nat} (hb : b < 8) :
    (byteOfBits bits).getLsbD (7 - b) = bits.getD b false := by
  have hrev : bits.length - 1 - (7 - b) = b := by omega
  rw [byteOfBits, BitVec.getLsbD_ofNat, testBit_foldl_bits, decide_eq_true (by omega), Bool.true_and,
    List.getD_eq_getElem?_getD, List.getElem?_reverse (by omega), hrev, ← List.getD_eq_getElem?_getD]

theorem getD_packBytes {q k : Nat} (hk : k < q) (bits : List Bool) :
    (packBytes q bits).getD k 0#8 = byteOfBits ((bits.drop (8 * k)).take 8) := by
  induction q generalizing k bits with
  | zero => exact nomatch hk
  | succ q ih =>
    cases k with
    | zero => rfl
    | succ k =>
      rw [packBytes, List.getD_cons_succ, ih (by omega), List.drop_drop]
      congr 3
      omega

/-- Bit `7 - b` of byte `k` is bit `8 k + b` of the list packed. -/
theorem getLsbD_packBytes {q k b : Nat} {bits : List Bool} (hk : k < q) (hq : 8 * q ≤ bits.length) (hb : b < 8) :
    ((packBytes q bits).getD k 0#8).getLsbD (7 - b) = bits.getD (8 * k + b) false := by
  rw [getD_packBytes hk, getLsbD_byteOfBits (by simp; omega) hb]
  simp [List.getD_eq_getElem?_getD, hb]

/-! ### Extraction -/

/-- The colors of the modules of `ORDER`. -/
def State.orderColors (s : State) : List Bool := s.order.map fun p => s.dark p.1 p.2

/-- What `MX_EXTRACT` writes before it completes (R196). -/
def State.extractBody (s : State) : State :=
  { s.setBuf .cw (packBytes (s.order.length / 8) s.orderColors) with
    regs := { s.regs with cwLen := BitVec.ofNat 12 (s.order.length / 8) } }

theorem exec_mxExtract {s : State} (hwf : s.mem.wf = true) (hver : 1 ≤ s.matrixVersion) :
    exec .mxExtract s = succeed s.extractBody := by
  have hcolors : s.order.map (fun p => colorOf (gridAt (s.grid s.dim) p.1 p.2)) = s.orderColors := by
    refine List.map_congr_left fun p hp => ?_
    obtain ⟨hr, hc⟩ := mem_placementOrder hp
    rw [gridAt_grid hwf _ _ _ hr hc, State.dark]
  rw [exec, execMxExtract, ite_noMatrix_of_pos hver, State.extractBody, ← hcolors]
  rfl

section
variable {s : State} (hwf : s.mem.wf = true)
include hwf

theorem buf_extractBody {k b : Nat} (hk : k < s.order.length / 8) (hb : b < 8) :
    (s.extractBody.buf .cw k).getLsbD (7 - b) = s.orderColors.getD (8 * k + b) false := by
  have hread : s.extractBody.buf .cw k = (packBytes (s.order.length / 8) s.orderColors).getD k 0#8 := by
    refine (read_store hwf _ _ _).trans ?_
    rw [length_packBytes, if_pos (by omega), Nat.add_sub_cancel_left]
  rw [hread, getLsbD_packBytes hk (by simp [State.orderColors]; omega) hb]

theorem sameRamOutside_extractBody : SameRamOutside Buffer.cw.base (s.order.length / 8) s s.extractBody := by
  intro a ha
  refine (read_store hwf _ _ _).trans (if_neg ?_)
  rwa [length_packBytes]

end

/-- Settles O52: the bytes stored are the colors of `ORDER`, eight to a byte. -/
theorem mxExtractResult : Obligations.MxExtractResult := by
  refine fun s hwf hver => ⟨fun hpos => ⟨_, exec_mxExtract hwf hpos, rfl, ?_, fun k b r c hk hb horder => ?_,
    sameRamOutside_extractBody hwf⟩, fun hzero => ite_noMatrix_of_zero hzero _⟩
  · have := length_order_le hver
    omega
  · refine (buf_extractBody hwf hk hb).trans ?_
    simp [State.orderColors, List.getD_eq_getElem?_getD, horder]

/-- Settles O53: placing keeps `ORDER`, and the bits extracting packs are those placing painted. -/
theorem extractUndoesPlace : Obligations.ExtractUndoesPlace := by
  intro s t u hwf hpos hver hcap ht hu
  cases (exec_mxPlace hpos hcap).symm.trans ht
  generalize hp : (s.paint s.placement).complete .ok .none = p at hu
  have hwfp : p.mem.wf = true := hp ▸ wf_paint hwf s.placement
  have hmx : p.regs.mxVer = s.regs.mxVer := by rw [← hp, complete_regs_mxVer, paint_regs]
  have hdark : ∀ {b r c}, s.order[b]? = some (r, c) → p.dark r c =
      if b < 8 * s.regs.cwLen.toNat then (s.buf .cw (b / 8)).getLsbD (7 - b % 8) else false := fun hb =>
    hp ▸ dark_placement hwf hver hb
  have horder : p.order = s.order := order_congr hwf hwfp hver hmx (hp ▸ (onlyDataColors_placement hwf hver).2.1)
  have hver' : 1 ≤ p.matrixVersion := by rwa [State.matrixVersion, hmx]
  cases (exec_mxExtract hwfp hver').symm.trans hu
  have hlen := length_order_le hver
  refine ⟨?_, fun k hk => BitVec.eq_of_getLsbD_eq fun i hi => ?_⟩
  · change (BitVec.ofNat 12 (p.order.length / 8)).toNat = _
    rw [horder, BitVec.toNat_ofNat, Nat.mod_eq_of_lt (by omega)]
  · obtain ⟨b, hb, rfl⟩ : ∃ b < 8, i = 7 - b := ⟨7 - i, by omega, by omega⟩
    have hlt : 8 * k + b < s.order.length := by omega
    have hcolor := hdark (List.getElem?_eq_getElem hlt)
    rw [show (8 * k + b) / 8 = k by omega, show (8 * k + b) % 8 = b by omega] at hcolor
    calc (p.extractBody.buf .cw k).getLsbD (7 - b)
        = p.orderColors.getD (8 * k + b) false := buf_extractBody hwfp (by rwa [horder]) hb
      _ = p.dark s.order[8 * k + b].1 s.order[8 * k + b].2 := by
        simp [State.orderColors, horder, List.getD_eq_getElem?_getD, hlt]
      _ = if 8 * k + b < 8 * s.regs.cwLen.toNat then (s.buf .cw k).getLsbD (7 - b) else false := hcolor
      _ = (if k < s.regs.cwLen.toNat then s.buf .cw k else 0#8).getLsbD (7 - b) := by
        by_cases hq : k < s.regs.cwLen.toNat
        · rw [if_pos (by omega), if_pos hq]
        · rw [if_neg (by omega), if_neg hq, BitVec.getLsbD_zero]

end Sys2Proof.Machine
end

section
/-! Stamping the format and version words (R189-R194), and the frame of all matrix commands (R198). -/

namespace Sys2Proof.Machine

/-! ### Where the words are stamped (R169) -/

/-- The module is one of the two that carry bit `i` of the format word. -/
def FormatBit (d i : Nat) (p : Nat × Nat) : Prop := p = fc1 i ∨ p = fc2 d i

/-- The module is one of the two that carry bit `i` of the version word. -/
def VersionBit (d i : Nat) (p : Nat × Nat) : Prop := p = vtr d i ∨ p = vbl d i

theorem fc1_eq_iff {i r c : Nat} (hi : i < 15) : (r, c) = fc1 i ↔
    (c = 8 ∧ (r = i ∧ i ≤ 5 ∨ r = i + 1 ∧ (i = 6 ∨ i = 7))) ∨ (r = 8 ∧ (c = 7 ∧ i = 8 ∨ c + i = 14 ∧ 9 ≤ i)) := by
  unfold fc1
  split_ifs <;> rw [Prod.mk.injEq] <;> omega

theorem fc2_eq_iff {d i r c : Nat} (hd : 21 ≤ d) (hi : i < 15) : (r, c) = fc2 d i ↔
    (r = 8 ∧ c + i + 1 = d ∧ i ≤ 7) ∨ (c = 8 ∧ r + 15 = d + i ∧ 8 ≤ i) := by
  unfold fc2
  split_ifs <;> rw [Prod.mk.injEq] <;> omega

theorem vtr_eq_iff {d i r c : Nat} (hd : 21 ≤ d) : (r, c) = vtr d i ↔ r = i / 3 ∧ c + 11 = d + i % 3 := by
  rw [vtr, Prod.mk.injEq]
  omega

theorem vbl_eq_iff {d i r c : Nat} (hd : 21 ≤ d) : (r, c) = vbl d i ↔ c = i / 3 ∧ r + 11 = d + i % 3 := by
  rw [vbl, Prod.mk.injEq]
  omega

theorem formatBit_iff {d i r c : Nat} (hd : 21 ≤ d) (hi : i < 15) : FormatBit d i (r, c) ↔
    ((c = 8 ∧ (r = i ∧ i ≤ 5 ∨ r = i + 1 ∧ (i = 6 ∨ i = 7))) ∨ (r = 8 ∧ (c = 7 ∧ i = 8 ∨ c + i = 14 ∧ 9 ≤ i))) ∨
      ((r = 8 ∧ c + i + 1 = d ∧ i ≤ 7) ∨ (c = 8 ∧ r + 15 = d + i ∧ 8 ≤ i)) := by
  rw [FormatBit, fc1_eq_iff hi, fc2_eq_iff hd hi]

theorem versionBit_iff {d i r c : Nat} (hd : 21 ≤ d) : VersionBit d i (r, c) ↔
    (r = i / 3 ∧ c + 11 = d + i % 3) ∨ (c = i / 3 ∧ r + 11 = d + i % 3) := by
  rw [VersionBit, vtr_eq_iff hd, vbl_eq_iff hd]

theorem FormatBit.eq {d i j : Nat} (hd : 21 ≤ d) (hi : i < 15) (hj : j < 15) {p : Nat × Nat} (h : FormatBit d i p)
    (h' : FormatBit d j p) : i = j := by
  obtain ⟨r, c⟩ := p
  rw [formatBit_iff hd hi] at h
  rw [formatBit_iff hd hj] at h'
  omega

theorem VersionBit.eq {d i j : Nat} (hd : 45 ≤ d) (hi : i < 18) {p : Nat × Nat} (h : VersionBit d i p)
    (h' : VersionBit d j p) : i = j := by
  obtain ⟨r, c⟩ := p
  rw [versionBit_iff (by omega)] at h h'
  omega

theorem FormatBit.not_versionBit {d i j : Nat} (hd : 45 ≤ d) (hi : i < 15) {p : Nat × Nat}
    (h : FormatBit d i p) : ¬VersionBit d j p := by
  obtain ⟨r, c⟩ := p
  rw [formatBit_iff (by omega) hi] at h
  rw [versionBit_iff (by omega)]
  omega

theorem mem_formatModules_iff {d : Nat} {p : Nat × Nat} : p ∈ formatModules d ↔ ∃ i < 15, FormatBit d i p := by
  simp only [formatModules, FormatBit, List.mem_append, List.mem_map, List.mem_range]
  grind

theorem mem_versionModules_iff {v : Nat} {p : Nat × Nat} :
    p ∈ versionModules v ↔ 7 ≤ v ∧ ∃ i < 18, VersionBit (dimension v) i p := by
  unfold versionModules
  split
  · next hv => simp [Nat.not_le.2 hv]
  · next hv =>
    simp only [VersionBit, List.mem_append, List.mem_map, List.mem_range]
    grind

theorem wordModule_lt_dim {s : State} {p : Nat × Nat}
    (hp : p ∈ formatModules s.dim ++ versionModules s.matrixVersion) : p.1 < s.dim ∧ p.2 < s.dim := by
  have hd : 17 ≤ s.dim := Nat.le_add_right _ _
  rw [List.mem_append, mem_formatModules_iff, mem_versionModules_iff] at hp
  obtain ⟨i, hi, rfl | rfl⟩ | ⟨-, i, hi, rfl | rfl⟩ := hp
  · exact fc1_lt hd hi
  · exact fc2_lt hd hi
  · exact vtr_lt hd hi
  · exact vbl_lt hd hi

theorem wordModule_col_lt {s : State} (hver : s.matrixVersion ≤ 40) {p : Nat × Nat}
    (hp : p ∈ formatModules s.dim ++ versionModules s.matrixVersion) : p.2 < 256 :=
  lt_256_of_lt_dMax ((wordModule_lt_dim hp).2.trans_le (dim_le_dMax hver))

/-! ### What is stamped -/

theorem dark_congr {s t : State} (h : t.mem = s.mem) (r c : Nat) : t.dark r c = s.dark r c := by
  rw [State.dark, State.moduleAt, h, State.dark, State.moduleAt]

/-- The stamps of `MX_STAMP` for the format word `f` (R194). -/
def State.stamps (s : State) (f : BitVec 15) : List ((Nat × Nat) × Bool) :=
  formatStamps s.dim f ++ versionStamps s.matrixVersion

theorem mem_stamps_iff {s : State} {f : BitVec 15} {p : (Nat × Nat) × Bool} : p ∈ s.stamps f ↔
    (∃ i < 15, FormatBit s.dim i p.1 ∧ p.2 = f.getLsbD i) ∨
    (7 ≤ s.matrixVersion ∧ ∃ i < 18, VersionBit s.dim i p.1 ∧ p.2 = (verCode s.matrixVersion).getLsbD i) := by
  rw [State.stamps, List.mem_append]
  refine or_congr ?_ ?_
  · simp only [formatStamps, FormatBit, List.mem_flatMap, List.mem_range, List.mem_pair, Prod.ext_iff]
    grind
  · unfold versionStamps
    split
    · next hv => simp [Nat.not_le.2 hv]
    · next hv =>
      simp only [VersionBit, State.dim, List.mem_flatMap, List.mem_range, List.mem_pair, Prod.ext_iff]
      grind

theorem stamps_fst_mem {s : State} {f : BitVec 15} {p : (Nat × Nat) × Bool} (hp : p ∈ s.stamps f) :
    p.1 ∈ formatModules s.dim ++ versionModules s.matrixVersion := by
  rw [List.mem_append, mem_formatModules_iff, mem_versionModules_iff]
  exact (mem_stamps_iff.1 hp).imp (fun ⟨i, hi, hbit, _⟩ => ⟨i, hi, hbit⟩)
    (fun ⟨hv, i, hi, hbit, _⟩ => ⟨hv, i, hi, hbit⟩)

/-- What `MX_STAMP` writes before it completes (R194). -/
def State.stampBody (s : State) (f : BitVec 15) : State :=
  { s with mem := (s.paint (s.stamps f)).mem, regs := { s.regs with fmtWord := f } }

theorem stampBody_mem (s : State) (f : BitVec 15) : (s.stampBody f).mem = (s.paint (s.stamps f)).mem := rfl

theorem exec_mxStamp {s : State} (hver : 1 ≤ s.matrixVersion) :
    exec .mxStamp s = succeed (s.stampBody (formatWord s.regs.ecLevel s.regs.mask)) := by
  rw [exec, execMxStamp, ite_noMatrix_of_pos hver]
  dsimp only
  rw [paint_eq]
  rfl

section
variable {s : State} (hwf : s.mem.wf = true) (hver : s.matrixVersion ≤ 40) {f : BitVec 15}

include hver in
theorem stamps_col_lt : ∀ p ∈ s.stamps f, p.1.2 < 256 := fun _ hp =>
  wordModule_col_lt hver (stamps_fst_mem hp)

include hwf hver

/-- Both modules of bit `i` of the format word get that bit: no stamp of another value falls on them. -/
theorem dark_stampBody_format (hpos : 1 ≤ s.matrixVersion) {i : Nat} (hi : i < 15) {p : Nat × Nat}
    (hp : FormatBit s.dim i p) : (s.stampBody f).dark p.1 p.2 = f.getLsbD i := by
  have hmem : (p, f.getLsbD i) ∈ s.stamps f := mem_stamps_iff.2 (.inl ⟨i, hi, hp, rfl⟩)
  rw [dark_congr (stampBody_mem s f)]
  refine dark_paint hwf (stamps_col_lt hver) (stamps_col_lt hver _ hmem) (fun q hq hqp => ?_) (.inr ⟨_, hmem, rfl⟩)
  rcases mem_stamps_iff.1 hq with ⟨j, hj, hbit, hval⟩ | ⟨hv, j, hj, hbit, -⟩ <;> rw [hqp] at hbit
  · have hd : 21 ≤ s.dim := by unfold State.dim dimension; omega
    rw [hval, hp.eq hd hi hj hbit]
  · have hd : 45 ≤ s.dim := by unfold State.dim dimension; omega
    exact absurd hbit (hp.not_versionBit hd hi)

theorem dark_stampBody_version (hv : 7 ≤ s.matrixVersion) {i : Nat} (hi : i < 18) {p : Nat × Nat}
    (hp : VersionBit s.dim i p) :
    (s.stampBody f).dark p.1 p.2 = (verCode s.matrixVersion).getLsbD i := by
  have hd : 45 ≤ s.dim := by unfold State.dim dimension; omega
  have hmem : (p, (verCode s.matrixVersion).getLsbD i) ∈ s.stamps f :=
    mem_stamps_iff.2 (.inr ⟨hv, i, hi, hp, rfl⟩)
  rw [dark_congr (stampBody_mem s f)]
  refine dark_paint hwf (stamps_col_lt hver) (stamps_col_lt hver _ hmem) (fun q hq hqp => ?_) (.inr ⟨_, hmem, rfl⟩)
  rcases mem_stamps_iff.1 hq with ⟨j, hj, hbit, -⟩ | ⟨-, j, hj, hbit, hval⟩ <;> rw [hqp] at hbit
  · exact absurd hp (hbit.not_versionBit hd hj)
  · rw [hval, hp.eq hd hi hbit]

/-- Stamping keeps the flags of every module, those stamped among them. -/
theorem sameFlags_stampBody : SameFlags s (s.stampBody f) := by
  have hpaint := sameFlags_paint hwf (stamps_col_lt hver (f := f))
  exact fun r c hr hc => hpaint r c hr hc

omit hver in
theorem read_stampBody {a : Nat}
    (ha : ∀ p ∈ formatModules s.dim ++ versionModules s.matrixVersion, a ≠ moduleAddr p.1 p.2) :
    (s.stampBody f).mem.read a = s.mem.read a := by
  rw [stampBody_mem]
  exact read_paint_of_not_mem hwf _ _ fun p hp => ha _ (stamps_fst_mem hp)

end

/-- Settles O58: the command paints the stamps, of which each module of a word gets one. -/
theorem mxStampResult : Obligations.MxStampResult := by
  intro s f hwf hver hf
  have hword : formatWord s.regs.ecLevel s.regs.mask = f := hf.symm
  have hend (hpos : 1 ≤ s.matrixVersion) := exec_mxStamp hpos
  rw [hword] at hend
  refine ⟨fun hpos => ⟨_, hend hpos, rfl, fun i hi => ⟨?_, ?_⟩, fun hv i hi => ⟨?_, ?_⟩,
    sameFlags_stampBody hwf hver, fun a => read_stampBody hwf⟩, fun hzero => ite_noMatrix_of_zero hzero _⟩ <;>
    rw [dark_congr (complete_mem _ _ _)]
  · exact dark_stampBody_format hwf hver hpos hi (.inl rfl)
  · exact dark_stampBody_format hwf hver hpos hi (.inr rfl)
  · exact dark_stampBody_version hwf hver hv hi (.inl rfl)
  · exact dark_stampBody_version hwf hver hv hi (.inr rfl)

end Sys2Proof.Machine
end

section
/-! The penalty terms (R180-R185): the recursions of the model are the wordings of the rules. -/

namespace Sys2Proof.Machine

theorem sum_map_range (f : Nat → Nat) (n : Nat) : ((List.range n).map f).sum = ∑ i ∈ Finset.range n, f i := rfl

/-! ### N1 (R181) -/

theorem maximalRun_iff {line : List Bool} {i len : Nat} : maximalRun line i len = true ↔
    i + len ≤ line.length ∧ (∀ k < len, line.getD (i + k) false = line.getD i false) ∧
    (i = 0 ∨ line.getD (i - 1) false ≠ line.getD i false) ∧
    (i + len = line.length ∨ line.getD (i + len) false ≠ line.getD i false) := by
  simp [maximalRun, and_assoc]

/-- What the maximal runs that begin at `i` add to N1; there is at most one. -/
def runsAt (line : List Bool) (i : Nat) : Nat :=
  ∑ len ∈ Finset.range (line.length + 1), if 5 ≤ len ∧ maximalRun line i len = true then 3 + (len - 5) else 0

theorem n1OfRuns_eq (line : List Bool) : n1OfRuns line = ∑ i ∈ Finset.range line.length, runsAt line i := rfl

theorem runsAt_eq_runScore {line : List Bool} {i k : Nat} (hk : k ≤ line.length)
    (hrun : ∀ len, 1 ≤ len → (maximalRun line i len = true ↔ len = k)) : runsAt line i = runScore k := by
  have hterm : ∀ len, (if 5 ≤ len ∧ maximalRun line i len = true then 3 + (len - 5) else 0) =
      if len = k then runScore k else 0 := by
    intro len
    by_cases hlen : 5 ≤ len
    · by_cases hkl : len = k
      · rw [if_pos ⟨hlen, (hrun len (by omega)).2 hkl⟩, if_pos hkl, runScore, ← hkl, if_pos hlen]
      · rw [if_neg fun h => hkl ((hrun len (by omega)).1 h.2), if_neg hkl]
    · rw [if_neg fun h => hlen h.1]
      split
      · next hkl => simp [runScore, hkl ▸ hlen]
      · rfl
  simp only [runsAt, hterm, Finset.sum_ite_eq', Finset.mem_range]
  exact if_pos (by omega)

theorem runsAt_eq_zero {line : List Bool} {i : Nat} (hrun : ∀ len, 1 ≤ len → ¬maximalRun line i len = true) :
    runsAt line i = 0 := by
  refine Finset.sum_eq_zero fun len _ => if_neg ?_
  rintro ⟨hlen, hmax⟩
  exact hrun len (by omega) hmax

section
variable {color : Bool} {k : Nat} {rest : List Bool}

theorem getD_replicate_append_left {i : Nat} (hi : i < k) :
    (List.replicate k color ++ rest).getD i false = color := by
  simp [List.getD_eq_getElem?_getD, List.getElem?_append, hi]

theorem getD_replicate_append_right (i : Nat) :
    (List.replicate k color ++ rest).getD (k + i) false = rest.getD i false := by
  simp [List.getD_eq_getElem?_getD, List.getElem?_append]

theorem getD_replicate_append_self : (List.replicate k color ++ rest).getD k false = rest.getD 0 false :=
  getD_replicate_append_right 0

variable (hk : 1 ≤ k) (hrest : rest = [] ∨ rest.getD 0 false ≠ color)
include hrest

include hk in
/-- The run at the start of a line is the one maximal run that begins there. -/
theorem maximalRun_replicate_append_zero {len : Nat} :
    maximalRun (List.replicate k color ++ rest) 0 len = true ↔ len = k := by
  have hzero := getD_replicate_append_left (rest := rest) (color := color) hk
  rw [maximalRun_iff, hzero]
  simp only [Nat.zero_add, List.length_append, List.length_replicate]
  constructor
  · rintro ⟨hle, hsame, -, hend⟩
    rcases Nat.lt_trichotomy len k with hlt | heq | hgt
    · have := getD_replicate_append_left (rest := rest) (color := color) hlt
      exact hend.elim (by omega) (absurd this)
    · exact heq
    · have hhead := hsame k hgt
      rw [getD_replicate_append_self] at hhead
      rcases hrest with rfl | hne
      · simp at hle; omega
      · exact absurd hhead hne
  · rintro rfl
    refine ⟨by omega, fun i hi => getD_replicate_append_left hi, .inl trivial, hrest.imp ?_ fun hne => ?_⟩
    · rintro rfl
      simp
    · rwa [getD_replicate_append_self]

omit hrest in
/-- No maximal run begins inside a run. -/
theorem not_maximalRun_replicate_append {i : Nat} (hi : i + 1 < k) (len : Nat) :
    ¬maximalRun (List.replicate k color ++ rest) (i + 1) len = true := by
  rw [maximalRun_iff, Nat.add_sub_cancel, getD_replicate_append_left hi, getD_replicate_append_left (by omega)]
  rintro ⟨-, -, hstart, -⟩
  exact hstart.elim (by omega) (· rfl)

include hk in
/-- The runs after the first one are those of the rest of the line. -/
theorem maximalRun_replicate_append_add {j len : Nat} (hlen : 1 ≤ len) :
    maximalRun (List.replicate k color ++ rest) (k + j) len = true ↔ maximalRun rest j len = true := by
  rw [maximalRun_iff, maximalRun_iff]
  simp only [Nat.add_assoc, getD_replicate_append_right, List.length_append, List.length_replicate,
    Nat.add_le_add_iff_left, Nat.add_left_cancel_iff]
  refine and_congr_right fun hle => and_congr_right fun _ => and_congr_left fun _ => ?_
  cases j with
  | zero =>
    have hlast := getD_replicate_append_left (rest := rest) (color := color) (show k - 1 < k by omega)
    have hne := hrest.resolve_left fun hnil => by rw [hnil] at hle; simp at hle; omega
    rw [Nat.add_zero, hlast]
    exact iff_of_true (.inr hne.symm) (.inl rfl)
  | succ j =>
    rw [show k + (j + 1) - 1 = k + j by omega, getD_replicate_append_right, Nat.add_sub_cancel]
    simp

include hk in
/-- The runs of a line are its first run and those of the rest. -/
theorem n1OfRuns_replicate_append : n1OfRuns (List.replicate k color ++ rest) = runScore k + n1OfRuns rest := by
  have hlength : (List.replicate k color ++ rest).length = k + rest.length := by simp
  have hfirst : ∑ i ∈ Finset.range k, runsAt (List.replicate k color ++ rest) i = runScore k := by
    obtain ⟨k, rfl⟩ := Nat.exists_eq_add_of_le' hk
    rw [Finset.sum_range_succ', Finset.sum_eq_zero, Nat.zero_add]
    · exact runsAt_eq_runScore (by omega) fun len _ => maximalRun_replicate_append_zero hk hrest
    · exact fun i hi => runsAt_eq_zero fun len _ =>
        not_maximalRun_replicate_append (Nat.succ_lt_succ (Finset.mem_range.1 hi)) len
  have hrunsAt : ∀ j, runsAt (List.replicate k color ++ rest) (k + j) = runsAt rest j := by
    intro j
    rw [runsAt, runsAt, hlength]
    refine (Finset.sum_subset_zero_on_sdiff (Finset.range_mono (by omega)) (fun len hlen => if_neg ?_)
      fun len _ => ?_).symm
    · rintro ⟨h5, hmax⟩
      have hle := (maximalRun_iff.1 ((maximalRun_replicate_append_add hk hrest (by omega)).1 hmax)).1
      simp at hlen
      omega
    · exact if_congr (and_congr_right fun h5 => (maximalRun_replicate_append_add hk hrest (by omega)).symm) rfl rfl
  rw [n1OfRuns_eq, hlength, Finset.sum_range_add, hfirst, n1OfRuns_eq]
  simp only [hrunsAt]

end

theorem n1From_eq (color : Bool) {len : Nat} (hlen : 1 ≤ len) (xs : List Bool) :
    n1From color len xs = n1OfRuns (List.replicate len color ++ xs) := by
  induction xs generalizing color len with
  | nil => rw [n1OfRuns_replicate_append hlen (.inl rfl)]; rfl
  | cons x xs ih =>
    rw [n1From]
    split
    · next hx => rw [ih color (by omega), hx, List.replicate_succ', List.append_assoc]; rfl
    · next hx => rw [n1OfRuns_replicate_append (rest := x :: xs) hlen (.inr hx), ih x le_rfl]; rfl

/-- The one pass over a line scores its maximal runs (R181). -/
theorem n1Line_eq (line : List Bool) : n1Line line = n1OfRuns line := by
  cases line with
  | nil => rfl
  | cons x xs => exact n1From_eq x le_rfl xs

/-! ### N2 (R182) -/

theorem n2Pair_map_range (f g : Nat → Bool) (n : Nat) :
    n2Pair ((List.range (n + 1)).map f) ((List.range (n + 1)).map g) =
      3 * (List.range n).countP (fun c => f c == f (c + 1) && f c == g c && f c == g (c + 1)) := by
  induction n generalizing f g with
  | zero => rfl
  | succ n ih =>
    have htail (f : Nat → Bool) : (List.range (n + 1)).map (f ∘ Nat.succ) =
        f 1 :: ((List.range n).map Nat.succ).map (f ∘ Nat.succ) := by
      rw [List.range_succ_eq_map]; rfl
    rw [List.range_succ_eq_map, List.map_cons, List.map_cons, List.map_map, List.map_map, htail f, htail g, n2Pair,
      ← htail f, ← htail g, ih, List.range_succ_eq_map, List.countP_cons, List.countP_map, Nat.mul_add]
    rw [Nat.add_comm]
    refine congrArg₂ (· + ·) rfl ?_
    simp [and_assoc]

theorem n2Rows_map_range (row : Nat → List Bool) (n : Nat) :
    n2Rows ((List.range (n + 1)).map row) = ((List.range n).map fun r => n2Pair (row r) (row (r + 1))).sum := by
  induction n generalizing row with
  | zero => rfl
  | succ n ih =>
    have htail : (List.range (n + 1)).map (row ∘ Nat.succ) =
        row 1 :: ((List.range n).map Nat.succ).map (row ∘ Nat.succ) := by
      rw [List.range_succ_eq_map]; rfl
    rw [List.range_succ_eq_map, List.map_cons, List.map_map, htail, n2Rows, ← htail, ih, List.range_succ_eq_map,
      List.map_cons, List.map_map, List.sum_cons]
    rfl

/-! ### N3 (R183) -/

theorem n3Pattern_eq : n3Pattern = (List.range 7).map fun k => decide (k ≠ 1 ∧ k ≠ 5) := by decide

theorem take_drop_eq_map (line : List Bool) {p n : Nat} (h : p + n ≤ line.length) :
    (line.drop p).take n = (List.range n).map fun k => line.getD (p + k) false := by
  refine List.ext_getElem (by simp; omega) fun k hk _ => ?_
  have hk : k < n := by simp at hk; omega
  simp [List.getD_eq_getElem?_getD, show p + k < line.length by omega]

theorem all_range_congr {n : Nat} {p q : Nat → Bool} (h : ∀ k < n, p k = q k) :
    (List.range n).all p = (List.range n).all q := by
  rw [Bool.eq_iff_iff, List.all_eq_true, List.all_eq_true]
  exact forall₂_congr fun k hk => by rw [h k (List.mem_range.1 hk)]

theorem n3Hit_eq (outside : Bool) {line : List Bool} {p : Nat} (h : p + 7 ≤ line.length) :
    n3Hit outside line p = n3Occurs outside line p := by
  have hpattern : ((line.drop p).take 7 == n3Pattern) =
      (List.range 7).all (fun k => line.getD (p + k) false == decide (k ≠ 1 ∧ k ≠ 5)) := by
    rw [take_drop_eq_map line h, n3Pattern_eq, Bool.eq_iff_iff]
    simp only [beq_iff_eq, List.all_eq_true, List.map_inj_left]
  have hbefore : ∀ k : Nat, k < 4 → lightAt outside line ((p : Int) - 4 + k) =
      if p + k < 4 then outside else !line.getD (p + k - 4) false := by
    intro k hk
    rw [lightAt, show ((p : Int) - 4 + k).toNat = p + k - 4 by omega]
    by_cases hout : p + k < 4
    · rw [if_neg (by omega), if_pos hout]
    · rw [if_pos (by omega), if_neg hout]
  have hafter : ∀ k : Nat, k < 4 → lightAt outside line ((p : Int) + 7 + k) =
      if line.length ≤ p + 7 + k then outside else !line.getD (p + 7 + k) false := by
    intro k _
    rw [lightAt, show ((p : Int) + 7 + k).toNat = p + 7 + k by omega]
    by_cases hout : line.length ≤ p + 7 + k
    · rw [if_neg (by omega), if_pos hout]
    · rw [if_pos (by omega), if_neg hout]
  rw [n3Hit, n3Occurs, hpattern, all_range_congr hbefore, all_range_congr hafter]

theorem n3Line_eq (outside : Bool) (line : List Bool) : n3Line outside line = n3OfLine outside line := by
  rw [n3Line, n3OfLine]
  refine congrArg _ (List.countP_congr fun p hp => ?_)
  have := List.mem_range.1 hp
  rw [n3Hit_eq outside (by omega)]

/-! ### The terms of a square of colors -/

/-- The `d × d` square of the colors `f` gives, row by row. -/
def squareOf (d : Nat) (f : Nat → Nat → Bool) : List (List Bool) :=
  (List.range d).map fun r => (List.range d).map fun c => f r c

theorem columnsOf_squareOf (d : Nat) (f : Nat → Nat → Bool) :
    columnsOf d (squareOf d f) = squareOf d fun c r => f r c := by
  refine List.map_congr_left fun c hc => ?_
  rw [squareOf, List.map_map]
  refine List.map_congr_left fun r _ => ?_
  simp [List.getD_eq_getElem?_getD, List.mem_range.1 hc]

theorem n2Rows_squareOf (d : Nat) (f : Nat → Nat → Bool) : n2Rows (squareOf d f) = 3 * countPairs (d - 1) fun r c =>
    f r c == f r (c + 1) && f r c == f (r + 1) c && f r c == f (r + 1) (c + 1) := by
  cases d with
  | zero => rfl
  | succ n =>
    rw [squareOf, n2Rows_map_range, countPairs, Nat.add_sub_cancel, ← List.sum_map_mul_left]
    simp only [n2Pair_map_range]

theorem sum_countP_squareOf (d : Nat) (f : Nat → Nat → Bool) :
    ((squareOf d f).map fun row => row.countP id).sum = countPairs d f := by
  rw [squareOf, List.map_map, countPairs]
  refine congrArg List.sum (List.map_congr_left fun r _ => ?_)
  rw [Function.comp_apply, List.countP_map]
  rfl

theorem colorsOf_grid {s : State} (hwf : s.mem.wf = true) (d : Nat) : colorsOf (s.grid d) = squareOf d s.dark := by
  rw [colorsOf, State.grid, List.map_map]
  refine List.map_congr_left fun r _ => ?_
  rw [Function.comp_apply, moduleRow_eq hwf, List.map_map]
  rfl

/-- The terms the model computes are those the rules word (R181-R184). -/
theorem penaltyOf_grid {s : State} (hwf : s.mem.wf = true) :
    penaltyOf s.cfg.n3OutsideLight s.dim (colorsOf (s.grid s.dim)) = s.penaltyTerms := by
  have hlines : squareOf s.dim s.dark ++ squareOf s.dim (fun c r => s.dark r c) = s.lines := rfl
  rw [colorsOf_grid hwf, penaltyOf, columnsOf_squareOf, n2Rows_squareOf, sum_countP_squareOf, hlines,
    funext n1Line_eq, funext (n3Line_eq s.cfg.n3OutsideLight), n4Of]
  rfl

/-! ### Sizes (R185) -/

theorem countPairs_le (d : Nat) (p : Nat → Nat → Bool) : countPairs d p ≤ d * d := by
  have hrow : ∀ n ∈ (List.range d).map (fun r => (List.range d).countP fun c => p r c), n ≤ d := by
    intro n hn
    obtain ⟨r, -, rfl⟩ := List.mem_map.1 hn
    exact List.countP_le_length.trans_eq List.length_range
  simpa [countPairs] using List.sum_le_card_nsmul _ d hrow

theorem n1From_le (color : Bool) (len : Nat) (xs : List Bool) : n1From color len xs ≤ 3 * (len + xs.length) := by
  have hscore : ∀ n, runScore n ≤ 3 * n := fun n => by unfold runScore; split <;> omega
  induction xs generalizing color len with
  | nil => exact hscore len
  | cons x xs ih =>
    rw [n1From, List.length_cons]
    split
    · exact (ih color (len + 1)).trans (by omega)
    · exact (Nat.add_le_add (hscore len) (ih x 1)).trans (by omega)

theorem n1OfRuns_le (line : List Bool) : n1OfRuns line ≤ 3 * line.length := by
  rw [← n1Line_eq]
  cases line with
  | nil => exact Nat.zero_le _
  | cons x xs => exact (n1From_le x 1 xs).trans_eq (by rw [List.length_cons, Nat.add_comm])

theorem n3OfLine_le (outside : Bool) (line : List Bool) : n3OfLine outside line ≤ 40 * line.length := by
  refine Nat.mul_le_mul_left 40 (List.countP_le_length.trans ?_)
  rw [List.length_range]
  exact Nat.sub_le _ _

/-- A score of at most `k` a module adds up to at most `2 k d²` over the lines. -/
theorem sum_lines_le {s : State} {score : List Bool → Nat} {k : Nat} (hscore : ∀ line, score line ≤ k * line.length) :
    (s.lines.map score).sum ≤ 2 * (k * (s.dim * s.dim)) := by
  have hline : ∀ n ∈ s.lines.map score, n ≤ k * s.dim := by
    intro n hn
    obtain ⟨line, hmem, rfl⟩ := List.mem_map.1 hn
    have hlen : line.length = s.dim := by
      simp only [State.lines, List.mem_append, List.mem_map] at hmem
      obtain ⟨_, -, rfl⟩ | ⟨_, -, rfl⟩ := hmem <;> simp
    exact hlen ▸ hscore line
  calc (s.lines.map score).sum
      ≤ (s.lines.map score).length • (k * s.dim) := List.sum_le_card_nsmul _ _ hline
    _ = 2 * (k * (s.dim * s.dim)) := by simp [State.lines]; ring

/-- No penalty register overflows: the sum of the terms is far below 2^32 (R185). -/
theorem penaltyTerms_total_lt {s : State} (hver : s.matrixVersion ≤ 40) : s.penaltyTerms.total < 2 ^ 32 := by
  have hsquare : s.dim * s.dim ≤ 177 * 177 := Nat.mul_le_mul (dim_le_dMax hver) (dim_le_dMax hver)
  have hpos : 0 < s.dim * s.dim := Nat.mul_pos (Nat.add_pos_left (by decide) _) (Nat.add_pos_left (by decide) _)
  have hn1 : s.penaltyTerms.n1 ≤ 2 * (3 * (s.dim * s.dim)) := sum_lines_le n1OfRuns_le
  have hn2 : s.penaltyTerms.n2 ≤ 3 * (s.dim * s.dim) := Nat.mul_le_mul_left 3 ((countPairs_le _ _).trans
    (Nat.mul_le_mul (Nat.sub_le _ _) (Nat.sub_le _ _)))
  have hn3 : s.penaltyTerms.n3 ≤ 2 * (40 * (s.dim * s.dim)) := sum_lines_le (n3OfLine_le s.cfg.n3OutsideLight)
  have hn4 : s.penaltyTerms.n4 ≤ 10 * 10 := by
    refine Nat.mul_le_mul_left 10 (Nat.div_le_of_le_mul ?_)
    have := countPairs_le s.dim s.dark
    omega
  unfold Penalty.total
  omega

end Sys2Proof.Machine
end

section
/-! Scoring and selecting a mask (R186-R188), and the frame of all matrix commands (R198). -/

namespace Sys2Proof.Machine

/-! ### Scoring (R186) -/

theorem exec_mxPenalty {s : State} (hwf : s.mem.wf = true) (hver : 1 ≤ s.matrixVersion) :
    exec .mxPenalty s = succeed (s.setPenalty s.penaltyTerms) := by
  rw [exec, execMxPenalty, ite_noMatrix_of_pos hver, penaltyOf_grid hwf]

theorem toNat_ofNat_of_le {n total : Nat} (hn : n ≤ total) (htotal : total < 2 ^ 32) :
    (BitVec.ofNat 32 n).toNat = n := by
  rw [BitVec.toNat_ofNat, Nat.mod_eq_of_lt (hn.trans_lt htotal)]

/-- Settles O56: the command writes `penaltyTerms`, whose sum fits 32 bits. -/
theorem mxPenaltyResult : Obligations.MxPenaltyResult := by
  intro s hwf hver
  have htotal := penaltyTerms_total_lt hver
  refine ⟨fun hpos => ⟨_, exec_mxPenalty hwf hpos, rfl, rfl, ?_, ?_, ?_, ?_, ?_⟩,
    fun hzero => ite_noMatrix_of_zero hzero _⟩ <;>
    exact toNat_ofNat_of_le (by unfold Penalty.total; omega) htotal

/-! ### The least value of a list (R187) -/

/-- `b` is the smallest index of the list at which `f` is least. -/
def FirstLeast (f : Nat → Nat) (ms : List Nat) (b : Nat) : Prop :=
  b ∈ ms ∧ (∀ m ∈ ms, f b ≤ f m) ∧ ∀ m ∈ ms, m < b → f b < f m

section
variable {f : Nat → Nat} {best m b : Nat} {ms : List Nat}

theorem FirstLeast.cons_of_lt (h : FirstLeast f ms b) (hlt : f b < f best) : FirstLeast f (best :: ms) b := by
  obtain ⟨hmem, hle, hfirst⟩ := h
  exact ⟨List.mem_cons_of_mem best hmem, List.forall_mem_cons.2 ⟨hlt.le, hle⟩,
    List.forall_mem_cons.2 ⟨fun _ => hlt, hfirst⟩⟩

/-- An index that is no better than an earlier one changes nothing. -/
theorem FirstLeast.insert_of_le (h : FirstLeast f (best :: ms) b) (hlt : best < m) (hle : f best ≤ f m) :
    FirstLeast f (best :: m :: ms) b := by
  obtain ⟨hmem, hbest, hfirst⟩ := h
  obtain ⟨hbest, hms⟩ := List.forall_mem_cons.1 hbest
  obtain ⟨hbestFirst, hmsFirst⟩ := List.forall_mem_cons.1 hfirst
  refine ⟨?_, List.forall_mem_cons.2 ⟨hbest, List.forall_mem_cons.2 ⟨hbest.trans hle, hms⟩⟩,
    List.forall_mem_cons.2 ⟨hbestFirst, List.forall_mem_cons.2 ⟨fun hmb => ?_, hmsFirst⟩⟩⟩
  · exact List.mem_cons.2 ((List.mem_cons.1 hmem).imp_right (List.mem_cons_of_mem m))
  · exact (hbestFirst (hlt.trans hmb)).trans_le hle

end

/-- Over rising indices `argMin` finds the first least value. -/
theorem firstLeast_argMin (f : Nat → Nat) (best : Nat) (ms : List Nat) (hsorted : (best :: ms).Pairwise (· < ·)) :
    FirstLeast f (best :: ms) (argMin f best ms) := by
  induction ms generalizing best with
  | nil => simp [FirstLeast, argMin]
  | cons m ms ih =>
    obtain ⟨hbest, hms⟩ := List.pairwise_cons.1 hsorted
    rw [argMin]
    split
    · next hless =>
      have hrest := ih m hms
      exact hrest.cons_of_lt ((hrest.2.1 m List.mem_cons_self).trans_lt hless)
    · next hless =>
      have hrest : (best :: ms).Pairwise (· < ·) := hsorted.sublist (by simp)
      exact (ih best hrest).insert_of_le (hbest m List.mem_cons_self) (Nat.not_lt.1 hless)

/-! ### Selecting (R188) -/

/-- The grid of a masked copy is the grid of the matrix masked (R177, R187). -/
theorem maskGrid_grid {s : State} (hwf : s.mem.wf = true) (hver : s.matrixVersion ≤ 40) (m : Nat) :
    maskGrid m (s.grid s.dim) = (s.applyMask m).grid s.dim := by
  have hrow : ∀ r < s.dim, (s.moduleRow s.dim r).mapIdx (fun c old => maskModule m r c old) =
      (s.applyMask m).moduleRow s.dim r := by
    intro r hr
    rw [moduleRow_eq hwf, moduleRow_eq (wf_applyMask hwf m)]
    refine List.ext_getElem (by simp) fun c hc _ => ?_
    have hc : c < s.dim := by simpa using hc
    simp [moduleAt_applyMask hwf m hr hc hver]
  refine List.ext_getElem (by simp [maskGrid, State.grid]) fun r hr _ => ?_
  have hr : r < s.dim := by simpa [maskGrid, State.grid] using hr
  simpa [maskGrid, State.grid] using hrow r hr

/-- The penalty of the matrix with mask m applied (R187). -/
def State.maskPenalty (s : State) (m : Nat) : Penalty := (s.applyMask m).penaltyTerms

/-- The penalties of the eight masks. -/
def State.maskPenalties (s : State) : List Penalty := (List.range 8).map s.maskPenalty

theorem maskedPenalty_eq {s : State} (hwf : s.mem.wf = true) (hver : s.matrixVersion ≤ 40) :
    (List.range 8).map (maskedPenalty s.cfg.n3OutsideLight s.dim (s.grid s.dim)) = s.maskPenalties := by
  refine List.map_congr_left fun m _ => ?_
  rw [maskedPenalty, maskGrid_grid hwf hver]
  exact penaltyOf_grid (wf_applyMask hwf m)

theorem getD_maskPenalties {s : State} {m : Nat} (hm : m < 8) :
    s.maskPenalties.getD m ⟨0, 0, 0, 0⟩ = s.maskPenalty m := by
  simp [State.maskPenalties, List.getD_eq_getElem?_getD, hm]

theorem getD_totals {s : State} {m : Nat} (hm : m < 8) :
    (s.maskPenalties.map Penalty.total).getD m 0 = (s.maskPenalty m).total := by
  simp [State.maskPenalties, List.getD_eq_getElem?_getD, hm]

/-- The mask `MX_SELECT` chooses is the smallest index of least total (R187). -/
theorem bestMask_spec (s : State) : bestMask s.maskPenalties < 8 ∧
    (∀ m < 8, (s.maskPenalty (bestMask s.maskPenalties)).total ≤ (s.maskPenalty m).total) ∧
    ∀ m < bestMask s.maskPenalties,
      (s.maskPenalty (bestMask s.maskPenalties)).total < (s.maskPenalty m).total := by
  obtain ⟨hmem, hle, hfirst⟩ := firstLeast_argMin (fun m => (s.maskPenalties.map Penalty.total).getD m 0) 0
    [1, 2, 3, 4, 5, 6, 7] (by decide)
  have hrange : ∀ m, m ∈ [0, 1, 2, 3, 4, 5, 6, 7] ↔ m < 8 := fun m => by simp; omega
  simp only [hrange] at hmem hle hfirst
  unfold bestMask
  refine ⟨hmem, fun m hm => ?_, fun m hm => ?_⟩
  · simpa only [getD_totals hmem, getD_totals hm] using hle m hm
  · have hm8 : m < 8 := hm.trans hmem
    simpa only [getD_totals hmem, getD_totals hm8] using hfirst m hm8 hm

/-- What `MX_SELECT` writes before it completes when it chooses mask m (R188). -/
def State.selectBody (s : State) (m : Nat) : State :=
  let t := ((s.applyMask m).setPens s.maskPenalties).setPenalty (s.maskPenalty m)
  { t with regs := { t.regs with mask := BitVec.ofNat 3 m } }

theorem exec_mxSelect {s : State} (hwf : s.mem.wf = true) (hpos : 1 ≤ s.matrixVersion) (hver : s.matrixVersion ≤ 40) :
    exec .mxSelect s = succeed (s.selectBody (bestMask s.maskPenalties)) := by
  rw [exec, execMxSelect, ite_noMatrix_of_pos hpos]
  dsimp only
  rw [maskedPenalty_eq hwf hver, getD_maskPenalties (bestMask_spec s).1]
  rfl

theorem selectBody_mem (s : State) (m : Nat) : (s.selectBody m).mem = (s.applyMask m).mem := rfl

/-- `PEN<m>` holds the total of mask m, which fits it. -/
theorem selectBody_pen (s : State) (best : Nat) (m : Fin 8) :
    (s.selectBody best).regs.pen[m] = BitVec.ofNat 32 (s.maskPenalty m).total := by
  change (Vector.ofFn fun m : Fin 8 => BitVec.ofNat 32 ((s.maskPenalties.map Penalty.total).getD m.val 0))[m] = _
  rw [Fin.getElem_fin, Vector.getElem_ofFn, getD_totals m.isLt]

theorem selectBody_pen_toNat {s : State} (hver : s.matrixVersion ≤ 40) (best : Nat) (m : Fin 8) :
    ((s.selectBody best).regs.pen[m]).toNat = (s.maskPenalty m).total := by
  rw [selectBody_pen]
  exact toNat_ofNat_of_le le_rfl (penaltyTerms_total_lt (s := s.applyMask m) hver)

/-- Settles O57: masking and then scoring writes what selecting that mask does but `PEN0..PEN7` and `MASK`. -/
theorem selectAppliesBestMask : Obligations.SelectAppliesBestMask := by
  intro s hwf hver
  refine ⟨fun hpos => ?_, fun hzero => ite_noMatrix_of_zero hzero _⟩
  obtain ⟨hbest, hle, hfirst⟩ := bestMask_spec s
  have hexec := exec_mxSelect hwf hpos hver
  generalize bestMask s.maskPenalties = best at hbest hle hfirst hexec
  refine ⟨_, ⟨best, hbest⟩, hexec, fun m => ?_, fun m => ?_, fun m hm => ?_⟩
  · obtain ⟨harg, hindex⟩ := maskArg_ofNat (Nat.le_of_lt_succ m.isLt)
    have hmask := exec_mxMask harg hpos
    rw [hindex] at hmask
    refine ⟨_, _, hmask, exec_mxPenalty (wf_applyMask hwf m) hpos, selectBody_pen s best m, ?_⟩
    rintro rfl
    rfl
  · rw [complete_regs_pen, selectBody_pen_toNat hver, selectBody_pen_toNat hver]
    exact hle m m.isLt
  · rw [complete_regs_pen, selectBody_pen_toNat hver, selectBody_pen_toNat hver]
    exact hfirst m hm

end Sys2Proof.Machine
end

section
/-! The frame of the matrix commands (R198): who may change which module, and what of it. -/

namespace Sys2Proof.Machine

theorem SameFlags.refl (s : State) : SameFlags s s := fun _ _ _ _ => ⟨rfl, rfl⟩

theorem OnlyDataColors.refl (s : State) : OnlyDataColors s s :=
  ⟨fun _ _ => rfl, .refl s, fun _ _ _ _ _ => rfl⟩

/-- The frame speaks of RAM only. -/
theorem OnlyDataColors.of_mem_eq {s t u : State} (h : OnlyDataColors s t) (hmem : u.mem = t.mem) :
    OnlyDataColors s u := by
  have hmodule : ∀ r c, u.moduleAt r c = t.moduleAt r c := fun r c => by rw [State.moduleAt, hmem, State.moduleAt]
  obtain ⟨houtside, hflags, hother⟩ := h
  refine ⟨fun a ha => hmem ▸ houtside a ha, fun r c hr hc => ?_, fun r c hr hc hdata => ?_⟩
  · rw [hmodule]
    exact hflags r c hr hc
  · rw [hmodule]
    exact hother r c hr hc hdata

/-- If the result is a next state, only colors of data modules have changed. -/
def ColorsDataOnly (s : State) (r : Result) : Prop := ∀ t, r = .next t → OnlyDataColors s t

theorem OnlyDataColors.succeed {s t : State} (h : OnlyDataColors s t) : ColorsDataOnly s (succeed t) := by
  rintro _ ⟨⟩
  exact h.of_mem_eq (complete_mem _ _ _)

theorem colorsDataOnly_ended {s : State} {c : ErrCode} {u : UncReason} {r : Result}
    (h : r = .next (s.endedWith c u)) : ColorsDataOnly s r := by
  subst h
  rintro _ ⟨⟩
  exact (OnlyDataColors.refl s).of_mem_eq rfl

/-- A check made before the first write keeps the frame. -/
theorem colorsDataOnly_guard {s : State} {p : Prop} [Decidable p] {c : ErrCode} {r : Result}
    (h : ColorsDataOnly s r) : ColorsDataOnly s (if p then raise s c else r) := by
  split
  · exact colorsDataOnly_ended rfl
  · exact h

section
variable {s : State} (hwf : s.mem.wf = true)
include hwf

theorem execMxPlace_colorsDataOnly (hver : s.matrixVersion ≤ 40) : ColorsDataOnly s (execMxPlace s) :=
  colorsDataOnly_guard (colorsDataOnly_guard (onlyDataColors_placement hwf hver).succeed)

theorem execMxMask_colorsDataOnly (arg : BitVec 8) : ColorsDataOnly s (execMxMask arg s) :=
  colorsDataOnly_guard (colorsDataOnly_guard (onlyDataColors_applyMask hwf _).succeed)

theorem exec_mxSelect_colorsDataOnly (hver : s.matrixVersion ≤ 40) : ColorsDataOnly s (exec .mxSelect s) := by
  rcases Nat.eq_zero_or_pos s.matrixVersion with hzero | hpos
  · exact colorsDataOnly_ended (ite_noMatrix_of_zero hzero _)
  · rw [exec_mxSelect hwf hpos hver]
    exact ((onlyDataColors_applyMask hwf _).of_mem_eq (selectBody_mem s _)).succeed

/-- Stamping keeps every flag, and every module but those of the two words. -/
theorem exec_mxStamp_frame {t : State} (hver : s.matrixVersion ≤ 40) (ht : exec .mxStamp s = .next t) :
    SameFlags s t ∧ ∀ r c, r < dMax → c < dMax →
      (r, c) ∉ formatModules s.dim ++ versionModules s.matrixVersion → t.moduleAt r c = s.moduleAt r c := by
  obtain ⟨hstamp, hseq⟩ := mxStampResult s _ hwf hver rfl
  rcases Nat.eq_zero_or_pos s.matrixVersion with hzero | hpos
  · cases (hseq hzero).symm.trans ht
    exact ⟨.refl s, fun _ _ _ _ _ => rfl⟩
  · obtain ⟨t', ht', -, -, -, hflags, hframe⟩ := hstamp hpos
    cases ht'.symm.trans ht
    refine ⟨hflags, fun r c _ hc hnot => congrArg (BitVec.setWidth 3) (hframe _ fun p hp haddr => hnot ?_)⟩
    obtain ⟨hr', hc'⟩ := moduleAddr_inj (lt_256_of_lt_dMax hc) (wordModule_col_lt hver hp) haddr
    exact hr' ▸ hc' ▸ hp

end

/-- Settles O28: a command that writes no matrix keeps every module, placing, masking and selecting keep all but the
colors of data modules, and stamping keeps all but the modules of its two words. -/
theorem flagsKeptByAllButBase : Obligations.FlagsKeptByAllButBase := by
  intro i s t hwf hver ht
  have hcolors : (i = .mxPlace ∨ (∃ arg, i = .mxMask arg) ∨ i = .mxSelect) → OnlyDataColors s t := by
    rintro (rfl | ⟨arg, rfl⟩ | rfl)
    · exact execMxPlace_colorsDataOnly hwf hver t ht
    · exact execMxMask_colorsDataOnly hwf arg t ht
    · exact exec_mxSelect_colorsDataOnly hwf hver t ht
  refine ⟨fun hbase => ?_, fun hi => (hcolors hi).2.2, fun hi => (exec_mxStamp_frame hwf hver (hi ▸ ht)).2⟩
  cases hwrites : writesMatrix i with
  | false =>
    obtain ⟨-, -, -, -, hmodules⟩ := commandsWriteOnlyTheirRow i s t hwf hver ht
    exact fun r c hr hc => by rw [hmodules hwrites r c hr hc]; exact ⟨rfl, rfl⟩
  | true =>
    cases i with
    | mxBase => exact absurd rfl hbase
    | mxPlace => exact (hcolors (.inl rfl)).2.1
    | mxMask arg => exact (hcolors (.inr (.inl ⟨arg, rfl⟩))).2.1
    | mxSelect => exact (hcolors (.inr (.inr rfl))).2.1
    | mxStamp => exact (exec_mxStamp_frame hwf hver ht).1
    | _ => exact absurd hwrites (by decide)

end Sys2Proof.Machine
end

section
/-! The regions of the base matrix as rectangles (R163-R169): where each step writes, and that no two steps write one
module but where an alignment pattern lies on a timing pattern (R161). -/

namespace Sys2Proof.Machine

/-! ### Rectangles of modules -/

/-- The modules of rows `top .. bottom` and columns `left .. right`. -/
structure Rect where
  top : Nat
  bottom : Nat
  left : Nat
  right : Nat

def Rect.holds (R : Rect) (r c : Nat) : Bool := inRange R.top R.bottom r && inRange R.left R.right c

/-- The rectangles have no module in common, as their ends show. -/
def Rect.apart (R S : Rect) : Bool :=
  decide (R.bottom < S.top) || decide (S.bottom < R.top) || decide (R.right < S.left) || decide (S.right < R.left)

theorem Rect.holds_iff {R : Rect} {r c : Nat} :
    R.holds r c = true ↔ (R.top ≤ r ∧ r ≤ R.bottom) ∧ R.left ≤ c ∧ c ≤ R.right := by
  simp [Rect.holds, inRange]

theorem Rect.not_holds_of_apart {R S : Rect} (h : R.apart S = true) {r c : Nat} (hR : R.holds r c = true) :
    ¬S.holds r c = true := by
  simp only [Rect.apart, Bool.or_eq_true, decide_eq_true_eq] at h
  rw [Rect.holds_iff] at hR ⊢
  omega

/-- Some rectangle of the list holds the module. -/
def covers (Rs : List Rect) (r c : Nat) : Bool := Rs.any fun R => R.holds r c

theorem covers_iff {Rs : List Rect} {r c : Nat} : covers Rs r c = true ↔ ∃ R ∈ Rs, R.holds r c = true := List.any_eq_true

@[simp] theorem covers_append (Rs Ss : List Rect) (r c : Nat) :
    covers (Rs ++ Ss) r c = (covers Rs r c || covers Ss r c) := List.any_append

/-! ### Where the steps write -/

def finderRects (d : Nat) : List Rect := [⟨0, 6, 0, 6⟩, ⟨0, 6, d - 7, d - 1⟩, ⟨d - 7, d - 1, 0, 6⟩]

def separatorRects (d : Nat) : List Rect :=
  [⟨7, 7, 0, 7⟩, ⟨0, 6, 7, 7⟩, ⟨7, 7, d - 8, d - 1⟩, ⟨0, 6, d - 8, d - 8⟩, ⟨d - 8, d - 8, 0, 7⟩, ⟨d - 7, d - 1, 7, 7⟩]

def timingRects (d : Nat) : List Rect := [⟨6, 6, 8, d - 9⟩, ⟨8, d - 9, 6, 6⟩]

def alignRect (p : Nat × Nat) : Rect := ⟨p.1 - 2, p.1 + 2, p.2 - 2, p.2 + 2⟩

def alignRects (v : Nat) : List Rect := (alignCentres v).map alignRect

def darkRects (v : Nat) : List Rect := [⟨4 * v + 9, 4 * v + 9, 8, 8⟩]

def formatRects (d : Nat) : List Rect :=
  [⟨0, 5, 8, 8⟩, ⟨7, 8, 8, 8⟩, ⟨8, 8, 7, 7⟩, ⟨8, 8, 0, 5⟩, ⟨8, 8, d - 8, d - 1⟩, ⟨d - 7, d - 1, 8, 8⟩]

def versionRects (v : Nat) : List Rect :=
  if v < 7 then []
  else [⟨0, 5, dimension v - 11, dimension v - 9⟩, ⟨dimension v - 11, dimension v - 9, 0, 5⟩]

/-- The rectangles of each step, in the order of `baseSteps`. -/
def stepRects (v : Nat) : List (List Rect) :=
  [finderRects (dimension v), separatorRects (dimension v), timingRects (dimension v), alignRects v, darkRects v,
    formatRects (dimension v) ++ versionRects v]

section
variable {d v r c : Nat}

theorem isSome_finderAt (r0 c0 : Nat) : (finderAt r0 c0 r c).isSome = (⟨r0, r0 + 6, c0, c0 + 6⟩ : Rect).holds r c := by
  unfold finderAt Rect.holds
  split
  · next h => rw [h]; rfl
  · next h => rw [Bool.eq_false_iff.2 h]; rfl

theorem isSome_finderStep (hd : 21 ≤ d) : (finderStep d r c).isSome = covers (finderRects d) r c := by
  have hlast : d - 7 + 6 = d - 1 := by omega
  simp only [finderStep, Option.isSome_or, isSome_finderAt, Nat.zero_add, hlast]
  simp [covers, finderRects]

theorem isSome_separatorStep (hd : 21 ≤ d) : (separatorStep d r c).isSome = covers (separatorRects d) r c := by
  rw [Bool.eq_iff_iff, covers_iff]
  simp only [separatorStep, Option.isSome_ite, separatorRects, List.mem_cons, List.not_mem_nil, or_false,
    exists_eq_or_imp, exists_eq_left, Rect.holds_iff, inRange, Bool.or_eq_true, Bool.and_eq_true, beq_iff_eq,
    decide_eq_true_eq]
  constructor
  · rintro (((((h | h) | h) | h) | h) | h) <;> omega
  · rintro (h | h | h | h | h | h) <;> omega

theorem isSome_timingStep : (timingStep d r c).isSome = covers (timingRects d) r c := by
  rw [Bool.eq_iff_iff, covers_iff]
  simp only [timingStep, timingRects, List.mem_cons, List.not_mem_nil, or_false, exists_eq_or_imp, exists_eq_left,
    Rect.holds_iff, inRange, Bool.and_eq_true, beq_iff_eq, decide_eq_true_eq]
  split
  · exact iff_of_true rfl (.inl (by omega))
  · split
    · exact iff_of_true rfl (.inr (by omega))
    · exact iff_of_false Bool.false_ne_true (by omega)

theorem ring_le_two_iff {rc cc : Nat} : ring rc cc r c ≤ 2 ↔ (alignRect (rc, cc)).holds r c = true := by
  rw [Rect.holds_iff]
  simp only [ring, dist, alignRect, Nat.max_le]
  omega

theorem isSome_alignStep : (alignStep (alignCentres v) r c).isSome = covers (alignRects v) r c := by
  rw [Bool.eq_iff_iff, alignStep, List.findSome?_isSome_iff, covers, alignRects, List.any_map, List.any_eq_true]
  refine exists_congr fun p => and_congr_right fun _ => ?_
  rw [alignAt, Option.isSome_ite]
  exact ring_le_two_iff

theorem isSome_darkStep : (darkStep v r c).isSome = covers (darkRects v) r c := by
  rw [Bool.eq_iff_iff, covers_iff]
  simp only [darkStep, Option.isSome_ite, darkRects, List.mem_singleton, exists_eq_left, Rect.holds_iff,
    Bool.and_eq_true, beq_iff_eq]
  omega

theorem mem_formatModules_iff_covers (hd : 21 ≤ d) :
    (r, c) ∈ formatModules d ↔ covers (formatRects d) r c = true := by
  rw [mem_formatModules_iff, covers_iff]
  simp only [formatRects, List.mem_cons, List.not_mem_nil, or_false, exists_eq_or_imp, exists_eq_left, Rect.holds_iff]
  constructor
  · rintro ⟨i, hi, h⟩
    rcases (formatBit_iff hd hi).1 h with (⟨hc, h | h⟩ | ⟨hr, h | h⟩) | h | h <;> omega
  · rintro (h | h | h | h | h | h)
    · exact ⟨r, by omega, (formatBit_iff hd (by omega)).2 (by omega)⟩
    · exact ⟨r - 1, by omega, (formatBit_iff hd (by omega)).2 (by omega)⟩
    · exact ⟨8, by omega, (formatBit_iff hd (by omega)).2 (by omega)⟩
    · exact ⟨14 - c, by omega, (formatBit_iff hd (by omega)).2 (by omega)⟩
    · exact ⟨d - 1 - c, by omega, (formatBit_iff hd (by omega)).2 (by omega)⟩
    · exact ⟨r + 15 - d, by omega, (formatBit_iff hd (by omega)).2 (by omega)⟩

theorem mem_versionModules_iff_covers : (r, c) ∈ versionModules v ↔ covers (versionRects v) r c = true := by
  rw [mem_versionModules_iff, covers_iff, versionRects]
  split
  · next hv => simp [Nat.not_le.2 hv]
  · next hv =>
    have hd : 45 ≤ dimension v := by unfold dimension; omega
    have hbit : ∀ i, VersionBit (dimension v) i (r, c) ↔ _ := fun i => versionBit_iff (by omega)
    simp only [List.mem_cons, List.not_mem_nil, or_false, exists_eq_or_imp, exists_eq_left, Rect.holds_iff, hbit]
    generalize dimension v = d at hd
    constructor
    · rintro ⟨-, i, hi, h⟩
      omega
    · rintro (h | h)
      · exact ⟨by omega, 3 * r + (c + 11 - d), by omega, by omega⟩
      · exact ⟨by omega, 3 * c + (r + 11 - d), by omega, by omega⟩

theorem isSome_reservedStep (hv : 1 ≤ v) :
    (reservedStep v r c).isSome = covers (formatRects (dimension v) ++ versionRects v) r c := by
  have hd : 21 ≤ dimension v := by unfold dimension; omega
  rw [Bool.eq_iff_iff, reservedStep, Option.isSome_ite, covers_append, Bool.or_eq_true, Bool.or_eq_true,
    List.contains_iff_mem, List.contains_iff_mem, mem_formatModules_iff_covers hd, mem_versionModules_iff_covers]

/-- A step writes a module exactly where its rectangles hold it. -/
theorem isSome_baseSteps (hv : 1 ≤ v) :
    (baseSteps v r c).map Option.isSome = (stepRects v).map fun Rs => covers Rs r c := by
  have hd : 21 ≤ dimension v := by unfold dimension; omega
  simp only [baseSteps, stepRects, List.map_cons, List.map_nil, isSome_finderStep hd, isSome_separatorStep hd,
    isSome_timingStep, isSome_alignStep, isSome_darkStep, isSome_reservedStep hv]

end

/-! ### The rectangles of two steps are apart (R161) -/

/-- Rectangles of different steps are apart, but for timing and alignment. -/
def stepsApart (v : Nat) : Bool :=
  (List.range 6).all fun j => (List.range j).all fun i => (i == 2 && j == 3) ||
    ((stepRects v).getD i []).all fun R => ((stepRects v).getD j []).all fun S => R.apart S

/-- The centres are even; one in row 6 or column 6 has its 5 × 5 square between the separators (R166, R167). -/
def centresFit (v : Nat) : Bool :=
  (alignCentres v).all fun p => (p.1 % 2 == 0) && (p.2 % 2 == 0) && (p.1 == 6 || decide (10 ≤ p.1)) &&
    (p.2 == 6 || decide (10 ≤ p.2)) && (p.1 != 6 || (decide (10 ≤ p.2) && decide (p.2 + 11 ≤ dimension v))) &&
    (p.2 != 6 || (decide (10 ≤ p.1) && decide (p.1 + 11 ≤ dimension v)))

section
-- The kernel checks of this section are done one after another: side by side with the proofs that follow they come
-- close to the check's memory limit.
set_option Elab.async false

theorem stepsApart_of_version : ∀ v < 41, 1 ≤ v → stepsApart v = true := by decide +kernel

theorem centresFit_of_version : ∀ v < 41, centresFit v = true := by decide +kernel

end

theorem centresFit_iff {v : Nat} : centresFit v = true ↔ ∀ p ∈ alignCentres v, p.1 % 2 = 0 ∧ p.2 % 2 = 0 ∧
    (p.1 = 6 ∨ 10 ≤ p.1) ∧ (p.2 = 6 ∨ 10 ≤ p.2) ∧ (p.1 ≠ 6 ∨ 10 ≤ p.2 ∧ p.2 + 11 ≤ dimension v) ∧
    (p.2 ≠ 6 ∨ 10 ≤ p.1 ∧ p.1 + 11 ≤ dimension v) := by
  simp [centresFit, and_assoc]

/-- Within an even centre's square, on the centre's own row, the ring is 1 exactly at odd columns. -/
theorem ring_eq_one_iff {rc cc c : Nat} (hcc : cc % 2 = 0) (hring : ring rc cc rc c ≤ 2) :
    ring rc cc rc c = 1 ↔ ¬c % 2 = 0 := by
  simp only [ring, dist] at *
  omega

theorem ring_comm (rc cc r c : Nat) : ring rc cc r c = ring cc rc c r := max_comm _ _

/-- Where an alignment pattern lies on a timing pattern, both are dark at even indices. -/
theorem timingStep_eq_alignStep {v r c : Nat} (hv : v ≤ 40) {m m' : BitVec 3}
    (ht : timingStep (dimension v) r c = some m) (ha : alignStep (alignCentres v) r c = some m') : m = m' := by
  obtain ⟨⟨rc, cc⟩, hp, hat⟩ := List.exists_of_findSome?_eq_some ha
  obtain ⟨hrc, hcc, hrow, hcol, -, -⟩ := centresFit_iff.1 (centresFit_of_version v (by omega)) _ hp
  rw [alignAt, Option.ite_none_right_eq_some, Option.some.injEq] at hat
  obtain ⟨hring, rfl⟩ := hat
  obtain ⟨hrows, hcols⟩ := Rect.holds_iff.1 (ring_le_two_iff.1 hring)
  simp only [alignRect] at hrows hcols hrow hcol
  rw [timingStep] at ht
  split at ht
  · next hin =>
    simp only [Bool.and_eq_true, beq_iff_eq] at hin
    obtain rfl : r = rc := by omega
    cases ht
    simp only [ring_eq_one_iff hcc hring, ite_not]
  · split at ht
    · next hin =>
      simp only [Bool.and_eq_true, beq_iff_eq] at hin
      obtain rfl : c = cc := by omega
      cases ht
      rw [ring_comm] at hring
      simp only [ring_comm rc c, ring_eq_one_iff hrc hring, ite_not]
    · exact nomatch ht

theorem getElem?_baseSteps {v r c i : Nat} (hv : 1 ≤ v) {m : BitVec 3} (h : (baseSteps v r c)[i]? = some (some m)) :
    covers ((stepRects v).getD i []) r c = true := by
  have hsome := congrArg (·[i]?) (isSome_baseSteps (r := r) (c := c) hv)
  simp only [List.getElem?_map, h, Option.map_some, Option.isSome_some] at hsome
  obtain ⟨Rs, hRs, hcovers⟩ := Option.map_eq_some_iff.1 hsome.symm
  rwa [List.getD_eq_getElem?_getD, hRs]

/-- Settles O49: the rectangles of two steps are apart, but for timing and alignment, whose bytes agree. -/
theorem baseStepsDoNotConflict : Obligations.BaseStepsDoNotConflict := by
  intro v r c i j hv hv' _ _ hij m m' hm hm'
  have hj : j < 6 := by
    have := (List.getElem?_eq_some_iff.1 hm').1
    simpa [baseSteps] using this
  obtain ⟨R, hR, hholds⟩ := covers_iff.1 (getElem?_baseSteps hv hm)
  obtain ⟨S, hS, hholds'⟩ := covers_iff.1 (getElem?_baseSteps hv hm')
  have hsteps := stepsApart_of_version v (by omega) hv
  simp only [stepsApart, List.all_eq_true, List.mem_range, Bool.or_eq_true, Bool.and_eq_true, beq_iff_eq] at hsteps
  rcases hsteps j hj i hij with ⟨rfl, rfl⟩ | hapart
  · exact ⟨rfl, rfl, timingStep_eq_alignStep hv' (by simpa [baseSteps] using hm) (by simpa [baseSteps] using hm')⟩
  · exact absurd hholds' (Rect.not_holds_of_apart (hapart R hR S hS) hholds)

end Sys2Proof.Machine
end

section
/-! The base matrix (R170, R171): its data modules counted by rectangles, and what `MX_BASE` writes. -/

namespace Sys2Proof.Machine

/-! ### Counting modules -/

theorem countP_range (d : Nat) (p : Nat → Bool) : (List.range d).countP p = ∑ c ∈ Finset.range d, (p c).toNat := by
  induction d with
  | zero => rfl
  | succ d ih =>
    rw [List.range_succ, List.countP_append, ih, Finset.sum_range_succ]
    cases hp : p d <;> simp [hp]

theorem countPairs_eq_sum (d : Nat) (p : Nat → Nat → Bool) :
    countPairs d p = ∑ r ∈ Finset.range d, ∑ c ∈ Finset.range d, (p r c).toNat := by
  simp only [countPairs, countP_range, sum_map_range]

theorem countPairs_congr {d : Nat} {p q : Nat → Nat → Bool} (h : ∀ r < d, ∀ c < d, p r c = q r c) :
    countPairs d p = countPairs d q := by
  rw [countPairs_eq_sum, countPairs_eq_sum]
  refine Finset.sum_congr rfl fun r hr => Finset.sum_congr rfl fun c hc => ?_
  rw [h r (Finset.mem_range.1 hr) c (Finset.mem_range.1 hc)]

/-- The number of modules of a rectangle. -/
def Rect.area (R : Rect) : Nat := (R.bottom + 1 - R.top) * (R.right + 1 - R.left)

theorem sum_inRange {d lo hi : Nat} (hhi : hi < d) :
    ∑ i ∈ Finset.range d, (inRange lo hi i).toNat = hi + 1 - lo := by
  have hfilter : (Finset.range d).filter (fun i => inRange lo hi i = true) = Finset.Icc lo hi := by
    ext i
    simp only [Finset.mem_filter, Finset.mem_range, Finset.mem_Icc, inRange, Bool.and_eq_true, decide_eq_true_eq]
    omega
  rw [← Nat.card_Icc, ← hfilter, Finset.card_filter]
  exact Finset.sum_congr rfl fun i _ => by cases inRange lo hi i <;> rfl

theorem toNat_and (a b : Bool) : (a && b).toNat = a.toNat * b.toNat := by
  revert a b
  decide

theorem countPairs_holds {d : Nat} {R : Rect} (hbottom : R.bottom < d) (hright : R.right < d) :
    countPairs d R.holds = R.area := by
  rw [countPairs_eq_sum, Rect.area, ← sum_inRange hbottom, ← sum_inRange hright, Finset.sum_mul_sum]
  simp only [Rect.holds, toNat_and]

/-- Rectangles that are apart and in the square leave `d²` less their areas uncovered. -/
theorem countPairs_not_covers {d : Nat} {Rs : List Rect} (hin : ∀ R ∈ Rs, R.bottom < d ∧ R.right < d)
    (hapart : Rs.Pairwise fun R S => R.apart S = true) :
    countPairs d (fun r c => !covers Rs r c) + (Rs.map Rect.area).sum = d * d := by
  induction Rs with
  | nil => simp [countPairs, covers]
  | cons R Rs ih =>
    obtain ⟨hR, hRs⟩ := List.pairwise_cons.1 hapart
    obtain ⟨hbottom, hright⟩ := hin R List.mem_cons_self
    have hsplit : countPairs d (fun r c => !covers Rs r c) =
        countPairs d (fun r c => !covers (R :: Rs) r c) + countPairs d R.holds := by
      simp only [countPairs_eq_sum, ← Finset.sum_add_distrib]
      refine Finset.sum_congr rfl fun r _ => Finset.sum_congr rfl fun c _ => ?_
      have hcons : covers (R :: Rs) r c = (R.holds r c || covers Rs r c) := List.any_cons
      cases hholds : R.holds r c with
      | false => rw [hcons, hholds]; rfl
      | true =>
        have huncovered : covers Rs r c = false := Bool.eq_false_iff.2 fun hcovers => by
          obtain ⟨S, hS, hS'⟩ := covers_iff.1 hcovers
          exact Rect.not_holds_of_apart (hR S hS) hholds hS'
        rw [hcons, hholds, huncovered]
        rfl
    have hrest := ih (fun S hS => hin S (List.mem_cons_of_mem R hS)) hRs
    rw [hsplit, countPairs_holds hbottom hright] at hrest
    rw [List.map_cons, List.sum_cons, ← hrest]
    ring

/-! ### The data modules of the base matrix (R171) -/

/-- An alignment pattern without the modules it shares with a timing pattern. -/
def offTiming (p : Nat × Nat) : List Rect :=
  if p.1 = 6 then [⟨4, 5, p.2 - 2, p.2 + 2⟩, ⟨7, 8, p.2 - 2, p.2 + 2⟩]
  else if p.2 = 6 then [⟨p.1 - 2, p.1 + 2, 4, 5⟩, ⟨p.1 - 2, p.1 + 2, 7, 8⟩]
  else [alignRect p]

/-- Rectangles that hold each module of the function patterns and reserved regions once. -/
def baseRects (v : Nat) : List Rect :=
  finderRects (dimension v) ++ separatorRects (dimension v) ++ timingRects (dimension v) ++
    (alignCentres v).flatMap offTiming ++ darkRects v ++ formatRects (dimension v) ++ versionRects v

section
variable {v : Nat}

theorem holds_alignRect_iff (hv : v ≤ 40) {p : Nat × Nat} (hp : p ∈ alignCentres v) (r c : Nat) :
    (covers (timingRects (dimension v)) r c = true ∨ (alignRect p).holds r c = true) ↔
      (covers (timingRects (dimension v)) r c = true ∨ covers (offTiming p) r c = true) := by
  obtain ⟨-, -, hrow, hcol, hrowFit, hcolFit⟩ := centresFit_iff.1 (centresFit_of_version v (by omega)) p hp
  unfold offTiming
  split_ifs <;>
    simp only [covers_iff, timingRects, alignRect, List.mem_cons, List.not_mem_nil, or_false, exists_eq_or_imp,
      exists_eq_left, Rect.holds_iff] <;>
    omega

theorem covers_timing_align (hv : v ≤ 40) (r c : Nat) :
    (covers (timingRects (dimension v)) r c || covers (alignRects v) r c) =
      (covers (timingRects (dimension v)) r c || covers ((alignCentres v).flatMap offTiming) r c) := by
  rw [Bool.eq_iff_iff, Bool.or_eq_true, Bool.or_eq_true]
  by_cases htiming : covers (timingRects (dimension v)) r c = true
  · simp [htiming]
  · refine or_congr_right ?_
    rw [alignRects, covers, covers, List.any_map, List.any_flatMap, List.any_eq_true, List.any_eq_true]
    refine exists_congr fun p => and_congr_right fun hp => ?_
    exact (or_iff_right htiming).symm.trans ((holds_alignRect_iff hv hp r c).trans (or_iff_right htiming))

/-- A module of the base matrix is no data module exactly when a rectangle holds it. -/
theorem nonData_baseModule_eq_covers (hv : 1 ≤ v) (hv' : v ≤ 40) (r c : Nat) :
    nonData (baseModule v (alignCentres v) r c) = covers (baseRects v) r c := by
  have hd : 21 ≤ dimension v := by unfold dimension; omega
  rw [nonData_baseModule, isSome_reservedStep hv, isSome_darkStep, isSome_alignStep, isSome_timingStep,
    isSome_separatorStep hd, isSome_finderStep hd]
  have hor : ∀ f s t a o k g w : Bool, (t || a) = (t || o) →
      ((g || w) || (k || (a || (t || (s || f))))) = (f || s || t || o || k || g || w) := by decide
  simp only [baseRects, covers_append]
  exact hor _ _ _ _ _ _ _ _ (covers_timing_align hv' r c)

/-- The rectangles lie in the square and no two share a module. -/
def RectsFit (v : Nat) : Prop := (∀ R ∈ baseRects v, R.bottom < dimension v ∧ R.right < dimension v) ∧
  (baseRects v).Pairwise fun R S => R.apart S = true

theorem countPairs_baseModule (hv : 1 ≤ v) (hv' : v ≤ 40) (hfit : RectsFit v) :
    countPairs (dimension v) (fun r c => !nonData (baseModule v (alignCentres v) r c)) +
      ((baseRects v).map Rect.area).sum = dimension v * dimension v := by
  simp only [nonData_baseModule_eq_covers hv hv']
  exact countPairs_not_covers hfit.1 hfit.2

end

-- Checked before the text goes on, as `stepsApart_of_version` is.
set_option Elab.async false in
/-- The counts R171 lists, each the square less the areas of the function patterns and reserved regions. -/
theorem rectsFit_of_listed : ∀ p ∈ [(1, 208), (2, 359), (3, 567), (7, 1568), (14, 4651), (21, 9252), (40, 29648)],
    RectsFit p.1 ∧ p.2 + ((baseRects p.1).map Rect.area).sum = dimension p.1 * dimension p.1 := by
  unfold RectsFit
  decide +kernel

/-! ### `MX_BASE` (R170) -/

theorem baseModule_eq_findSome (v r c : Nat) :
    baseModule v (alignCentres v) r c = ((baseSteps v r c).reverse.findSome? id).getD 0#3 := by
  have hor : ∀ (o : Option (BitVec 3)) (os : List (Option (BitVec 3))),
      (o :: os).findSome? id = o.or (os.findSome? id) := fun o _ => by cases o <;> rfl
  simp only [baseModule, baseSteps, List.reverse_cons, List.reverse_nil, List.nil_append, List.cons_append, hor,
    List.findSome?_nil, Option.or_none]

theorem countData_grid {s : State} (hwf : s.mem.wf = true) (d : Nat) :
    countData (s.grid d) = countPairs d fun r c => !nonData (s.moduleAt r c) := by
  rw [countData, State.grid, List.map_map, countPairs]
  refine congrArg List.sum (List.map_congr_left fun r _ => ?_)
  rw [Function.comp_apply, moduleRow_eq hwf, List.countP_map]
  rfl

/-- What `MX_BASE` writes before it completes (R170). -/
def State.baseBody (s : State) : State :=
  let v := s.regs.version.toNat
  let t := s.buildBase v
  { t with regs := { t.regs with
      mxVer := s.regs.version, ndata := BitVec.ofNat 15 (countData (t.grid (dimension v))) } }

theorem exec_mxBase {s : State} (hlo : 1 ≤ s.regs.version.toNat) (hhi : s.regs.version.toNat ≤ 40) :
    exec .mxBase s = succeed s.baseBody := if_neg (by omega)

theorem exec_mxBase_eVersion {s : State} (h : ¬(1 ≤ s.regs.version.toNat ∧ s.regs.version.toNat ≤ 40)) :
    exec .mxBase s = .next (s.endedWith .eVersion .none) := if_pos (by omega)

theorem baseBody_mem (s : State) : s.baseBody.mem = (s.buildBase s.regs.version.toNat).mem := rfl

section
variable {s : State} (hwf : s.mem.wf = true)
include hwf

theorem read_buildBase {v r c : Nat} (hr : r < dMax) (hc : c < dMax) :
    (s.buildBase v).mem.read (moduleAddr r c) = if r < dimension v ∧ c < dimension v then
      moduleByte (baseModule v (alignCentres v) r c) else 0#8 := by
  have hc256 := lt_256_of_lt_dMax hc
  rw [State.buildBase, read_mapModules (wf_clearMatrix hwf), moduleAddr_row hc256, moduleAddr_col hc256]
  by_cases hin : r < dimension v ∧ c < dimension v
  · rw [if_pos hin, if_pos]
    unfold moduleAddr
    omega
  · rw [if_neg hin, if_neg (by unfold moduleAddr; omega), read_clearMatrix, if_pos (isModuleAddr_moduleAddr hr hc)]

theorem moduleAt_buildBase {v r c : Nat} (hv : v ≤ 40) (hr : r < dimension v) (hc : c < dimension v) :
    (s.buildBase v).moduleAt r c = baseModule v (alignCentres v) r c := by
  have hd := dimension_le_dMax hv
  rw [State.moduleAt, read_buildBase hwf (hr.trans_le hd) (hc.trans_le hd), if_pos ⟨hr, hc⟩, setWidth_moduleByte]

theorem sameBuffers_buildBase {v : Nat} (hv : v ≤ 40) : SameBuffers s (s.buildBase v) := by
  intro a ha
  rw [State.buildBase, read_mapModules (wf_clearMatrix hwf), if_neg, read_clearMatrix, if_neg (by simp [ha])]
  rintro ⟨hlo, hhi, hcol⟩
  exact Bool.false_ne_true (ha.symm.trans (isModuleAddr_of_square (dimension_le_dMax hv) hlo hhi hcol))

/-- `NDATA` holds the number of data modules, which fits it. -/
theorem ndata_baseBody (hv : s.regs.version.toNat ≤ 40) : s.baseBody.regs.ndata.toNat =
    countPairs (dimension s.regs.version.toNat) fun r c =>
      !nonData ((s.buildBase s.regs.version.toNat).moduleAt r c) := by
  have hle := (countPairs_le (dimension s.regs.version.toNat) fun r c =>
    !nonData ((s.buildBase s.regs.version.toNat).moduleAt r c)).trans
    (Nat.mul_le_mul (dimension_le_dMax hv) (dimension_le_dMax hv))
  have hwfb := wf_buildBase hwf s.regs.version.toNat
  rw [← countData_grid hwfb] at hle ⊢
  exact (BitVec.toNat_ofNat _ _).trans (Nat.mod_eq_of_lt (hle.trans_lt (by decide)))

/-- The data modules of the matrix built and the areas of its rectangles make up the square. -/
theorem ndata_add_area (hv : 1 ≤ s.regs.version.toNat) (hv' : s.regs.version.toNat ≤ 40)
    (hfit : RectsFit s.regs.version.toNat) :
    s.baseBody.regs.ndata.toNat + ((baseRects s.regs.version.toNat).map Rect.area).sum =
      dimension s.regs.version.toNat * dimension s.regs.version.toNat := by
  rw [ndata_baseBody hwf hv', ← countPairs_baseModule hv hv' hfit, countPairs_congr fun r hr c hc => ?_]
  rw [moduleAt_buildBase hwf hv' hr hc]

end

/-- Settles O48: each module of the square is built by `baseModule`, and the rest of the matrix is cleared. -/
theorem mxBaseResult : Obligations.MxBaseResult := by
  rintro s v hwf rfl
  refine ⟨fun ⟨hlo, hhi⟩ => ⟨_, exec_mxBase hlo hhi, rfl, ?_, fun p hp hv => ?_, fun r c hr hc => ?_, ?_⟩,
    exec_mxBase_eVersion⟩
  · exact ndata_baseBody hwf hhi
  · obtain ⟨hfit, harea⟩ := rectsFit_of_listed p hp
    rw [← hv] at hfit harea
    exact Nat.add_right_cancel ((ndata_add_area hwf hlo hhi hfit).trans harea.symm)
  · rw [complete_mem, baseBody_mem, read_buildBase hwf hr hc, baseModule_eq_findSome]
  · exact sameBuffers_buildBase hwf hhi

end Sys2Proof.Machine
end

section
/-! The layout tables (R57-R59, R166, R190, R192, R197): what the codewords are, and what the bus shows of the tables. -/

namespace Sys2Proof.Machine

/-! ### The tables on the bus -/

theorem tableByte_fmt {d k : Nat} (hd : d < 32) (hk : k < 4) :
    tableByte (0x05400 + 4 * d + k) = ((fmtCode d).setWidth 32).extractLsb' (8 * k) 8 := by
  have hrow : (0x05400 + 4 * d + k - 0x05400) / 4 = d := by omega
  have hbyte : (0x05400 + 4 * d + k - 0x05400) % 4 = k := by omega
  rw [tableByte, romByte, if_neg (by omega), if_neg (by omega), if_neg (by omega), if_pos (by omega), hrow, hbyte]
  rfl

theorem tableByte_ver {v k : Nat} (hv : v < 41) (hk : k < 4) :
    tableByte (0x05500 + 4 * v + k) = ((verCode v).setWidth 32).extractLsb' (8 * k) 8 := by
  have hrow : (0x05500 + 4 * v + k - 0x05500) / 4 = v := by omega
  have hbyte : (0x05500 + 4 * v + k - 0x05500) % 4 = k := by omega
  rw [tableByte, romByte, if_neg (by omega), if_neg (by omega), if_neg (by omega), if_neg (by omega),
    if_pos (by omega), hrow, hbyte]
  rfl

theorem tableByte_align {v j : Nat} (hv : v < 40) (hj : j < 8) :
    tableByte (0x05600 + 8 * v + j) = BitVec.ofNat 8 ((alignCoords v).getD j 0) := by
  have hrow : (0x05600 + 8 * v + j - 0x05600) / 8 = v := by omega
  have hindex : (0x05600 + 8 * v + j - 0x05600) % 8 = j := by omega
  rw [tableByte, romByte, if_neg (by omega), if_neg (by omega), if_neg (by omega), if_neg (by omega),
    if_neg (by omega), if_pos (by omega), hrow, hindex]
  rfl

/-! ### The codewords -/

section
-- Checked one after another, as `stepsApart_of_version` is.
set_option Elab.async false

theorem fmtCode_is_codeword : ∀ d < 32, (fmtCode d).toNat / 2 ^ 10 = d ∧
    ∃ q < 32, clProduct 0x537 q 5 = (fmtCode d).toNat := by decide +kernel

theorem verCode_is_codeword : ∀ v < 41, 7 ≤ v → (verCode v).toNat / 2 ^ 12 = v ∧
    ∃ q < 64, clProduct 0x1F25 q 6 = (verCode v).toNat := by decide +kernel

/-- The format words differ pairwise in at least 7 bits (R197). -/
theorem fmtCode_distance : ∀ d < 32, ∀ d' < d,
    7 ≤ hamming ((fmtCode d).setWidth 18) ((fmtCode d').setWidth 18) := by decide +kernel

/-- The version words differ pairwise in at least 8 bits (R197). -/
theorem verCode_distance : ∀ v < 41, 7 ≤ v → ∀ v' < v, 7 ≤ v' → 8 ≤ hamming (verCode v) (verCode v') := by
  decide +kernel

theorem alignCoords_eq_closedForm : ∀ v < 41, 2 ≤ v → alignCoords v = alignClosedForm v := by decide +kernel

end

theorem alignCoords_of_lt_two {v : Nat} (hv : v < 2) : alignCoords v = [] := by
  interval_cases v <;> rfl

/-- Settles O59: the tables are evaluated word by word; on the bus each address is split into its word and byte. -/
theorem layoutTables : Obligations.LayoutTables := by
  refine ⟨fmtCode_is_codeword, verCode_is_codeword, fmtCode_distance, verCode_distance, rfl,
    alignCoords_eq_closedForm, fun _ hd _ hk => tableByte_fmt hd hk, fun v hv k hk => ?_, fun v hv j hj => ?_⟩
  · rw [tableByte_ver hv hk]
    split
    · next h7 => rw [verCode, if_pos h7]; simp
    · rfl
  · rw [tableByte_align hv hj]
    split
    · next h2 => rw [alignCoords_of_lt_two h2]; rfl
    · next h2 => rw [alignCoords_eq_closedForm v (by omega) (by omega)]

end Sys2Proof.Machine
end

section
/-! The transform (R201-R203): the quotient of R202 is the nearest integer, a tie going away from zero, and `XF_MAP`
writes it where it fits. -/

namespace Sys2Proof.Machine

/-! ### The quotient of R202 -/

@[simp] theorem rha_neg (x w : Int) : rha (-x) w = -rha x w := by
  simp [rha, Int.sign_neg]

theorem rha_of_nonneg {x w : Int} (hx : 0 ≤ x) (hw : 0 < w) : rha x w = (2 * x + w) / (2 * w) := by
  obtain rfl | hpos := hx.eq_or_lt
  · simp [rha, Int.ediv_eq_zero_of_lt hw.le (show w < 2 * w by omega)]
  · rw [rha, Int.sign_eq_one_of_pos hpos, one_mul, Int.natAbs_of_nonneg hx]

theorem RoundedAway.neg {x w p : Int} (h : RoundedAway x w p) : RoundedAway (-x) w (-p) := by
  rwa [RoundedAway, neg_mul, ← neg_sub', Int.natAbs_neg, Int.natAbs_neg, Int.natAbs_neg]

/-- With `r` the remainder of `2x + w` by `2w`, twice the distance from `x` to the multiple of `w` is `r - w`:
it is within `w`, and a tie is `r = 0`, where the multiple lies beyond `x`. -/
theorem roundedAway_ediv {x w : Int} (hx : 0 ≤ x) (hw : 0 < w) : RoundedAway x w ((2 * x + w) / (2 * w)) := by
  have hdiv := Int.mul_ediv_add_emod (2 * x + w) (2 * w)
  have hlo := Int.emod_nonneg (2 * x + w) (show 2 * w ≠ 0 by omega)
  have hhi := Int.emod_lt_of_pos (2 * x + w) (show 0 < 2 * w by omega)
  rw [mul_assoc, mul_comm w] at hdiv
  constructor <;> omega

theorem roundedAway_rha (x : Int) {w : Int} (hw : 0 < w) : RoundedAway x w (rha x w) := by
  have hnonneg {x : Int} (hx : 0 ≤ x) : RoundedAway x w (rha x w) := by
    rw [rha_of_nonneg hx hw]
    exact roundedAway_ediv hx hw
  obtain hx | hx := le_total 0 x
  · exact hnonneg hx
  · simpa using (hnonneg (neg_nonneg.2 hx)).neg

/-! ### The command -/

theorem fitsPixel_iff {p : Int} : fitsPixel p = true ↔ -(2 ^ 31) ≤ p ∧ p < 2 ^ 31 := by
  rw [fitsPixel, Bool.and_eq_true, decide_eq_true_iff, decide_eq_true_iff, Int.le_sub_one_iff]

theorem toInt_ofInt_of_fitsPixel {p : Int} (hp : fitsPixel p = true) : (BitVec.ofInt 32 p).toInt = p :=
  have ⟨hlo, hhi⟩ := fitsPixel_iff.1 hp
  BitVec.toInt_ofInt_eq_self (by decide) hlo hhi

section
variable {s : State}

theorem exec_xfMap_of_nonpos (hw : s.xfW ≤ 0) : exec .xfMap s = .next (s.endedWith .eXform .none) := by
  rw [exec, execXfMap, if_pos hw]
  rfl

theorem exec_xfMap_of_unfit (hw : 0 < s.xfW)
    (hfit : ¬(fitsPixel (rha s.xfX s.xfW) = true ∧ fitsPixel (rha s.xfY s.xfW) = true)) :
    exec .xfMap s = .next (s.endedWith .eXform .none) := by
  rw [exec, execXfMap, if_neg hw.not_ge]
  exact if_pos (by simpa [imp_iff_not_or] using hfit)

theorem exec_xfMap_of_fits (hw : 0 < s.xfW) (hx : fitsPixel (rha s.xfX s.xfW) = true)
    (hy : fitsPixel (rha s.xfY s.xfW) = true) :
    exec .xfMap s = succeed { s with regs := { s.regs with
      xfPx := BitVec.ofInt 32 (rha s.xfX s.xfW), xfPy := BitVec.ofInt 32 (rha s.xfY s.xfW) } } := by
  rw [exec, execXfMap, if_neg hw.not_ge]
  exact if_neg (by simp [hx, hy])

end

/-- Settles O60: the quotients are those of `rha`, and the command ends by whether both fit. -/
theorem xfMapRoundsToNearest : Obligations.XfMapRoundsToNearest := by
  rintro s _ _ _ rfl rfl rfl
  refine ⟨fun hw => ⟨rha s.xfX s.xfW, rha s.xfY s.xfW, roundedAway_rha _ hw, roundedAway_rha _ hw, ?_, ?_⟩,
    exec_xfMap_of_nonpos⟩
  · rintro ⟨hxlo, hxhi, hyrange⟩
    have hx := fitsPixel_iff.2 ⟨hxlo, hxhi⟩
    have hy := fitsPixel_iff.2 hyrange
    exact ⟨_, exec_xfMap_of_fits hw hx hy, rfl, rfl, toInt_ofInt_of_fitsPixel hx, toInt_ofInt_of_fitsPixel hy⟩
  · intro hfit
    exact exec_xfMap_of_unfit hw (by rwa [fitsPixel_iff, fitsPixel_iff, and_assoc])

end Sys2Proof.Machine
end

section
/-! How commands end (60_exceptions.md): a failed precondition ends a command before its first write, and no command
reads or writes `IE` or the turns. From both, the interrupt output and the race of a soft reset with a command. -/

namespace Sys2Proof.Machine

/-! ### Another `IE` and other turns

Commands read and write neither, so a run with other values in them is the same run beside them. -/

/-- The state with another `IE` and other turns. -/
def State.setIeTurns (s : State) (ie : Bool) (turns : List Turn) : State :=
  { s with regs := { s.regs with ie := ie }, turns := turns }

section
variable (s : State) (ie : Bool) (turns : List Turn)

theorem paint_setIeTurns (ps : List ((Nat × Nat) × Bool)) :
    (s.setIeTurns ie turns).paint ps = (s.paint ps).setIeTurns ie turns := by
  induction ps generalizing s with
  | nil => rfl
  | cons p ps ih => exact ih (s.setColor p.1.1 p.1.2 p.2)

theorem correct_setIeTurns (n : Nat) (is : List Nat) (ys : List Byte) :
    (s.setIeTurns ie turns).correct n is ys = (s.correct n is ys).setIeTurns ie turns := by
  induction is generalizing s ys with
  | nil => rfl
  | cons i is ih =>
    cases ys with
    | nil => rfl
    | cons y ys =>
      exact ih { s with mem := s.mem.update (Buffer.bufA.base + (n - 1 - i)) 1 (fun _ old => old ^^^ y) } ys

theorem forneyBody_setIeTurns :
    (s.setIeTurns ie turns).forneyBody = s.forneyBody.map (·.setIeTurns ie turns) := by
  have hvalues : forneyValues (s.setIeTurns ie turns).sigmaOp
      ((s.setIeTurns ie turns).bufBytes .omega (s.setIeTurns ie turns).ecc) (s.setIeTurns ie turns).errorPositions =
      forneyValues s.sigmaOp (s.bufBytes .omega s.ecc) s.errorPositions := rfl
  rw [State.forneyBody, State.forneyBody, hvalues]
  cases forneyValues s.sigmaOp (s.bufBytes .omega s.ecc) s.errorPositions with
  | none => rfl
  | some ys =>
    have hcorrect := correct_setIeTurns s ie turns s.la s.errorPositions ys
    exact congrArg (fun t : State => some { t with regs := { t.regs with nerr := s.regs.nroots } }) hcorrect

end

/-! ### How a command ends -/

/-- A command that ends with this code has written nothing before it completes (R213). -/
def EndsBeforeWriting (i : Instr) (c : ErrCode) : Prop :=
  c.precondition = true ∨ (i = .rsForney ∧ c = .eUncorr)

/-- A command run from `s` ends with `r`, by a completion, which has had no write before it where R213 says so; and
from `s` with another `IE` and other turns it ends with `r'`, the same but for these. -/
def EndsBeside (ie : Bool) (turns : List Turn) (i : Instr) (s : State) (r r' : Result) : Prop :=
  ∃ t c u, r = .next (t.complete c u) ∧ (EndsBeforeWriting i c → t = s) ∧
    r' = .next ((t.setIeTurns ie turns).complete c u)

section
variable {ie : Bool} {turns : List Turn} {i : Instr} {s t t' : State}

theorem endsBeside_succeed (ht : t' = t.setIeTurns ie turns) :
    EndsBeside ie turns i s (succeed t) (succeed t') := by
  subst ht
  refine ⟨t, .ok, .none, rfl, ?_, rfl⟩
  rintro (hcode | ⟨-, hcode⟩) <;> exact nomatch hcode

/-- A command other than `RS_FORNEY` may have written before it ends with `EUNCORR` (R214). -/
theorem endsBeside_raiseUncorr (hi : i = .rsForney → t = s) (u : UncReason) :
    EndsBeside ie turns i s (raiseUncorr t u) (raiseUncorr (t.setIeTurns ie turns) u) := by
  refine ⟨t, .eUncorr, u, rfl, ?_, rfl⟩
  rintro (hcode | ⟨hforney, -⟩)
  · exact nomatch hcode
  · exact hi hforney

theorem endsBeside_raise (c : ErrCode) :
    EndsBeside ie turns i s (raise s c) (raise (s.setIeTurns ie turns) c) :=
  ⟨s, c, .none, rfl, fun _ => rfl, rfl⟩

theorem endsBeside_ite {p : Prop} [Decidable p] {a a' b b' : Result} (ha : EndsBeside ie turns i s a a')
    (hb : EndsBeside ie turns i s b b') :
    EndsBeside ie turns i s (if p then a else b) (if p then a' else b') := by
  split
  · exact ha
  · exact hb

/-- A check made before the first write. -/
theorem endsBeside_guard {p : Prop} [Decidable p] {c : ErrCode} {b b' : Result}
    (hb : EndsBeside ie turns i s b b') :
    EndsBeside ie turns i s (if p then raise s c else b)
      (if p then raise (s.setIeTurns ie turns) c else b') :=
  endsBeside_ite (endsBeside_raise c) hb

theorem endsBeside_forneyEnd (hi : i = .rsForney → t = s) :
    EndsBeside ie turns i s t.forneyEnd (t.setIeTurns ie turns).forneyEnd := by
  rw [State.forneyEnd, State.forneyEnd, forneyBody_setIeTurns]
  cases t.forneyBody with
  | none => exact endsBeside_raiseUncorr hi .derivative
  | some u => exact endsBeside_succeed rfl

end

/-! ### The commands -/

section
variable (ie : Bool) (turns : List Turn) (s : State)

theorem exec_endsBeside (i : Instr) :
    EndsBeside ie turns i s (exec i s) (exec i (s.setIeTurns ie turns)) := by
  cases i with
  | nop | gfMul => exact endsBeside_succeed rfl
  | gfDiv | polyMul | mxBase | mxPenalty | mxSelect | mxExtract =>
    exact endsBeside_guard (endsBeside_succeed rfl)
  | polyDiv | rsEncode | rsSyndrome | mxMask | xfMap =>
    exact endsBeside_guard (endsBeside_guard (endsBeside_succeed rfl))
  | rsBm =>
    exact endsBeside_guard (endsBeside_ite (endsBeside_raiseUncorr (by nofun) .degree) (endsBeside_succeed rfl))
  | rsChien =>
    exact endsBeside_guard (endsBeside_ite (endsBeside_raiseUncorr (by nofun) .rootCount) (endsBeside_succeed rfl))
  | rsForney =>
    exact endsBeside_guard (endsBeside_guard (endsBeside_guard (endsBeside_forneyEnd fun _ => rfl)))
  | rsDecode =>
    exact endsBeside_guard (endsBeside_guard (endsBeside_ite (endsBeside_succeed rfl)
      (endsBeside_ite (endsBeside_raiseUncorr (by nofun) .degree)
        (endsBeside_ite (endsBeside_raiseUncorr (by nofun) .rootCount) (endsBeside_forneyEnd (by nofun))))))
  | mxPlace => exact endsBeside_guard (endsBeside_guard (endsBeside_succeed (paint_setIeTurns s ie turns _)))
  | mxStamp =>
    exact endsBeside_guard (endsBeside_succeed (congrArg (fun t : State =>
      { t with regs := { t.regs with fmtWord := formatWord s.regs.ecLevel s.regs.mask } })
      (paint_setIeTurns s ie turns _)))

end

/-- Settles O25: by `exec_endsBeside` such a command completes in the state it started from. -/
theorem preconditionFailuresWriteNothing : Obligations.PreconditionFailuresWriteNothing := by
  intro i s t hexec hcode
  obtain ⟨t₀, c, u, hends, hwrites, -⟩ := exec_endsBeside s.regs.ie s.turns s i
  obtain rfl := Host.Outcome.next.inj (hexec.symm.trans hends)
  obtain rfl := hwrites hcode
  rfl

/-! ### `DONE`, `IE` and the turns over a command -/

section
variable {i : Instr} {s t : State} (hexec : exec i s = .next t)
include hexec

theorem exec_regs_done : t.regs.done = true := by
  obtain ⟨t₀, c, u, hends, -, -⟩ := exec_endsBeside s.regs.ie s.turns s i
  obtain rfl := Host.Outcome.next.inj (hexec.symm.trans hends)
  rfl

/-- A command keeps `IE`: it ends as it does from the state with its own `IE` put back. -/
theorem exec_regs_ie : t.regs.ie = s.regs.ie := by
  obtain ⟨t₀, c, u, -, -, hbeside⟩ := exec_endsBeside s.regs.ie s.turns s i
  obtain rfl := Host.Outcome.next.inj (hexec.symm.trans hbeside)
  rfl

theorem exec_setTurns (turns : List Turn) : exec i { s with turns := turns } = .next { t with turns := turns } := by
  obtain ⟨t₀, c, u, hends, -, hbeside⟩ := exec_endsBeside s.regs.ie turns s i
  obtain rfl := Host.Outcome.next.inj (hexec.symm.trans hends)
  have hie : t₀.regs.ie = s.regs.ie :=
    (complete_regs_ie t₀ c u).symm.trans (exec_regs_ie hends)
  calc exec i { s with turns := turns }
      = .next ((t₀.setIeTurns s.regs.ie turns).complete c u) := hbeside
    _ = .next ((t₀.setIeTurns t₀.regs.ie turns).complete c u) := by rw [hie]

theorem exec_irq : t.irq = s.regs.ie := by
  rw [State.irq, exec_regs_done hexec, exec_regs_ie hexec, Bool.true_and]

end

/-! ### The interrupt output (R220) -/

/-- Settles O23: completion by `exec_irq`, the writes to `CTRL`, `STATUS` and `CMD` by what each does to `DONE` and
`IE`. -/
theorem interruptOutput : Obligations.InterruptOutput := by
  refine ⟨fun _ => rfl, fun _ _ _ => exec_irq, fun s v hv => ?_, fun s v hv => ?_, fun s w hidle => ?_,
    fun _ _ => ⟨rfl, rfl⟩⟩
  · obtain ⟨-, hstore, -⟩ := controlWriteResetsOrStores s v
    rw [hstore hv, State.irq]
  · obtain ⟨-, hclear⟩ := statusFieldsAndClearing s
    rw [hclear v, State.irq, if_pos hv, Bool.false_and]
  · obtain ⟨haccept, -⟩ := commandWordAcceptance
    rw [haccept s w hidle, State.irq, Bool.false_and]

/-! ### The race with a soft reset (R222, R243) -/

/-- Performing a word ends in a next state with only registers, RAM and `pending` changed (R107, R109). -/
theorem perform_eq_next (w : Word) (s : State) :
    ∃ g m, perform w s = .next { s with regs := g, pending := none, mem := m } := by
  obtain ⟨i, hdecode, hperform⟩ | ⟨_, -, hperform⟩ := perform_cases w s
  · obtain ⟨t, hexec, -, -, -, ht⟩ := everyCommandCompletes i s (decode_eq_ok_iff.1 hdecode).1
    exact ⟨t.regs, t.mem, by rw [hperform, hexec, ← ht]⟩
  · exact ⟨_, _, hperform⟩

theorem perform_setTurns {w : Word} {s t : State} (h : perform w s = .next t) (turns : List Turn) :
    perform w { s with turns := turns } = .next { t with turns := turns } := by
  unfold perform at h ⊢
  cases hdecode : decode w with
  | ok i =>
    rw [hdecode] at h
    exact exec_setTurns h turns
  | error e =>
    rw [hdecode] at h
    obtain rfl := Host.Outcome.next.inj h
    rfl

/-- The host at a write to `CTRL` with bit 31 set resets the block, idle or busy, and goes on. -/
theorem hostTurn_of_srst {s : State} {v : Word} (hstmt : s.script[s.pos]? = some (.write .w32 0x00004#18 v))
    (hv : v.getLsbD 31 = true) :
    s.hostTurn = { s with pending := none, regs := Regs.reset, pos := s.pos + 1 } := by
  obtain ⟨hreset, -⟩ := controlWriteResetsOrStores s v
  obtain ⟨hwrite, -⟩ := hreset hv
  rw [State.hostTurn, hstmt]
  simp only [hwrite]

theorem step_of_srst {s : State} {v : Word} {rest : List Turn} (hturns : s.turns = .host :: rest)
    (hstmt : s.script[s.pos]? = some (.write .w32 0x00004#18 v)) (hv : v.getLsbD 31 = true) :
    step s = .next { s with pending := none, regs := Regs.reset, pos := s.pos + 1, turns := rest } := by
  have hhost := hostTurn_of_srst (s := { s with turns := rest }) hstmt hv
  unfold step
  rw [hturns]
  exact congrArg Host.Outcome.next hhost

/-- Settles O15: engine first, the command's registers are lost to the reset and its RAM stays; host first, the reset
leaves the engine nothing pending. -/
theorem softResetRace : Obligations.SoftResetRace := by
  intro s w v rest hpending hv hstmt
  constructor
  · obtain ⟨g, m, hperform⟩ := perform_eq_next w s
    have hengine : step { s with turns := .engine :: .host :: rest } = .next _ :=
      calc step { s with turns := .engine :: .host :: rest }
        _ = engineTurn { s with turns := .host :: rest } := step_of_engine_turn rfl
        _ = perform w { s with turns := .host :: rest } := engineTurn_some hpending
        _ = .next _ := perform_setTurns hperform (.host :: rest)
    exact ⟨_, _, hperform, hengine, step_of_srst rfl hstmt hv⟩
  · exact ⟨_, _, step_of_srst rfl hstmt hv, (step_of_engine_turn rfl).trans (engineTurn_none rfl), rfl⟩

end Sys2Proof.Machine
end
